-- ==== Sys2Proof/Word.lean ====
section
/-! DEFINITION. The word types of the core and the plain data every layer shares: the bytes of the source stream,
the answers of the source port, and the shape of an internal store. -/

namespace Sys2Proof

/-- One byte of the source stream, of a store or of a response (20_memory.md R89). -/
abbrev Byte := BitVec 8

/-- A 32-bit register: the bit accumulator, the CRCs, the counters, a status word. -/
abbrev Word := BitVec 32

/-- An internal store of `w`-bit entries (10_state.md, 20_memory.md R80): pairs of index and value in one canonical
form, indices strictly rising, no entry listed that holds 0, the value an unlisted index reads as (log 7). -/
abbrev Store (w : Nat) := List (Nat × BitVec w)

/-- One answer of the source port to `SrcRead()` (48_host_interface.md R450): a byte, or EOF. -/
inductive SrcAnswer where
  | byte (b : Byte)
  | eof
  deriving DecidableEq, Repr

end Sys2Proof
end

