-- ==== Sys2Proof/Machine/BitReader.lean ====
section
/-! DEFINITION. The bit reader (40_bit_reader.md): its three registers, the answers the source has still to give, and
its operations ReadBits, ReadByte and ReadInt32. Every other unit reaches the stream through these only (R206). -/

namespace Sys2Proof

/-- BS_BUFF, BS_LIVE, BYTES_IN (10_state.md R26, R28) and, on the source port's other side, the answers to the
`SrcRead()` calls still to come (48_host_interface.md R450; log 4). -/
structure BitReader where
  buff    : Word
  live    : BitVec 5
  bytesIn : Word
  src     : List SrcAnswer
  deriving DecidableEq, Repr

/-- How a read ends: with a value; with TruncatedStream, because the source answered EOF (R200), at the reader state it
leaves; or not yet, because the source has not answered (70_reset_and_hazards.md R561). -/
inductive Rd (α : Type) where
  | got (a : α) (r : BitReader)
  | eof (r : BitReader)
  | wait
  deriving DecidableEq, Repr

/-- Go on with the value read. -/
def Rd.andThen {α β : Type} (x : Rd α) (k : α → BitReader → Rd β) : Rd β :=
  match x with
  | .got a r => k a r
  | .eof r => .eof r
  | .wait => .wait

/-- The loop of R200: take source bytes while fewer than `n` valid bits are held. -/
def fillBits (n : Nat) : List SrcAnswer → Word → BitVec 5 → Word → Rd Unit
  | [], buff, live, cnt => if n ≤ live.toNat then .got () ⟨buff, live, cnt, []⟩ else .wait
  | a :: src, buff, live, cnt =>
    if n ≤ live.toNat then .got () ⟨buff, live, cnt, a :: src⟩
    else match a with
      | .eof => .eof ⟨buff, live, cnt, src⟩
      | .byte b => fillBits n src ((buff <<< 8) ||| b.setWidth 32) (live + 8) (cnt + 1)

/-- `ReadBits(n)` (R200), for `n` from 1 to 24. -/
def readBits (n : Nat) (r : BitReader) : Rd (BitVec n) :=
  (fillBits n r.src r.buff r.live r.bytesIn).andThen fun _ r =>
    .got ((r.buff >>> (r.live.toNat - n)).setWidth n) { r with live := BitVec.ofNat 5 (r.live.toNat - n) }

/-- `ReadByte()` (R202). -/
def readByte (r : BitReader) : Rd Byte := readBits 8 r

/-- `ReadInt32()` (R203): two 16-bit reads, the first supplying bits 31..16. -/
def readInt32 (r : BitReader) : Rd Word :=
  (readBits 16 r).andThen fun hi r => (readBits 16 r).andThen fun lo r => .got (hi ++ lo) r

/-- `k` calls of `ReadBits(1)`, the first supplying the highest bit: how 42_tables.md R250 and R251 read a word. -/
def readOneByOne {w : Nat} : Nat → BitVec w → BitReader → Rd (BitVec w)
  | 0, acc, r => .got acc r
  | k + 1, acc, r => (readBits 1 r).andThen fun b r => readOneByOne k ((acc <<< 1) ||| b.setWidth w) r

/-- What up to `k` calls of `ReadBits(1)` return before one of them ends in EOF or is still waiting. -/
def readableBits : Nat → BitReader → List (BitVec 1)
  | 0, _ => []
  | k + 1, r =>
    match readBits 1 r with
    | .got b r => b :: readableBits k r
    | .eof _ | .wait => []

/-- The reader as OPEN and reset leave it, over a given source (R205). -/
def BitReader.start (src : List SrcAnswer) : BitReader := { buff := 0, live := 0, bytesIn := 0, src := src }

/-- The `n` bits of `v` in stream order, most significant first (20_memory.md R82). -/
def bitsMsb (n v : Nat) : List Bool := (List.range n).map fun k => v.testBit (n - 1 - k)

/-- The bytes the source will still supply before it answers EOF (or stops answering). -/
def srcBytes : List SrcAnswer → List Byte
  | .byte b :: src => b :: srcBytes src
  | _ => []

/-- The stream bits still to be consumed: the valid bits of BS_BUFF (10_state.md R26), then the source's bytes. -/
def BitReader.bits (r : BitReader) : List Bool :=
  bitsMsb r.live.toNat r.buff.toNat ++ (srcBytes r.src).flatMap fun b => bitsMsb 8 b.toNat

end Sys2Proof
end

