-- ==== Sys2Proof/Machine/Store.lean ====
section
/-! DEFINITION. Reading and writing an internal store (20_memory.md R85, R89, R90): one element at a time, in the
canonical form of `Store`. Which indices a store admits is checked where it is used (Machine/Ops.lean, R86). -/

namespace Sys2Proof

/-- Entry `i`; an index not listed reads 0 (log 7). -/
def Store.look {w : Nat} : Store w → Nat → BitVec w
  | [], _ => 0
  | (a, v) :: m, i => if i < a then 0 else if i = a then v else Store.look m i

/-- `A[i] <- v`, keeping the canonical form. -/
def Store.put {w : Nat} : Store w → Nat → BitVec w → Store w
  | [], i, v => if v = 0 then [] else [(i, v)]
  | (a, u) :: m, i, v =>
    if i < a then (if v = 0 then (a, u) :: m else (i, v) :: (a, u) :: m)
    else if i = a then (if v = 0 then m else (i, v) :: m)
    else (a, u) :: Store.put m i v

/-- A sequence of writes, in order. -/
def Store.putAll {w : Nat} (m : Store w) (l : List (Nat × BitVec w)) : Store w :=
  l.foldl (fun m p => m.put p.1 p.2) m

/-- Indices strictly rising, no listed entry holding 0. -/
def Store.wf {w : Nat} : Store w → Bool
  | [] => true
  | [(_, v)] => v != 0
  | (a, v) :: (b, u) :: m => v != 0 && decide (a < b) && Store.wf ((b, u) :: m)

/-- The indices `a` to `b`, both included: `for i in a..b` (00_scope.md R12). -/
def upTo (a b : Nat) : List Nat := List.range' a (b + 1 - a)

end Sys2Proof
end

