-- ==== Sys2Proof/Syntax.lean ====
section
/-! DEFINITION. The instruction set: one constructor per row of spec/opcode_table.json. The core's "program" is the
compressed stream (30_encoding.md), so most rows are elements of that stream; two are positions of the decoded block
(R126) and four are host commands (R130). -/

namespace Sys2Proof

/-- An instruction, with the operands its encoding carries. -/
inductive Instr where
  /-- SIG: the signature `BZ` (41_stream_block_header.md R220). -/
  | sig
  /-- HDR: `h` and the digit byte `d` (R221). -/
  | hdr (d : Byte)
  /-- OTHER_TRAILER: any other pair of trailer bytes (R221). -/
  | otherTrailer (h d : Byte)
  /-- BLOCK_MAGIC: 0x314159265359 (R225). -/
  | blockMagic
  /-- EOS_MAGIC: 0x177245385090 (R223). -/
  | eosMagic
  /-- BLOCK_CRC: the stored block CRC (R226). -/
  | blockCrc (c : Word)
  /-- STREAM_CRC: the stored combined CRC (R224). -/
  | streamCrc (c : Word)
  /-- RAND_BIT: the randomized flag (R227). -/
  | randBit (r : BitVec 1)
  /-- ORIG_PTR: the origin pointer (R228). -/
  | origPtr (p : BitVec 24)
  /-- INUSE16: bit `15 - i` says byte values `16 i` to `16 i + 15` have an inner word (42_tables.md R250). -/
  | inuse16 (u : BitVec 16)
  /-- INUSE_INNER: bit `15 - j` says byte value `16 i + j` is in use (R251). -/
  | inuseInner (b : BitVec 16)
  /-- NGROUPS: the group count (R254). -/
  | nGroups (n : BitVec 3)
  /-- NSELECTORS: the selector count (R255). -/
  | nSelectors (n : BitVec 15)
  /-- SELECTOR_MTF: a selector rank, the count of 1 bits read (R256). -/
  | selectorMtf (j : BitVec 3)
  /-- LEN_START: the start length of a group (R258). -/
  | lenStart (s : BitVec 5)
  /-- LEN_INC: current length + 1 (R259). -/
  | lenInc
  /-- LEN_DEC: current length - 1 (R259). -/
  | lenDec
  /-- LEN_END: the current length is this symbol's length (R259). -/
  | lenEnd
  /-- SYM_RUNA: run digit 1 (44_symbol_decoder.md R323). -/
  | symRuna
  /-- SYM_RUNB: run digit 2 (R323). -/
  | symRunb
  /-- SYM_MTFV: the byte at MTF position `v - 1` (R326). -/
  | symMtfv (v : BitVec 9)
  /-- SYM_EOB: end of block (R322). -/
  | symEob
  /-- RLE2_LITERAL: an output byte (46_output_fsm.md R384). -/
  | rle2Literal (b : Byte)
  /-- RLE2_COUNT: the number of further copies after four equal literals (R385). -/
  | rle2Count (k : Byte)
  /-- OPEN, with its NC bit (48_host_interface.md R453). -/
  | openCmd (nc : BitVec 1)
  /-- NEXT (R454). -/
  | nextCmd
  /-- CLOSE (R455). -/
  | closeCmd
  /-- CMD_RESERVED: fields OP, NC and the reserved bits 7:3 of a reserved command word (R456). -/
  | cmdReserved (o : BitVec 2) (n : BitVec 1) (r : BitVec 5)
  deriving DecidableEq, Repr

end Sys2Proof
end

