-- ==== Sys2Proof/WellFormed.lean ====
section
/-! DEFINITION. Which instructions are well formed: the operand values the encoding tables admit (opcode_table.json,
30_encoding.md R121 to R130). An ill-formed instruction is one the table gives no row for (a pair of trailer bytes that
is the other row's) or one R129 lists as an encoding without a decoded meaning. The decoder yields some of the latter
(a group count of 7), and their meaning is the fault R129 names. -/

namespace Sys2Proof

/-- A digit `1` to `9` (R121). -/
def isMultiplierDigit (d : Byte) : Bool := 0x31#8 ≤ d && d ≤ 0x39#8

/-- OP = 0, or a reserved bit set, or NC set on a command other than OPEN (R130, R456). -/
def isReservedCommand (o : BitVec 2) (n : BitVec 1) (r : BitVec 5) : Bool := o == 0 || r != 0 || (n == 1 && o != 1)

/-- The operand ranges of the opcode table. -/
def Instr.wf : Instr → Bool
  | .hdr d => isMultiplierDigit d
  | .otherTrailer h d => !(h == 0x68#8 && isMultiplierDigit d)
  | .nGroups n => 1 ≤ n.toNat && n.toNat ≤ Config.maxGroups
  | .nSelectors n => n != 0
  | .selectorMtf j => j.toNat < Config.maxGroups
  | .lenStart s => 1 ≤ s.toNat && s.toNat ≤ Config.maxCodeLenAccepted
  | .symMtfv v => 2 ≤ v.toNat && v.toNat ≤ 256
  | .cmdReserved o n r => isReservedCommand o n r
  | .sig | .blockMagic | .eosMagic | .blockCrc _ | .streamCrc _ | .randBit _ | .origPtr _ | .inuse16 _
  | .inuseInner _ | .lenInc | .lenDec | .lenEnd | .symRuna | .symRunb | .symEob | .rle2Literal _ | .rle2Count _
  | .openCmd _ | .nextCmd | .closeCmd => true

end Sys2Proof
end

