-- ==== Sys2Proof/Decode.lean ====
section
/-! DEFINITION. Decoding: from the bits at the reader's position to an instruction, and the encoder that goes the other
way. No element carries a prefix (30_encoding.md R128): what the next bits mean is fixed by the place in the grammar
(R120), so the decoder takes that place, `Ctx`, as an argument. It is total: on any reader it gives an instruction, a
rejection by name, TruncatedStream, or "not yet". -/

namespace Sys2Proof

/-- The decode table of one group, as DecodeSymbol reads it (43_huffman.md R297): row `t` of LIMIT, BASE and PERM, with
MIN_LEN[t], MAX_LEN[t] and ALPHA_SIZE, in a block of `groups` groups. -/
structure CodeTable where
  t      : Nat
  groups : Nat
  minLen : Nat
  maxLen : Nat
  alpha  : Nat
  limit  : Store 32
  base   : Store 32
  perm   : Store 9
  deriving DecidableEq, Repr

/-- Row-by-row key of LEN[t][s] and PERM[t][s] (10_state.md R34, R35; log 7). -/
def symbolKey (t s : Nat) : Nat := t * Config.maxAlpha + s

/-- Row-by-row key of LIMIT[t][l] and BASE[t][l] (R35; log 7). -/
def lengthKey (t l : Nat) : Nat := t * Config.maxCodeLen + l

/-- LIMIT[t][l]. -/
def CodeTable.limitAt (T : CodeTable) (l : Nat) : Nat := (T.limit.look (lengthKey T.t l)).toNat
/-- BASE[t][l]. -/
def CodeTable.baseAt (T : CodeTable) (l : Nat) : Nat := (T.base.look (lengthKey T.t l)).toNat
/-- PERM[t][k]. -/
def CodeTable.permAt (T : CodeTable) (k : Nat) : Nat := (T.perm.look (symbolKey T.t k)).toNat

/-- The table's lengths lie in the ranges of 20_memory.md R85: a group below N_GROUPS, of which the stores hold MAX_GROUPS,
an alphabet within MAX_ALPHA, lengths 1 to 20. -/
def CodeTable.inRange (T : CodeTable) : Bool :=
  decide (T.t < min T.groups Config.maxGroups) && decide (T.alpha ≤ Config.maxAlpha) && decide (1 ≤ T.minLen)
    && decide (T.minLen ≤ T.maxLen) && decide (T.maxLen ≤ Config.maxCodeLenAccepted)

/-- What the grammar expects next (30_encoding.md R120, R122, R123, R126, R130). -/
inductive Ctx where
  | command
  | signature (legacyAnd : Bool)
  | trailer
  | blockStart
  | streamCrc
  | blockCrc
  | randBit
  | origPtr
  | inuse16
  | inuseInner
  | nGroups
  | nSelectors
  | selector (nGroups : Nat)
  | lenStart
  | lenDelta
  | symbol (T : CodeTable) (eob : Nat)
  | chainLiteral
  | chainCount
  deriving DecidableEq, Repr

/-- Why bits are rejected. -/
inductive Reject where
  /-- the two signature bytes fail the test of 41_stream_block_header.md R220: the core's InvalidSignature -/
  | badSignature
  /-- a 48-bit block start that is neither magic (R225): the core's CorruptBlockHeader -/
  | badMagic
  /-- Huffman bits that match no code up to MAX_LEN (43_huffman.md R298): the core's CorruptBlockData 5 -/
  | noCode
  /-- the table itself would send an index outside 20_memory.md R85's range: a model fault (R86), no core behaviour -/
  | tableIndex
  deriving DecidableEq, Repr

/-- What decoding gives: an instruction and the reader past its bits; a rejection by name, at the reader past the bits
it took; TruncatedStream (R200); or nothing yet (the source has not answered). -/
inductive Decoded where
  | instr (i : Instr) (r : BitReader)
  | reject (why : Reject) (r : BitReader)
  | truncated (r : BitReader)
  | wait
  deriving DecidableEq, Repr

/-- Turn a read into a decoding. -/
def Rd.decoded {α : Type} (x : Rd α) (k : α → BitReader → Decoded) : Decoded :=
  match x with
  | .got a r => k a r
  | .eof r => .truncated r
  | .wait => .wait

/-- The signature test of R220: OR by default, AND under LEGACY_SIGNATURE_AND. -/
def badSignature (legacyAnd : Bool) (b0 b1 : Byte) : Bool :=
  if legacyAnd then b0 != 0x42#8 && b1 != 0x5A#8 else b0 != 0x42#8 || b1 != 0x5A#8

/-- The two trailer bytes (R121, R221). -/
def decodeTrailer (h d : Byte) : Instr :=
  if h == 0x68#8 && isMultiplierDigit d then .hdr d else .otherTrailer h d

/-- A command word (R130): a reserved word is CMD_RESERVED, whatever its OP. -/
def decodeCommand (w : Byte) : Instr :=
  let o := w.extractLsb' 0 2
  let n := w.extractLsb' 2 1
  let r := w.extractLsb' 3 5
  if isReservedCommand o n r then .cmdReserved o n r
  else if o = 1 then .openCmd n
  else if o = 2 then .nextCmd
  else .closeCmd

/-- Six ReadByte calls, the first byte highest (41_stream_block_header.md R222). -/
def readMagic (r : BitReader) : Rd (BitVec 48) :=
  (readByte r).andThen fun b0 r => (readByte r).andThen fun b1 r => (readByte r).andThen fun b2 r =>
  (readByte r).andThen fun b3 r => (readByte r).andThen fun b4 r => (readByte r).andThen fun b5 r =>
    .got (b0 ++ b1 ++ b2 ++ b3 ++ b4 ++ b5) r

/-- The 48-bit block magic (R122). -/
abbrev blockMagicWord : BitVec 48 := 0x314159265359#48
/-- The 48-bit end sentinel (R123). -/
abbrev eosMagicWord : BitVec 48 := 0x177245385090#48

/-- The sentinel is tested first, then the block magic (R223, R225). -/
def decodeMagic (m : BitVec 48) (r : BitReader) : Decoded :=
  if m = eosMagicWord then .instr .eosMagic r
  else if m = blockMagicWord then .instr .blockMagic r
  else .reject .badMagic r

/-- The unary rank loop of 42_tables.md R256: `j` 1 bits so far. It ends at a 0 bit, or as soon as the count reaches
N_GROUPS, without reading further (decision D13); execSelectorMtf tells the two apart. -/
def readRank (nGroups : Nat) : Nat → Nat → BitReader → Rd Nat
  | 0, j, r => .got j r
  | fuel + 1, j, r => (readBits 1 r).andThen fun b r =>
      if b = 0 then .got j r
      else if nGroups ≤ j + 1 then .got (j + 1) r
      else readRank nGroups fuel (j + 1) r

/-- The flag bit and, after a 1, the direction bit (R259). -/
def decodeDelta (r : BitReader) : Decoded :=
  (readBits 1 r).decoded fun flag r =>
    if flag = 0 then .instr .lenEnd r
    else (readBits 1 r).decoded fun dir r => .instr (if dir = 0 then .lenInc else .lenDec) r

/-- Symbol value to element (30_encoding.md R125), in the order 44_symbol_decoder.md R321 tests it. -/
def classifySymbol (eob v : Nat) : Instr :=
  if v = eob then .symEob else if v = 0 then .symRuna else if v = 1 then .symRunb else .symMtfv (BitVec.ofNat 9 v)

/-- The end of R297: `PERM[t][v - BASE[t][n]]`, whose index must lie in 0 .. ALPHA_SIZE-1 (R295). -/
def finishSymbol (T : CodeTable) (eob n v : Nat) (r : BitReader) : Decoded :=
  if T.baseAt n ≤ v ∧ v - T.baseAt n < T.alpha then .instr (classifySymbol eob (T.permAt (v - T.baseAt n))) r
  else .reject .tableIndex r

/-- The loop of R297, with `fuel` = MAX_LEN - n bits still allowed (R298). -/
def decodeSymbolFrom (T : CodeTable) (eob : Nat) : (fuel n v : Nat) → BitReader → Decoded
  | 0, n, v, r => if T.limitAt n < v then .reject .noCode r else finishSymbol T eob n v r
  | fuel + 1, n, v, r =>
    if T.limitAt n < v then
      (readBits 1 r).decoded fun b r => decodeSymbolFrom T eob fuel (n + 1) (2 * v + b.toNat) r
    else finishSymbol T eob n v r

/-- `DecodeSymbol()` after the group selection of R296: read MIN_LEN bits, then one more at a time (R297). -/
def decodeSymbol (T : CodeTable) (eob : Nat) (r : BitReader) : Decoded :=
  if T.inRange then
    (readBits T.minLen r).decoded fun v r => decodeSymbolFrom T eob (T.maxLen - T.minLen) T.minLen v.toNat r
  else .reject .tableIndex r

/-- The decoder. The operation each element is read with is 40_bit_reader.md R204's. -/
def decode (c : Ctx) (r : BitReader) : Decoded :=
  match c with
  | .command => (readByte r).decoded fun w r => .instr (decodeCommand w) r
  | .signature legacyAnd => (readByte r).decoded fun b0 r => (readByte r).decoded fun b1 r =>
      if badSignature legacyAnd b0 b1 then .reject .badSignature r else .instr .sig r
  | .trailer => (readByte r).decoded fun h r => (readByte r).decoded fun d r => .instr (decodeTrailer h d) r
  | .blockStart => (readMagic r).decoded decodeMagic
  | .streamCrc => (readInt32 r).decoded fun c r => .instr (.streamCrc c) r
  | .blockCrc => (readInt32 r).decoded fun c r => .instr (.blockCrc c) r
  | .randBit => (readBits 1 r).decoded fun b r => .instr (.randBit b) r
  | .origPtr => (readBits 24 r).decoded fun p r => .instr (.origPtr p) r
  | .inuse16 => (readOneByOne 16 (0 : BitVec 16) r).decoded fun u r => .instr (.inuse16 u) r
  | .inuseInner => (readOneByOne 16 (0 : BitVec 16) r).decoded fun u r => .instr (.inuseInner u) r
  | .nGroups => (readBits 3 r).decoded fun n r => .instr (.nGroups n) r
  | .nSelectors => (readBits 15 r).decoded fun n r => .instr (.nSelectors n) r
  | .selector nGroups => (readRank nGroups (nGroups + 1) 0 r).decoded fun j r => .instr (.selectorMtf (BitVec.ofNat 3 j)) r
  | .lenStart => (readBits 5 r).decoded fun s r => .instr (.lenStart s) r
  | .lenDelta => decodeDelta r
  | .symbol T eob => decodeSymbol T eob r
  | .chainLiteral => (readByte r).decoded fun b r => .instr (.rle2Literal b) r
  | .chainCount => (readByte r).decoded fun b r => .instr (.rle2Count b) r

/-! ### The encoder -/

/-- The canonical code of symbol `v` in table `T` (43_huffman.md R295): with `k` the symbol's place in PERM, the first
length `l` whose LIMIT reaches `BASE[l] + k`, and that number in `l` bits. None if the table codes no such symbol. -/
def symbolCode (T : CodeTable) (v : Nat) : Option (List Bool) :=
  match (List.range T.alpha).find? (fun k => T.permAt k = v) with
  | none => none
  | some k =>
    match (upTo T.minLen T.maxLen).find? (fun l => T.baseAt l + k ≤ T.limitAt l) with
    | none => none
    | some l => some (bitsMsb l (T.baseAt l + k))

/-- The symbol value an element of the symbol part stands for (R125). -/
def Instr.symbolValue (eob : Nat) : Instr → Option Nat
  | .symRuna => some 0
  | .symRunb => some 1
  | .symMtfv v => some v.toNat
  | .symEob => some eob
  | _ => none

/-- The table and EOB value a place in the grammar reads symbols with. -/
def Ctx.codeOf : Ctx → Instr → List Bool
  | .symbol T eob, i => ((i.symbolValue eob).bind (symbolCode T)).getD []
  | _, _ => []

/-- The bits of an instruction, in stream order (30_encoding.md R121 to R126, R130). Only a symbol's bits depend on the
place in the grammar. -/
def encode (c : Ctx) (i : Instr) : List Bool :=
  match i with
  | .sig => bitsMsb 16 0x425A
  | .hdr d => bitsMsb 8 0x68 ++ bitsMsb 8 d.toNat
  | .otherTrailer h d => bitsMsb 8 h.toNat ++ bitsMsb 8 d.toNat
  | .blockMagic => bitsMsb 48 0x314159265359
  | .eosMagic => bitsMsb 48 0x177245385090
  | .blockCrc c => bitsMsb 32 c.toNat
  | .streamCrc c => bitsMsb 32 c.toNat
  | .randBit b => bitsMsb 1 b.toNat
  | .origPtr p => bitsMsb 24 p.toNat
  | .inuse16 u => bitsMsb 16 u.toNat
  | .inuseInner b => bitsMsb 16 b.toNat
  | .nGroups n => bitsMsb 3 n.toNat
  | .nSelectors n => bitsMsb 15 n.toNat
  | .selectorMtf j => List.replicate j.toNat true ++ [false]
  | .lenStart s => bitsMsb 5 s.toNat
  | .lenInc => [true, false]
  | .lenDec => [true, true]
  | .lenEnd => [false]
  | .symRuna => c.codeOf .symRuna
  | .symRunb => c.codeOf .symRunb
  | .symMtfv v => c.codeOf (.symMtfv v)
  | .symEob => c.codeOf .symEob
  | .rle2Literal b => bitsMsb 8 b.toNat
  | .rle2Count k => bitsMsb 8 k.toNat
  | .openCmd nc => bitsMsb 8 (nc ++ 1#2).toNat
  | .nextCmd => bitsMsb 8 2
  | .closeCmd => bitsMsb 8 3
  | .cmdReserved o n r => bitsMsb 8 (r ++ n ++ o).toNat

/-- Whether instruction `i` may stand at place `c` of the grammar (R120). A rank is below the block's group count and a
symbol is one the table codes. -/
def Ctx.admits (c : Ctx) (i : Instr) : Bool :=
  match i with
  | .sig => match c with | .signature _ => true | _ => false
  | .hdr _ => match c with | .trailer => true | _ => false
  | .otherTrailer _ _ => match c with | .trailer => true | _ => false
  | .blockMagic => match c with | .blockStart => true | _ => false
  | .eosMagic => match c with | .blockStart => true | _ => false
  | .blockCrc _ => match c with | .blockCrc => true | _ => false
  | .streamCrc _ => match c with | .streamCrc => true | _ => false
  | .randBit _ => match c with | .randBit => true | _ => false
  | .origPtr _ => match c with | .origPtr => true | _ => false
  | .inuse16 _ => match c with | .inuse16 => true | _ => false
  | .inuseInner _ => match c with | .inuseInner => true | _ => false
  | .nGroups _ => match c with | .nGroups => true | _ => false
  | .nSelectors _ => match c with | .nSelectors => true | _ => false
  | .selectorMtf j => match c with | .selector n => decide (j.toNat < n) | _ => false
  | .lenStart _ => match c with | .lenStart => true | _ => false
  | .lenInc => match c with | .lenDelta => true | _ => false
  | .lenDec => match c with | .lenDelta => true | _ => false
  | .lenEnd => match c with | .lenDelta => true | _ => false
  | .symRuna => match c with | .symbol T eob => (symbolCode T 0).isSome && decide (eob ≠ 0) | _ => false
  | .symRunb => match c with | .symbol T eob => (symbolCode T 1).isSome && decide (eob ≠ 1) | _ => false
  | .symMtfv v => match c with
    | .symbol T eob => (symbolCode T v.toNat).isSome && decide (2 ≤ v.toNat) && decide (eob ≠ v.toNat)
    | _ => false
  | .symEob => match c with | .symbol T eob => (symbolCode T eob).isSome | _ => false
  | .rle2Literal _ => match c with | .chainLiteral => true | _ => false
  | .rle2Count _ => match c with | .chainCount => true | _ => false
  | .openCmd _ => match c with | .command => true | _ => false
  | .nextCmd => match c with | .command => true | _ => false
  | .closeCmd => match c with | .command => true | _ => false
  | .cmdReserved _ _ _ => match c with | .command => true | _ => false

/-! ### Words as the opcode table numbers them -/

/-- The bytes of an `nbits`-bit word in stream order, most significant bit first, zero bits up to the byte boundary. -/
def wordBytes (nbits w : Nat) : List Byte :=
  let k := (nbits + 7) / 8
  (List.range k).map fun m => BitVec.ofNat 8 ((w <<< (8 * k - nbits)) >>> (8 * (k - 1 - m)))

/-- A reader whose next bits are the word's. -/
def wordReader (nbits w : Nat) : BitReader := BitReader.start ((wordBytes nbits w).map .byte)

/-- The instruction a decoding gives, if it gives one and leaves `k` bits unread. -/
def Decoded.instrLeaving (k : Nat) : Decoded → Option Instr
  | .instr i r => if r.bits.length = k then some i else none
  | _ => none

/-- The places of the grammar a word of `nbits` bits is tried at. Several rows of the table share a width and only their
place in the stream tells them apart (R128): the list names the places of the rows with fixed bits first (log 18). -/
def wordContexts (nbits : Nat) : List Ctx :=
  match nbits with
  | 1 => [.lenDelta, .randBit]
  | 2 => [.lenDelta]
  | 3 => [.nGroups]
  | 5 => [.lenStart]
  | 8 => [.command]
  | 15 => [.nSelectors]
  | 16 => [.signature false, .trailer]
  | 24 => [.origPtr]
  | 32 => [.blockCrc]
  | 48 => [.blockStart]
  | _ => []

/-- The first of those places at which the decoder gives an instruction of exactly `nbits` bits, and the instruction. -/
def decodeWordAt (nbits w : Nat) : Option (Ctx × Instr) :=
  (wordContexts nbits).findSome? fun c =>
    ((decode c (wordReader nbits w)).instrLeaving (8 * ((nbits + 7) / 8) - nbits)).map fun i => (c, i)

/-- The instruction the decoder reads from a word of the opcode table (log 18). -/
def decodeTableWord (nbits w : Nat) : Option Instr := (decodeWordAt nbits w).map Prod.snd

end Sys2Proof
end

