-- ==== Sys2Proof/Machine/State.lean ====
section
/-! DEFINITION. The state of the machine (10_state.md), grouped by unit as R20 groups it, with what the model itself
adds: the place inside the outstanding command's pseudocode (`Work`, log 2), the ports with the environment's inputs
(log 3, log 4, log 6), and the parameter the run is made with (log 9). All of it is plain data. -/

namespace Sys2Proof.Machine

/-- ST, the output state machine's state (10_state.md R21). Codes 10 to 15 are never written by any rule. -/
inductive St where
  | idle
  | startBlock
  | randPartA
  | randPartB
  | randPartC
  | noRandPartA
  | noRandPartB
  | noRandPartC
  | finished
  | fault
  deriving DecidableEq, Repr

/-- The rules' control position: the element of the grammar (30_encoding.md R120) the outstanding command reads next, or
`output` when its next act is an iteration of the driver `Run()` (46_output_fsm.md R389). `ready`: no command is
outstanding (48_host_interface.md R451). Log 2. -/
inductive Phase where
  | ready
  | signature
  | trailer
  | output
  | streamCrc
  | blockCrc
  | randBit
  | origPtr
  | inuse16
  | inuseInner
  | nGroups
  | nSelectors
  | selector
  | lenStart
  | lenDelta
  | symbols
  deriving DecidableEq, Repr

/-- The internal stores (00_scope.md R10), as a model fault names them. -/
inductive StoreName where
  | ll8
  | tt
  | freq
  | mtf
  | seqToUnseq
  | unseqToSeq
  | inUse
  | selector
  | selPos
  | len
  | limit
  | base
  | perm
  | minLen
  | maxLen
  | cftab
  deriving DecidableEq, Repr

/-- What the host or the platform may do (70_reset_and_hazards.md R564, R552). -/
inductive HostAction where
  /-- present a command word (48_host_interface.md R451) -/
  | command (w : Byte)
  /-- read status word `a` (R459) -/
  | statusRead (a : BitVec 4)
  /-- attach a source that will give these answers (R552) -/
  | attach (answers : List SrcAnswer)
  /-- assert reset (R550) -/
  | reset
  deriving DecidableEq, Repr

/-- When it does it: once no command is outstanding, as the host's duties ask (R560), or at once, whatever the core is
doing (log 3). -/
inductive HostEvent where
  | whenReady (a : HostAction)
  | atOnce (a : HostAction)
  deriving DecidableEq, Repr

/-- What the core puts out (00_scope.md R16): a response word (30_encoding.md R131), a pulse of the close strobe
(48_host_interface.md R470), a status word (R459). -/
inductive OutEvent where
  | response (w : BitVec 16)
  | closeStrobe
  | statusData (w : Word)
  deriving DecidableEq, Repr

/-- Control state (R21 to R25). -/
structure Control where
  st            : St
  faultCode     : BitVec 4
  faultDetail   : BitVec 4
  noClose       : Bool
  srcClosed     : Bool
  blockSize100k : BitVec 4
  deriving DecidableEq, Repr

/-- The diagnostic counters but BYTES_IN, which the bit reader holds (R28). -/
structure Counters where
  bytesOut   : Word
  blockIndex : Word
  deriving DecidableEq, Repr

/-- Block parameters and the stored combined CRC (R29, R30). -/
structure BlockParams where
  storedBlockCrc    : Word
  randomised        : Bool
  origPtr           : BitVec 24
  storedCombinedCrc : Word
  deriving DecidableEq, Repr

/-- The symbol alphabet map (R31). -/
structure AlphabetMap where
  inUse16    : Store 1
  inUse      : Store 1
  seqToUnseq : Store 8
  unseqToSeq : Store 8
  nInUse     : BitVec 9
  deriving DecidableEq, Repr

/-- Selector state (R33). -/
structure Selectors where
  nGroups    : BitVec 3
  nSelectors : BitVec 15
  selector   : Store 3
  selPos     : Store 3
  deriving DecidableEq, Repr

/-- Code lengths and decode tables (R34, R35). LEN and PERM are keyed by `symbolKey`, LIMIT and BASE by `lengthKey`. -/
structure HuffTables where
  len    : Store 5
  minLen : Store 5
  maxLen : Store 5
  limit  : Store 32
  base   : Store 32
  perm   : Store 9
  deriving DecidableEq, Repr

/-- The symbol decoder (R36 to R40). -/
structure SymbolDecoder where
  mtf       : Store 8
  freq      : Store 20
  nblock    : BitVec 20
  runLen    : BitVec 21
  runWeight : BitVec 21
  groupNo   : BitVec 16
  groupPos  : BitVec 6
  deriving DecidableEq, Repr

/-- The inverse BWT buffers (R41, R42). -/
structure BwtBuffers where
  cftab : Store 20
  ll8   : Store 8
  tt    : Store 20
  deriving DecidableEq, Repr

/-- The output stage's cursor and the derandomizer (R43, R44). -/
structure OutputCursor where
  tPos     : BitVec 20
  consumed : BitVec 20
  chCur    : BitVec 9
  chPrev   : BitVec 9
  runCount : BitVec 3
  repCount : BitVec 8
  repDone  : BitVec 8
  rNtogo   : BitVec 10
  rTpos    : BitVec 9
  deriving DecidableEq, Repr

/-- The CRC registers (R45). -/
structure CrcRegs where
  blockCrc         : Word
  computedBlockCrc : Word
  combinedCrc      : Word
  deriving DecidableEq, Repr

/-- The MODEL's own: where the rules stand inside the outstanding command (log 2). `rangeIdx`, `selIdx`, `lenGroup`,
`lenSym` and `curr` are the loop variables `i`, `i`, `t`, `s` and the working value `curr` of 42_tables.md R251, R256,
R258 and R259; `inRun` says that control is inside `Run(s)` of 44_symbol_decoder.md R323. -/
structure Work where
  phase    : Phase
  rangeIdx : BitVec 4
  selIdx   : BitVec 15
  lenGroup : BitVec 3
  lenSym   : BitVec 9
  curr     : BitVec 5
  inRun    : Bool
  deriving DecidableEq, Repr

/-- The whole machine. -/
structure State where
  ctl       : Control
  rd        : BitReader
  cnt       : Counters
  blk       : BlockParams
  map       : AlphabetMap
  sel       : Selectors
  tab       : HuffTables
  sym       : SymbolDecoder
  bwt       : BwtBuffers
  cur       : OutputCursor
  crc       : CrcRegs
  /-- the MODEL's own: the place inside the outstanding command (log 2) -/
  work      : Work
  /-- the MODEL's own: what the host does next, first event first (log 3) -/
  host      : List HostEvent
  /-- the MODEL's own: what the core has put out, newest first (log 6) -/
  out       : List OutEvent
  /-- not state of the core (10_state.md R20): the parameter LEGACY_SIGNATURE_AND of 00_scope.md R7 (log 9) -/
  legacyAnd : Bool
  deriving DecidableEq, Repr

/-- Why the model stops with a fault. These are 60_exceptions.md R525's model faults, distinct from every code of R501:
conditions the rules say cannot happen. The core's own faults are next states with ST = FAULT (R520). -/
inductive Fault where
  /-- An index outside 20_memory.md R85's range was produced (R86). Raised by the meanings and the fetch that index the
  store. Safe: the model stops where the rules say no value exists. -/
  | indexOutOfRange (store : StoreName)
  /-- A command is at the driver `Run()` in a state of ST that is none of START_BLOCK and the PART states (46_output_fsm.md
  R389). Raised by the fetch. Safe: no rule leads there. -/
  | controlState
  deriving DecidableEq, Repr

/-- Why the model refuses a run. -/
inductive Refusal where
  /-- An instruction without a meaning yet. Raised by exec's arms. Safe: nothing is claimed of it. -/
  | notModelled (mnemonic : String)
  /-- A command presented while one is outstanding (48_host_interface.md R458, 20_memory.md R98: "a model refuses any run").
  Raised by the four commands. Safe: the spec does not define the core's behaviour there. -/
  | commandOutstanding
  /-- A status read while a command is outstanding (70_reset_and_hazards.md R560). Raised by the fetch. Safe. -/
  | statusReadOutstanding
  /-- A source replaced while a stream is open (R560). Raised by the fetch. Safe. -/
  | sourceReplaced
  deriving DecidableEq, Repr

/-- The machine right after reset (10_state.md R50, 70_reset_and_hazards.md R550). The stores, whose contents R50 leaves
unspecified, list nothing (log 7); no command is outstanding; no source is attached and the host has nothing to say. -/
def State.reset : State where
  ctl := { st := .idle, faultCode := 0, faultDetail := 0, noClose := false, srcClosed := true, blockSize100k := 0 }
  rd := BitReader.start []
  cnt := { bytesOut := 0, blockIndex := 0 }
  blk := { storedBlockCrc := 0, randomised := false, origPtr := 0, storedCombinedCrc := 0 }
  map := { inUse16 := [], inUse := [], seqToUnseq := [], unseqToSeq := [], nInUse := 0 }
  sel := { nGroups := 0, nSelectors := 0, selector := [], selPos := [] }
  tab := { len := [], minLen := [], maxLen := [], limit := [], base := [], perm := [] }
  sym := { mtf := [], freq := [], nblock := 0, runLen := 0, runWeight := 0, groupNo := -1, groupPos := 0 }
  bwt := { cftab := [], ll8 := [], tt := [] }
  cur := { tPos := 0, consumed := 0, chCur := 256, chPrev := 256, runCount := 0, repCount := 0, repDone := 0,
           rNtogo := 0, rTpos := 0 }
  crc := { blockCrc := 0xFFFFFFFF, computedBlockCrc := 0, combinedCrc := 0 }
  work := { phase := .ready, rangeIdx := 0, selIdx := 0, lenGroup := 0, lenSym := 0, curr := 0, inRun := false }
  host := []
  out := []
  legacyAnd := false

end Sys2Proof.Machine
end

