-- ==== Sys2Proof/Machine/Ops.lean ====
section
/-! DEFINITION. The operations the meanings share: bounded store access (20_memory.md R86), the end of a command by a
response (48_host_interface.md R452) or by a fault (60_exceptions.md R520) and the return from one, the close strobe
(R470), the status words (R459), reset (70_reset_and_hazards.md R550). -/

namespace Sys2Proof.Machine

/-- The outcome of an instruction. -/
abbrev Result := Host.Outcome State Fault Refusal

/-- A computation that either gives a state or stops with a model fault. -/
def Result.ofExcept (x : Except Fault State) : Result :=
  match x with
  | .ok s => .next s
  | .error f => .fault f

/-- Stop with a model fault unless index `i` lies below `bound` (R86). -/
def inRange (n : StoreName) (bound i : Nat) : Except Fault Unit :=
  if i < bound then .ok () else .error (.indexOutOfRange n)

/-- `A[i]`, for an index below `bound`. -/
def loadAt {w : Nat} (n : StoreName) (bound : Nat) (m : Store w) (i : Nat) : Except Fault (BitVec w) :=
  if i < bound then .ok (m.look i) else .error (.indexOutOfRange n)

/-- `A[i] <- v`, for an index below `bound`. -/
def storeAt {w : Nat} (n : StoreName) (bound : Nat) (m : Store w) (i : Nat) (v : BitVec w) : Except Fault (Store w) :=
  if i < bound then .ok (m.put i v) else .error (.indexOutOfRange n)

/-! ### Values that are not registers -/

/-- CAPACITY (10_state.md R25). -/
def State.capacity (s : State) : Nat := s.ctl.blockSize100k.toNat * Config.baseBlock

/-- ALPHA_SIZE (R32). -/
def State.alphaSize (s : State) : Nat := s.map.nInUse.toNat + 2

/-- EOB (R32). -/
def State.eob (s : State) : Nat := s.map.nInUse.toNat + 1

/-- POS, the stream bits consumed since OPEN, for a stream of less than 2^32 bytes (R27). -/
def State.pos (s : State) : Nat := 8 * s.rd.bytesIn.toNat - s.rd.live.toNat

/-- ST's code (R21). -/
def St.code : St → BitVec 4
  | .idle => 0
  | .startBlock => 1
  | .randPartA => 2
  | .randPartB => 3
  | .randPartC => 4
  | .noRandPartA => 5
  | .noRandPartB => 6
  | .noRandPartC => 7
  | .finished => 8
  | .fault => 9

/-! ### The place inside the command -/

/-- Go on at another place of the grammar. -/
def State.goto (p : Phase) (s : State) : State := { s with work := { s.work with phase := p } }

/-- `ST <- st`. -/
def State.setSt (st : St) (s : State) : State := { s with ctl := { s.ctl with st := st } }

/-- Put an event on the core's output ports. -/
def State.emit (e : OutEvent) (s : State) : State := { s with out := e :: s.out }

/-! ### Responses -/

/-- The response word of 30_encoding.md R131. -/
def responseWord (status : BitVec 3) (data : Byte) : BitVec 16 := (0#5 ++ status) ++ data

/-- STATUS value BYTE (48_host_interface.md R452). -/
abbrev statusByte : BitVec 3 := 0
/-- STATUS value EOS (R452). -/
abbrev statusEos : BitVec 3 := 1
/-- STATUS value FAULT (R452). -/
abbrev statusFault : BitVec 3 := 2
/-- STATUS value OPENED (R452). -/
abbrev statusOpened : BitVec 3 := 3
/-- STATUS value CLOSED (R452). -/
abbrev statusClosed : BitVec 3 := 4
/-- STATUS value REFUSED (R452). -/
abbrev statusRefused : BitVec 3 := 5

/-- `respond(status, data)`: one response word, and the command is no longer outstanding (R451, R452). -/
def State.respond (status : BitVec 3) (data : Byte) (s : State) : State :=
  (s.goto .ready).emit (.response (responseWord status data))

/-- `respond(BYTE, b)`, which counts (R454). -/
def State.respondByte (b : Byte) (s : State) : State :=
  { s with cnt := { s.cnt with bytesOut := s.cnt.bytesOut + 1 } }.respond statusByte b

/-! ### Taking a fault, and leaving one -/

/-- The fault conditions of 60_exceptions.md R501. -/
inductive CoreFault where
  | invalidSignature
  | corruptBlockHeader
  | crcMismatchBlock
  | crcMismatchStream
  | blockOverrunLiteral
  | blockOverrunRun
  | truncatedStream
  | groupCount
  | selectorCount
  | selectorRank
  | codeLength
  | noCode
  | selectorsExhausted
  | emptyMap
  | originPointer
  | missingCount
  deriving DecidableEq, Repr

/-- FAULT_CODE of a condition (R501). -/
def CoreFault.code : CoreFault → BitVec 4
  | .invalidSignature => 1
  | .corruptBlockHeader => 2
  | .crcMismatchBlock | .crcMismatchStream => 3
  | .blockOverrunLiteral | .blockOverrunRun => 4
  | .truncatedStream => 5
  | .groupCount | .selectorCount | .selectorRank | .codeLength | .noCode | .selectorsExhausted | .emptyMap
  | .originPointer | .missingCount => 6

/-- FAULT_DETAIL of a condition (R501). -/
def CoreFault.detail : CoreFault → BitVec 4
  | .invalidSignature | .corruptBlockHeader | .crcMismatchBlock | .blockOverrunLiteral | .truncatedStream
  | .groupCount => 1
  | .crcMismatchStream | .blockOverrunRun | .selectorCount => 2
  | .selectorRank => 3
  | .codeLength => 4
  | .noCode => 5
  | .selectorsExhausted => 6
  | .emptyMap => 7
  | .originPointer => 8
  | .missingCount => 9

/-- `raise Fault(kind, detail)` (R520): record, ST = FAULT, respond, and nothing else. -/
def State.raise (f : CoreFault) (s : State) : State :=
  { s with ctl := { s.ctl with faultCode := f.code, faultDetail := f.detail, st := .fault } }.respond statusFault
    (f.detail ++ f.code)

/-- What leaves FAULT (R521, R522): FAULT_CODE and FAULT_DETAIL cleared. There is no resumption. -/
def State.clearFault (s : State) : State := { s with ctl := { s.ctl with faultCode := 0, faultDetail := 0 } }

/-! ### The source port -/

/-- `SrcClose()` (R470): the strobe at most once, and never for the distinguished standard input. The source, once
released, is no longer on the port (log 16). -/
def State.srcClose (s : State) : State :=
  if s.ctl.srcClosed then s
  else
    let t := if s.ctl.noClose then s else s.emit .closeStrobe
    { t with ctl := { t.ctl with srcClosed := true }, rd := { t.rd with src := [] } }

/-! ### Status words and reset -/

/-- The read-only status registers (R459). -/
def State.statusWord (s : State) (a : BitVec 4) : Word :=
  match a.toNat with
  | 0x0 => (0#20 ++ s.ctl.blockSize100k) ++
      (0#1 ++ BitVec.ofBool s.ctl.noClose ++ BitVec.ofBool s.ctl.srcClosed ++ BitVec.ofBool s.blk.randomised) ++ s.ctl.st.code
  | 0x1 => (0#24 ++ s.ctl.faultDetail) ++ s.ctl.faultCode
  | 0x2 => s.cnt.blockIndex
  | 0x3 => s.rd.bytesIn
  | 0x4 => s.blk.storedBlockCrc
  | 0x5 => s.crc.blockCrc
  | 0x6 => s.blk.storedCombinedCrc
  | 0x7 => s.crc.combinedCrc
  | 0x8 => 0#12 ++ s.sym.nblock
  | 0x9 => 0#8 ++ s.blk.origPtr
  | 0xA => (0#1 ++ s.sel.nSelectors) ++ (0#1 ++ s.sel.nGroups) ++ (0#3 ++ s.map.nInUse)
  | 0xB => s.cnt.bytesOut
  | _ => 0

/-- Reset (R550): every register takes its reset value and an outstanding command is cancelled without a response. What
is not the core's stays: the host's events still to come, what the ports have put out, the parameter. A source the core
owned is abandoned without a strobe and never read again (93_implementation_defined.md I14; log 15). -/
def State.afterReset (s : State) : State :=
  { State.reset with
    rd := BitReader.start (if s.ctl.srcClosed then s.rd.src else [])
    host := s.host
    out := s.out
    legacyAnd := s.legacyAnd }

/-! ### Commands -/

/-- A command runs only while no other is outstanding; a run in which one is presented earlier is refused (R458). -/
def ifReady (s : State) (r : Result) : Result :=
  if s.work.phase = .ready then r else .refused .commandOutstanding

/-! ### The canonical form of the stores -/

/-- Every store of the state is in canonical form. -/
def Memory.wf (s : State) : Bool :=
  s.map.inUse16.wf && s.map.inUse.wf && s.map.seqToUnseq.wf && s.map.unseqToSeq.wf && s.sel.selector.wf && s.sel.selPos.wf
    && s.tab.len.wf && s.tab.minLen.wf && s.tab.maxLen.wf && s.tab.limit.wf && s.tab.base.wf && s.tab.perm.wf
    && s.sym.mtf.wf && s.sym.freq.wf && s.bwt.cftab.wf && s.bwt.ll8.wf && s.bwt.tt.wf

end Sys2Proof.Machine
end

