-- ==== Sys2Proof/Machine/Flags.lean ====
section
/-! DEFINITION. The core has no condition codes (10_state.md R46). What other machines compute as flags are here the
checks the rules make before they raise a fault, and the CRC folded over every output byte (47_crc.md). -/

namespace Sys2Proof.Machine

/-- `CheckLength(curr)` fails (42_tables.md R260). -/
def badLength (curr : BitVec 5) : Bool := decide (curr.toNat < 1) || decide (Config.maxCodeLenAccepted < curr.toNat)

/-- The group count is 0 or 7 (R254). -/
def badGroupCount (n : BitVec 3) : Bool := decide (n.toNat < 1) || decide (Config.maxGroups < n.toNat)

/-- `RunOverrunCheck()` fails: the run would pass the block's capacity (44_symbol_decoder.md R325). -/
def State.runOverrun (s : State) : Bool := decide (s.capacity < s.sym.nblock.toNat + s.sym.runLen.toNat)

/-- `LiteralOverrunCheck()` fails: the block is full (R327). -/
def State.literalOverrun (s : State) : Bool := decide (s.capacity ≤ s.sym.nblock.toNat)

/-- `OrigPtrCheck()` fails: the pointer is no position of the block (R329). -/
def State.badOrigPtr (s : State) : Bool := decide (s.sym.nblock.toNat ≤ s.blk.origPtr.toNat)

/-- One step of CRC_TABLE's loop (47_crc.md R430). -/
def crcShift (c : Word) : Word := if c.getLsbD 31 then (c <<< 1) ^^^ Config.crcPoly else c <<< 1

/-- `k` such steps. -/
def crcShifts : Nat → Word → Word
  | 0, c => c
  | k + 1, c => crcShifts k (crcShift c)

/-- CRC_TABLE[i] (R430). -/
def crcTable (i : Byte) : Word := crcShifts 8 (i.setWidth 32 <<< 24)

/-- The value `CrcUpdate(b)` gives BLOCK_CRC (R430). -/
def crcStep (c : Word) (b : Byte) : Word := (c <<< 8) ^^^ crcTable (((c >>> 24).setWidth 8) ^^^ b)

/-- `CrcUpdate(b)` (R430). -/
def State.crcUpdate (b : Byte) (s : State) : State :=
  { s with crc := { s.crc with blockCrc := crcStep s.crc.blockCrc b } }

/-- `~x`, the final form of a block CRC (R432). -/
def crcFinal (c : Word) : Word := c ^^^ Config.crcXorOut

/-- The combined CRC after a block (R434): `rotl32(COMBINED_CRC, 1) ^ blockCRC`. -/
def combineCrc (combined block : Word) : Word := ((combined <<< 1) ||| (combined >>> 31)) ^^^ block

end Sys2Proof.Machine
end

