-- ==== Sys2Proof/Machine/Operands.lean ====
section
/-! DEFINITION. Operand assembly (30_encoding.md R127): the values the meanings take from an element's fields and from the
registers. Every field is an unsigned number zero-extended to its register, but for the forms named here. -/

namespace Sys2Proof.Machine

/-- The multiplier: the trailer digit minus 0x30 (41_stream_block_header.md R221). -/
def multiplierOf (d : Byte) : BitVec 4 := (d - 0x30#8).setWidth 4

/-- Bit `k` of a 16-bit map word, the first bit of the stream being bit 0 of the map (42_tables.md R250, R251). -/
def mapBit (u : BitVec 16) (k : Nat) : BitVec 1 := BitVec.ofBool (u.getLsbD (15 - k))

/-- LEN[t][s] (10_state.md R34). -/
def State.lenAt (s : State) (t v : Nat) : Nat := (s.tab.len.look (symbolKey t v)).toNat

/-- The decode table of group `t` as DecodeSymbol reads it (43_huffman.md R297). -/
def State.codeTable (s : State) (t : Nat) : CodeTable where
  t := t
  groups := s.sel.nGroups.toNat
  minLen := (s.tab.minLen.look t).toNat
  maxLen := (s.tab.maxLen.look t).toNat
  alpha := s.alphaSize
  limit := s.tab.limit
  base := s.tab.base
  perm := s.tab.perm

/-- The byte a run repeats: the one at MTF position 0 (44_symbol_decoder.md R324). -/
def State.runByte (s : State) : Byte := s.map.seqToUnseq.look (s.sym.mtf.look 0).toNat

/-- The PART_A form of the current block (46_output_fsm.md, its preamble; log 14). -/
def State.partA (s : State) : St := if s.blk.randomised then .randPartA else .noRandPartA
/-- The PART_B form. -/
def State.partB (s : State) : St := if s.blk.randomised then .randPartB else .noRandPartB
/-- The PART_C form. -/
def State.partC (s : State) : St := if s.blk.randomised then .randPartC else .noRandPartC

/-- What the grammar expects at a place where an element of the stream is read (30_encoding.md R120). The driver's place
stands for a block start (46_output_fsm.md R388); `ready` and `symbols` are the fetch's own. -/
def State.ctxAt (s : State) : Phase → Option Ctx
  | .signature => some (.signature s.legacyAnd)
  | .trailer => some .trailer
  | .output => some .blockStart
  | .streamCrc => some .streamCrc
  | .blockCrc => some .blockCrc
  | .randBit => some .randBit
  | .origPtr => some .origPtr
  | .inuse16 => some .inuse16
  | .inuseInner => some .inuseInner
  | .nGroups => some .nGroups
  | .nSelectors => some .nSelectors
  | .selector => some (.selector s.sel.nGroups.toNat)
  | .lenStart => some .lenStart
  | .lenDelta => some .lenDelta
  | .ready | .symbols => none

end Sys2Proof.Machine
end

