-- ==== Sys2Proof/Machine/Tables.lean ====
section
/-! DEFINITION. The meanings of the table elements (42_tables.md), and the table builder they end with (43_huffman.md R290
to R294). The loops of R251, R256, R258 and R259 are carried from element to element by `Work`'s loop variables (log 2). -/

namespace Sys2Proof.Machine

/-! ### The mapping table -/

/-- `for j in 0..15: IN_USE[16*i + j] <- bit j of the word` (R251). -/
def State.setRange (i : Nat) (b : BitVec 16) (s : State) : State :=
  { s with map := { s.map with
      inUse := s.map.inUse.putAll ((List.range 16).map fun j => (16 * i + j, mapBit b j)) } }

/-- One byte value of R252's loop; `acc` is SEQ_TO_UNSEQ, UNSEQ_TO_SEQ and N_IN_USE. -/
def mapByte (inUse : Store 1) (acc : Store 8 × Store 8 × Nat) (v : Nat) : Store 8 × Store 8 × Nat :=
  if inUse.look v = 1 then
    (acc.1.put acc.2.2 (BitVec.ofNat 8 v), acc.2.1.put v (BitVec.ofNat 8 acc.2.2), acc.2.2 + 1)
  else acc

/-- Map construction (R252). -/
def State.buildMap (s : State) : State :=
  let r := (List.range 256).foldl (mapByte s.map.inUse) (s.map.seqToUnseq, s.map.unseqToSeq, 0)
  { s with map := { s.map with seqToUnseq := r.1, unseqToSeq := r.2.1, nInUse := BitVec.ofNat 9 r.2.2 } }

/-- The empty-map check (R253), after the map is built. -/
def State.finishMap (s : State) : State :=
  let t := s.buildMap
  if t.map.nInUse = 0 then t.raise .emptyMap else t.goto .nGroups

/-- R251's loop over the ranges still to come: an absent range is cleared, and at a present one its inner word is read
next. After the last range the map is built. -/
def State.seekRange : List Nat → State → State
  | [], s => s.finishMap
  | i :: rest, s =>
    if s.map.inUse16.look i = 1 then
      { s with work := { s.work with rangeIdx := BitVec.ofNat 4 i } }.goto .inuseInner
    else State.seekRange rest (s.setRange i 0)

/-- INUSE16 (R250), and R251's loop up to the first inner word. -/
def execInuse16 (u : BitVec 16) (s : State) : Result :=
  .next (State.seekRange (List.range 16)
    { s with map := { s.map with
        inUse16 := s.map.inUse16.putAll ((List.range 16).map fun i => (i, mapBit u i)) } })

/-- INUSE_INNER (R251): the word of range `rangeIdx`, and the loop up to the next one. -/
def execInuseInner (b : BitVec 16) (s : State) : Result :=
  .next (State.seekRange (upTo (s.work.rangeIdx.toNat + 1) 15) (s.setRange s.work.rangeIdx.toNat b))

/-- The bits of a map word that were read before the source answered EOF inside it, as writes from index `base` on. -/
def readMapBits (base : Nat) (r : BitReader) : List (Nat × BitVec 1) :=
  (readableBits 16 r).zipIdx.map fun p => (base + p.2, p.1)

/-- What an element at place `c` has already written when the source answers EOF inside it. R250 and R251 write each map bit
as it is read, and fault entry keeps it (60_exceptions.md R520); every other element writes nothing before its last bit. -/
def State.keepPartial (c : Ctx) (s : State) : State :=
  match c with
  | .inuse16 => { s with map := { s.map with inUse16 := s.map.inUse16.putAll (readMapBits 0 s.rd) } }
  | .inuseInner =>
    { s with map := { s.map with inUse := s.map.inUse.putAll (readMapBits (16 * s.work.rangeIdx.toNat) s.rd) } }
  | .command | .signature _ | .trailer | .blockStart | .streamCrc | .blockCrc | .randBit | .origPtr | .nGroups
  | .nSelectors | .selector _ | .lenStart | .lenDelta | .symbol _ _ | .chainLiteral | .chainCount => s

/-! ### Selectors -/

/-- NGROUPS (R254). -/
def execNGroups (n : BitVec 3) (s : State) : Result :=
  let t : State := { s with sel := { s.sel with nGroups := n } }
  .next (if badGroupCount n then t.raise .groupCount else t.goto .nSelectors)

/-- NSELECTORS (R255), and the start of R256: the list SEL_POS is the identity, the first rank follows. -/
def execNSelectors (n : BitVec 15) (s : State) : Result :=
  let t : State := { s with sel := { s.sel with nSelectors := n } }
  if n = 0 then .next (t.raise .selectorCount)
  else if s.sel.nGroups.toNat ≤ Config.maxGroups then
    .next ({ t with
      sel := { t.sel with selPos := t.sel.selPos.putAll ((List.range s.sel.nGroups.toNat).map fun k => (k, BitVec.ofNat 3 k)) }
      work := { t.work with selIdx := 0 } }.goto .selector)
  else .fault (.indexOutOfRange .selPos)

/-- Position `j` of a list comes to the front, the entries before it shift down by one (R257; 44_symbol_decoder.md R326).
Every entry is read before it is overwritten. -/
def moveToFront {w : Nat} (m : Store w) (j : Nat) : Store w :=
  m.putAll ((List.range j).map (fun p => (p + 1, m.look p)) ++ [(0, m.look j)])

/-- `SelectorMtf(i, j)` (R257). -/
def State.selectorMtf (i j : Nat) (s : State) : State :=
  { s with sel := { s.sel with
      selPos := moveToFront s.sel.selPos j
      selector := s.sel.selector.put i (s.sel.selPos.look j) } }

/-- SELECTOR_MTF (R256): a rank that reached N_GROUPS faults; else the rank is undone, and after the last one the code
lengths of group 0 follow. -/
def execSelectorMtf (j : BitVec 3) (s : State) : Result :=
  let i := s.work.selIdx.toNat
  if s.sel.nGroups.toNat ≤ j.toNat then .next (s.raise .selectorRank)
  else Result.ofExcept do
    inRange .selPos Config.maxGroups j.toNat
    inRange .selector s.sel.nSelectors.toNat i
    let t := s.selectorMtf i j.toNat
    if i + 1 < s.sel.nSelectors.toNat then
      return { t with work := { t.work with selIdx := BitVec.ofNat 15 (i + 1) } }.goto .selector
    else
      return { t with work := { t.work with lenGroup := 0 } }.goto .lenStart

/-! ### Code lengths -/

/-- `curr <- c`, then `CheckLength(curr)` (R260), which R259 makes before the next flag bit is read (log 11). -/
def State.setCurr (c : BitVec 5) (s : State) : State :=
  let t : State := { s with work := { s.work with curr := c } }
  if badLength c then t.raise .codeLength else t.goto .lenDelta

/-- LEN_START (R258): the first symbol of group `lenGroup` follows. -/
def execLenStart (c : BitVec 5) (s : State) : Result :=
  .next ({ s with work := { s.work with lenSym := 0 } }.setCurr c)

/-- LEN_INC (R259). -/
def execLenInc (s : State) : Result := .next (s.setCurr (s.work.curr + 1))

/-- LEN_DEC (R259). -/
def execLenDec (s : State) : Result := .next (s.setCurr (s.work.curr - 1))

/-! ### The table builder -/

/-- LEN[t][0 .. ALPHA_SIZE-1] (10_state.md R34). -/
def State.lengthsOf (s : State) (t : Nat) : List Nat := (List.range s.alphaSize).map (s.lenAt t)

/-- The smallest of a list of lengths. -/
def minOf (l : List Nat) : Nat := l.foldl min (l.headD 0)

/-- The largest of a list of lengths. -/
def maxOf (l : List Nat) : Nat := l.foldl max 0

/-- The inner step of R290: symbol `j` of length `i` takes place `pp` of PERM[t]. -/
def permStep (t i : Nat) (len : Store 5) (acc : Store 9 × Nat) (j : Nat) : Store 9 × Nat :=
  if (len.look (symbolKey t j)).toNat = i then (acc.1.put (symbolKey t acc.2) (BitVec.ofNat 9 j), acc.2 + 1) else acc

/-- Step 1 of the builder, the permutation (43_huffman.md R290). -/
def buildPerm (t alpha minL maxL : Nat) (len : Store 5) (perm : Store 9) : Store 9 :=
  ((upTo minL maxL).foldl (fun acc i => (List.range alpha).foldl (permStep t i len) acc) (perm, 0)).1

/-- Step 2a, the length histogram, offset by one position (R291). -/
def histogram (t alpha : Nat) (len : Store 5) (base : Store 32) : Store 32 :=
  (List.range alpha).foldl
    (fun b j =>
      let k := lengthKey t ((len.look (symbolKey t j)).toNat + 1)
      b.put k (b.look k + 1))
    (base.putAll ((List.range Config.maxCodeLen).map fun i => (lengthKey t i, 0)))

/-- Step 2b, the prefix sum (R292). -/
def prefixSum (t : Nat) (base : Store 32) : Store 32 :=
  (upTo 1 (Config.maxCodeLen - 1)).foldl
    (fun b i => b.put (lengthKey t i) (b.look (lengthKey t i) + b.look (lengthKey t (i - 1)))) base

/-- One length of R293: `acc` is LIMIT and `vec`. -/
def limitStep (t : Nat) (base : Store 32) (acc : Store 32 × Nat) (i : Nat) : Store 32 × Nat :=
  let vec := acc.2 + ((base.look (lengthKey t (i + 1))).toNat - (base.look (lengthKey t i)).toNat)
  (acc.1.put (lengthKey t i) (BitVec.ofNat 32 (vec - 1)), vec <<< 1)

/-- Step 3a, the limits (R293). -/
def buildLimit (t minL maxL : Nat) (base limit : Store 32) : Store 32 :=
  ((upTo minL maxL).foldl (limitStep t base)
    (limit.putAll ((List.range Config.maxCodeLen).map fun i => (lengthKey t i, 0)), 0)).1

/-- Step 3b, the base adjustment (R294). -/
def adjustBase (t minL maxL : Nat) (limit base : Store 32) : Store 32 :=
  (upTo (minL + 1) maxL).foldl
    (fun b i => b.put (lengthKey t i)
      (BitVec.ofNat 32 ((((limit.look (lengthKey t (i - 1))).toNat + 1) <<< 1) - (b.look (lengthKey t i)).toNat)))
    base

/-- MIN_LEN[t], MAX_LEN[t] and `BuildTable(t)` (42_tables.md R261). -/
def State.buildTable (s : State) (t : Nat) : State :=
  let minL := minOf (s.lengthsOf t)
  let maxL := maxOf (s.lengthsOf t)
  let base := prefixSum t (histogram t s.alphaSize s.tab.len s.tab.base)
  let limit := buildLimit t minL maxL base s.tab.limit
  { s with tab := { s.tab with
      minLen := s.tab.minLen.put t (BitVec.ofNat 5 minL)
      maxLen := s.tab.maxLen.put t (BitVec.ofNat 5 maxL)
      perm := buildPerm t s.alphaSize minL maxL s.tab.len s.tab.perm
      limit := limit
      base := adjustBase t minL maxL limit base } }

/-- The bounds 20_memory.md R85 gives for the table stores: groups below MAX_GROUPS, symbols below MAX_ALPHA, lengths at
most 20, so that BASE is indexed up to 21 (R291). -/
def State.lengthsInRange (s : State) : Bool :=
  decide (s.sel.nGroups.toNat ≤ Config.maxGroups) && decide (s.alphaSize ≤ Config.maxAlpha)
    && (List.range s.sel.nGroups.toNat).all fun t => (s.lengthsOf t).all fun l => decide (l ≤ Config.maxCodeLenAccepted)

/-- R261: the tables of all groups. Lengths outside R85's range would index BASE outside it (R86). -/
def State.buildTables (s : State) : Except Fault State :=
  if s.lengthsInRange then .ok ((List.range s.sel.nGroups.toNat).foldl State.buildTable s)
  else .error (.indexOutOfRange .base)

/-- Initialisation of the symbol decoder (44_symbol_decoder.md R320). -/
def State.initSymbols (s : State) : State :=
  { s with
    sym := { s.sym with
      groupNo := -1
      groupPos := 0
      freq := s.sym.freq.putAll ((List.range 256).map fun c => (c, 0))
      mtf := s.sym.mtf.putAll ((List.range 256).map fun i => (i, BitVec.ofNat 8 i))
      nblock := 0 }
    work := { s.work with inRun := false, phase := .symbols } }

/-- LEN_END (R259): LEN[t][s] takes the current length; the next symbol, the next group, or after the last group the
table build (R261) and the symbol part follow. -/
def execLenEnd (s : State) : Result := Result.ofExcept do
  let t := s.work.lenGroup.toNat
  let v := s.work.lenSym.toNat
  inRange .len (min s.sel.nGroups.toNat Config.maxGroups) t
  inRange .len (min s.alphaSize Config.maxAlpha) v
  let u : State := { s with tab := { s.tab with len := s.tab.len.put (symbolKey t v) s.work.curr } }
  if v + 1 < s.alphaSize then
    return { u with work := { u.work with lenSym := BitVec.ofNat 9 (v + 1) } }.goto .lenDelta
  else if t + 1 < s.sel.nGroups.toNat then
    return { u with work := { u.work with lenGroup := BitVec.ofNat 3 (t + 1) } }.goto .lenStart
  else
    let b ← u.buildTables
    return b.initSymbols

end Sys2Proof.Machine
end

