-- ==== Sys2Proof/Machine/Symbols.lean ====
section
/-! DEFINITION. The symbol elements (44_symbol_decoder.md), with what the last of them starts: the inverse BWT
(45_inverse_bwt.md) and the block setup (46_output_fsm.md R381). A run is emitted by the symbol that ends it, as `Run(s)`
of R323 does: the digits before it only accumulate. -/

namespace Sys2Proof.Machine

/-! ### Group selection -/

/-- R296 finds no selector left. -/
def State.selectorsExhausted (s : State) : Bool :=
  s.sym.groupPos == 0 && decide ((s.sel.nSelectors.toNat : Int) ≤ (s.sym.groupNo + 1).toInt)

/-- R296 without its check: the next group if the current one is used up, and one symbol fewer left in it. -/
def State.takeFromGroup (s : State) : State :=
  if s.sym.groupPos = 0 then
    { s with sym := { s.sym with groupNo := s.sym.groupNo + 1, groupPos := BitVec.ofNat 6 (Config.groupSize - 1) } }
  else { s with sym := { s.sym with groupPos := s.sym.groupPos - 1 } }

/-! ### Runs -/

/-- One digit `d` (0 or 1) of R323's loop, the first one after its initialisation, then `RunOverrunCheck()` (R325). -/
def State.runDigit (d : Nat) (s : State) : State :=
  let len := if s.work.inRun then s.sym.runLen.toNat else 0
  let weight := if s.work.inRun then s.sym.runWeight.toNat else 1
  let t : State := { s with
    sym := { s.sym with runLen := BitVec.ofNat 21 (len + weight * (d + 1)), runWeight := BitVec.ofNat 21 (weight <<< 1) }
    work := { s.work with inRun := true } }
  if t.runOverrun then t.raise .blockOverrunRun else t.goto .symbols

/-- SYM_RUNA (R323). -/
def execSymRuna (s : State) : Result := .next (s.runDigit 0)

/-- SYM_RUNB (R323). -/
def execSymRunb (s : State) : Result := .next (s.runDigit 1)

/-- `EmitRun()` (R324), for a run that ends within the buffer (20_memory.md R85). -/
def State.emitRun (s : State) : Except Fault State :=
  let n := s.sym.runLen.toNat
  let at0 := s.sym.nblock.toNat
  let ch := s.runByte
  if at0 + n ≤ Config.bufCapacity then
    .ok { s with
      sym := { s.sym with
        freq := s.sym.freq.put ch.toNat (s.sym.freq.look ch.toNat + BitVec.ofNat 20 n)
        nblock := BitVec.ofNat 20 (at0 + n) }
      bwt := { s.bwt with ll8 := s.bwt.ll8.putAll ((List.range n).map fun k => (at0 + k, ch)) } }
  else .error (.indexOutOfRange .ll8)

/-- The end of `Run(s)` when control is inside a run (R323). -/
def State.endRun (s : State) : Except Fault State :=
  if s.work.inRun then do
    let t ← s.emitRun
    return { t with work := { t.work with inRun := false } }
  else .ok s

/-! ### Literals -/

/-- `Literal(s)` past its overrun check (R326). -/
def State.literal (v : Nat) (s : State) : Except Fault State :=
  let at0 := s.sym.nblock.toNat
  let k := s.sym.mtf.look (v - 1)
  let ch := s.map.seqToUnseq.look k.toNat
  if 1 ≤ v ∧ v ≤ 256 then
    if at0 < Config.bufCapacity then
      .ok { s with
        sym := { s.sym with
          mtf := moveToFront s.sym.mtf (v - 1)
          freq := s.sym.freq.put ch.toNat (s.sym.freq.look ch.toNat + 1)
          nblock := BitVec.ofNat 20 (at0 + 1) }
        bwt := { s.bwt with ll8 := s.bwt.ll8.put at0 ch } }
    else .error (.indexOutOfRange .ll8)
  else .error (.indexOutOfRange .mtf)

/-- SYM_MTFV (R326, R327). -/
def execSymMtfv (v : BitVec 9) (s : State) : Result := Result.ofExcept do
  let t ← s.endRun
  if t.literalOverrun then return t.raise .blockOverrunLiteral
  else
    let u ← t.literal v.toNat
    return u.goto .symbols

/-! ### The inverse BWT -/

/-- The number of block positions LL8 and TT may be indexed by (20_memory.md R85). -/
def State.blockBound (s : State) : Nat := min s.sym.nblock.toNat Config.bufCapacity

/-- The cumulative table (45_inverse_bwt.md R360). -/
def cumulate (freq cftab : Store 20) : Store 20 :=
  (List.range 256).foldl (fun m c => m.put (c + 1) (m.look c + freq.look c)) (cftab.put 0 0)

/-- One position of R361's loop; `acc` is TT and CFTAB. -/
def fillStep (bound : Nat) (ll8 : Store 8) (acc : Store 20 × Store 20) (i : Nat) : Except Fault (Store 20 × Store 20) := do
  let b ← loadAt .ll8 bound ll8 i
  let ch := b.toNat
  let tt ← storeAt .tt bound acc.1 (acc.2.look ch).toNat (BitVec.ofNat 20 i)
  return (tt, acc.2.put ch (acc.2.look ch + 1))

/-- `BuildSuccessors()` (R360, R361). -/
def State.buildSuccessors (s : State) : Except Fault State := do
  let r ← (List.range s.sym.nblock.toNat).foldlM (fillStep s.blockBound s.bwt.ll8) (s.bwt.tt, cumulate s.sym.freq s.bwt.cftab)
  return { s with bwt := { s.bwt with tt := r.1, cftab := r.2 } }

/-- `BlockSetup()` (46_output_fsm.md R381). -/
def State.blockSetup (s : State) : Except Fault State := do
  let first ← loadAt .tt s.blockBound s.bwt.tt s.blk.origPtr.toNat
  return ({ s with
    crc := { s.crc with blockCrc := Config.crcInit }
    cur := { tPos := first, consumed := 0, chCur := 256, chPrev := 256, runCount := 0, repCount := 0, repDone := 0,
             rNtogo := 0, rTpos := 0 } }.setSt s.partA).goto .output

/-- SYM_EOB (R322): the run before it ends, the origin pointer is checked (R329), the successors are built and the block
is set up (46_output_fsm.md R388). -/
def execSymEob (s : State) : Result := Result.ofExcept do
  let t ← s.endRun
  if t.badOrigPtr then return t.raise .originPointer
  else
    let u ← t.buildSuccessors
    u.blockSetup

end Sys2Proof.Machine
end

