-- ==== Sys2Proof/Machine/Output.lean ====
section
/-! DEFINITION. The output stage (46_output_fsm.md): the meanings of the two decoded-block elements, RLE2_LITERAL and
RLE2_COUNT, and the driver's iterations that take no element (PART_B's comparison, PART_C, the block end). -/

namespace Sys2Proof.Machine

/-- `Derandomise(b)` (R383). -/
def State.derandomise (b : Byte) (s : State) : Byte × State :=
  let ntogo := if s.cur.rNtogo = 0 then BitVec.ofNat 10 (Config.rnums.getD s.cur.rTpos.toNat 0) else s.cur.rNtogo
  let tpos := if s.cur.rNtogo = 0 then s.cur.rTpos + 1 else s.cur.rTpos
  (if ntogo - 1 = 1 then b ^^^ 1 else b, { s with cur := { s.cur with rNtogo := ntogo - 1, rTpos := tpos } })

/-- `Fetch()` (R382): the next byte of the successor chain. -/
def State.fetchByte (s : State) : Except Fault (Byte × State) := do
  let b ← loadAt .ll8 s.blockBound s.bwt.ll8 s.cur.tPos.toNat
  let next ← loadAt .tt s.blockBound s.bwt.tt s.cur.tPos.toNat
  let t : State := { s with cur := { s.cur with tPos := next } }
  return if s.blk.randomised then t.derandomise b else (b, t)

/-- RLE2_LITERAL (R384): the byte PART_A fetched is emitted. -/
def execRle2Literal (b : Byte) (s : State) : Result :=
  .next (((({ s with cur := { s.cur with
      chPrev := s.cur.chCur
      chCur := b.setWidth 9
      consumed := s.cur.consumed + 1 } }.crcUpdate b).setSt s.partB)).respondByte b)

/-- RLE2_COUNT (R385): the byte PART_B fetched at the fourth of four equal literals is the number of further copies. -/
def execRle2Count (k : Byte) (s : State) : Result :=
  .next (({ s with cur := { s.cur with runCount := s.cur.runCount + 1, repCount := k, repDone := 0 } }.setSt s.partC).goto .output)

/-- PART_A's test (R384): a position of the block is left. -/
def State.positionLeft (s : State) : Bool := decide (s.cur.consumed.toNat < s.sym.nblock.toNat)

/-- PART_B finds the fourth of four equal literals (R385). -/
def State.fourthEqual (s : State) : Bool := s.cur.chCur == s.cur.chPrev && decide (4 ≤ s.cur.runCount.toNat + 1)

/-- PART_B when no count byte is due (R385). -/
def State.compareBytes (s : State) : State :=
  if s.cur.chCur = s.cur.chPrev then { s with cur := { s.cur with runCount := s.cur.runCount + 1 } }.setSt s.partA
  else { s with cur := { s.cur with runCount := 1 } }.setSt s.partA

/-- PART_B when a count byte is due and no position is left (R385, decision D22). -/
def State.countMissing (s : State) : State :=
  { s with cur := { s.cur with runCount := s.cur.runCount + 1 } }.raise .missingCount

/-- PART_C (R386). -/
def State.emitCopy (s : State) : State :=
  if s.cur.repDone.toNat < s.cur.repCount.toNat then
    ({ s with cur := { s.cur with repDone := s.cur.repDone + 1 } }.crcUpdate (s.cur.chCur.setWidth 8)).respondByte
      (s.cur.chCur.setWidth 8)
  else { s with cur := { s.cur with consumed := s.cur.consumed + 1, runCount := 0 } }.setSt s.partA

/-- `BlockEnd()` (R387; 47_crc.md R432 to R434). -/
def State.blockEnd (s : State) : State :=
  let t : State := { s with crc := { s.crc with computedBlockCrc := crcFinal s.crc.blockCrc } }
  if t.crc.computedBlockCrc != t.blk.storedBlockCrc then t.raise .crcMismatchBlock
  else
    { t with crc := { t.crc with combinedCrc := combineCrc t.crc.combinedCrc t.crc.computedBlockCrc } }.setSt .startBlock

end Sys2Proof.Machine
end

