-- ==== Sys2Proof/Machine/Commands.lean ====
section
/-! DEFINITION. The meanings of the host's commands (48_host_interface.md R453 to R457). OPEN and NEXT start what the
elements of the stream go on with; their response comes from the element, the driver iteration or the fault that ends
them. A command while another is outstanding is a run the model refuses (R458). -/

namespace Sys2Proof.Machine

/-- REFUSED with reason 1 (R457): no state changed. -/
def State.refuseState (s : State) : State := s.respond statusRefused 1

/-- OPEN (R453), up to the signature, which follows. -/
def execOpen (nc : BitVec 1) (s : State) : Result :=
  ifReady s <|
    if s.ctl.st ≠ .idle then .next s.refuseState
    else .next ({ s with
      ctl := { s.ctl with noClose := nc == 1, srcClosed := false, blockSize100k := 0, faultCode := 0, faultDetail := 0 }
      rd := BitReader.start s.rd.src
      cnt := { bytesOut := 0, blockIndex := 0 }
      crc := { s.crc with combinedCrc := 0 }
      blk := { s.blk with storedCombinedCrc := 0 } }.goto .signature)

/-- NEXT (R454): answered at once in IDLE, END and FAULT, else the driver `Run()` takes over (46_output_fsm.md R389). -/
def execNext (s : State) : Result :=
  ifReady s <|
    match s.ctl.st with
    | .idle => .next s.refuseState
    | .finished => .next (s.respond statusEos 0)
    | .fault => .next (s.respond statusFault (s.ctl.faultDetail ++ s.ctl.faultCode))
    | .startBlock | .randPartA | .randPartB | .randPartC | .noRandPartA | .noRandPartB | .noRandPartC => .next (s.goto .output)

/-- CLOSE (R455), legal in every state. -/
def execClose (s : State) : Result :=
  ifReady s <|
    let t := s.srcClose.clearFault.setSt .idle
    .next ({ t with ctl := { t.ctl with noClose := false } }.respond statusClosed 0)

/-- CMD_RESERVED (R456): REFUSED with reason 2, no state changed. -/
def execCmdReserved (_o : BitVec 2) (_n : BitVec 1) (_r : BitVec 5) (s : State) : Result :=
  ifReady s (.next (s.respond statusRefused 2))

end Sys2Proof.Machine
end

