-- ==== Sys2Proof/Machine/Header.lean ====
section
/-! DEFINITION. The meanings of the stream header's and the block header's elements (41_stream_block_header.md). Each runs
on the state past the element's bits. The decoder raises InvalidSignature (R220) and CorruptBlockHeader (R225), since the
bits that raise them are no element; the fetch raises TruncatedStream (40_bit_reader.md R200). -/

namespace Sys2Proof.Machine

/-- SIG (R220): nothing beyond the bit reader's; the trailer bytes follow. -/
def execSig (s : State) : Result := .next (s.goto .trailer)

/-- HDR (R221, and the end of OPEN, 48_host_interface.md R453). -/
def execHdr (d : Byte) (s : State) : Result :=
  .next (({ s with ctl := { s.ctl with blockSize100k := multiplierOf d } }.setSt .startBlock).respond statusOpened 0)

/-- OTHER_TRAILER (R221, and the end of OPEN): the stream ends with success, whatever the two bytes are. -/
def execOtherTrailer (_h _d : Byte) (s : State) : Result := .next ((s.srcClose.setSt .finished).respond statusOpened 0)

/-- EOS_MAGIC (R223): the stored combined CRC follows (R224). -/
def execEosMagic (s : State) : Result := .next (s.goto .streamCrc)

/-- STREAM_CRC (R224), and the rest of R223: the combined-CRC check (47_crc.md R435), then the source is released. -/
def execStreamCrc (c : Word) (s : State) : Result :=
  let t : State := { s with blk := { s.blk with storedCombinedCrc := c } }
  if c != s.crc.combinedCrc then .next (t.raise .crcMismatchStream)
  else .next ((t.srcClose.setSt .finished).respond statusEos 0)

/-- BLOCK_MAGIC (R225). -/
def execBlockMagic (s : State) : Result :=
  .next ({ s with cnt := { s.cnt with blockIndex := s.cnt.blockIndex + 1 } }.goto .blockCrc)

/-- BLOCK_CRC (R226). -/
def execBlockCrc (c : Word) (s : State) : Result :=
  .next ({ s with blk := { s.blk with storedBlockCrc := c } }.goto .randBit)

/-- RAND_BIT (R227). -/
def execRandBit (r : BitVec 1) (s : State) : Result :=
  .next ({ s with blk := { s.blk with randomised := r == 1 } }.goto .origPtr)

/-- ORIG_PTR (R228): not checked here. -/
def execOrigPtr (p : BitVec 24) (s : State) : Result :=
  .next ({ s with blk := { s.blk with origPtr := p } }.goto .inuse16)

end Sys2Proof.Machine
end

