-- ==== Sys2Proof/Machine/Dispatch.lean ====
section
/-! DEFINITION. One arm per instruction: each is one direct call of its meaning. -/

namespace Sys2Proof.Machine

-- what an instruction does, on the state past its bits
def exec (i : Instr) (s : State) : Host.Outcome State Fault Refusal :=
  match i with
  | .sig => Sys2Proof.Machine.execSig s
  | .hdr d => Sys2Proof.Machine.execHdr d s
  | .otherTrailer h d => Sys2Proof.Machine.execOtherTrailer h d s
  | .blockMagic => Sys2Proof.Machine.execBlockMagic s
  | .eosMagic => Sys2Proof.Machine.execEosMagic s
  | .blockCrc c => Sys2Proof.Machine.execBlockCrc c s
  | .streamCrc c => Sys2Proof.Machine.execStreamCrc c s
  | .randBit r => Sys2Proof.Machine.execRandBit r s
  | .origPtr p => Sys2Proof.Machine.execOrigPtr p s
  | .inuse16 u => Sys2Proof.Machine.execInuse16 u s
  | .inuseInner b => Sys2Proof.Machine.execInuseInner b s
  | .nGroups n => Sys2Proof.Machine.execNGroups n s
  | .nSelectors n => Sys2Proof.Machine.execNSelectors n s
  | .selectorMtf j => Sys2Proof.Machine.execSelectorMtf j s
  | .lenStart c => Sys2Proof.Machine.execLenStart c s
  | .lenInc => Sys2Proof.Machine.execLenInc s
  | .lenDec => Sys2Proof.Machine.execLenDec s
  | .lenEnd => Sys2Proof.Machine.execLenEnd s
  | .symRuna => Sys2Proof.Machine.execSymRuna s
  | .symRunb => Sys2Proof.Machine.execSymRunb s
  | .symMtfv v => Sys2Proof.Machine.execSymMtfv v s
  | .symEob => Sys2Proof.Machine.execSymEob s
  | .rle2Literal b => Sys2Proof.Machine.execRle2Literal b s
  | .rle2Count k => Sys2Proof.Machine.execRle2Count k s
  | .openCmd nc => Sys2Proof.Machine.execOpen nc s
  | .nextCmd => Sys2Proof.Machine.execNext s
  | .closeCmd => Sys2Proof.Machine.execClose s
  | .cmdReserved o n r => Sys2Proof.Machine.execCmdReserved o n r s

end Sys2Proof.Machine
end

