-- ==== Sys2Proof/Machine/Fetch.lean ====
section
/-! DEFINITION. What a step does before an instruction runs: which agent moves, and the bits, the chain position or the
command word the next instruction is decoded from. A step that takes no instruction (the driver's other iterations, a
status read, waiting) is settled here whole. -/

namespace Sys2Proof.Machine

/-- What the fetch finds. -/
inductive Fetched where
  /-- instruction `i`, to run on the state past its bits -/
  | run (i : Instr) (s : State)
  /-- a step without an instruction -/
  | goes (s : State)
  /-- a model fault (60_exceptions.md R525) -/
  | broken (f : Fault)
  /-- a run the model refuses (70_reset_and_hazards.md R560) -/
  | refuses (r : Refusal)
  deriving DecidableEq, Repr

/-- The state with the reader past the bits just taken. -/
def State.withReader (r : BitReader) (s : State) : State := { s with rd := r }

/-- What a rejection is: a fault of the core, or an index the rules never produce (R86). -/
def rejected (why : Reject) (s : State) : Fetched :=
  match why with
  | .badSignature => .goes (s.raise .invalidSignature)
  | .badMagic => .goes (s.raise .corruptBlockHeader)
  | .noCode => .goes (s.raise .noCode)
  | .tableIndex => .broken (.indexOutOfRange .perm)

/-- Decode the next element at place `c`. `s` is the state it leaves, with the bits of a map word that EOF cuts short already
written; `waiting`, the state to stay in while the source has
not answered (70_reset_and_hazards.md R561; log 10). -/
def fetchElement (c : Ctx) (waiting s : State) : Fetched :=
  match decode c s.rd with
  | .instr i r => .run i (s.withReader r)
  | .reject why r => rejected why (s.withReader r)
  | .truncated r => .goes (((s.keepPartial c).withReader r).raise .truncatedStream)
  | .wait => .goes waiting

/-- The next symbol: group selection (43_huffman.md R296), then the decode step with the selected table (R297). -/
def fetchSymbol (s : State) : Fetched :=
  if s.selectorsExhausted then
    .goes ({ s with sym := { s.sym with groupNo := s.sym.groupNo + 1 } }.raise .selectorsExhausted)
  else
    let t := s.takeFromGroup
    match loadAt .selector t.sel.nSelectors.toNat t.sel.selector t.sym.groupNo.toNat with
    | .error f => .broken f
    | .ok g => fetchElement (.symbol (t.codeTable g.toNat) t.eob) s t

/-- The next byte of the successor chain, as the element `mk` makes of it (46_output_fsm.md R382). -/
def fetchChain (mk : Byte → Instr) (s : State) : Fetched :=
  match s.fetchByte with
  | .ok (b, t) => .run (mk b) t
  | .error f => .broken f

/-- One iteration of the driver `Run()` (R389). -/
def fetchOutput (s : State) : Fetched :=
  match s.ctl.st with
  | .startBlock => fetchElement .blockStart s s
  | .randPartA | .noRandPartA => if s.positionLeft then fetchChain .rle2Literal s else .goes s.blockEnd
  | .randPartB | .noRandPartB =>
    if s.fourthEqual then (if s.positionLeft then fetchChain .rle2Count s else .goes s.countMissing)
    else .goes s.compareBytes
  | .randPartC | .noRandPartC => .goes s.emitCopy
  | .idle | .finished | .fault => .broken .controlState

/-- The core's own next act: nothing while it waits for a command (70_reset_and_hazards.md R551). -/
def fetchCore (s : State) : Fetched :=
  match s.work.phase with
  | .ready => .goes s
  | .output => fetchOutput s
  | .symbols => fetchSymbol s
  | p =>
    match s.ctxAt p with
    | some c => fetchElement c s s
    | none => .broken .controlState

/-- An act of the host or the platform (48_host_interface.md R451, R459; 70_reset_and_hazards.md R550, R552, R560). The
command's own meaning refuses a run in which it comes too early. -/
def fetchHost (a : HostAction) (s : State) : Fetched :=
  match a with
  | .command w => .run (decodeCommand w) s
  | .statusRead n =>
    if s.work.phase = .ready then .goes (s.emit (.statusData (s.statusWord n))) else .refuses .statusReadOutstanding
  | .attach answers =>
    if s.ctl.srcClosed then .goes { s with rd := { s.rd with src := answers } } else .refuses .sourceReplaced
  | .reset => .goes s.afterReset

/-- Who moves: the host when its next event is due, else the core (log 3). -/
def fetch (s : State) : Fetched :=
  match s.host with
  | [] => fetchCore s
  | .atOnce a :: rest => fetchHost a { s with host := rest }
  | .whenReady a :: rest => if s.work.phase = .ready then fetchHost a { s with host := rest } else fetchCore s

/-! ### Placing an instruction where the next step fetches it -/

/-- The place inside a command at which an element of grammar place `c` is read (log 18). -/
def phaseOf : Ctx → Phase
  | .command => .ready
  | .signature _ => .signature
  | .trailer => .trailer
  | .blockStart => .output
  | .streamCrc => .streamCrc
  | .blockCrc => .blockCrc
  | .randBit => .randBit
  | .origPtr => .origPtr
  | .inuse16 => .inuse16
  | .inuseInner => .inuseInner
  | .nGroups => .nGroups
  | .nSelectors => .nSelectors
  | .selector _ => .selector
  | .lenStart => .lenStart
  | .lenDelta => .lenDelta
  | .symbol _ _ => .symbols
  | .chainLiteral => .output
  | .chainCount => .output

/-- What a place of the grammar takes for granted when a word is put there from outside: a block start is read in
START_BLOCK, and a length delta inside the lengths of a group, here group 0 of one, first symbol, current length 2. -/
def State.atPlace (c : Ctx) (s : State) : State :=
  match c with
  | .blockStart => s.setSt .startBlock
  | .lenDelta =>
    { s with
      map := { s.map with nInUse := 1 }
      sel := { s.sel with nGroups := 1 }
      work := { s.work with lenGroup := 0, lenSym := 0, curr := 2 } }
  | .command | .signature _ | .trailer | .streamCrc | .blockCrc | .randBit | .origPtr | .inuse16 | .inuseInner | .nGroups
  | .nSelectors | .selector _ | .lenStart | .symbol _ _ | .chainLiteral | .chainCount => s

/-- Put a word where the next step takes an instruction from: on the command port for a command word, else on the source
port, with control at the word's place of the grammar and no bits buffered (log 18). -/
def placeWord (nbits w : Nat) (s : State) : State :=
  match decodeWordAt nbits w with
  | none => s
  | some (.command, _) => { s with host := .whenReady (.command (BitVec.ofNat 8 w)) :: s.host }.goto .ready
  | some (c, _) =>
    ({ s with rd := { wordReader nbits w with bytesIn := s.rd.bytesIn }, host := [] }.atPlace c).goto (phaseOf c)

end Sys2Proof.Machine
end

