-- ==== Sys2Proof/Machine/Step.lean ====
section
/-! DEFINITION. One step of the machine. A step runs one instruction, or one act that takes none (log 1). -/

namespace Sys2Proof.Machine

/-- The step: what the fetch finds, run. -/
def step (s : State) : Host.Outcome State Fault Refusal :=
  match fetch s with
  | .run i t => exec i t
  | .goes t => .next t
  | .broken f => .fault f
  | .refuses r => .refused r

/-- `s` with a word of the opcode table placed where the next step fetches its instruction (log 18). -/
def State.withFetchWord (s : State) (nbits w : Nat) : State := placeWord nbits w s

end Sys2Proof.Machine
end

