-- ==== Sys2Proof/Machine/Assembly.lean ====
section
/-! DEFINITION. The bit-stream assembly notation of 30_encoding.md R132, in which the spec writes its programs: what each
line emits. The core itself has no assembler; the machine never calls this. -/

namespace Sys2Proof.Machine

/-- One line of a program (R132). -/
inductive AsmLine where
  | sig
  | hdr (d : Nat)
  | block (crc : Word)
  | rand (b : BitVec 1)
  | orig (p : BitVec 24)
  | map (bytes : List Nat)
  | ngroups (n : BitVec 3)
  | nsel (n : BitVec 15)
  | sel (j : Nat)
  | lens (start : Nat) (lengths : List Nat)
  | sym (v : Nat)
  | eos (crc : Word)
  | pad
  | bits (n v : Nat)
  | run (n : Nat)
  | lit (b : Nat)
  | eob
  deriving DecidableEq, Repr

/-- What the assembler keeps: the bits so far, and of the current block the in-use bytes, the selector list with the
table indices it has given (42_tables.md R257), the lengths of each group, the MTF list and the symbols so far. -/
structure Asm where
  bits      : List Bool
  inUse     : List Nat
  selPos    : List Nat
  selectors : List Nat
  rows      : List (List Nat)
  mtf       : List Nat
  symbols   : Nat
  deriving DecidableEq, Repr

/-- Nothing assembled yet. -/
def Asm.empty : Asm := { bits := [], inUse := [], selPos := [], selectors := [], rows := [], mtf := [], symbols := 0 }

/-- Entry `j` of a list comes to the front. -/
def toFront (l : List Nat) (j : Nat) : List Nat :=
  match l[j]? with
  | some v => v :: l.eraseIdx j
  | none => l

/-- The code number of symbol `v` among `lengths` (43_huffman.md R295): every shorter symbol `u` takes
`2 ^ (length of v - length of u)` numbers, every symbol of the same length before `v` takes one. -/
def canonicalNumber (lengths : List Nat) (v : Nat) : Nat :=
  let l := lengths.getD v 0
  ((lengths.filter (· < l)).map fun u => 2 ^ (l - u)).sum + ((lengths.take v).filter (· = l)).length

/-- The canonical code of symbol `v` among `lengths`, in stream order (R295). -/
def canonicalCode (lengths : List Nat) (v : Nat) : List Bool := bitsMsb (lengths.getD v 0) (canonicalNumber lengths v)

/-- The presence word, or an inner word, that marks the positions `k` with `p k`: the first bit is position 0. -/
def markWord (p : Nat → Bool) : List Bool := (List.range 16).map p

/-- `INUSE16` and the `INUSE_INNER` words marking exactly the listed byte values. -/
def mapBits (bytes : List Nat) : List Bool :=
  let present := fun i => (List.range 16).any fun j => bytes.contains (16 * i + j)
  markWord present ++ ((List.range 16).filter present).flatMap fun i => markWord fun j => bytes.contains (16 * i + j)

/-- The delta codes from length `prev` to length `l`, then LEN_END. -/
def deltaBits (prev l : Nat) : List Bool :=
  (List.replicate (l - prev) [true, false]).flatten ++ (List.replicate (prev - l) [true, true]).flatten ++ [false]

/-- The deltas of a whole group. -/
def lengthBits : Nat → List Nat → List Bool
  | _, [] => []
  | prev, l :: ls => deltaBits prev l ++ lengthBits l ls

/-- The bijective base-2 digits of `n`, least significant first, each 0 or 1; `fuel` bounds their number. -/
def runDigits : (fuel n : Nat) → List Nat
  | 0, _ => []
  | fuel + 1, n =>
    if n = 0 then []
    else if n % 2 = 1 then 0 :: runDigits fuel ((n - 1) / 2)
    else 1 :: runDigits fuel ((n - 2) / 2)

/-- `SYM v`: the code of `v` in the table of the current 50-symbol group (R296); a literal moves its entry to the front. -/
def Asm.symbol (a : Asm) (v : Nat) : Asm :=
  let row := a.rows.getD (a.selectors.getD (a.symbols / Config.groupSize) 0) []
  { a with
    bits := a.bits ++ canonicalCode row v
    symbols := a.symbols + 1
    mtf := if 2 ≤ v ∧ v ≤ a.inUse.length then toFront a.mtf (v - 1) else a.mtf }

/-- Bits that touch nothing else. -/
def Asm.raw (a : Asm) (l : List Bool) : Asm := { a with bits := a.bits ++ l }

/-- One line. -/
def Asm.line (a : Asm) : AsmLine → Asm
  | .sig => a.raw (bitsMsb 16 0x425A)
  | .hdr d => a.raw (bitsMsb 8 0x68 ++ bitsMsb 8 (0x30 + d))
  | .block crc => { Asm.empty with bits := a.bits ++ (bitsMsb 48 0x314159265359 ++ bitsMsb 32 crc.toNat) }
  | .rand b => a.raw (bitsMsb 1 b.toNat)
  | .orig p => a.raw (bitsMsb 24 p.toNat)
  | .map bytes =>
    { a.raw (mapBits bytes) with
      inUse := (List.range 256).filter fun v => bytes.contains v
      mtf := List.range 256 }
  | .ngroups n => { a.raw (bitsMsb 3 n.toNat) with selPos := List.range n.toNat }
  | .nsel n => a.raw (bitsMsb 15 n.toNat)
  | .sel j =>
    { a.raw (List.replicate j true ++ [false]) with
      selPos := toFront a.selPos j
      selectors := a.selectors ++ [a.selPos.getD j 0] }
  | .lens start ls => { a.raw (bitsMsb 5 start ++ lengthBits start ls) with rows := a.rows ++ [ls] }
  | .sym v => a.symbol v
  | .eos crc => a.raw (bitsMsb 48 0x177245385090 ++ bitsMsb 32 crc.toNat)
  | .pad => a.raw (List.replicate ((8 - a.bits.length % 8) % 8) false)
  | .bits n v => a.raw (bitsMsb n v)
  | .run n => (runDigits 21 n).foldl Asm.symbol a
  | .lit b => a.symbol (a.mtf.idxOf (a.inUse.idxOf b) + 1)
  | .eob => a.symbol (a.inUse.length + 1)

/-- The number a list of bits spells, first bit highest. -/
def bitsValue (l : List Bool) : Nat := l.foldl (fun n b => 2 * n + b.toNat) 0

/-- The bytes of a bit string, first bit highest; `fuel` bounds their number. -/
def bitBytes : (fuel : Nat) → List Bool → List Byte
  | 0, _ => []
  | fuel + 1, l => if l.isEmpty then [] else BitVec.ofNat 8 (bitsValue (l.take 8)) :: bitBytes fuel (l.drop 8)

/-- The bytes of a program that ends on a byte boundary. -/
def assemble (p : List AsmLine) : List Byte :=
  let l := (p.foldl Asm.line Asm.empty).bits
  bitBytes (l.length / 8 + 1) l

end Sys2Proof.Machine
end

