-- ==== Sys2Proof/Safety.lean ====
section
/-! DEFINITION. What counts as a safe state, in the terms the statements use: the control state's coherence (10_state.md
R21 to R25), the ranges of 20_memory.md R85 with what keeps them, and the canonical form of the stores. A step from a
safe state never stops with a model fault (60_exceptions.md R525, R526: "stuck: none"). -/

namespace Sys2Proof

/-- How many bits an element at this place has, where the place fixes it (30_encoding.md R121 to R123, R128). -/
def Ctx.fixedWidth : Ctx → Option Nat
  | .command | .chainLiteral | .chainCount => some 8
  | .signature _ | .trailer | .inuse16 | .inuseInner => some 16
  | .blockStart => some 48
  | .streamCrc | .blockCrc => some 32
  | .randBit => some 1
  | .origPtr => some 24
  | .nGroups => some 3
  | .nSelectors => some 15
  | .lenStart => some 5
  | .selector _ | .lenDelta | .symbol _ _ => none

/-- The place is not one where a Huffman symbol is read. -/
def Ctx.plain : Ctx → Bool
  | .symbol _ _ => false
  | _ => true

/-- The reader with further answers to come after those it has. -/
def BitReader.withMore (more : List SrcAnswer) (r : BitReader) : BitReader := { r with src := r.src ++ more }

/-- A decoding whose reader has further answers to come. -/
def Decoded.withMore (more : List SrcAnswer) : Decoded → Decoded
  | .instr i r => .instr i (r.withMore more)
  | .reject why r => .reject why (r.withMore more)
  | .truncated r => .truncated (r.withMore more)
  | .wait => .wait

end Sys2Proof

namespace Sys2Proof.Machine

/-- START_BLOCK and the PART states: a stream is being decoded (48_host_interface.md R457). -/
def St.running : St → Bool
  | .startBlock | .randPartA | .randPartB | .randPartC | .noRandPartA | .noRandPartB | .noRandPartC => true
  | .idle | .finished | .fault => false

/-- The PART states: a decoded block is being emitted. -/
def St.inPart : St → Bool
  | .randPartA | .randPartB | .randPartC | .noRandPartA | .noRandPartB | .noRandPartC => true
  | .idle | .startBlock | .finished | .fault => false

/-- The RAND_ forms. -/
def St.randForm : St → Bool
  | .randPartA | .randPartB | .randPartC => true
  | .idle | .startBlock | .noRandPartA | .noRandPartB | .noRandPartC | .finished | .fault => false

/-- PART_A, in either form. -/
def St.isPartA : St → Bool
  | .randPartA | .noRandPartA => true
  | _ => false

/-- PART_B, in either form. -/
def St.isPartB : St → Bool
  | .randPartB | .noRandPartB => true
  | _ => false

/-- PART_C, in either form. -/
def St.isPartC : St → Bool
  | .randPartC | .noRandPartC => true
  | _ => false

/-- OPEN is outstanding. -/
def Phase.opening : Phase → Bool
  | .signature | .trailer => true
  | _ => false

/-- The map of the block is complete. -/
def Phase.afterMap : Phase → Bool
  | .nGroups | .nSelectors | .selector | .lenStart | .lenDelta | .symbols => true
  | _ => false

/-- The group count of the block is known. -/
def Phase.afterGroups : Phase → Bool
  | .nSelectors | .selector | .lenStart | .lenDelta | .symbols => true
  | _ => false

/-- The selectors of the block are known. -/
def Phase.afterSelectors : Phase → Bool
  | .lenStart | .lenDelta | .symbols => true
  | _ => false

/-- Code lengths are being read. -/
def Phase.inLengths : Phase → Bool
  | .lenStart | .lenDelta => true
  | _ => false

/-- A field of a block or of the trailer is being read, past the 48-bit magic (46_output_fsm.md R388). -/
def Phase.inBlock : Phase → Bool
  | .ready | .signature | .trailer | .output => false
  | .streamCrc | .blockCrc | .randBit | .origPtr | .inuse16 | .inuseInner | .nGroups | .nSelectors | .selector
  | .lenStart | .lenDelta | .symbols => true

/-- Coherence of the control state. -/
structure State.CtlOk (s : State) : Prop where
  /-- between commands ST holds no PART_A state (R22) -/
  between : s.work.phase = .ready → s.ctl.st.isPartA = false
  /-- OPEN runs in IDLE (48_host_interface.md R453) -/
  opening : s.work.phase.opening = true → s.ctl.st = .idle
  /-- a block is read in START_BLOCK (46_output_fsm.md R388) -/
  inBlock : s.work.phase.inBlock = true → s.ctl.st = .startBlock
  /-- the driver runs in START_BLOCK and the PART states (R389) -/
  driver : s.work.phase = .output → s.ctl.st.running = true
  /-- FAULT_CODE and FAULT_DETAIL are 0 in every state but FAULT (R23) -/
  noFault : s.ctl.st ≠ .fault → s.ctl.faultCode = 0 ∧ s.ctl.faultDetail = 0
  /-- in FAULT they are a row of 60_exceptions.md R501 -/
  faultRow : s.ctl.st = .fault → ∃ f : CoreFault, s.ctl.faultCode = f.code ∧ s.ctl.faultDetail = f.detail
  /-- SRC_CLOSED is 1 exactly when the stream has ended or no stream is open (R24) -/
  closed : s.ctl.srcClosed = true ↔ s.ctl.st = .finished ∨ (s.ctl.st = .idle ∧ s.work.phase = .ready)
  /-- NO_CLOSE is set only while a source is owned (R24, R455) -/
  noClose : s.ctl.st = .idle → s.work.phase = .ready → s.ctl.noClose = false
  /-- the multiplier is 1 to 9 while a stream is decoded (R25) -/
  multiplier : s.ctl.st.running = true → 1 ≤ s.ctl.blockSize100k.toNat ∧ s.ctl.blockSize100k.toNat ≤ 9
  /-- the PART form is the block's (46_output_fsm.md R381) -/
  form : s.ctl.st.inPart = true → s.blk.randomised = s.ctl.st.randForm

/-- A decode table whose walk stays in range (43_huffman.md R295, "Index range"; 20_memory.md R85). -/
structure CodeTableOk (T : CodeTable) : Prop where
  range   : T.inRange = true
  first   : T.baseAt T.minLen = 0
  lower   : ∀ n, T.minLen < n → n ≤ T.maxLen → T.baseAt n ≤ 2 * (T.limitAt (n - 1) + 1)
  upper   : ∀ n, T.minLen ≤ n → n ≤ T.maxLen → T.limitAt n < T.baseAt n + T.alpha
  symbols : ∀ k, k < T.alpha → T.permAt k < T.alpha

/-- The bytes the block holds so far, LL8[0 .. NBLOCK-1]. -/
def State.blockBytes (s : State) : List Byte := (List.range s.sym.nblock.toNat).map s.bwt.ll8.look

/-- FREQ counts the bytes of the block (10_state.md R37). -/
def State.FreqOk (s : State) : Prop :=
  ∀ c : Byte, (s.sym.freq.look c.toNat).toNat = s.blockBytes.count c

/-- What holds inside a run (44_symbol_decoder.md R325): the run fits the block, and the weight of the next digit is a power
of two at most RUN_LEN + 1. -/
def State.RunOk (s : State) : Prop :=
  s.sym.nblock.toNat + s.sym.runLen.toNat ≤ s.capacity ∧
    ∃ k, s.sym.runWeight.toNat = 2 ^ k ∧ 2 ^ k ≤ s.sym.runLen.toNat + 1

/-- The ranges of 20_memory.md R85, at each place of the grammar where they matter. -/
structure State.DataOk (s : State) : Prop where
  map : s.work.phase.afterMap = true → 1 ≤ s.map.nInUse.toNat ∧ s.map.nInUse.toNat ≤ 256
  groups : s.work.phase.afterGroups = true → 1 ≤ s.sel.nGroups.toNat ∧ s.sel.nGroups.toNat ≤ Config.maxGroups
  ranks : s.work.phase = .selector →
    s.work.selIdx.toNat < s.sel.nSelectors.toNat
      ∧ (∀ k, k < s.sel.nGroups.toNat → (s.sel.selPos.look k).toNat < s.sel.nGroups.toNat)
      ∧ ∀ i, i < s.work.selIdx.toNat → (s.sel.selector.look i).toNat < s.sel.nGroups.toNat
  selectors : s.work.phase.afterSelectors = true →
    ∀ i, i < s.sel.nSelectors.toNat → (s.sel.selector.look i).toNat < s.sel.nGroups.toNat
  rows : s.work.phase.inLengths = true →
    s.work.lenGroup.toNat < s.sel.nGroups.toNat
      ∧ ∀ t, t < s.work.lenGroup.toNat → ∀ v, v < s.alphaSize → 1 ≤ s.lenAt t v ∧ s.lenAt t v ≤ Config.maxCodeLenAccepted
  row : s.work.phase = .lenDelta →
    s.work.lenSym.toNat < s.alphaSize
      ∧ 1 ≤ s.work.curr.toNat ∧ s.work.curr.toNat ≤ Config.maxCodeLenAccepted
      ∧ ∀ v, v < s.work.lenSym.toNat →
          1 ≤ s.lenAt s.work.lenGroup.toNat v ∧ s.lenAt s.work.lenGroup.toNat v ≤ Config.maxCodeLenAccepted
  tables : s.work.phase = .symbols → ∀ t, t < s.sel.nGroups.toNat → CodeTableOk (s.codeTable t)
  group : s.work.phase = .symbols →
    (s.sym.groupNo = -1 ∧ s.sym.groupPos = 0) ∨ s.sym.groupNo.toNat < s.sel.nSelectors.toNat
  length : s.work.phase = .symbols → s.sym.nblock.toNat ≤ s.capacity
  counts : s.work.phase = .symbols → s.FreqOk
  run : s.work.phase = .symbols → s.work.inRun = true → s.RunOk
  block : s.ctl.st.inPart = true →
    1 ≤ s.sym.nblock.toNat ∧ s.sym.nblock.toNat ≤ Config.bufCapacity
      ∧ (∀ i, i < s.sym.nblock.toNat → (s.bwt.tt.look i).toNat < s.sym.nblock.toNat)
      ∧ s.cur.tPos.toNat < s.sym.nblock.toNat

/-- A safe state. -/
structure State.Inv (s : State) : Prop where
  ctl    : s.CtlOk
  data   : s.DataOk
  stores : Memory.wf s = true

/-! ### What a run is observed by (00_scope.md R16) -/

/-- The response words put out, newest first. -/
def responsesOf : List OutEvent → List (BitVec 16)
  | [] => []
  | .response w :: out => w :: responsesOf out
  | .closeStrobe :: out => responsesOf out
  | .statusData _ :: out => responsesOf out

/-- How often the close strobe was pulsed. -/
def strobesOf : List OutEvent → Nat
  | [] => 0
  | .closeStrobe :: out => strobesOf out + 1
  | .response _ :: out => strobesOf out
  | .statusData _ :: out => strobesOf out

/-- The host's next event, if any, waits for the core: the next step is the core's while a command is outstanding. -/
def State.hostWaits (s : State) : Bool :=
  match s.host with
  | .atOnce _ :: _ => false
  | .whenReady _ :: _ => true
  | [] => true

/-- The host's next event is `a` and it lands in this step. -/
def State.hostActs (s : State) (a : HostAction) (rest : List HostEvent) : Prop :=
  s.host = .atOnce a :: rest ∨ (s.host = .whenReady a :: rest ∧ s.work.phase = .ready)

/-- `t` differs from `s` at most in the control registers, the reader, the counters, the block parameters, the CRC
registers, the place inside the command and the ports: the stores, the decoder registers and the output cursor are
untouched. -/
structure SameBlock (s t : State) : Prop where
  map : t.map = s.map
  sel : t.sel = s.sel
  tab : t.tab = s.tab
  sym : t.sym = s.sym
  bwt : t.bwt = s.bwt
  cur : t.cur = s.cur

/-- `t` and `s` agree on the bit reader, the counters, the block parameters, the CRC registers, the host's events and the
parameter. -/
structure SameStream (s t : State) : Prop where
  rd        : t.rd = s.rd
  cnt       : t.cnt = s.cnt
  blk       : t.blk = s.blk
  crc       : t.crc = s.crc
  host      : t.host = s.host
  legacyAnd : t.legacyAnd = s.legacyAnd

/-- A command is outstanding and the host's next event does not cut into it: the next step is the core's own. -/
def State.coreActs (s : State) : Prop := s.work.phase ≠ .ready ∧ s.hostWaits = true

/-- A command is taken in the next step. -/
def State.takesCommand (s : State) : Prop := ∃ w rest, s.hostActs (.command w) rest

/-- The next step is a reset. -/
def State.takesReset (s : State) : Prop := ∃ rest, s.hostActs .reset rest

/-! ### The terms the statements use -/

/-- Every register at its reset value (10_state.md R50). The stores, which R50 leaves unspecified, are not mentioned. -/
structure RegistersReset (s : State) : Prop where
  ctl : s.ctl =
    { st := .idle, faultCode := 0, faultDetail := 0, noClose := false, srcClosed := true, blockSize100k := 0 }
  buff : s.rd.buff = 0
  live : s.rd.live = 0
  bytesIn : s.rd.bytesIn = 0
  cnt : s.cnt = { bytesOut := 0, blockIndex := 0 }
  blk : s.blk = { storedBlockCrc := 0, randomised := false, origPtr := 0, storedCombinedCrc := 0 }
  nInUse : s.map.nInUse = 0
  nGroups : s.sel.nGroups = 0
  nSelectors : s.sel.nSelectors = 0
  nblock : s.sym.nblock = 0
  runLen : s.sym.runLen = 0
  runWeight : s.sym.runWeight = 0
  groupNo : s.sym.groupNo = 0xFFFF
  groupPos : s.sym.groupPos = 0
  cur : s.cur =
    { tPos := 0, consumed := 0, chCur := 256, chPrev := 256, runCount := 0, repCount := 0, repDone := 0, rNtogo := 0,
      rTpos := 0 }
  crc : s.crc = { blockCrc := 0xFFFFFFFF, computedBlockCrc := 0, combinedCrc := 0 }

/-- The byte values in use, ascending (42_tables.md R252). -/
def State.usedBytes (s : State) : List Nat := (List.range 256).filter fun v => s.map.inUse.look v = 1

/-- Every code length of group `t` lies in 1 to 20 (42_tables.md R260). -/
def State.rowOk (s : State) (t : Nat) : Prop := ∀ l ∈ s.lengthsOf t, 1 ≤ l ∧ l ≤ Config.maxCodeLenAccepted

/-- How many symbols of group `t` have length `l`. -/
def State.codesOf (s : State) (t l : Nat) : Nat := (s.lengthsOf t).count l

/-- How many symbols of group `t` have a length below `l`. -/
def State.codesBelow (s : State) (t l : Nat) : Nat := (s.lengthsOf t).countP fun u => u < l

/-- The first canonical code of length `lo + k`, where `lo` is the shortest length and `codes l` the number of codes of
length `l` (43_huffman.md R295): the running code goes up by one for each code and doubles for each length step. -/
def firstCode (codes : Nat → Nat) (lo : Nat) : Nat → Nat
  | 0 => 0
  | k + 1 => 2 * (firstCode codes lo k + codes (lo + k))

/-- The value of run digits, least significant first, each 0 or 1 (44_symbol_decoder.md R323). -/
def runValue : List Nat → Nat
  | [] => 0
  | d :: ds => (d + 1) + 2 * runValue ds

/-- The positions of a block, sorted by their byte, positions of equal bytes in order. -/
def sortedPositions (n : Nat) (byteAt : Nat → Byte) : List Nat :=
  (List.range 256).flatMap fun c => (List.range n).filter fun i => (byteAt i).toNat = c

/-- Entry `i` of RNUMS, taken cyclically. -/
def rnum (i : Nat) : Nat := Config.rnums.getD (i % 512) 0

/-- The `m`-th position, counted from 0, whose byte the derandomizer flips (46_output_fsm.md R383). -/
def flipPosition (m : Nat) : Nat := ((List.range (m + 1)).map rnum).sum - 2

/-- `Derandomise` over a sequence of bytes: what it returns for each. -/
def derandomiseAll : List Byte → State → List Byte
  | [], _ => []
  | b :: bs, s => (s.derandomise b).1 :: derandomiseAll bs (s.derandomise b).2

/-- What `n` calls of `Fetch()` return (46_output_fsm.md R382). -/
def State.chainBytes : Nat → State → List Byte
  | 0, _ => []
  | n + 1, s =>
    match s.fetchByte with
    | .ok (b, t) => b :: State.chainBytes n t
    | .error _ => []

/-- The decoded-block format (30_encoding.md R126), after `run` equal literals `prev`: the bytes it stands for, none where
the count byte after a fourth equal literal is missing. -/
def expandRuns : (run : Nat) → (prev : Option Byte) → List Byte → Option (List Byte)
  | run, _, [] => if 4 ≤ run then none else some []
  | run, prev, b :: bs =>
    if 4 ≤ run then (expandRuns 0 prev bs).map fun out => List.replicate b.toNat (prev.getD 0) ++ out
    else (expandRuns (if prev = some b then run + 1 else 1) (some b) bs).map fun out => b :: out

/-- The bytes of the BYTE responses among the events a step put out, in the order it put them out. -/
def bytesOf (out : List OutEvent) : List Byte :=
  (responsesOf out).reverse.filterMap fun w => if w.extractLsb' 8 8 = 0 then some (w.extractLsb' 0 8) else none

/-- The events of `t` that `s` had not yet put out. -/
def newEvents (s t : State) : List OutEvent := t.out.take (t.out.length - s.out.length)

/-- One step of the CRC on one bit (47_crc.md R430), most significant bit first, not reflected. -/
def crcBit (c : Word) (b : Bool) : Word := if c.getLsbD 31 != b then (c <<< 1) ^^^ Config.crcPoly else c <<< 1

end Sys2Proof.Machine
end

