-- ==== Sys2Proof/Certificates/Slice0/Obligations.lean ====
section
/-! DEFINITION. The statements about the model, one definition each, for the provers. Where a statement names a next state
as a record, every field it does not name is that of the state before: that is its frame. -/

open Sys2Proof Sys2Proof.Machine

/-! ### Reset, commands, responses -/

/-- R50 and R550: after reset, and after the reset event at any time, every register has its reset value, no command is
outstanding, and no response or strobe was put out for it. -/
def Obligations.ResetRegisters : Prop :=
  RegistersReset State.reset ∧ State.reset.work.phase = .ready ∧
  ∀ (s : State) (rest : List HostEvent), s.hostActs .reset rest →
    ∃ t, step s = .next t ∧ RegistersReset t ∧ t.work.phase = .ready ∧ t.out = s.out ∧ t.host = rest

/-- The reset state is a safe state. -/
def Obligations.ResetIsSafe : Prop := State.reset.Inv

/-- Words written out from 30_encoding.md's tables decode to the instructions they stand for. -/
def Obligations.TableWordsDecode : Prop :=
  decodeTableWord 16 0x425A = some .sig ∧ decodeTableWord 16 0x6831 = some (.hdr 0x31) ∧
  decodeTableWord 16 0x6830 = some (.otherTrailer 0x68 0x30) ∧ decodeTableWord 48 0x314159265359 = some .blockMagic ∧
  decodeTableWord 48 0x177245385090 = some .eosMagic ∧ decodeTableWord 32 0x648CBB73 = some (.blockCrc 0x648CBB73) ∧
  decodeTableWord 24 5 = some (.origPtr 5) ∧ decodeTableWord 3 2 = some (.nGroups 2) ∧
  decodeTableWord 15 1 = some (.nSelectors 1) ∧ decodeTableWord 5 2 = some (.lenStart 2) ∧
  decodeTableWord 2 2 = some .lenInc ∧ decodeTableWord 2 3 = some .lenDec ∧ decodeTableWord 1 0 = some .lenEnd ∧
  decodeTableWord 8 5 = some (.openCmd 1) ∧ decodeTableWord 8 2 = some .nextCmd ∧ decodeTableWord 8 3 = some .closeCmd ∧
  decodeTableWord 8 0x82 = some (.cmdReserved 2 0 0x10)

/-- R456: a reserved command word is answered REFUSED with DATA 2, and nothing else changes. -/
def Obligations.ReservedCommandsRefused : Prop :=
  (∀ (s : State) (w : Byte) (rest : List HostEvent), s.hostActs (.command w) rest → s.work.phase = .ready →
    w.extractLsb' 0 2 = 0 ∨ w.extractLsb' 3 5 ≠ 0 ∨ (w.extractLsb' 2 1 = 1 ∧ w.extractLsb' 0 2 ≠ 1) →
      step s = .next { s with host := rest, out := .response 0x0502 :: s.out }) ∧
  ∀ (s : State) (o : BitVec 2) (n : BitVec 1) (r : BitVec 5), s.work.phase = .ready →
    exec (.cmdReserved o n r) s = .next { s with out := .response 0x0502 :: s.out }

/-- R452: the response word `{0:5, status:3, data:8}`, and `respond` ends the command and does nothing else. -/
def Obligations.ResponseWord : Prop :=
  (∀ (status : BitVec 3) (data : Byte),
    (responseWord status data).extractLsb' 0 8 = data ∧ (responseWord status data).extractLsb' 8 3 = status ∧
      (responseWord status data).extractLsb' 11 5 = 0) ∧
  (∀ (s : State) (status : BitVec 3) (data : Byte),
    s.respond status data =
      { s with work := { s.work with phase := .ready }, out := .response (responseWord status data) :: s.out }) ∧
  statusByte = 0 ∧ statusEos = 1 ∧ statusFault = 2 ∧ statusOpened = 3 ∧ statusClosed = 4 ∧ statusRefused = 5

/-- R520: fault entry writes FAULT_CODE, FAULT_DETAIL and ST, answers FAULT with `{detail:4, code:4}`, and changes nothing
else. The numbers are those of R501's table. -/
def Obligations.FaultEntry : Prop :=
  (∀ (s : State) (f : CoreFault),
    s.raise f =
      { s with
        ctl := { s.ctl with faultCode := f.code, faultDetail := f.detail, st := .fault }
        work := { s.work with phase := .ready }
        out := .response ((0#5 ++ 2#3) ++ (f.detail ++ f.code)) :: s.out }) ∧
  (CoreFault.invalidSignature.code, CoreFault.invalidSignature.detail) = (1, 1) ∧
  (CoreFault.corruptBlockHeader.code, CoreFault.corruptBlockHeader.detail) = (2, 1) ∧
  (CoreFault.crcMismatchBlock.code, CoreFault.crcMismatchBlock.detail) = (3, 1) ∧
  (CoreFault.crcMismatchStream.code, CoreFault.crcMismatchStream.detail) = (3, 2) ∧
  (CoreFault.blockOverrunLiteral.code, CoreFault.blockOverrunLiteral.detail) = (4, 1) ∧
  (CoreFault.blockOverrunRun.code, CoreFault.blockOverrunRun.detail) = (4, 2) ∧
  (CoreFault.truncatedStream.code, CoreFault.truncatedStream.detail) = (5, 1) ∧
  (CoreFault.groupCount.code, CoreFault.groupCount.detail) = (6, 1) ∧
  (CoreFault.selectorCount.code, CoreFault.selectorCount.detail) = (6, 2) ∧
  (CoreFault.selectorRank.code, CoreFault.selectorRank.detail) = (6, 3) ∧
  (CoreFault.codeLength.code, CoreFault.codeLength.detail) = (6, 4) ∧
  (CoreFault.noCode.code, CoreFault.noCode.detail) = (6, 5) ∧
  (CoreFault.selectorsExhausted.code, CoreFault.selectorsExhausted.detail) = (6, 6) ∧
  (CoreFault.emptyMap.code, CoreFault.emptyMap.detail) = (6, 7) ∧
  (CoreFault.originPointer.code, CoreFault.originPointer.detail) = (6, 8) ∧
  (CoreFault.missingCount.code, CoreFault.missingCount.detail) = (6, 9)

/-- R453 up to the signature, R454 up to the driver, and R457's OPEN and NEXT columns. OPEN in IDLE takes the source and
clears what R453 names, and is refused in every other state. NEXT is refused in IDLE, answers EOS in END and the stored
fault in FAULT, and in every other state hands over to the driver. -/
def Obligations.OpenAndNext : Prop :=
  (∀ (s : State) (nc : BitVec 1), s.work.phase = .ready → s.ctl.st = .idle →
    exec (.openCmd nc) s = .next { s with
      ctl := { st := .idle, faultCode := 0, faultDetail := 0, noClose := nc == 1, srcClosed := false, blockSize100k := 0 }
      rd := { buff := 0, live := 0, bytesIn := 0, src := s.rd.src }
      cnt := { bytesOut := 0, blockIndex := 0 }
      blk := { s.blk with storedCombinedCrc := 0 }
      crc := { s.crc with combinedCrc := 0 }
      work := { s.work with phase := .signature } }) ∧
  (∀ (s : State) (nc : BitVec 1), s.work.phase = .ready → s.ctl.st ≠ .idle →
    exec (.openCmd nc) s = .next { s with out := .response 0x0501 :: s.out }) ∧
  (∀ s : State, s.work.phase = .ready → s.ctl.st = .idle →
    exec .nextCmd s = .next { s with out := .response 0x0501 :: s.out }) ∧
  (∀ s : State, s.work.phase = .ready → s.ctl.st = .finished →
    exec .nextCmd s = .next { s with out := .response 0x0100 :: s.out }) ∧
  (∀ s : State, s.work.phase = .ready → s.ctl.st = .fault →
    exec .nextCmd s =
      .next { s with out := .response ((0#5 ++ 2#3) ++ (s.ctl.faultDetail ++ s.ctl.faultCode)) :: s.out }) ∧
  ∀ s : State, s.work.phase = .ready → s.ctl.st.running = true →
    exec .nextCmd s = .next { s with work := { s.work with phase := .output } }

/-- R455: CLOSE in every state. R470: the strobe is pulsed if the source is still owned and is not the standard input. That
the released source leaves the port is the model's (log 16). -/
def Obligations.CloseAndStrobe : Prop :=
  (∀ s : State, s.work.phase = .ready →
    exec .closeCmd s = .next { s with
      ctl := { s.ctl with st := .idle, noClose := false, faultCode := 0, faultDetail := 0, srcClosed := true }
      rd := { s.rd with src := if s.ctl.srcClosed then s.rd.src else [] }
      out := .response 0x0400 ::
        ((if s.ctl.srcClosed = false ∧ s.ctl.noClose = false then [.closeStrobe] else []) ++ s.out) }) ∧
  (∀ s : State, s.ctl.srcClosed = true → s.srcClose = s) ∧
  (∀ s : State, s.ctl.srcClosed = false → s.ctl.noClose = false →
    s.srcClose = { s with
      ctl := { s.ctl with srcClosed := true }, rd := { s.rd with src := [] }, out := .closeStrobe :: s.out }) ∧
  ∀ s : State, s.ctl.srcClosed = false → s.ctl.noClose = true →
    s.srcClose = { s with ctl := { s.ctl with srcClosed := true }, rd := { s.rd with src := [] } }

/-- R459: a status read between commands puts out the word of the address, field by field, and has no other effect. A status
read while a command is outstanding is a run the model refuses. -/
def Obligations.StatusReads : Prop :=
  (∀ (s : State) (a : BitVec 4) (rest : List HostEvent), s.hostActs (.statusRead a) rest → s.work.phase = .ready →
    step s = .next { s with host := rest, out := .statusData (s.statusWord a) :: s.out }) ∧
  (∀ (s : State) (a : BitVec 4) (rest : List HostEvent), s.hostActs (.statusRead a) rest → s.work.phase ≠ .ready →
    step s = .refused .statusReadOutstanding) ∧
  ∀ s : State,
    ((s.statusWord 0).extractLsb' 0 4 = s.ctl.st.code ∧ (s.statusWord 0).getLsbD 4 = s.blk.randomised ∧
      (s.statusWord 0).getLsbD 5 = s.ctl.srcClosed ∧ (s.statusWord 0).getLsbD 6 = s.ctl.noClose ∧
      (s.statusWord 0).getLsbD 7 = false ∧ (s.statusWord 0).extractLsb' 8 4 = s.ctl.blockSize100k ∧
      (s.statusWord 0).extractLsb' 12 20 = 0) ∧
    ((s.statusWord 1).extractLsb' 0 4 = s.ctl.faultCode ∧ (s.statusWord 1).extractLsb' 4 4 = s.ctl.faultDetail ∧
      (s.statusWord 1).extractLsb' 8 24 = 0) ∧
    s.statusWord 2 = s.cnt.blockIndex ∧ s.statusWord 3 = s.rd.bytesIn ∧ s.statusWord 4 = s.blk.storedBlockCrc ∧
    s.statusWord 5 = s.crc.blockCrc ∧ s.statusWord 6 = s.blk.storedCombinedCrc ∧ s.statusWord 7 = s.crc.combinedCrc ∧
    s.statusWord 8 = s.sym.nblock.setWidth 32 ∧ s.statusWord 9 = s.blk.origPtr.setWidth 32 ∧
    ((s.statusWord 10).extractLsb' 0 9 = s.map.nInUse ∧ (s.statusWord 10).extractLsb' 9 3 = 0 ∧
      (s.statusWord 10).extractLsb' 12 3 = s.sel.nGroups ∧ (s.statusWord 10).getLsbD 15 = false ∧
      (s.statusWord 10).extractLsb' 16 15 = s.sel.nSelectors ∧ (s.statusWord 10).getLsbD 31 = false) ∧
    s.statusWord 11 = s.cnt.bytesOut ∧ s.statusWord 12 = 0 ∧ s.statusWord 13 = 0 ∧ s.statusWord 14 = 0 ∧
    s.statusWord 15 = 0

/-- R560 and R458: the runs the model refuses are exactly those in which the host breaks one of its duties 1, 2 and 4. That
a stream is open, for duty 4, exactly while SRC_CLOSED = 0 is the model's (log 17). -/
def Obligations.RefusedRuns : Prop :=
  ∀ (s : State) (why : Refusal), step s = .refused why ↔
    (why = .commandOutstanding ∧ s.work.phase ≠ .ready ∧ ∃ w rest, s.hostActs (.command w) rest) ∨
    (why = .statusReadOutstanding ∧ s.work.phase ≠ .ready ∧ ∃ a rest, s.hostActs (.statusRead a) rest) ∨
    (why = .sourceReplaced ∧ s.ctl.srcClosed = false ∧ ∃ answers rest, s.hostActs (.attach answers) rest)

/-- R553: OPEN on a source that begins `B`, `Z`, `h` and a digit 1 to 9, presented in IDLE, gives in three steps of the
model the launch state: OPENED, START_BLOCK, four bytes taken and no bit left over. -/
def Obligations.LaunchState : Prop :=
  ∀ (s : State) (nc : BitVec 1) (d : Byte) (src : List SrcAnswer),
    s.work.phase = .ready → s.ctl.st = .idle → 0x31 ≤ d.toNat → d.toNat ≤ 0x39 →
    s.host = [.whenReady (.command (BitVec.ofNat 8 (4 * nc.toNat + 1)))] →
    s.rd.src = .byte 0x42 :: .byte 0x5A :: .byte 0x68 :: .byte d :: src →
      ∃ t, Host.Core.run core 3 s = .next t ∧ t.ctl.st = .startBlock ∧ t.work.phase = .ready ∧
        t.out = .response 0x0300 :: s.out ∧ t.rd.live = 0 ∧ t.rd.bytesIn = 4 ∧ t.pos = 32 ∧ t.rd.src = src ∧
        t.cnt.bytesOut = 0 ∧ t.cnt.blockIndex = 0 ∧ t.crc.combinedCrc = 0 ∧ t.ctl.faultCode = 0 ∧
        t.ctl.faultDetail = 0 ∧ t.ctl.srcClosed = false ∧ (t.ctl.noClose = true ↔ nc = 1) ∧
        t.ctl.blockSize100k.toNat = d.toNat - 0x30

/-! ### The bit reader -/

/-- R200: a read of 1 to 24 bits returns the next bits, first bit highest, and leaves the rest; it takes exactly the bytes it
needs; it ends in EOF if the source answers EOF first, with the bytes taken counted, and waits if the source has not
answered. R203: `ReadInt32` returns the next 32 bits as one big-endian number; if the source answers EOF inside the second
of its two 16-bit reads, the first 16 bits are gone. -/
def Obligations.ReadBitsResult : Prop :=
  (∀ (n : Nat) (r : BitReader), 1 ≤ n → n ≤ 24 →
    (n ≤ r.bits.length → ∃ v r', readBits n r = .got v r' ∧
      bitsMsb n v.toNat = r.bits.take n ∧ r'.bits = r.bits.drop n ∧
      r'.live.toNat + n = r.live.toNat + 8 * ((n - r.live.toNat + 7) / 8) ∧
      r'.bytesIn = r.bytesIn + BitVec.ofNat 32 ((n - r.live.toNat + 7) / 8) ∧
      r'.src = r.src.drop ((n - r.live.toNat + 7) / 8)) ∧
    (∀ (bs : List Byte) (tail : List SrcAnswer), r.src = bs.map .byte ++ .eof :: tail →
      r.live.toNat + 8 * bs.length < n → ∃ r', readBits n r = .eof r' ∧ r'.live.toNat = r.live.toNat + 8 * bs.length ∧
        r'.bytesIn = r.bytesIn + BitVec.ofNat 32 bs.length ∧ r'.src = tail) ∧
    ∀ bs : List Byte, r.src = bs.map .byte → r.live.toNat + 8 * bs.length < n → readBits n r = .wait) ∧
  (∀ (r : BitReader) (w : Word) (rest : List Bool), r.bits = bitsMsb 32 w.toNat ++ rest →
    ∃ r', readInt32 r = .got w r' ∧ r'.bits = rest) ∧
  ∀ (r : BitReader) (bs : List Byte) (tail : List SrcAnswer), r.src = bs.map .byte ++ .eof :: tail →
    r.live.toNat + 8 * bs.length < 32 → ∃ r', readInt32 r = .eof r' ∧
      r'.bytesIn = r.bytesIn + BitVec.ofNat 32 bs.length ∧ r'.src = tail ∧
      r'.live.toNat = if 16 ≤ r.live.toNat + 8 * bs.length then r.live.toNat + 8 * bs.length - 16
        else r.live.toNat + 8 * bs.length

/-- R561: a source that answers late gives what one that answers at once gives. A decoding that ends does not look at the
answers after those it takes. -/
def Obligations.LateAnswersChangeNothing : Prop :=
  ∀ (c : Ctx) (r : BitReader) (more : List SrcAnswer), decode c r ≠ .wait →
    decode c (r.withMore more) = (decode c r).withMore more

/-- R506: at every place whose element has a fixed width, a source that answers EOF before the element is complete gives
TruncatedStream, with every byte before the EOF taken and counted. -/
def Obligations.TruncatedFields : Prop :=
  ∀ (c : Ctx) (n : Nat) (r : BitReader) (bs : List Byte) (tail : List SrcAnswer), c.fixedWidth = some n →
    r.src = bs.map .byte ++ .eof :: tail → r.live.toNat + 8 * bs.length < n →
      ∃ r', decode c r = .truncated r' ∧ r'.bytesIn = r.bytesIn + BitVec.ofNat 32 bs.length ∧ r'.src = tail

/-! ### Decoding and the step -/

/-- Decoding gives back every well-formed instruction from its own bits, at any bit alignment, at every place of the grammar
that admits it and whose code is fixed. -/
def Obligations.DecodeEncodeAgree : Prop :=
  ∀ (c : Ctx) (i : Instr) (r : BitReader) (rest : List Bool), c.plain = true → c.admits i = true → i.wf = true →
    r.bits = encode c i ++ rest → ∃ r', decode c r = .instr i r' ∧ r'.bits = rest

/-- R295 and R297: for lengths 1 to 20 that do not overfill the code space, the table built from them decodes the canonical
code of every symbol to that symbol. -/
def Obligations.CanonicalCodesDecode : Prop :=
  ∀ (s : State) (t v eob : Nat) (r : BitReader) (rest : List Bool),
    Memory.wf s = true → t < s.sel.nGroups.toNat → s.sel.nGroups.toNat ≤ Config.maxGroups → 3 ≤ s.alphaSize →
    s.alphaSize ≤ Config.maxAlpha → s.rowOk t →
    ((s.lengthsOf t).map fun l => 2 ^ (Config.maxCodeLenAccepted - l)).sum ≤ 2 ^ Config.maxCodeLenAccepted →
    v < s.alphaSize → r.bits = canonicalCode (s.lengthsOf t) v ++ rest →
      ∃ r', decode (.symbol ((s.buildTable t).codeTable t) eob) r = .instr (classifySymbol eob v) r' ∧ r'.bits = rest

/-- R298: bits of which no canonical code is a prefix are rejected after MAX_LEN of them, and no further bit is read. -/
def Obligations.UnmatchedBitsReject : Prop :=
  ∀ (s : State) (t eob : Nat) (r : BitReader),
    Memory.wf s = true → t < s.sel.nGroups.toNat → s.sel.nGroups.toNat ≤ Config.maxGroups → 3 ≤ s.alphaSize →
    s.alphaSize ≤ Config.maxAlpha → s.rowOk t →
    maxOf (s.lengthsOf t) ≤ r.bits.length →
    (∀ v, v < s.alphaSize → ¬ canonicalCode (s.lengthsOf t) v <+: r.bits) →
      ∃ r', decode (.symbol ((s.buildTable t).codeTable t) eob) r = .reject .noCode r' ∧
        r'.bits = r.bits.drop (maxOf (s.lengthsOf t))

/-- A step runs the decoded instruction: at a place where an element of the stream is read, in the symbol part (after the
group selection of R296), at a position of the block's chain (R384, R385), and at the command port. -/
def Obligations.StepRunsDecoded : Prop :=
  (∀ (s : State) (c : Ctx) (i : Instr) (r : BitReader), s.coreActs → s.ctxAt s.work.phase = some c →
    (s.work.phase = .output → s.ctl.st = .startBlock) → decode c s.rd = .instr i r → step s = exec i (s.withReader r)) ∧
  (∀ (s : State) (i : Instr) (r : BitReader), s.coreActs → s.work.phase = .symbols → s.selectorsExhausted = false →
    s.takeFromGroup.sym.groupNo.toNat < s.sel.nSelectors.toNat →
    decode (.symbol (s.codeTable (s.sel.selector.look s.takeFromGroup.sym.groupNo.toNat).toNat) s.eob) s.rd = .instr i r →
      step s = exec i (s.takeFromGroup.withReader r)) ∧
  (∀ (s t : State) (b : Byte), s.coreActs → s.work.phase = .output → s.ctl.st.isPartA = true → s.positionLeft = true →
    s.fetchByte = .ok (b, t) → step s = exec (.rle2Literal b) t) ∧
  (∀ (s t : State) (b : Byte), s.coreActs → s.work.phase = .output → s.ctl.st.isPartB = true → s.fourthEqual = true →
    s.positionLeft = true → s.fetchByte = .ok (b, t) → step s = exec (.rle2Count b) t) ∧
  ∀ (s : State) (w : Byte) (rest : List HostEvent), s.hostActs (.command w) rest →
    step s = exec (decodeCommand w) { s with host := rest }

/-- What a step does where the bits give no instruction: TruncatedStream, the fault of the rejection, or nothing while the
source has not answered (R200, R220, R225, R298, R561). At TruncatedStream the bits of a map word that were already read
stand in the map (R250, R251, R520); no other element leaves anything behind. That waiting leaves the whole state is the
model's (log 10). -/
def Obligations.StepWithoutElement : Prop :=
  (∀ (s : State) (c : Ctx), s.coreActs → s.ctxAt s.work.phase = some c →
    (s.work.phase = .output → s.ctl.st = .startBlock) →
      (∀ r, decode c s.rd = .truncated r → c ≠ .inuse16 → c ≠ .inuseInner →
        step s = .next ((s.withReader r).raise .truncatedStream)) ∧
      (∀ r, decode c s.rd = .reject .badSignature r → step s = .next ((s.withReader r).raise .invalidSignature)) ∧
      (∀ r, decode c s.rd = .reject .badMagic r → step s = .next ((s.withReader r).raise .corruptBlockHeader)) ∧
      (decode c s.rd = .wait → step s = .next s)) ∧
  (∀ (s : State) (r : BitReader), Memory.wf s = true → s.coreActs → s.work.phase = .inuse16 →
    decode .inuse16 s.rd = .truncated r →
      ∃ m : Store 1,
        (∀ i, m.look i = if i < s.rd.bits.length then BitVec.ofBool (s.rd.bits.getD i false) else s.map.inUse16.look i) ∧
        step s = .next (State.raise .truncatedStream { s with rd := r, map := { s.map with inUse16 := m } })) ∧
  (∀ (s : State) (r : BitReader), Memory.wf s = true → s.coreActs → s.work.phase = .inuseInner →
    decode .inuseInner s.rd = .truncated r →
      ∃ m : Store 1,
        (∀ v, m.look v =
          if 16 * s.work.rangeIdx.toNat ≤ v ∧ v < 16 * s.work.rangeIdx.toNat + s.rd.bits.length
            then BitVec.ofBool (s.rd.bits.getD (v - 16 * s.work.rangeIdx.toNat) false)
            else s.map.inUse.look v) ∧
        step s = .next (State.raise .truncatedStream { s with rd := r, map := { s.map with inUse := m } })) ∧
  ∀ s : State, s.coreActs → s.work.phase = .symbols → s.selectorsExhausted = false →
    s.takeFromGroup.sym.groupNo.toNat < s.sel.nSelectors.toNat →
      let d := decode (.symbol (s.codeTable (s.sel.selector.look s.takeFromGroup.sym.groupNo.toNat).toNat) s.eob) s.rd
      (∀ r, d = .truncated r → step s = .next ((s.takeFromGroup.withReader r).raise .truncatedStream)) ∧
      (∀ r, d = .reject .noCode r → step s = .next ((s.takeFromGroup.withReader r).raise .noCode)) ∧
      (d = .wait → step s = .next s)

/-! ### The stream header and the block header -/

/-- R220: the signature test, under both settings of the parameter. -/
def Obligations.SignatureTest : Prop :=
  ∀ (s : State) (b0 b1 : Byte) (rest : List Bool), s.coreActs → s.work.phase = .signature →
    s.rd.bits = bitsMsb 8 b0.toNat ++ (bitsMsb 8 b1.toNat ++ rest) →
      ∃ r, r.bits = rest ∧ step s = .next
        (if (s.legacyAnd = true ∧ b0 ≠ 0x42 ∧ b1 ≠ 0x5A) ∨ (s.legacyAnd = false ∧ (b0 ≠ 0x42 ∨ b1 ≠ 0x5A))
          then { s with rd := r }.raise .invalidSignature
          else { s with rd := r, work := { s.work with phase := .trailer } })

/-- R221: the two trailer bytes. A digit 1 to 9 after `h` gives the multiplier; any other pair ends the stream with success. -/
def Obligations.HeaderTrailer : Prop :=
  (∀ (s : State) (h d : Byte) (rest : List Bool), s.coreActs → s.work.phase = .trailer →
    s.rd.bits = bitsMsb 8 h.toNat ++ (bitsMsb 8 d.toNat ++ rest) →
      ∃ r, r.bits = rest ∧
        ((h = 0x68 ∧ 0x31 ≤ d.toNat ∧ d.toNat ≤ 0x39) → step s = .next { s with
          rd := r
          ctl := { s.ctl with blockSize100k := BitVec.ofNat 4 (d.toNat - 0x30), st := .startBlock }
          work := { s.work with phase := .ready }
          out := .response 0x0300 :: s.out }) ∧
        (¬ (h = 0x68 ∧ 0x31 ≤ d.toNat ∧ d.toNat ≤ 0x39) →
          step s = .next (({ s with rd := r }.srcClose.setSt .finished).respond statusOpened 0))) ∧
  (∀ (s : State) (d : Byte), 0x31 ≤ d.toNat → d.toNat ≤ 0x39 → exec (.hdr d) s = .next { s with
    ctl := { s.ctl with blockSize100k := BitVec.ofNat 4 (d.toNat - 0x30), st := .startBlock }
    work := { s.work with phase := .ready }
    out := .response 0x0300 :: s.out }) ∧
  ∀ (s : State) (h d : Byte),
    exec (.otherTrailer h d) s = .next ((s.srcClose.setSt .finished).respond statusOpened 0)

/-- R222 and R225: at a block start all 48 bits are read, then the sentinel, the block magic and every other value part
ways. -/
def Obligations.BlockStart : Prop :=
  ∀ (s : State) (m : BitVec 48) (rest : List Bool), s.coreActs → s.work.phase = .output → s.ctl.st = .startBlock →
    s.rd.bits = bitsMsb 48 m.toNat ++ rest →
      ∃ r, r.bits = rest ∧ step s = .next
        (if m = 0x177245385090 then { s with rd := r, work := { s.work with phase := .streamCrc } }
          else if m = 0x314159265359 then { s with
            rd := r
            cnt := { s.cnt with blockIndex := s.cnt.blockIndex + 1 }
            work := { s.work with phase := .blockCrc } }
          else { s with rd := r }.raise .corruptBlockHeader)

/-- The header elements, each with its whole effect: SIG, BLOCK_MAGIC, EOS_MAGIC, BLOCK_CRC, RAND_BIT, ORIG_PTR (R220, R223,
R225 to R228), and STREAM_CRC (R223, R224, R435), where only a match of the stored combined CRC with the computed one
releases the source, ends the stream and answers EOS. -/
def Obligations.HeaderElements : Prop :=
  (∀ s : State,
    exec .sig s = .next { s with work := { s.work with phase := .trailer } } ∧
    exec .eosMagic s = .next { s with work := { s.work with phase := .streamCrc } } ∧
    exec .blockMagic s = .next { s with
      cnt := { s.cnt with blockIndex := s.cnt.blockIndex + 1 }, work := { s.work with phase := .blockCrc } } ∧
    (∀ c, exec (.blockCrc c) s = .next { s with
      blk := { s.blk with storedBlockCrc := c }, work := { s.work with phase := .randBit } }) ∧
    (∀ r, exec (.randBit r) s = .next { s with
      blk := { s.blk with randomised := r == 1 }, work := { s.work with phase := .origPtr } }) ∧
    ∀ p, exec (.origPtr p) s = .next { s with
      blk := { s.blk with origPtr := p }, work := { s.work with phase := .inuse16 } }) ∧
  (∀ (s : State) (c : Word), c ≠ s.crc.combinedCrc →
    exec (.streamCrc c) s = .next ({ s with blk := { s.blk with storedCombinedCrc := c } }.raise .crcMismatchStream)) ∧
  ∀ s : State,
    exec (.streamCrc s.crc.combinedCrc) s = .next
      ((({ s with blk := { s.blk with storedCombinedCrc := s.crc.combinedCrc } }.srcClose.setSt .finished)).respond
        statusEos 0)

/-! ### The tables -/

/-- R250 and R251: INUSE16 writes the sixteen presence bits, INUSE_INNER the sixteen bits of its range, first bit lowest;
then the loop over the ranges `l` still to come goes on: the absent ranges before the first present one are cleared, and the
inner word of that one is read next; if none is present, the map is complete. -/
def Obligations.MappingWords : Prop :=
  (∀ (s : State) (u : BitVec 16), Memory.wf s = true →
    ∃ m : Store 1, (∀ i, m.look i = if i < 16 then BitVec.ofBool (u.getLsbD (15 - i)) else s.map.inUse16.look i) ∧
      exec (.inuse16 u) s = .next (State.seekRange (List.range 16) { s with map := { s.map with inUse16 := m } })) ∧
  (∀ (s : State) (b : BitVec 16), Memory.wf s = true →
    ∃ m : Store 1,
      (∀ v, m.look v = if v / 16 = s.work.rangeIdx.toNat then BitVec.ofBool (b.getLsbD (15 - v % 16))
        else s.map.inUse.look v) ∧
      exec (.inuseInner b) s = .next
        (State.seekRange (upTo (s.work.rangeIdx.toNat + 1) 15) { s with map := { s.map with inUse := m } })) ∧
  ∀ (s : State) (l : List Nat), Memory.wf s = true →
    ∃ m : Store 1,
      (∀ v, m.look v = if v / 16 ∈ l.takeWhile (fun i => s.map.inUse16.look i ≠ 1) then 0 else s.map.inUse.look v) ∧
      (∀ i rest, l.dropWhile (fun i => s.map.inUse16.look i ≠ 1) = i :: rest →
        State.seekRange l s = { s with
          map := { s.map with inUse := m }
          work := { s.work with rangeIdx := BitVec.ofNat 4 i, phase := .inuseInner } }) ∧
      (l.dropWhile (fun i => s.map.inUse16.look i ≠ 1) = [] →
        State.seekRange l s = { s with map := { s.map with inUse := m } }.finishMap)

/-- R252 and R253: the sequence index of a byte is its rank among the bytes in use, N_IN_USE their number; an empty map
faults 6.7, else the group count is read next. -/
def Obligations.MapConstruction : Prop :=
  ∀ s : State, Memory.wf s = true →
    ∃ f g : Store 8,
      (∀ k, f.look k = if k < s.usedBytes.length then BitVec.ofNat 8 (s.usedBytes.getD k 0) else s.map.seqToUnseq.look k) ∧
      (∀ v, g.look v = if v ∈ s.usedBytes then BitVec.ofNat 8 (s.usedBytes.idxOf v) else s.map.unseqToSeq.look v) ∧
      s.finishMap =
        (let t : State := { s with map := { s.map with
          seqToUnseq := f, unseqToSeq := g, nInUse := BitVec.ofNat 9 s.usedBytes.length } }
        if s.usedBytes = [] then t.raise .emptyMap else { t with work := { t.work with phase := .nGroups } })

/-- R254 and R255: the counts, with the faults 6.1 and 6.2, and the identity list the ranks start from (R256). -/
def Obligations.GroupAndSelectorCounts : Prop :=
  (∀ (s : State) (n : BitVec 3),
    exec (.nGroups n) s = .next
      (if n = 0 ∨ n = 7 then { s with sel := { s.sel with nGroups := n } }.raise .groupCount
        else { s with sel := { s.sel with nGroups := n }, work := { s.work with phase := .nSelectors } })) ∧
  (∀ s : State,
    exec (.nSelectors 0) s = .next ({ s with sel := { s.sel with nSelectors := 0 } }.raise .selectorCount)) ∧
  ∀ (s : State) (n : BitVec 15), Memory.wf s = true → n ≠ 0 → s.sel.nGroups.toNat ≤ Config.maxGroups →
    ∃ m : Store 3,
      (∀ k, m.look k = if k < s.sel.nGroups.toNat then BitVec.ofNat 3 k else s.sel.selPos.look k) ∧
      exec (.nSelectors n) s = .next { s with
        sel := { s.sel with nSelectors := n, selPos := m }
        work := { s.work with selIdx := 0, phase := .selector } }

/-- R256 and R257: a rank below N_GROUPS is undone by a move to front, and the next rank, or after the last one the lengths of
group 0, follow; a rank that reaches N_GROUPS faults 6.3, and is known as soon as that many 1 bits are read. -/
def Obligations.SelectorRanks : Prop :=
  (∀ (s : State) (j : BitVec 3), s.sel.nGroups.toNat ≤ j.toNat → exec (.selectorMtf j) s = .next (s.raise .selectorRank)) ∧
  (∀ (n : Nat) (r : BitReader) (rest : List Bool), 1 ≤ n → n ≤ Config.maxGroups →
    r.bits = List.replicate n true ++ rest →
      ∃ r', decode (.selector n) r = .instr (.selectorMtf (BitVec.ofNat 3 n)) r' ∧ r'.bits = rest) ∧
  ∀ (s : State) (j : BitVec 3), Memory.wf s = true → j.toNat < s.sel.nGroups.toNat →
    s.sel.nGroups.toNat ≤ Config.maxGroups → s.work.selIdx.toNat < s.sel.nSelectors.toNat →
      ∃ p q : Store 3,
        (∀ k, p.look k = if k = 0 then s.sel.selPos.look j.toNat
          else if k ≤ j.toNat then s.sel.selPos.look (k - 1) else s.sel.selPos.look k) ∧
        (∀ k, q.look k = if k = s.work.selIdx.toNat then s.sel.selPos.look j.toNat else s.sel.selector.look k) ∧
        exec (.selectorMtf j) s = .next { s with
          sel := { s.sel with selPos := p, selector := q }
          work := if s.work.selIdx.toNat + 1 < s.sel.nSelectors.toNat
            then { s.work with selIdx := s.work.selIdx + 1, phase := .selector }
            else { s.work with lenGroup := 0, phase := .lenStart } }

/-- R258 to R260: the start length and each delta set the current length, and a length outside 1 to 20 faults 6.4 before the
next flag bit is read. -/
def Obligations.CodeLengthElements : Prop :=
  (∀ (s : State) (c : BitVec 5),
    exec (.lenStart c) s = .next
      (if c.toNat < 1 ∨ 20 < c.toNat then { s with work := { s.work with lenSym := 0, curr := c } }.raise .codeLength
        else { s with work := { s.work with lenSym := 0, curr := c, phase := .lenDelta } })) ∧
  (∀ s : State, s.work.curr.toNat ≤ 20 →
    exec .lenInc s = .next
      (if 20 < s.work.curr.toNat + 1
        then { s with work := { s.work with curr := BitVec.ofNat 5 (s.work.curr.toNat + 1) } }.raise .codeLength
        else { s with work := { s.work with
          curr := BitVec.ofNat 5 (s.work.curr.toNat + 1), phase := .lenDelta } })) ∧
  ∀ s : State, 1 ≤ s.work.curr.toNat → s.work.curr.toNat ≤ 20 →
    exec .lenDec s = .next
      (if s.work.curr.toNat - 1 < 1
        then { s with work := { s.work with curr := BitVec.ofNat 5 (s.work.curr.toNat - 1) } }.raise .codeLength
        else { s with work := { s.work with
          curr := BitVec.ofNat 5 (s.work.curr.toNat - 1), phase := .lenDelta } })

/-- R259 and R261: LEN_END stores the current length; the next symbol follows, or the next group, or after the last group the
table build and the start of the symbol part. -/
def Obligations.LengthEnd : Prop :=
  ∀ s : State, Memory.wf s = true → s.work.lenGroup.toNat < s.sel.nGroups.toNat →
    s.sel.nGroups.toNat ≤ Config.maxGroups → s.work.lenSym.toNat < s.alphaSize → s.alphaSize ≤ Config.maxAlpha →
      ∃ m : Store 5,
        (∀ k, m.look k = if k = symbolKey s.work.lenGroup.toNat s.work.lenSym.toNat then s.work.curr
          else s.tab.len.look k) ∧
        (s.work.lenSym.toNat + 1 < s.alphaSize → exec .lenEnd s = .next { s with
          tab := { s.tab with len := m }
          work := { s.work with lenSym := s.work.lenSym + 1, phase := .lenDelta } }) ∧
        (s.work.lenSym.toNat + 1 = s.alphaSize → s.work.lenGroup.toNat + 1 < s.sel.nGroups.toNat →
          exec .lenEnd s = .next { s with
            tab := { s.tab with len := m }
            work := { s.work with lenGroup := s.work.lenGroup + 1, phase := .lenStart } }) ∧
        (s.work.lenSym.toNat + 1 = s.alphaSize → s.work.lenGroup.toNat + 1 = s.sel.nGroups.toNat →
          (∀ t, t < s.sel.nGroups.toNat → State.rowOk { s with tab := { s.tab with len := m } } t) →
            exec .lenEnd s = .next
              ((List.range s.sel.nGroups.toNat).foldl State.buildTable { s with tab := { s.tab with len := m } }).initSymbols)

/-- R290: PERM holds the symbols by ascending length, symbols of one length in ascending order; every other row, and every
field but the tables of group `t`, is as before. -/
def Obligations.PermutationOrder : Prop :=
  ∀ (s : State) (t : Nat), Memory.wf s = true → t < Config.maxGroups → 3 ≤ s.alphaSize → s.alphaSize ≤ Config.maxAlpha →
    s.rowOk t →
      (List.range s.alphaSize).map (fun k => ((s.buildTable t).tab.perm.look (symbolKey t k)).toNat)
        = (upTo 1 Config.maxCodeLenAccepted).flatMap (fun l => (List.range s.alphaSize).filter fun j => s.lenAt t j = l) ∧
      (∀ k, (∀ j, j < s.alphaSize → k ≠ symbolKey t j) → (s.buildTable t).tab.perm.look k = s.tab.perm.look k) ∧
      ∃ tab : HuffTables, s.buildTable t = { s with tab := tab } ∧ tab.len = s.tab.len ∧
        (tab.minLen.look t).toNat = minOf (s.lengthsOf t) ∧ (tab.maxLen.look t).toNat = maxOf (s.lengthsOf t) ∧
        ∀ u, u ≠ t → tab.minLen.look u = s.tab.minLen.look u ∧ tab.maxLen.look u = s.tab.maxLen.look u

/-- R291 and R292: after the histogram and the prefix sum, `BASE[t][l]` is the number of symbols whose length is below `l`,
for every `l` in 0..22, and the rows of other groups are as before. -/
def Obligations.CumulativeCounts : Prop :=
  ∀ (s : State) (t : Nat), Memory.wf s = true → t < Config.maxGroups → s.alphaSize ≤ Config.maxAlpha → s.rowOk t →
    (∀ l, l ≤ 22 → ((prefixSum t (histogram t s.alphaSize s.tab.len s.tab.base)).look (lengthKey t l)).toNat
      = s.codesBelow t l) ∧
    ∀ k, (∀ l, l ≤ 22 → k ≠ lengthKey t l) →
      (prefixSum t (histogram t s.alphaSize s.tab.len s.tab.base)).look k = s.tab.base.look k

/-- R293 and R294: with `first l` the first canonical code of length `l`, `LIMIT[t][l]` is the last one and `BASE[t][l]` is
the first one minus the number of shorter symbols, for every length from the shortest to the longest; outside them LIMIT
is 0. -/
def Obligations.LimitsAndBases : Prop :=
  ∀ (s : State) (t : Nat), Memory.wf s = true → t < Config.maxGroups → 3 ≤ s.alphaSize → s.alphaSize ≤ Config.maxAlpha →
    s.rowOk t →
      (∀ k, minOf (s.lengthsOf t) + k ≤ maxOf (s.lengthsOf t) →
        let l := minOf (s.lengthsOf t) + k
        let first := firstCode (s.codesOf t) (minOf (s.lengthsOf t)) k
        ((s.buildTable t).codeTable t).limitAt l + 1 = first + s.codesOf t l ∧
          ((s.buildTable t).codeTable t).baseAt l + s.codesBelow t l = first) ∧
      (∀ l, l ≤ 22 → l < minOf (s.lengthsOf t) ∨ maxOf (s.lengthsOf t) < l →
        ((s.buildTable t).codeTable t).limitAt l = 0 ∧
          ((s.buildTable t).codeTable t).baseAt l = s.codesBelow t l) ∧
      ∀ k, (∀ l, l ≤ 22 → k ≠ lengthKey t l) →
        (s.buildTable t).tab.limit.look k = s.tab.limit.look k ∧ (s.buildTable t).tab.base.look k = s.tab.base.look k

/-! ### Symbols -/

/-- R320: the start of the symbol part. -/
def Obligations.SymbolPartStart : Prop :=
  ∀ s : State, Memory.wf s = true →
    ∃ (f : Store 20) (m : Store 8),
      (∀ c, f.look c = if c < 256 then 0 else s.sym.freq.look c) ∧
      (∀ i, m.look i = if i < 256 then BitVec.ofNat 8 i else s.sym.mtf.look i) ∧
      s.initSymbols = { s with
        sym := { s.sym with groupNo := 0xFFFF, groupPos := 0, freq := f, mtf := m, nblock := 0 }
        work := { s.work with inRun := false, phase := .symbols } }

/-- R296: the group selection before every symbol, and fault 6.6 when no selector is left. -/
def Obligations.GroupSelection : Prop :=
  (∀ s : State, s.sym.groupPos = 0 →
    s.takeFromGroup = { s with sym := { s.sym with groupNo := s.sym.groupNo + 1, groupPos := 49 } }) ∧
  (∀ s : State, s.sym.groupPos ≠ 0 →
    s.takeFromGroup = { s with sym := { s.sym with groupPos := s.sym.groupPos - 1 } }) ∧
  (∀ s : State, s.selectorsExhausted = true ↔
    s.sym.groupPos = 0 ∧ (s.sel.nSelectors.toNat : Int) ≤ (s.sym.groupNo + 1).toInt) ∧
  ∀ s : State, s.coreActs → s.work.phase = .symbols → s.selectorsExhausted = true →
    step s = .next
      ({ s with sym := { s.sym with groupNo := s.sym.groupNo + 1 } }.raise .selectorsExhausted)

/-- R323 and R325: one run digit, the first of a run or a later one, and the overrun check after it. -/
def Obligations.RunDigits : Prop :=
  ∀ s : State, s.sym.nblock.toNat ≤ s.capacity → s.capacity ≤ Config.bufCapacity →
    (s.work.inRun = true → s.RunOk) →
    ∀ d : Nat, d ≤ 1 →
      let len := (if s.work.inRun then s.sym.runLen.toNat else 0) + (if s.work.inRun then s.sym.runWeight.toNat else 1) * (d + 1)
      let weight := 2 * (if s.work.inRun then s.sym.runWeight.toNat else 1)
      let t : State := { s with
        sym := { s.sym with runLen := BitVec.ofNat 21 len, runWeight := BitVec.ofNat 21 weight }
        work := { s.work with inRun := true } }
      len < 2 ^ 21 ∧ weight < 2 ^ 21 ∧
      exec (if d = 0 then .symRuna else .symRunb) s = .next
        (if s.capacity < s.sym.nblock.toNat + len then t.raise .blockOverrunRun
          else { t with work := { t.work with phase := .symbols } })

/-- R323: a sequence of run digits that fits the block accumulates its bijective base-2 value, least significant digit
first, and writes nothing else. -/
def Obligations.RunLength : Prop :=
  ∀ (s : State) (d : Nat) (ds : List Nat), s.work.inRun = false → s.work.phase = .symbols →
    (∀ x ∈ d :: ds, x ≤ 1) → s.capacity ≤ Config.bufCapacity →
    s.sym.nblock.toNat + runValue (d :: ds) ≤ s.capacity →
      (d :: ds).foldl (fun u x => u.runDigit x) s = { s with
        sym := { s.sym with
          runLen := BitVec.ofNat 21 (runValue (d :: ds)), runWeight := BitVec.ofNat 21 (2 ^ (ds.length + 1)) }
        work := { s.work with inRun := true } }

/-- R324: the end of a run writes its copies and counts them; the symbol that ends it, a literal or EOB, then acts on the
state the run leaves. -/
def Obligations.RunEmission : Prop :=
  ∀ s : State, Memory.wf s = true → s.work.inRun = true →
    s.sym.nblock.toNat + s.sym.runLen.toNat ≤ Config.bufCapacity →
      ∃ (m : Store 8) (f : Store 20),
        (∀ i, m.look i = if s.sym.nblock.toNat ≤ i ∧ i < s.sym.nblock.toNat + s.sym.runLen.toNat then s.runByte
          else s.bwt.ll8.look i) ∧
        (∀ c, f.look c = if c = s.runByte.toNat then s.sym.freq.look c + BitVec.ofNat 20 s.sym.runLen.toNat
          else s.sym.freq.look c) ∧
        (let t : State := { s with
          sym := { s.sym with freq := f, nblock := BitVec.ofNat 20 (s.sym.nblock.toNat + s.sym.runLen.toNat) }
          bwt := { s.bwt with ll8 := m }
          work := { s.work with inRun := false } }
        (∀ v, exec (.symMtfv v) s = exec (.symMtfv v) t) ∧ exec .symEob s = exec .symEob t)

/-- R326 and R327: a literal outside a run moves its entry to the front, writes its byte and counts it; in a full block it
faults 4.1 and writes nothing. -/
def Obligations.LiteralSymbol : Prop :=
  (∀ (s : State) (v : BitVec 9), s.work.inRun = false → s.capacity ≤ s.sym.nblock.toNat →
    exec (.symMtfv v) s = .next (s.raise .blockOverrunLiteral)) ∧
  ∀ (s : State) (v : BitVec 9), Memory.wf s = true → s.work.inRun = false → 2 ≤ v.toNat → v.toNat ≤ 256 →
    s.sym.nblock.toNat < s.capacity → s.capacity ≤ Config.bufCapacity →
      ∃ (p ll8 : Store 8) (f : Store 20),
        (∀ k, p.look k = if k = 0 then s.sym.mtf.look (v.toNat - 1)
          else if k ≤ v.toNat - 1 then s.sym.mtf.look (k - 1) else s.sym.mtf.look k) ∧
        (let ch := s.map.seqToUnseq.look (s.sym.mtf.look (v.toNat - 1)).toNat
        (∀ i, ll8.look i = if i = s.sym.nblock.toNat then ch else s.bwt.ll8.look i) ∧
        (∀ c, f.look c = if c = ch.toNat then s.sym.freq.look c + 1 else s.sym.freq.look c) ∧
        exec (.symMtfv v) s = .next { s with
          sym := { s.sym with mtf := p, freq := f, nblock := s.sym.nblock + 1 }
          bwt := { s.bwt with ll8 := ll8 }
          work := { s.work with phase := .symbols } })

/-- R328 and R257: moving an entry to the front permutes the list, whatever prefix holding it is looked at. -/
def Obligations.MoveToFrontPermutes : Prop :=
  ∀ (w : Nat) (m : Store w) (j n : Nat), m.wf = true → j < n →
    ((List.range n).map (moveToFront m j).look).Perm ((List.range n).map m.look) ∧
      ∀ k, n ≤ k → (moveToFront m j).look k = m.look k

/-- R360: `CFTAB[c]` is the number of bytes below `c`. -/
def Obligations.CumulativeTable : Prop :=
  ∀ (freq cftab : Store 20), cftab.wf = true →
    ((List.range 256).map fun b => (freq.look b).toNat).sum < 2 ^ 20 →
      (∀ c, c ≤ 256 → ((cumulate freq cftab).look c).toNat = ((List.range c).map fun b => (freq.look b).toNat).sum) ∧
      ∀ c, 256 < c → (cumulate freq cftab).look c = cftab.look c

/-- R329, R361, R381: EOB outside a run. An origin pointer outside the block faults 6.8. Otherwise the successor chain is
the positions of the block sorted by their byte, equal bytes in order, and the output registers are set up. -/
def Obligations.EndOfBlock : Prop :=
  (∀ s : State, s.work.inRun = false → s.sym.nblock.toNat ≤ s.blk.origPtr.toNat →
    exec .symEob s = .next (s.raise .originPointer)) ∧
  ∀ s : State, Memory.wf s = true → s.work.inRun = false → s.blk.origPtr.toNat < s.sym.nblock.toNat →
    s.sym.nblock.toNat ≤ Config.bufCapacity → s.FreqOk →
      ∃ (tt cf : Store 20),
        (List.range s.sym.nblock.toNat).map (fun i => (tt.look i).toNat)
          = sortedPositions s.sym.nblock.toNat s.bwt.ll8.look ∧
        (∀ i, s.sym.nblock.toNat ≤ i → tt.look i = s.bwt.tt.look i) ∧
        (∀ c, c ≤ 256 →
          (cf.look c).toNat = ((List.range (min (c + 1) 256)).map fun b => (s.sym.freq.look b).toNat).sum) ∧
        (∀ c, 256 < c → cf.look c = s.bwt.cftab.look c) ∧
        exec .symEob s = .next { s with
          bwt := { s.bwt with tt := tt, cftab := cf }
          crc := { s.crc with blockCrc := 0xFFFFFFFF }
          cur := { tPos := tt.look s.blk.origPtr.toNat, consumed := 0, chCur := 256, chPrev := 256, runCount := 0,
                   repCount := 0, repDone := 0, rNtogo := 0, rTpos := 0 }
          ctl := { s.ctl with st := if s.blk.randomised then .randPartA else .noRandPartA }
          work := { s.work with phase := .output } }

/-! ### Output -/

/-- R382 and R383: the byte fetch, plain and derandomised. -/
def Obligations.ByteFetch : Prop :=
  (∀ s : State, s.cur.tPos.toNat < s.sym.nblock.toNat → s.sym.nblock.toNat ≤ Config.bufCapacity →
    s.fetchByte = .ok
      (let t : State := { s with cur := { s.cur with tPos := s.bwt.tt.look s.cur.tPos.toNat } }
      if s.blk.randomised then t.derandomise (s.bwt.ll8.look s.cur.tPos.toNat)
        else (s.bwt.ll8.look s.cur.tPos.toNat, t))) ∧
  (∀ (s : State) (b : Byte), s.cur.rNtogo ≠ 0 →
    s.derandomise b = (if s.cur.rNtogo = 2 then b ^^^ 1 else b, { s with cur := { s.cur with rNtogo := s.cur.rNtogo - 1 } })) ∧
  ∀ (s : State) (b : Byte), s.cur.rNtogo = 0 →
    s.derandomise b = (b, { s with cur := { s.cur with
      rNtogo := BitVec.ofNat 10 (rnum s.cur.rTpos.toNat - 1), rTpos := BitVec.ofNat 9 ((s.cur.rTpos.toNat + 1) % 512) } })

/-- R383: from the block setup on, the bytes flipped are exactly those at the positions
`RNUMS[0] + ... + RNUMS[m] - 2`, the table taken cyclically. -/
def Obligations.FlippedPositions : Prop :=
  ∀ (s : State) (bs : List Byte), s.cur.rNtogo = 0 → s.cur.rTpos = 0 →
    (derandomiseAll bs s).length = bs.length ∧
    ∀ k b, bs[k]? = some b →
      ((∃ m, k = flipPosition m) → (derandomiseAll bs s)[k]? = some (b ^^^ 1)) ∧
      ((∀ m, k ≠ flipPosition m) → (derandomiseAll bs s)[k]? = some b)

/-- R384 and R385: a literal position is emitted, fed to the CRC and counted; a count position is stored and not emitted. -/
def Obligations.DecodedBlockElements : Prop :=
  ∀ (s : State) (b : Byte),
    exec (.rle2Literal b) s = .next { s with
      cur := { s.cur with chPrev := s.cur.chCur, chCur := b.setWidth 9, consumed := s.cur.consumed + 1 }
      crc := { s.crc with blockCrc := crcStep s.crc.blockCrc b }
      ctl := { s.ctl with st := if s.blk.randomised then .randPartB else .noRandPartB }
      cnt := { s.cnt with bytesOut := s.cnt.bytesOut + 1 }
      work := { s.work with phase := .ready }
      out := .response (0#8 ++ b) :: s.out } ∧
    exec (.rle2Count b) s = .next { s with
      cur := { s.cur with runCount := s.cur.runCount + 1, repCount := b, repDone := 0 }
      ctl := { s.ctl with st := if s.blk.randomised then .randPartC else .noRandPartC }
      work := { s.work with phase := .output } }

/-- R385, R386, R387: the driver's iterations that take no element. PART_B compares, PART_C copies or ends, PART_A at the end
of the block checks the block CRC and folds it into the combined one. -/
def Obligations.OutputTransitions : Prop :=
  (∀ s : State, s.coreActs → s.work.phase = .output → s.ctl.st.isPartB = true → s.cur.chCur ≠ s.cur.chPrev →
    step s = .next { s with cur := { s.cur with runCount := 1 }, ctl := { s.ctl with st := s.partA } }) ∧
  (∀ s : State, s.coreActs → s.work.phase = .output → s.ctl.st.isPartB = true → s.cur.chCur = s.cur.chPrev →
    s.cur.runCount.toNat < 3 →
    step s = .next { s with
      cur := { s.cur with runCount := s.cur.runCount + 1 }, ctl := { s.ctl with st := s.partA } }) ∧
  (∀ s : State, s.coreActs → s.work.phase = .output → s.ctl.st.isPartB = true → s.cur.chCur = s.cur.chPrev →
    3 ≤ s.cur.runCount.toNat → s.sym.nblock.toNat ≤ s.cur.consumed.toNat →
    step s = .next ({ s with cur := { s.cur with runCount := s.cur.runCount + 1 } }.raise .missingCount)) ∧
  (∀ s : State, s.coreActs → s.work.phase = .output → s.ctl.st.isPartC = true →
    s.cur.repDone.toNat < s.cur.repCount.toNat →
    step s = .next { s with
      cur := { s.cur with repDone := s.cur.repDone + 1 }
      crc := { s.crc with blockCrc := crcStep s.crc.blockCrc (s.cur.chCur.setWidth 8) }
      cnt := { s.cnt with bytesOut := s.cnt.bytesOut + 1 }
      work := { s.work with phase := .ready }
      out := .response (0#8 ++ s.cur.chCur.setWidth 8) :: s.out }) ∧
  (∀ s : State, s.coreActs → s.work.phase = .output → s.ctl.st.isPartC = true →
    s.cur.repCount.toNat ≤ s.cur.repDone.toNat →
    step s = .next { s with
      cur := { s.cur with consumed := s.cur.consumed + 1, runCount := 0 }, ctl := { s.ctl with st := s.partA } }) ∧
  (∀ s : State, s.coreActs → s.work.phase = .output → s.ctl.st.isPartA = true →
    s.sym.nblock.toNat ≤ s.cur.consumed.toNat → ~~~ s.crc.blockCrc = s.blk.storedBlockCrc →
    step s = .next { s with
      crc := { s.crc with
        computedBlockCrc := ~~~ s.crc.blockCrc
        combinedCrc := s.crc.combinedCrc.rotateLeft 1 ^^^ ~~~ s.crc.blockCrc }
      ctl := { s.ctl with st := .startBlock } }) ∧
  ∀ s : State, s.coreActs → s.work.phase = .output → s.ctl.st.isPartA = true →
    s.sym.nblock.toNat ≤ s.cur.consumed.toNat → ~~~ s.crc.blockCrc ≠ s.blk.storedBlockCrc →
    step s = .next ({ s with crc := { s.crc with computedBlockCrc := ~~~ s.crc.blockCrc } }.raise .crcMismatchBlock)

/-- R430: one byte of the CRC is its eight bits, most significant first, through the shift register of the polynomial. -/
def Obligations.CrcBitByBit : Prop :=
  ∀ (c : Word) (b : Byte), crcStep c b = (bitsMsb 8 b.toNat).foldl crcBit c

/-- R391 and R126: from the setup of a block whose chain, read as literals and count bytes, stands for `bytes`, the
outstanding NEXT and as many further ones as there are bytes answer exactly these bytes, in order; the last one then stands
at the end of the block with every position consumed and the block CRC folded over exactly these bytes. -/
def Obligations.BlockOutput : Prop :=
  ∀ (s : State) (bytes : List Byte), s.Inv → s.work.phase = .output → s.ctl.st.isPartA = true → s.cur.consumed = 0 →
    s.cur.chCur = 256 → s.cur.chPrev = 256 → s.cur.runCount = 0 →
    expandRuns 0 none (State.chainBytes s.sym.nblock.toNat s) = some bytes →
    s.host = List.replicate bytes.length (.whenReady (.command 2)) →
      ∃ k t, Host.Core.run core k s = .next t ∧
        responsesOf t.out = (bytes.map fun b => (0#8 ++ b : BitVec 16)).reverse ++ responsesOf s.out ∧
        t.work.phase = .output ∧ t.ctl.st.isPartA = true ∧ t.cur.consumed = s.sym.nblock ∧ t.host = [] ∧
        t.crc.blockCrc = bytes.foldl crcStep s.crc.blockCrc ∧ t.rd = s.rd

/-! ### The whole machine -/

/-- R451: a command ends with exactly one response, and no response is put out without a command. -/
def Obligations.OneResponsePerCommand : Prop :=
  ∀ s t : State, step s = .next t → ¬ s.takesReset →
    (responsesOf t.out = responsesOf s.out ∧ (t.work.phase = .ready ↔ s.work.phase = .ready ∧ ¬ s.takesCommand)) ∨
    (∃ w, responsesOf t.out = w :: responsesOf s.out ∧ t.work.phase = .ready ∧
      (s.work.phase ≠ .ready ∨ s.takesCommand))

/-- R90 and R470: the strobe is pulsed only in a step that releases the source, and only OPEN takes a source, so it is pulsed
at most once per OPEN. -/
def Obligations.StrobeOncePerOpen : Prop :=
  ∀ s t : State, step s = .next t →
    (strobesOf t.out = strobesOf s.out ∨
      (strobesOf t.out = strobesOf s.out + 1 ∧ s.ctl.srcClosed = false ∧ t.ctl.srcClosed = true ∧ s.ctl.noClose = false)) ∧
    (s.ctl.srcClosed = true → t.ctl.srcClosed = false →
      s.ctl.st = .idle ∧ ∃ w rest nc, s.hostActs (.command w) rest ∧ decodeCommand w = .openCmd nc)

/-- R521: in FAULT, NEXT repeats the stored fault, OPEN is refused, and CLOSE goes to IDLE and clears the fault; no step
leaves FAULT but CLOSE and reset, and none reads the stream or changes the stored fault. -/
def Obligations.FaultIsSticky : Prop :=
  (∀ s : State, s.work.phase = .ready → s.ctl.st = .fault →
    exec .nextCmd s =
      .next { s with out := .response ((0#5 ++ 2#3) ++ (s.ctl.faultDetail ++ s.ctl.faultCode)) :: s.out } ∧
    (∀ nc, exec (.openCmd nc) s = .next { s with out := .response 0x0501 :: s.out }) ∧
    ∃ t, exec .closeCmd s = .next t ∧ t.ctl.st = .idle ∧ t.ctl.faultCode = 0 ∧ t.ctl.faultDetail = 0) ∧
  ∀ s t : State, s.CtlOk → s.ctl.st = .fault → step s = .next t →
    s.takesReset ∨
    (t.ctl.st = .idle ∧ t.ctl.faultCode = 0 ∧ t.ctl.faultDetail = 0 ∧
      ∃ w rest, s.hostActs (.command w) rest ∧ decodeCommand w = .closeCmd) ∨
    (t.ctl.st = .fault ∧ t.ctl.faultCode = s.ctl.faultCode ∧ t.ctl.faultDetail = s.ctl.faultDetail ∧ t.rd = s.rd)

/-- R99: after the end of the stream no step reads the source; only attaching another one and reset change the reader. -/
def Obligations.NothingReadAfterEnd : Prop :=
  ∀ s t : State, s.CtlOk → s.ctl.st = .finished → step s = .next t → ¬ s.takesReset →
    (∀ answers rest, ¬ s.hostActs (.attach answers) rest) → t.rd = s.rd

/-- R97: while a block is being emitted, no step but a reset changes the buffers, the tables or the block length. -/
def Obligations.EmissionKeepsBlock : Prop :=
  ∀ s t : State, s.CtlOk → s.ctl.st.inPart = true → step s = .next t → ¬ s.takesReset →
    t.bwt = s.bwt ∧ t.sym = s.sym ∧ t.tab = s.tab ∧ t.sel = s.sel ∧ t.map = s.map

/-- R437: outside a block setup and reset, BLOCK_CRC changes by exactly the bytes returned. -/
def Obligations.CrcCoversReturnedBytes : Prop :=
  ∀ s t : State, step s = .next t → ¬ s.takesReset →
    (s.work.phase = .symbols ∧ t.work.phase = .output ∧ bytesOf (newEvents s t) = [] ∧ t.crc.blockCrc = 0xFFFFFFFF) ∨
    t.crc.blockCrc = (bytesOf (newEvents s t)).foldl crcStep s.crc.blockCrc

/-- R328: throughout the symbol part the MTF list is a permutation of 0..255, and its first N_IN_USE entries of
0..N_IN_USE-1. -/
def Obligations.MtfStaysPermutation : Prop :=
  ∀ s t : State, s.Inv → step s = .next t →
    (s.work.phase = .symbols → ∀ n, n = 256 ∨ n = s.map.nInUse.toNat →
      ((List.range n).map fun i => (s.sym.mtf.look i).toNat).Perm (List.range n)) →
    (t.work.phase = .symbols → ∀ n, n = 256 ∨ n = t.map.nInUse.toNat →
      ((List.range n).map fun i => (t.sym.mtf.look i).toNat).Perm (List.range n))

/-- R27 and R390: where the core reads the stream, every step that neither waits nor answers consumes at least one bit. -/
def Obligations.ReadingAdvances : Prop :=
  ∀ s t : State, s.coreActs → (s.work.phase = .output → s.ctl.st = .startBlock) → step s = .next t →
      t = s ∨ t.work.phase = .ready ∨ t.rd.bits.length < s.rd.bits.length

/-- R390: while a block is emitted the driver answers, or comes to the next block start, within three iterations. -/
def Obligations.DriverTerminates : Prop :=
  ∀ s : State, s.Inv → s.hostWaits = true → s.work.phase = .output → s.ctl.st.inPart = true →
    ∃ k t, k ≤ 3 ∧ Host.Core.run core k s = .next t ∧
      (t.work.phase = .ready ∨ (t.ctl.st = .startBlock ∧ t.work.phase = .output))

/-- R21 to R25: every step keeps the control state coherent. -/
def Obligations.ControlStaysCoherent : Prop :=
  ∀ s t : State, s.CtlOk → step s = .next t → t.CtlOk

/-- Every step keeps every store in its canonical form. -/
def Obligations.StoresStayCanonical : Prop :=
  ∀ s t : State, Memory.wf s = true → step s = .next t → Memory.wf t = true

/-- R85: every step of a safe state keeps the ranges of the stores and what they rest on. -/
def Obligations.RangesAreKept : Prop :=
  ∀ s t : State, s.Inv → step s = .next t → t.DataOk

/-- R86: no step of a safe state produces an index outside its store's range: the model never faults there. -/
def Obligations.NoModelFault : Prop :=
  ∀ (s : State) (f : Fault), s.Inv → step s ≠ .fault f
end

