-- ==== Sys2Proof/Laws/BitReader.lean ====
section
/-! SUPPORT. What the bit reader does, said once (40_bit_reader.md): a read takes the next bits of the stream, first bit
highest, whatever their alignment, and leaves the rest. Every law about decoding cites these. -/

namespace Sys2Proof

/-! ### Bit strings -/

@[simp] theorem bitsMsb_length (n v : Nat) : (bitsMsb n v).length = n := by simp [bitsMsb]

theorem bitsMsb_getElem (n v k : Nat) (h : k < (bitsMsb n v).length) :
    (bitsMsb n v)[k] = v.testBit (n - 1 - k) := by simp [bitsMsb]

theorem bitsMsb_congr {n v u : Nat} (h : ∀ i < n, v.testBit i = u.testBit i) : bitsMsb n v = bitsMsb n u := by
  refine List.ext_getElem (by simp) fun k h1 h2 => ?_
  rw [bitsMsb_getElem, bitsMsb_getElem]
  have : k < n := by simpa using h1
  exact h _ (by omega)

/-- The high bits first, then the low ones. -/
theorem bitsMsb_add (a b v : Nat) : bitsMsb (a + b) v = bitsMsb a (v >>> b) ++ bitsMsb b v := by
  refine List.ext_getElem (by simp) fun k h1 h2 => ?_
  have hk : k < a + b := by simpa using h1
  rw [bitsMsb_getElem]
  by_cases hka : k < a
  · rw [List.getElem_append_left (by simpa using hka), bitsMsb_getElem, Nat.testBit_shiftRight]
    congr 1; omega
  · rw [List.getElem_append_right (by simpa using hka), bitsMsb_getElem]
    congr 1; simp; omega

theorem bitsMsb_inj {n v u : Nat} (hv : v < 2 ^ n) (hu : u < 2 ^ n) (h : bitsMsb n v = bitsMsb n u) : v = u := by
  refine Nat.eq_of_testBit_eq fun i => ?_
  by_cases hi : i < n
  · have h1 : (bitsMsb n v)[n - 1 - i]? = (bitsMsb n u)[n - 1 - i]? := by rw [h]
    have hk : n - 1 - (n - 1 - i) = i := by omega
    simpa [bitsMsb, show n - 1 - i < n by omega, hk] using h1
  · rw [Nat.testBit_lt_two_pow (Nat.lt_of_lt_of_le hv (Nat.pow_le_pow_right (by decide) (by omega))),
      Nat.testBit_lt_two_pow (Nat.lt_of_lt_of_le hu (Nat.pow_le_pow_right (by decide) (by omega)))]

/-- A value's bits are those of the value reduced to its width. -/
theorem bitsMsb_mod (n v : Nat) : bitsMsb n (v % 2 ^ n) = bitsMsb n v :=
  bitsMsb_congr fun i hi => by simp [Nat.testBit_mod_two_pow, hi]

/-! ### The accumulator -/

/-- Appending a source byte to the accumulator appends its eight bits to the valid ones (R200, R201). -/
theorem bits_append_byte {live : BitVec 5} (h : live.toNat < 24) (buff : Word) (b : Byte) :
    bitsMsb (live + 8).toNat ((buff <<< 8) ||| b.setWidth 32).toNat
      = bitsMsb live.toNat buff.toNat ++ bitsMsb 8 b.toNat := by
  have hl : (live + 8).toNat = live.toNat + 8 := by
    rw [BitVec.toNat_add, show (8 : BitVec 5).toNat = 8 from rfl]; omega
  rw [hl, bitsMsb_add]
  congr 1
  · refine bitsMsb_congr fun i hi => ?_
    rw [Nat.testBit_shiftRight, BitVec.testBit_toNat, BitVec.testBit_toNat]
    simp [BitVec.getLsbD_or, BitVec.getLsbD_shiftLeft, BitVec.getLsbD_setWidth]
    have h8 : 8 + i < 32 := by omega
    simp [h8]
  · refine bitsMsb_congr fun i hi => ?_
    rw [BitVec.testBit_toNat, BitVec.testBit_toNat]
    simp [BitVec.getLsbD_or, BitVec.getLsbD_shiftLeft, BitVec.getLsbD_setWidth, hi]
    omega

/-- The loop of R200 takes bytes without changing the bits still to be consumed, and ends with enough of them. -/
theorem fillBits_got {n : Nat} (hn : n ≤ 24) {src : List SrcAnswer} {buff : Word} {live : BitVec 5} {cnt : Word}
    (h : n ≤ (BitReader.bits ⟨buff, live, cnt, src⟩).length) :
    ∃ r', fillBits n src buff live cnt = .got () r' ∧ n ≤ r'.live.toNat ∧
      r'.bits = BitReader.bits ⟨buff, live, cnt, src⟩ := by
  induction src generalizing buff live cnt with
  | nil =>
    have : n ≤ live.toNat := by simpa [BitReader.bits, srcBytes] using h
    exact ⟨⟨buff, live, cnt, []⟩, by simp [fillBits, this], this, rfl⟩
  | cons a src ih =>
    by_cases hl : n ≤ live.toNat
    · exact ⟨⟨buff, live, cnt, a :: src⟩, by simp [fillBits, hl], hl, rfl⟩
    · cases a with
      | eof => exact absurd (by simpa [BitReader.bits, srcBytes] using h) hl
      | byte b =>
        have hb : BitReader.bits ⟨(buff <<< 8) ||| b.setWidth 32, live + 8, cnt + 1, src⟩
            = BitReader.bits ⟨buff, live, cnt, .byte b :: src⟩ := by
          simp only [BitReader.bits, srcBytes, List.flatMap_cons]
          rw [bits_append_byte (by omega), List.append_assoc]
        obtain ⟨r', h1, h2, h3⟩ := ih (buff := (buff <<< 8) ||| b.setWidth 32) (live := live + 8) (cnt := cnt + 1)
          (by rw [hb]; exact h)
        exact ⟨r', by rw [fillBits, if_neg hl]; exact h1, h2, h3.trans hb⟩

/-- `ReadBits(n)` (R200, 20_memory.md R82): the next `n` bits of the stream, first bit highest; the rest stays. -/
theorem readBits_spec {n : Nat} (hn : n ≤ 24) {r : BitReader} {bs rest : List Bool} (hb : r.bits = bs ++ rest)
    (hlen : bs.length = n) :
    ∃ v r', readBits n r = .got v r' ∧ bitsMsb n v.toNat = bs ∧ r'.bits = rest := by
  obtain ⟨r1, h1, h2, h3⟩ := fillBits_got (n := n) hn (src := r.src) (buff := r.buff) (live := r.live) (cnt := r.bytesIn)
    (by show n ≤ r.bits.length; rw [hb, List.length_append]; omega)
  have hsub : (BitVec.ofNat 5 (r1.live.toNat - n)).toNat = r1.live.toNat - n := by
    simp only [BitVec.toNat_ofNat]; omega
  refine ⟨_, _, by simp only [readBits, h1, Rd.andThen]; rfl, ?_, ?_⟩
  · have hsplit := bitsMsb_add n (r1.live.toNat - n) r1.buff.toNat
    rw [show n + (r1.live.toNat - n) = r1.live.toNat by omega] at hsplit
    have hr : r1.bits = bs ++ rest := h3.trans hb
    rw [BitReader.bits, hsplit, List.append_assoc] at hr
    have := (List.append_inj hr (by simp [hlen])).1
    rw [← this, ← bitsMsb_mod n (r1.buff.toNat >>> _)]
    simp
  · have hsplit := bitsMsb_add n (r1.live.toNat - n) r1.buff.toNat
    rw [show n + (r1.live.toNat - n) = r1.live.toNat by omega] at hsplit
    have hr : r1.bits = bs ++ rest := h3.trans hb
    rw [BitReader.bits, hsplit, List.append_assoc] at hr
    have := (List.append_inj hr (by simp [hlen])).2
    rw [← this]
    simp only [BitReader.bits, hsub]

/-- Reading the bits of a number gives that number. -/
theorem readBits_value {n : Nat} (hn : n ≤ 24) {r : BitReader} {u : BitVec n} {rest : List Bool}
    (hb : r.bits = bitsMsb n u.toNat ++ rest) : ∃ r', readBits n r = .got u r' ∧ r'.bits = rest := by
  obtain ⟨v, r', h1, h2, h3⟩ := readBits_spec hn hb (by simp)
  have : v = u := BitVec.eq_of_toNat_eq (bitsMsb_inj v.isLt u.isLt h2)
  exact ⟨r', this ▸ h1, h3⟩

/-- The loop of R200 ends with a value only if the bits are there. -/
theorem fillBits_got_le {n : Nat} (hn : n ≤ 24) {src : List SrcAnswer} {buff : Word} {live : BitVec 5} {cnt : Word}
    {r' : BitReader} (h : fillBits n src buff live cnt = .got () r') :
    n ≤ (BitReader.bits ⟨buff, live, cnt, src⟩).length := by
  induction src generalizing buff live cnt with
  | nil =>
    unfold fillBits at h
    split at h
    · simpa [BitReader.bits, srcBytes]
    · cases h
  | cons a src ih =>
    unfold fillBits at h
    split at h
    · rw [BitReader.bits, List.length_append, bitsMsb_length]; exact Nat.le_add_right_of_le ‹_›
    · cases a with
      | eof => cases h
      | byte b =>
        have hi := ih h
        rw [BitReader.bits, bits_append_byte (by omega), List.append_assoc] at hi
        simpa [BitReader.bits, srcBytes] using hi

/-- A read that ends with a value had its bits at hand. -/
theorem readBits_got_le {n : Nat} (hn : n ≤ 24) {r r' : BitReader} {v : BitVec n} (h : readBits n r = .got v r') :
    n ≤ r.bits.length := by
  unfold readBits at h
  cases hf : fillBits n r.src r.buff r.live r.bytesIn with
  | got u r1 => exact fillBits_got_le hn hf
  | eof r1 => simp [hf, Rd.andThen] at h
  | wait => simp [hf, Rd.andThen] at h

/-- The one-bit reads that succeed return the bits at hand, in order. -/
theorem readableBits_eq (k : Nat) (r : BitReader) : readableBits k r = (r.bits.take k).map BitVec.ofBool := by
  induction k generalizing r with
  | zero => simp [readableBits]
  | succ k ih =>
    cases hb : r.bits with
    | nil =>
      unfold readableBits
      split
      · rename_i h
        have := readBits_got_le (by decide) h
        simp [hb] at this
      all_goals rfl
    | cons b rest =>
      obtain ⟨v, r', h1, h2, h3⟩ := readBits_spec (n := 1) (by decide) (bs := [b]) (rest := rest) (by simpa using hb) rfl
      have hv : v = BitVec.ofBool b := by
        have h0 : v.toNat.testBit 0 = b := by simpa [bitsMsb] using h2
        rw [BitVec.testBit_toNat] at h0
        subst h0
        exact BitVec.eq_of_getLsbD_eq fun i hi => by
          obtain rfl : i = 0 := by omega
          simp
      rw [readableBits, h1]
      simp [ih, h3, hv]

/-- A read that ends goes on with what it read. -/
@[simp] theorem Rd.andThen_got {α β : Type} (a : α) (r : BitReader) (k : α → BitReader → Rd β) :
    (Rd.got a r).andThen k = k a r := rfl

@[simp] theorem Rd.andThen_eof {α β : Type} (r : BitReader) (k : α → BitReader → Rd β) :
    (Rd.eof r : Rd α).andThen k = .eof r := rfl

@[simp] theorem Rd.andThen_wait {α β : Type} (k : α → BitReader → Rd β) : (Rd.wait : Rd α).andThen k = .wait := rfl

/-- The bits the reader will supply do not depend on BYTES_IN. -/
theorem BitReader.bits_start (src : List SrcAnswer) :
    (BitReader.start src).bits = (srcBytes src).flatMap fun b => bitsMsb 8 b.toNat := by
  simp [BitReader.bits, BitReader.start, bitsMsb]

end Sys2Proof
end

