-- ==== Sys2Proof/Laws/State.lean ====
section
/-! SUPPORT. One lemma per field of State per named update, so that no later proof unfolds a record update. -/

namespace Sys2Proof.Machine

variable (s : State)

/-! Going on at another place changes the place only. -/

@[simp] theorem State.goto_ctl (p : Phase) : (s.goto p).ctl = s.ctl := rfl
@[simp] theorem State.goto_rd (p : Phase) : (s.goto p).rd = s.rd := rfl
@[simp] theorem State.goto_cnt (p : Phase) : (s.goto p).cnt = s.cnt := rfl
@[simp] theorem State.goto_blk (p : Phase) : (s.goto p).blk = s.blk := rfl
@[simp] theorem State.goto_map (p : Phase) : (s.goto p).map = s.map := rfl
@[simp] theorem State.goto_sel (p : Phase) : (s.goto p).sel = s.sel := rfl
@[simp] theorem State.goto_tab (p : Phase) : (s.goto p).tab = s.tab := rfl
@[simp] theorem State.goto_sym (p : Phase) : (s.goto p).sym = s.sym := rfl
@[simp] theorem State.goto_bwt (p : Phase) : (s.goto p).bwt = s.bwt := rfl
@[simp] theorem State.goto_cur (p : Phase) : (s.goto p).cur = s.cur := rfl
@[simp] theorem State.goto_crc (p : Phase) : (s.goto p).crc = s.crc := rfl
@[simp] theorem State.goto_work (p : Phase) : (s.goto p).work = { s.work with phase := p } := rfl
@[simp] theorem State.goto_host (p : Phase) : (s.goto p).host = s.host := rfl
@[simp] theorem State.goto_out (p : Phase) : (s.goto p).out = s.out := rfl
@[simp] theorem State.goto_legacyAnd (p : Phase) : (s.goto p).legacyAnd = s.legacyAnd := rfl

/-! Writing ST changes ST only. -/

@[simp] theorem State.setSt_ctl (st : St) : (s.setSt st).ctl = { s.ctl with st := st } := rfl
@[simp] theorem State.setSt_rd (st : St) : (s.setSt st).rd = s.rd := rfl
@[simp] theorem State.setSt_cnt (st : St) : (s.setSt st).cnt = s.cnt := rfl
@[simp] theorem State.setSt_blk (st : St) : (s.setSt st).blk = s.blk := rfl
@[simp] theorem State.setSt_map (st : St) : (s.setSt st).map = s.map := rfl
@[simp] theorem State.setSt_sel (st : St) : (s.setSt st).sel = s.sel := rfl
@[simp] theorem State.setSt_tab (st : St) : (s.setSt st).tab = s.tab := rfl
@[simp] theorem State.setSt_sym (st : St) : (s.setSt st).sym = s.sym := rfl
@[simp] theorem State.setSt_bwt (st : St) : (s.setSt st).bwt = s.bwt := rfl
@[simp] theorem State.setSt_cur (st : St) : (s.setSt st).cur = s.cur := rfl
@[simp] theorem State.setSt_crc (st : St) : (s.setSt st).crc = s.crc := rfl
@[simp] theorem State.setSt_work (st : St) : (s.setSt st).work = s.work := rfl
@[simp] theorem State.setSt_host (st : St) : (s.setSt st).host = s.host := rfl
@[simp] theorem State.setSt_out (st : St) : (s.setSt st).out = s.out := rfl
@[simp] theorem State.setSt_legacyAnd (st : St) : (s.setSt st).legacyAnd = s.legacyAnd := rfl

/-! An output event is added to the ports' log, newest first. -/

@[simp] theorem State.emit_ctl (e : OutEvent) : (s.emit e).ctl = s.ctl := rfl
@[simp] theorem State.emit_rd (e : OutEvent) : (s.emit e).rd = s.rd := rfl
@[simp] theorem State.emit_cnt (e : OutEvent) : (s.emit e).cnt = s.cnt := rfl
@[simp] theorem State.emit_blk (e : OutEvent) : (s.emit e).blk = s.blk := rfl
@[simp] theorem State.emit_map (e : OutEvent) : (s.emit e).map = s.map := rfl
@[simp] theorem State.emit_sel (e : OutEvent) : (s.emit e).sel = s.sel := rfl
@[simp] theorem State.emit_tab (e : OutEvent) : (s.emit e).tab = s.tab := rfl
@[simp] theorem State.emit_sym (e : OutEvent) : (s.emit e).sym = s.sym := rfl
@[simp] theorem State.emit_bwt (e : OutEvent) : (s.emit e).bwt = s.bwt := rfl
@[simp] theorem State.emit_cur (e : OutEvent) : (s.emit e).cur = s.cur := rfl
@[simp] theorem State.emit_crc (e : OutEvent) : (s.emit e).crc = s.crc := rfl
@[simp] theorem State.emit_work (e : OutEvent) : (s.emit e).work = s.work := rfl
@[simp] theorem State.emit_host (e : OutEvent) : (s.emit e).host = s.host := rfl
@[simp] theorem State.emit_out (e : OutEvent) : (s.emit e).out = e :: s.out := rfl
@[simp] theorem State.emit_legacyAnd (e : OutEvent) : (s.emit e).legacyAnd = s.legacyAnd := rfl

/-! A response ends the command and does nothing else (48_host_interface.md R452). -/

@[simp] theorem State.respond_ctl (st : BitVec 3) (d : Byte) : (s.respond st d).ctl = s.ctl := rfl
@[simp] theorem State.respond_rd (st : BitVec 3) (d : Byte) : (s.respond st d).rd = s.rd := rfl
@[simp] theorem State.respond_cnt (st : BitVec 3) (d : Byte) : (s.respond st d).cnt = s.cnt := rfl
@[simp] theorem State.respond_blk (st : BitVec 3) (d : Byte) : (s.respond st d).blk = s.blk := rfl
@[simp] theorem State.respond_map (st : BitVec 3) (d : Byte) : (s.respond st d).map = s.map := rfl
@[simp] theorem State.respond_sel (st : BitVec 3) (d : Byte) : (s.respond st d).sel = s.sel := rfl
@[simp] theorem State.respond_tab (st : BitVec 3) (d : Byte) : (s.respond st d).tab = s.tab := rfl
@[simp] theorem State.respond_sym (st : BitVec 3) (d : Byte) : (s.respond st d).sym = s.sym := rfl
@[simp] theorem State.respond_bwt (st : BitVec 3) (d : Byte) : (s.respond st d).bwt = s.bwt := rfl
@[simp] theorem State.respond_cur (st : BitVec 3) (d : Byte) : (s.respond st d).cur = s.cur := rfl
@[simp] theorem State.respond_crc (st : BitVec 3) (d : Byte) : (s.respond st d).crc = s.crc := rfl
@[simp] theorem State.respond_work (st : BitVec 3) (d : Byte) :
    (s.respond st d).work = { s.work with phase := .ready } := rfl
@[simp] theorem State.respond_host (st : BitVec 3) (d : Byte) : (s.respond st d).host = s.host := rfl
@[simp] theorem State.respond_out (st : BitVec 3) (d : Byte) :
    (s.respond st d).out = .response (responseWord st d) :: s.out := rfl
@[simp] theorem State.respond_legacyAnd (st : BitVec 3) (d : Byte) : (s.respond st d).legacyAnd = s.legacyAnd := rfl

/-! A BYTE response counts (R454). -/

@[simp] theorem State.respondByte_ctl (b : Byte) : (s.respondByte b).ctl = s.ctl := rfl
@[simp] theorem State.respondByte_rd (b : Byte) : (s.respondByte b).rd = s.rd := rfl
@[simp] theorem State.respondByte_cnt (b : Byte) :
    (s.respondByte b).cnt = { s.cnt with bytesOut := s.cnt.bytesOut + 1 } := rfl
@[simp] theorem State.respondByte_blk (b : Byte) : (s.respondByte b).blk = s.blk := rfl
@[simp] theorem State.respondByte_map (b : Byte) : (s.respondByte b).map = s.map := rfl
@[simp] theorem State.respondByte_sel (b : Byte) : (s.respondByte b).sel = s.sel := rfl
@[simp] theorem State.respondByte_tab (b : Byte) : (s.respondByte b).tab = s.tab := rfl
@[simp] theorem State.respondByte_sym (b : Byte) : (s.respondByte b).sym = s.sym := rfl
@[simp] theorem State.respondByte_bwt (b : Byte) : (s.respondByte b).bwt = s.bwt := rfl
@[simp] theorem State.respondByte_cur (b : Byte) : (s.respondByte b).cur = s.cur := rfl
@[simp] theorem State.respondByte_crc (b : Byte) : (s.respondByte b).crc = s.crc := rfl
@[simp] theorem State.respondByte_work (b : Byte) : (s.respondByte b).work = { s.work with phase := .ready } := rfl
@[simp] theorem State.respondByte_host (b : Byte) : (s.respondByte b).host = s.host := rfl
@[simp] theorem State.respondByte_out (b : Byte) :
    (s.respondByte b).out = .response (responseWord statusByte b) :: s.out := rfl
@[simp] theorem State.respondByte_legacyAnd (b : Byte) : (s.respondByte b).legacyAnd = s.legacyAnd := rfl

/-! Fault entry (60_exceptions.md R520). -/

@[simp] theorem State.raise_ctl (f : CoreFault) :
    (s.raise f).ctl = { s.ctl with faultCode := f.code, faultDetail := f.detail, st := .fault } := rfl
@[simp] theorem State.raise_rd (f : CoreFault) : (s.raise f).rd = s.rd := rfl
@[simp] theorem State.raise_cnt (f : CoreFault) : (s.raise f).cnt = s.cnt := rfl
@[simp] theorem State.raise_blk (f : CoreFault) : (s.raise f).blk = s.blk := rfl
@[simp] theorem State.raise_map (f : CoreFault) : (s.raise f).map = s.map := rfl
@[simp] theorem State.raise_sel (f : CoreFault) : (s.raise f).sel = s.sel := rfl
@[simp] theorem State.raise_tab (f : CoreFault) : (s.raise f).tab = s.tab := rfl
@[simp] theorem State.raise_sym (f : CoreFault) : (s.raise f).sym = s.sym := rfl
@[simp] theorem State.raise_bwt (f : CoreFault) : (s.raise f).bwt = s.bwt := rfl
@[simp] theorem State.raise_cur (f : CoreFault) : (s.raise f).cur = s.cur := rfl
@[simp] theorem State.raise_crc (f : CoreFault) : (s.raise f).crc = s.crc := rfl
@[simp] theorem State.raise_work (f : CoreFault) : (s.raise f).work = { s.work with phase := .ready } := rfl
@[simp] theorem State.raise_host (f : CoreFault) : (s.raise f).host = s.host := rfl
@[simp] theorem State.raise_out (f : CoreFault) :
    (s.raise f).out = .response (responseWord statusFault (f.detail ++ f.code)) :: s.out := rfl
@[simp] theorem State.raise_legacyAnd (f : CoreFault) : (s.raise f).legacyAnd = s.legacyAnd := rfl

/-! What leaves FAULT (R521). -/

@[simp] theorem State.clearFault_ctl : s.clearFault.ctl = { s.ctl with faultCode := 0, faultDetail := 0 } := rfl
@[simp] theorem State.clearFault_rd : s.clearFault.rd = s.rd := rfl
@[simp] theorem State.clearFault_cnt : s.clearFault.cnt = s.cnt := rfl
@[simp] theorem State.clearFault_blk : s.clearFault.blk = s.blk := rfl
@[simp] theorem State.clearFault_map : s.clearFault.map = s.map := rfl
@[simp] theorem State.clearFault_sel : s.clearFault.sel = s.sel := rfl
@[simp] theorem State.clearFault_tab : s.clearFault.tab = s.tab := rfl
@[simp] theorem State.clearFault_sym : s.clearFault.sym = s.sym := rfl
@[simp] theorem State.clearFault_bwt : s.clearFault.bwt = s.bwt := rfl
@[simp] theorem State.clearFault_cur : s.clearFault.cur = s.cur := rfl
@[simp] theorem State.clearFault_crc : s.clearFault.crc = s.crc := rfl
@[simp] theorem State.clearFault_work : s.clearFault.work = s.work := rfl
@[simp] theorem State.clearFault_host : s.clearFault.host = s.host := rfl
@[simp] theorem State.clearFault_out : s.clearFault.out = s.out := rfl
@[simp] theorem State.clearFault_legacyAnd : s.clearFault.legacyAnd = s.legacyAnd := rfl

/-! Consuming an element's bits changes the reader only. -/

@[simp] theorem State.withReader_ctl (r : BitReader) : (s.withReader r).ctl = s.ctl := rfl
@[simp] theorem State.withReader_rd (r : BitReader) : (s.withReader r).rd = r := rfl
@[simp] theorem State.withReader_cnt (r : BitReader) : (s.withReader r).cnt = s.cnt := rfl
@[simp] theorem State.withReader_blk (r : BitReader) : (s.withReader r).blk = s.blk := rfl
@[simp] theorem State.withReader_map (r : BitReader) : (s.withReader r).map = s.map := rfl
@[simp] theorem State.withReader_sel (r : BitReader) : (s.withReader r).sel = s.sel := rfl
@[simp] theorem State.withReader_tab (r : BitReader) : (s.withReader r).tab = s.tab := rfl
@[simp] theorem State.withReader_sym (r : BitReader) : (s.withReader r).sym = s.sym := rfl
@[simp] theorem State.withReader_bwt (r : BitReader) : (s.withReader r).bwt = s.bwt := rfl
@[simp] theorem State.withReader_cur (r : BitReader) : (s.withReader r).cur = s.cur := rfl
@[simp] theorem State.withReader_crc (r : BitReader) : (s.withReader r).crc = s.crc := rfl
@[simp] theorem State.withReader_work (r : BitReader) : (s.withReader r).work = s.work := rfl
@[simp] theorem State.withReader_host (r : BitReader) : (s.withReader r).host = s.host := rfl
@[simp] theorem State.withReader_out (r : BitReader) : (s.withReader r).out = s.out := rfl
@[simp] theorem State.withReader_legacyAnd (r : BitReader) : (s.withReader r).legacyAnd = s.legacyAnd := rfl

/-! A CRC update changes BLOCK_CRC only (47_crc.md R430). -/

@[simp] theorem State.crcUpdate_ctl (b : Byte) : (s.crcUpdate b).ctl = s.ctl := rfl
@[simp] theorem State.crcUpdate_rd (b : Byte) : (s.crcUpdate b).rd = s.rd := rfl
@[simp] theorem State.crcUpdate_cnt (b : Byte) : (s.crcUpdate b).cnt = s.cnt := rfl
@[simp] theorem State.crcUpdate_blk (b : Byte) : (s.crcUpdate b).blk = s.blk := rfl
@[simp] theorem State.crcUpdate_map (b : Byte) : (s.crcUpdate b).map = s.map := rfl
@[simp] theorem State.crcUpdate_sel (b : Byte) : (s.crcUpdate b).sel = s.sel := rfl
@[simp] theorem State.crcUpdate_tab (b : Byte) : (s.crcUpdate b).tab = s.tab := rfl
@[simp] theorem State.crcUpdate_sym (b : Byte) : (s.crcUpdate b).sym = s.sym := rfl
@[simp] theorem State.crcUpdate_bwt (b : Byte) : (s.crcUpdate b).bwt = s.bwt := rfl
@[simp] theorem State.crcUpdate_cur (b : Byte) : (s.crcUpdate b).cur = s.cur := rfl
@[simp] theorem State.crcUpdate_crc (b : Byte) :
    (s.crcUpdate b).crc = { s.crc with blockCrc := crcStep s.crc.blockCrc b } := rfl
@[simp] theorem State.crcUpdate_work (b : Byte) : (s.crcUpdate b).work = s.work := rfl
@[simp] theorem State.crcUpdate_host (b : Byte) : (s.crcUpdate b).host = s.host := rfl
@[simp] theorem State.crcUpdate_out (b : Byte) : (s.crcUpdate b).out = s.out := rfl
@[simp] theorem State.crcUpdate_legacyAnd (b : Byte) : (s.crcUpdate b).legacyAnd = s.legacyAnd := rfl

/-! A range's sixteen bits (42_tables.md R251). -/

@[simp] theorem State.setRange_ctl (i : Nat) (b : BitVec 16) : (s.setRange i b).ctl = s.ctl := by
  simp only [State.setRange]
@[simp] theorem State.setRange_rd (i : Nat) (b : BitVec 16) : (s.setRange i b).rd = s.rd := by
  simp only [State.setRange]
@[simp] theorem State.setRange_cnt (i : Nat) (b : BitVec 16) : (s.setRange i b).cnt = s.cnt := by
  simp only [State.setRange]
@[simp] theorem State.setRange_blk (i : Nat) (b : BitVec 16) : (s.setRange i b).blk = s.blk := by
  simp only [State.setRange]
@[simp] theorem State.setRange_map (i : Nat) (b : BitVec 16) :
    (s.setRange i b).map = { s.map with inUse := s.map.inUse.putAll ((List.range 16).map fun j => (16 * i + j, mapBit b j)) } := by
  simp only [State.setRange]
@[simp] theorem State.setRange_sel (i : Nat) (b : BitVec 16) : (s.setRange i b).sel = s.sel := by
  simp only [State.setRange]
@[simp] theorem State.setRange_tab (i : Nat) (b : BitVec 16) : (s.setRange i b).tab = s.tab := by
  simp only [State.setRange]
@[simp] theorem State.setRange_sym (i : Nat) (b : BitVec 16) : (s.setRange i b).sym = s.sym := by
  simp only [State.setRange]
@[simp] theorem State.setRange_bwt (i : Nat) (b : BitVec 16) : (s.setRange i b).bwt = s.bwt := by
  simp only [State.setRange]
@[simp] theorem State.setRange_cur (i : Nat) (b : BitVec 16) : (s.setRange i b).cur = s.cur := by
  simp only [State.setRange]
@[simp] theorem State.setRange_crc (i : Nat) (b : BitVec 16) : (s.setRange i b).crc = s.crc := by
  simp only [State.setRange]
@[simp] theorem State.setRange_work (i : Nat) (b : BitVec 16) : (s.setRange i b).work = s.work := by
  simp only [State.setRange]
@[simp] theorem State.setRange_host (i : Nat) (b : BitVec 16) : (s.setRange i b).host = s.host := by
  simp only [State.setRange]
@[simp] theorem State.setRange_out (i : Nat) (b : BitVec 16) : (s.setRange i b).out = s.out := by
  simp only [State.setRange]
@[simp] theorem State.setRange_legacyAnd (i : Nat) (b : BitVec 16) : (s.setRange i b).legacyAnd = s.legacyAnd := by
  simp only [State.setRange]

/-! An element that EOF cuts short has written map bits at most (R250, R251). -/

@[simp] theorem State.keepPartial_ctl (c : Ctx) : (s.keepPartial c).ctl = s.ctl := by cases c <;> rfl
@[simp] theorem State.keepPartial_rd (c : Ctx) : (s.keepPartial c).rd = s.rd := by cases c <;> rfl
@[simp] theorem State.keepPartial_cnt (c : Ctx) : (s.keepPartial c).cnt = s.cnt := by cases c <;> rfl
@[simp] theorem State.keepPartial_blk (c : Ctx) : (s.keepPartial c).blk = s.blk := by cases c <;> rfl
@[simp] theorem State.keepPartial_sel (c : Ctx) : (s.keepPartial c).sel = s.sel := by cases c <;> rfl
@[simp] theorem State.keepPartial_tab (c : Ctx) : (s.keepPartial c).tab = s.tab := by cases c <;> rfl
@[simp] theorem State.keepPartial_sym (c : Ctx) : (s.keepPartial c).sym = s.sym := by cases c <;> rfl
@[simp] theorem State.keepPartial_bwt (c : Ctx) : (s.keepPartial c).bwt = s.bwt := by cases c <;> rfl
@[simp] theorem State.keepPartial_cur (c : Ctx) : (s.keepPartial c).cur = s.cur := by cases c <;> rfl
@[simp] theorem State.keepPartial_crc (c : Ctx) : (s.keepPartial c).crc = s.crc := by cases c <;> rfl
@[simp] theorem State.keepPartial_work (c : Ctx) : (s.keepPartial c).work = s.work := by cases c <;> rfl
@[simp] theorem State.keepPartial_host (c : Ctx) : (s.keepPartial c).host = s.host := by cases c <;> rfl
@[simp] theorem State.keepPartial_out (c : Ctx) : (s.keepPartial c).out = s.out := by cases c <;> rfl
@[simp] theorem State.keepPartial_legacyAnd (c : Ctx) : (s.keepPartial c).legacyAnd = s.legacyAnd := by cases c <;> rfl
@[simp] theorem State.keepPartial_seqToUnseq (c : Ctx) : (s.keepPartial c).map.seqToUnseq = s.map.seqToUnseq := by cases c <;> rfl
@[simp] theorem State.keepPartial_unseqToSeq (c : Ctx) : (s.keepPartial c).map.unseqToSeq = s.map.unseqToSeq := by cases c <;> rfl
@[simp] theorem State.keepPartial_nInUse (c : Ctx) : (s.keepPartial c).map.nInUse = s.map.nInUse := by cases c <;> rfl
@[simp] theorem State.keepPartial_map_inuse16 :
    (s.keepPartial .inuse16).map = { s.map with inUse16 := s.map.inUse16.putAll (readMapBits 0 s.rd) } := rfl
@[simp] theorem State.keepPartial_map_inuseInner :
    (s.keepPartial .inuseInner).map
      = { s.map with inUse := s.map.inUse.putAll (readMapBits (16 * s.work.rangeIdx.toNat) s.rd) } := rfl
/-- Only the two map words write anything before their last bit. -/
theorem State.keepPartial_of_ne {c : Ctx} (h : c ≠ .inuse16) (h' : c ≠ .inuseInner) : s.keepPartial c = s := by
  cases c <;> first | rfl | exact absurd rfl h | exact absurd rfl h'

/-! A selector rank undone (R257). -/

@[simp] theorem State.selectorMtf_ctl (i j : Nat) : (s.selectorMtf i j).ctl = s.ctl := rfl
@[simp] theorem State.selectorMtf_rd (i j : Nat) : (s.selectorMtf i j).rd = s.rd := rfl
@[simp] theorem State.selectorMtf_cnt (i j : Nat) : (s.selectorMtf i j).cnt = s.cnt := rfl
@[simp] theorem State.selectorMtf_blk (i j : Nat) : (s.selectorMtf i j).blk = s.blk := rfl
@[simp] theorem State.selectorMtf_map (i j : Nat) : (s.selectorMtf i j).map = s.map := rfl
@[simp] theorem State.selectorMtf_sel (i j : Nat) :
    (s.selectorMtf i j).sel = { s.sel with selPos := moveToFront s.sel.selPos j, selector := s.sel.selector.put i (s.sel.selPos.look j) } := rfl
@[simp] theorem State.selectorMtf_tab (i j : Nat) : (s.selectorMtf i j).tab = s.tab := rfl
@[simp] theorem State.selectorMtf_sym (i j : Nat) : (s.selectorMtf i j).sym = s.sym := rfl
@[simp] theorem State.selectorMtf_bwt (i j : Nat) : (s.selectorMtf i j).bwt = s.bwt := rfl
@[simp] theorem State.selectorMtf_cur (i j : Nat) : (s.selectorMtf i j).cur = s.cur := rfl
@[simp] theorem State.selectorMtf_crc (i j : Nat) : (s.selectorMtf i j).crc = s.crc := rfl
@[simp] theorem State.selectorMtf_work (i j : Nat) : (s.selectorMtf i j).work = s.work := rfl
@[simp] theorem State.selectorMtf_host (i j : Nat) : (s.selectorMtf i j).host = s.host := rfl
@[simp] theorem State.selectorMtf_out (i j : Nat) : (s.selectorMtf i j).out = s.out := rfl
@[simp] theorem State.selectorMtf_legacyAnd (i j : Nat) : (s.selectorMtf i j).legacyAnd = s.legacyAnd := rfl

/-! The start of the symbol part writes the symbol decoder's registers and the place (44_symbol_decoder.md R320). -/

@[simp] theorem State.initSymbols_ctl : s.initSymbols.ctl = s.ctl := by
  simp only [State.initSymbols]
@[simp] theorem State.initSymbols_rd : s.initSymbols.rd = s.rd := by
  simp only [State.initSymbols]
@[simp] theorem State.initSymbols_cnt : s.initSymbols.cnt = s.cnt := by
  simp only [State.initSymbols]
@[simp] theorem State.initSymbols_blk : s.initSymbols.blk = s.blk := by
  simp only [State.initSymbols]
@[simp] theorem State.initSymbols_map : s.initSymbols.map = s.map := by
  simp only [State.initSymbols]
@[simp] theorem State.initSymbols_sel : s.initSymbols.sel = s.sel := by
  simp only [State.initSymbols]
@[simp] theorem State.initSymbols_tab : s.initSymbols.tab = s.tab := by
  simp only [State.initSymbols]
@[simp] theorem State.initSymbols_bwt : s.initSymbols.bwt = s.bwt := by
  simp only [State.initSymbols]
@[simp] theorem State.initSymbols_cur : s.initSymbols.cur = s.cur := by
  simp only [State.initSymbols]
@[simp] theorem State.initSymbols_crc : s.initSymbols.crc = s.crc := by
  simp only [State.initSymbols]
@[simp] theorem State.initSymbols_work : s.initSymbols.work = { s.work with inRun := false, phase := .symbols } := by
  simp only [State.initSymbols]
@[simp] theorem State.initSymbols_host : s.initSymbols.host = s.host := by
  simp only [State.initSymbols]
@[simp] theorem State.initSymbols_out : s.initSymbols.out = s.out := by
  simp only [State.initSymbols]
@[simp] theorem State.initSymbols_legacyAnd : s.initSymbols.legacyAnd = s.legacyAnd := by
  simp only [State.initSymbols]

/-! Building a group's table writes the tables only (43_huffman.md R290 to R294). -/

@[simp] theorem State.buildTable_ctl (t : Nat) : (s.buildTable t).ctl = s.ctl := by
  simp only [State.buildTable]
@[simp] theorem State.buildTable_rd (t : Nat) : (s.buildTable t).rd = s.rd := by
  simp only [State.buildTable]
@[simp] theorem State.buildTable_cnt (t : Nat) : (s.buildTable t).cnt = s.cnt := by
  simp only [State.buildTable]
@[simp] theorem State.buildTable_blk (t : Nat) : (s.buildTable t).blk = s.blk := by
  simp only [State.buildTable]
@[simp] theorem State.buildTable_map (t : Nat) : (s.buildTable t).map = s.map := by
  simp only [State.buildTable]
@[simp] theorem State.buildTable_sel (t : Nat) : (s.buildTable t).sel = s.sel := by
  simp only [State.buildTable]
@[simp] theorem State.buildTable_sym (t : Nat) : (s.buildTable t).sym = s.sym := by
  simp only [State.buildTable]
@[simp] theorem State.buildTable_bwt (t : Nat) : (s.buildTable t).bwt = s.bwt := by
  simp only [State.buildTable]
@[simp] theorem State.buildTable_cur (t : Nat) : (s.buildTable t).cur = s.cur := by
  simp only [State.buildTable]
@[simp] theorem State.buildTable_crc (t : Nat) : (s.buildTable t).crc = s.crc := by
  simp only [State.buildTable]
@[simp] theorem State.buildTable_work (t : Nat) : (s.buildTable t).work = s.work := by
  simp only [State.buildTable]
@[simp] theorem State.buildTable_host (t : Nat) : (s.buildTable t).host = s.host := by
  simp only [State.buildTable]
@[simp] theorem State.buildTable_out (t : Nat) : (s.buildTable t).out = s.out := by
  simp only [State.buildTable]
@[simp] theorem State.buildTable_legacyAnd (t : Nat) : (s.buildTable t).legacyAnd = s.legacyAnd := by
  simp only [State.buildTable]
@[simp] theorem State.buildTable_len (t : Nat) : (s.buildTable t).tab.len = s.tab.len := by
  simp only [State.buildTable]

/-! Building the map writes the map only (42_tables.md R252). -/

@[simp] theorem State.buildMap_ctl : s.buildMap.ctl = s.ctl := rfl
@[simp] theorem State.buildMap_rd : s.buildMap.rd = s.rd := rfl
@[simp] theorem State.buildMap_cnt : s.buildMap.cnt = s.cnt := rfl
@[simp] theorem State.buildMap_blk : s.buildMap.blk = s.blk := rfl
@[simp] theorem State.buildMap_sel : s.buildMap.sel = s.sel := rfl
@[simp] theorem State.buildMap_tab : s.buildMap.tab = s.tab := rfl
@[simp] theorem State.buildMap_sym : s.buildMap.sym = s.sym := rfl
@[simp] theorem State.buildMap_bwt : s.buildMap.bwt = s.bwt := rfl
@[simp] theorem State.buildMap_cur : s.buildMap.cur = s.cur := rfl
@[simp] theorem State.buildMap_crc : s.buildMap.crc = s.crc := rfl
@[simp] theorem State.buildMap_work : s.buildMap.work = s.work := rfl
@[simp] theorem State.buildMap_host : s.buildMap.host = s.host := rfl
@[simp] theorem State.buildMap_out : s.buildMap.out = s.out := rfl
@[simp] theorem State.buildMap_legacyAnd : s.buildMap.legacyAnd = s.legacyAnd := rfl

/-! The group selection writes GROUP_NO and GROUP_POS only (43_huffman.md R296). -/

@[simp] theorem State.takeFromGroup_ctl : s.takeFromGroup.ctl = s.ctl := by
  unfold State.takeFromGroup; split <;> rfl
@[simp] theorem State.takeFromGroup_rd : s.takeFromGroup.rd = s.rd := by
  unfold State.takeFromGroup; split <;> rfl
@[simp] theorem State.takeFromGroup_cnt : s.takeFromGroup.cnt = s.cnt := by
  unfold State.takeFromGroup; split <;> rfl
@[simp] theorem State.takeFromGroup_blk : s.takeFromGroup.blk = s.blk := by
  unfold State.takeFromGroup; split <;> rfl
@[simp] theorem State.takeFromGroup_map : s.takeFromGroup.map = s.map := by
  unfold State.takeFromGroup; split <;> rfl
@[simp] theorem State.takeFromGroup_sel : s.takeFromGroup.sel = s.sel := by
  unfold State.takeFromGroup; split <;> rfl
@[simp] theorem State.takeFromGroup_tab : s.takeFromGroup.tab = s.tab := by
  unfold State.takeFromGroup; split <;> rfl
@[simp] theorem State.takeFromGroup_bwt : s.takeFromGroup.bwt = s.bwt := by
  unfold State.takeFromGroup; split <;> rfl
@[simp] theorem State.takeFromGroup_cur : s.takeFromGroup.cur = s.cur := by
  unfold State.takeFromGroup; split <;> rfl
@[simp] theorem State.takeFromGroup_crc : s.takeFromGroup.crc = s.crc := by
  unfold State.takeFromGroup; split <;> rfl
@[simp] theorem State.takeFromGroup_work : s.takeFromGroup.work = s.work := by
  unfold State.takeFromGroup; split <;> rfl
@[simp] theorem State.takeFromGroup_host : s.takeFromGroup.host = s.host := by
  unfold State.takeFromGroup; split <;> rfl
@[simp] theorem State.takeFromGroup_out : s.takeFromGroup.out = s.out := by
  unfold State.takeFromGroup; split <;> rfl
@[simp] theorem State.takeFromGroup_legacyAnd : s.takeFromGroup.legacyAnd = s.legacyAnd := by
  unfold State.takeFromGroup; split <;> rfl
@[simp] theorem State.takeFromGroup_mtf : s.takeFromGroup.sym.mtf = s.sym.mtf := by
  unfold State.takeFromGroup; split <;> rfl
@[simp] theorem State.takeFromGroup_freq : s.takeFromGroup.sym.freq = s.sym.freq := by
  unfold State.takeFromGroup; split <;> rfl
@[simp] theorem State.takeFromGroup_nblock : s.takeFromGroup.sym.nblock = s.sym.nblock := by
  unfold State.takeFromGroup; split <;> rfl
@[simp] theorem State.takeFromGroup_runLen : s.takeFromGroup.sym.runLen = s.sym.runLen := by
  unfold State.takeFromGroup; split <;> rfl
@[simp] theorem State.takeFromGroup_runWeight : s.takeFromGroup.sym.runWeight = s.sym.runWeight := by
  unfold State.takeFromGroup; split <;> rfl

/-! The derandomizer writes its two registers only (46_output_fsm.md R383). -/

@[simp] theorem State.derandomise_ctl (b : Byte) : (s.derandomise b).2.ctl = s.ctl := rfl
@[simp] theorem State.derandomise_rd (b : Byte) : (s.derandomise b).2.rd = s.rd := rfl
@[simp] theorem State.derandomise_cnt (b : Byte) : (s.derandomise b).2.cnt = s.cnt := rfl
@[simp] theorem State.derandomise_blk (b : Byte) : (s.derandomise b).2.blk = s.blk := rfl
@[simp] theorem State.derandomise_map (b : Byte) : (s.derandomise b).2.map = s.map := rfl
@[simp] theorem State.derandomise_sel (b : Byte) : (s.derandomise b).2.sel = s.sel := rfl
@[simp] theorem State.derandomise_tab (b : Byte) : (s.derandomise b).2.tab = s.tab := rfl
@[simp] theorem State.derandomise_sym (b : Byte) : (s.derandomise b).2.sym = s.sym := rfl
@[simp] theorem State.derandomise_bwt (b : Byte) : (s.derandomise b).2.bwt = s.bwt := rfl
@[simp] theorem State.derandomise_crc (b : Byte) : (s.derandomise b).2.crc = s.crc := rfl
@[simp] theorem State.derandomise_work (b : Byte) : (s.derandomise b).2.work = s.work := rfl
@[simp] theorem State.derandomise_host (b : Byte) : (s.derandomise b).2.host = s.host := rfl
@[simp] theorem State.derandomise_out (b : Byte) : (s.derandomise b).2.out = s.out := rfl
@[simp] theorem State.derandomise_legacyAnd (b : Byte) : (s.derandomise b).2.legacyAnd = s.legacyAnd := rfl
@[simp] theorem State.derandomise_tPos (b : Byte) : (s.derandomise b).2.cur.tPos = s.cur.tPos := rfl

/-! Releasing the source (48_host_interface.md R470). -/

@[simp] theorem State.srcClose_cnt : s.srcClose.cnt = s.cnt := by
  unfold State.srcClose; split
  · rfl
  · cases s.ctl.noClose <;> simp
@[simp] theorem State.srcClose_blk : s.srcClose.blk = s.blk := by
  unfold State.srcClose; split
  · rfl
  · cases s.ctl.noClose <;> simp
@[simp] theorem State.srcClose_map : s.srcClose.map = s.map := by
  unfold State.srcClose; split
  · rfl
  · cases s.ctl.noClose <;> simp
@[simp] theorem State.srcClose_sel : s.srcClose.sel = s.sel := by
  unfold State.srcClose; split
  · rfl
  · cases s.ctl.noClose <;> simp
@[simp] theorem State.srcClose_tab : s.srcClose.tab = s.tab := by
  unfold State.srcClose; split
  · rfl
  · cases s.ctl.noClose <;> simp
@[simp] theorem State.srcClose_sym : s.srcClose.sym = s.sym := by
  unfold State.srcClose; split
  · rfl
  · cases s.ctl.noClose <;> simp
@[simp] theorem State.srcClose_bwt : s.srcClose.bwt = s.bwt := by
  unfold State.srcClose; split
  · rfl
  · cases s.ctl.noClose <;> simp
@[simp] theorem State.srcClose_cur : s.srcClose.cur = s.cur := by
  unfold State.srcClose; split
  · rfl
  · cases s.ctl.noClose <;> simp
@[simp] theorem State.srcClose_crc : s.srcClose.crc = s.crc := by
  unfold State.srcClose; split
  · rfl
  · cases s.ctl.noClose <;> simp
@[simp] theorem State.srcClose_work : s.srcClose.work = s.work := by
  unfold State.srcClose; split
  · rfl
  · cases s.ctl.noClose <;> simp
@[simp] theorem State.srcClose_host : s.srcClose.host = s.host := by
  unfold State.srcClose; split
  · rfl
  · cases s.ctl.noClose <;> simp
@[simp] theorem State.srcClose_legacyAnd : s.srcClose.legacyAnd = s.legacyAnd := by
  unfold State.srcClose; split
  · rfl
  · cases s.ctl.noClose <;> simp

/-! Values that are not registers, under updates elsewhere. -/

@[simp] theorem State.withReader_alphaSize (r : BitReader) : (s.withReader r).alphaSize = s.alphaSize := rfl
@[simp] theorem State.withReader_eob (r : BitReader) : (s.withReader r).eob = s.eob := rfl
@[simp] theorem State.withReader_capacity (r : BitReader) : (s.withReader r).capacity = s.capacity := rfl
@[simp] theorem State.goto_alphaSize (p : Phase) : (s.goto p).alphaSize = s.alphaSize := rfl
@[simp] theorem State.goto_capacity (p : Phase) : (s.goto p).capacity = s.capacity := rfl
@[simp] theorem State.buildTable_alphaSize (t : Nat) : (s.buildTable t).alphaSize = s.alphaSize := by
  simp [State.alphaSize]
@[simp] theorem State.initSymbols_alphaSize : s.initSymbols.alphaSize = s.alphaSize := by simp [State.alphaSize]
@[simp] theorem State.takeFromGroup_alphaSize : s.takeFromGroup.alphaSize = s.alphaSize := by simp [State.alphaSize]
@[simp] theorem State.takeFromGroup_eob : s.takeFromGroup.eob = s.eob := by simp [State.eob]
@[simp] theorem State.takeFromGroup_capacity : s.takeFromGroup.capacity = s.capacity := by simp [State.capacity]

end Sys2Proof.Machine
end

