-- ==== Sys2Proof/Laws/Store.lean ====
section
/-! SUPPORT. The laws of a store: a read after a write, and the canonical form that every write keeps, so that equal
stores are equal lists. -/

namespace Sys2Proof

variable {w : Nat}

/-- Every listed index lies above `a`. -/
def Store.Above (a : Nat) (m : Store w) : Prop := ∀ p ∈ m, a < p.1

theorem Store.wf_cons (a : Nat) (v : BitVec w) (m : Store w) :
    Store.wf ((a, v) :: m) = true ↔ v ≠ 0 ∧ m.Above a ∧ Store.wf m = true := by
  induction m generalizing a v with
  | nil => simp [Store.wf, Store.Above]
  | cons p m ih =>
    obtain ⟨b, u⟩ := p
    constructor
    · intro h
      simp only [Store.wf, Bool.and_eq_true, bne_iff_ne, ne_eq, decide_eq_true_eq] at h
      obtain ⟨⟨hv, hab⟩, hw⟩ := h
      refine ⟨hv, ?_, hw⟩
      obtain ⟨_, habove, _⟩ := (ih b u).1 hw
      rintro p (_ | ⟨_, hp⟩)
      · exact hab
      · exact Nat.lt_trans hab (habove p hp)
    · rintro ⟨hv, habove, hw⟩
      have hab : a < b := habove (b, u) (by simp)
      simp only [Store.wf, Bool.and_eq_true, bne_iff_ne, ne_eq, decide_eq_true_eq]
      exact ⟨⟨hv, hab⟩, hw⟩

@[simp] theorem Store.wf_nil : Store.wf ([] : Store w) = true := rfl

@[simp] theorem Store.look_nil (i : Nat) : Store.look ([] : Store w) i = 0 := rfl

theorem Store.look_below {m : Store w} {i : Nat} (h : m.Above i) : m.look i = 0 := by
  cases m with
  | nil => rfl
  | cons p m => simp [Store.look, h p (by simp)]

theorem Store.Above.tail {m : Store w} {a : Nat} {p : Nat × BitVec w} (h : Store.Above a (p :: m)) : m.Above a :=
  fun q hq => h q (by simp [hq])

theorem Store.Above.mono {m : Store w} {a b : Nat} (hab : a ≤ b) (h : m.Above b) : m.Above a :=
  fun p hp => Nat.lt_of_le_of_lt hab (h p hp)

theorem Store.Above.put {m : Store w} {a i : Nat} (h : m.Above a) (hi : a < i) (v : BitVec w) :
    (m.put i v).Above a := by
  induction m with
  | nil =>
    simp only [Store.put]
    split
    · exact h
    · rintro p (_ | ⟨_, hp⟩)
      · exact hi
      · cases hp
  | cons p m ih =>
    obtain ⟨b, u⟩ := p
    have hb : a < b := h (b, u) (by simp)
    simp only [Store.put]
    split
    · split
      · exact h
      · rintro q (_ | ⟨_, hq⟩)
        · exact hi
        · exact h q hq
    · split
      · split
        · exact h.tail
        · rintro q (_ | ⟨_, hq⟩)
          · exact hi
          · exact h.tail q hq
      · rintro q (_ | ⟨_, hq⟩)
        · exact hb
        · exact ih h.tail q hq

/-- A write keeps the canonical form. -/
theorem Store.put_wf {m : Store w} (h : m.wf = true) (i : Nat) (v : BitVec w) : (m.put i v).wf = true := by
  induction m with
  | nil =>
    simp only [Store.put]
    split
    · rfl
    · rename_i hv; simpa [Store.wf] using hv
  | cons p m ih =>
    obtain ⟨b, u⟩ := p
    obtain ⟨hu, habove, hm⟩ := (Store.wf_cons b u m).1 h
    simp only [Store.put]
    split
    · rename_i hib
      split
      · exact h
      · rename_i hv
        refine (Store.wf_cons i v _).2 ⟨hv, ?_, h⟩
        rintro q (_ | ⟨_, hq⟩)
        · exact hib
        · exact Nat.lt_trans hib (habove q hq)
    · split
      · rename_i _ hib
        split
        · exact hm
        · rename_i hv
          exact (Store.wf_cons i v m).2 ⟨hv, hib ▸ habove, hm⟩
      · rename_i h1 h2
        exact (Store.wf_cons b u _).2 ⟨hu, habove.put (by omega) v, ih hm⟩

/-- A read after a write to the same index gives the value written. -/
theorem Store.look_put_same {m : Store w} (h : m.wf = true) (i : Nat) (v : BitVec w) : (m.put i v).look i = v := by
  induction m with
  | nil =>
    simp only [Store.put]
    split
    · rename_i hv; simp [Store.look, hv]
    · simp [Store.look]
  | cons p m ih =>
    obtain ⟨b, u⟩ := p
    obtain ⟨hu, habove, hm⟩ := (Store.wf_cons b u m).1 h
    simp only [Store.put]
    split
    · rename_i hib
      split
      · rename_i hv; simp [Store.look, hib, hv]
      · simp [Store.look]
    · split
      · rename_i _ hib
        subst hib
        split
        · rename_i hv; rw [Store.look_below habove, hv]
        · simp [Store.look]
      · rename_i h1 h2
        simp [Store.look, h1, h2, ih hm]

/-- A write leaves every other index alone. -/
theorem Store.look_put_other {m : Store w} (h : m.wf = true) {i j : Nat} (hij : j ≠ i) (v : BitVec w) :
    (m.put i v).look j = m.look j := by
  induction m with
  | nil =>
    simp only [Store.put]
    split
    · rfl
    · simp [Store.look, hij]
  | cons p m ih =>
    obtain ⟨b, u⟩ := p
    obtain ⟨hu, habove, hm⟩ := (Store.wf_cons b u m).1 h
    simp only [Store.put]
    split
    · rename_i hib
      split
      · rfl
      · simp only [Store.look, hij, if_false]
        split
        · rename_i hji
          have : j < b := by omega
          simp [this]
        · rfl
    · split
      · rename_i _ hib
        subst hib
        split
        · simp only [Store.look, hij, if_false]
          split
          · rename_i hji
            exact Store.look_below (habove.mono (Nat.le_of_lt hji))
          · rfl
        · simp [Store.look, hij]
      · simp only [Store.look, ih hm]

/-- Reading after a write. -/
theorem Store.look_put {m : Store w} (h : m.wf = true) (i j : Nat) (v : BitVec w) :
    (m.put i v).look j = if j = i then v else m.look j := by
  split
  · rename_i hij; subst hij; exact Store.look_put_same h _ v
  · rename_i hij; exact Store.look_put_other h hij v

theorem Store.putAll_wf {m : Store w} (h : m.wf = true) (l : List (Nat × BitVec w)) : (m.putAll l).wf = true := by
  induction l generalizing m with
  | nil => exact h
  | cons p l ih => exact ih (Store.put_wf h p.1 p.2)

@[simp] theorem Store.putAll_nil (m : Store w) : m.putAll [] = m := rfl

@[simp] theorem Store.putAll_cons (m : Store w) (p : Nat × BitVec w) (l : List (Nat × BitVec w)) :
    m.putAll (p :: l) = (m.put p.1 p.2).putAll l := rfl

theorem Store.putAll_append (m : Store w) (l l' : List (Nat × BitVec w)) :
    m.putAll (l ++ l') = (m.putAll l).putAll l' := by
  simp [Store.putAll, List.foldl_append]

/-- Writes elsewhere leave an index alone. -/
theorem Store.look_putAll_other {m : Store w} (h : m.wf = true) {l : List (Nat × BitVec w)} {j : Nat}
    (hj : ∀ p ∈ l, p.1 ≠ j) : (m.putAll l).look j = m.look j := by
  induction l generalizing m with
  | nil => rfl
  | cons p l ih =>
    rw [Store.putAll_cons, ih (Store.put_wf h _ _) (fun q hq => hj q (by simp [hq])),
      Store.look_put_other h (Ne.symm (hj p (by simp)))]

/-- Writing `f 0, …, f (n-1)` at the indices `a, …, a+n-1`. -/
theorem Store.look_putAll_range {m : Store w} (h : m.wf = true) (a n : Nat) (f : Nat → BitVec w) (j : Nat) :
    (m.putAll ((List.range n).map fun k => (a + k, f k))).look j
      = if a ≤ j ∧ j < a + n then f (j - a) else m.look j := by
  induction n with
  | zero => simp [show ¬ (a ≤ j ∧ j < a) by omega]
  | succ n ih =>
    rw [List.range_succ, List.map_append, Store.putAll_append]
    simp only [List.map_cons, List.map_nil, Store.putAll_cons, Store.putAll_nil]
    rw [Store.look_put (Store.putAll_wf h _), ih]
    by_cases hj : j = a + n
    · subst hj; simp
    · rw [if_neg hj]
      by_cases h1 : a ≤ j ∧ j < a + n
      · rw [if_pos h1, if_pos ⟨h1.1, by omega⟩]
      · rw [if_neg h1, if_neg (by omega)]

/-- In canonical form a store is determined by what it reads as. -/
theorem Store.ext_look {m m' : Store w} (h : m.wf = true) (h' : m'.wf = true) (hl : ∀ i, m.look i = m'.look i) :
    m = m' := by
  induction m generalizing m' with
  | nil =>
    cases m' with
    | nil => rfl
    | cons p m' =>
      obtain ⟨b, u⟩ := p
      obtain ⟨hu, -, -⟩ := (Store.wf_cons b u m').1 h'
      exact absurd (by simpa [Store.look] using (hl b).symm) hu
  | cons p m ih =>
    obtain ⟨a, v⟩ := p
    obtain ⟨hv, ha, hm⟩ := (Store.wf_cons a v m).1 h
    cases m' with
    | nil => exact absurd (by simpa [Store.look] using hl a) hv
    | cons q m' =>
      obtain ⟨b, u⟩ := q
      obtain ⟨hu, hb, hm'⟩ := (Store.wf_cons b u m').1 h'
      have hab : a = b := by
        rcases Nat.lt_trichotomy a b with hlt | heq | hgt
        · exact absurd (by simpa [Store.look, hlt] using hl a) hv
        · exact heq
        · exact absurd (by simpa [Store.look, hgt] using (hl b).symm) hu
      subst hab
      have hvu : v = u := by simpa [Store.look] using hl a
      subst hvu
      refine congrArg _ (ih hm hm' fun i => ?_)
      rcases Nat.lt_trichotomy i a with hlt | heq | hgt
      · rw [Store.look_below (ha.mono (Nat.le_of_lt hlt)), Store.look_below (hb.mono (Nat.le_of_lt hlt))]
      · subst heq; rw [Store.look_below ha, Store.look_below hb]
      · have := hl i
        simpa [Store.look, show ¬ i < a by omega, show i ≠ a by omega] using this

/-- A fold of writes keeps the canonical form. -/
theorem Store.foldl_put_wf {α : Type} (l : List α) (key : Store w → α → Nat) (val : Store w → α → BitVec w)
    {m : Store w} (h : m.wf = true) : (l.foldl (fun m x => m.put (key m x) (val m x)) m).wf = true := by
  induction l generalizing m with
  | nil => exact h
  | cons x l ih => exact ih (Store.put_wf h _ _)

end Sys2Proof
end

