-- ==== Sys2Proof/Laws/Ops.lean ====
section
/-! SUPPORT. What each shared operation can do, said once: bounded store access, the end of a command, the strobe, the two
list rotations. -/

namespace Sys2Proof.Machine

/-! ### Outcomes -/

@[simp] theorem ofExcept_ok (s : State) : Result.ofExcept (.ok s) = .next s := rfl
@[simp] theorem ofExcept_error (f : Fault) : Result.ofExcept (.error f) = .fault f := rfl

theorem ofExcept_next_iff {x : Except Fault State} {t : State} : Result.ofExcept x = .next t ↔ x = .ok t := by
  cases x <;> simp [Result.ofExcept]

theorem ofExcept_fault_iff {x : Except Fault State} {f : Fault} : Result.ofExcept x = .fault f ↔ x = .error f := by
  cases x <;> simp [Result.ofExcept]

/-- A computation never refuses a run. -/
theorem ofExcept_not_refused {x : Except Fault State} {r : Refusal} : Result.ofExcept x ≠ .refused r := by
  cases x <;> simp [Result.ofExcept]

/-! ### Bounded store access (20_memory.md R86) -/

theorem inRange_of_lt {n : StoreName} {bound i : Nat} (h : i < bound) : inRange n bound i = .ok () := by
  simp [inRange, h]

theorem inRange_ok_iff {n : StoreName} {bound i : Nat} {u : Unit} : inRange n bound i = .ok u ↔ i < bound := by
  unfold inRange; split <;> simp [*]

theorem loadAt_of_lt {w : Nat} {n : StoreName} {bound i : Nat} (h : i < bound) (m : Store w) :
    loadAt n bound m i = .ok (m.look i) := by simp [loadAt, h]

theorem loadAt_ok_iff {w : Nat} {n : StoreName} {bound i : Nat} {m : Store w} {v : BitVec w} :
    loadAt n bound m i = .ok v ↔ i < bound ∧ m.look i = v := by
  unfold loadAt; split <;> simp [*]

theorem storeAt_of_lt {w : Nat} {n : StoreName} {bound i : Nat} (h : i < bound) (m : Store w) (v : BitVec w) :
    storeAt n bound m i v = .ok (m.put i v) := by simp [storeAt, h]

theorem storeAt_ok_iff {w : Nat} {n : StoreName} {bound i : Nat} {m u : Store w} {v : BitVec w} :
    storeAt n bound m i v = .ok u ↔ i < bound ∧ m.put i v = u := by
  unfold storeAt; split <;> simp [*]

/-! ### Commands, strobes -/

theorem ifReady_of_ready {s : State} (h : s.work.phase = .ready) (r : Result) : ifReady s r = r := by
  simp [ifReady, h]

/-- A command while another is outstanding is a run the model refuses (48_host_interface.md R458). -/
theorem ifReady_of_busy {s : State} (h : s.work.phase ≠ .ready) (r : Result) :
    ifReady s r = .refused .commandOutstanding := by simp [ifReady, h]

theorem srcClose_of_closed {s : State} (h : s.ctl.srcClosed = true) : s.srcClose = s := by simp [State.srcClose, h]

/-- Releasing the source leaves it released. -/
@[simp] theorem srcClose_srcClosed (s : State) : s.srcClose.ctl.srcClosed = true := by
  unfold State.srcClose; split <;> simp_all

/-- Releasing the source writes SRC_CLOSED only, of the control registers. -/
theorem srcClose_ctl (s : State) : s.srcClose.ctl = { s.ctl with srcClosed := true } := by
  unfold State.srcClose
  split
  · rename_i h; cases hc : s.ctl; simp_all
  · cases s.ctl.noClose <;> simp

/-- The strobe is pulsed exactly when the source is owned and is not the standard input (R470). -/
theorem srcClose_out (s : State) :
    s.srcClose.out = if s.ctl.srcClosed = false ∧ s.ctl.noClose = false then .closeStrobe :: s.out else s.out := by
  unfold State.srcClose
  split
  · rename_i h; simp [h]
  · rename_i h; cases hn : s.ctl.noClose <;> simp_all

/-- Who acts: a host event that lands in this step is the one the fetch takes. -/
theorem fetch_of_hostActs {s : State} {a : HostAction} {rest : List HostEvent} (h : s.hostActs a rest) :
    fetch s = fetchHost a { s with host := rest } := by
  rcases h with h | ⟨h, hp⟩
  · simp [fetch, h]
  · simp [fetch, h, hp]

/-- Who acts: the core while a command is outstanding and no host event cuts in. -/
theorem fetch_of_coreActs {s : State} (h : s.coreActs) : fetch s = fetchCore s := by
  obtain ⟨hp, hw⟩ := h
  unfold State.hostWaits at hw
  unfold fetch
  split at hw <;> simp_all

/-- A step either runs the instruction the fetch found or is settled by the fetch. -/
theorem step_next_cases {s t : State} (h : step s = .next t) :
    (∃ i u, fetch s = .run i u ∧ exec i u = .next t) ∨ fetch s = .goes t := by
  unfold step at h
  split at h
  · exact .inl ⟨_, _, ‹_›, h⟩
  · injection h with h; subst h; exact .inr ‹_›
  · cases h
  · cases h

/-- An element of the stream: run, a fault of the core, a model fault of the table, or waiting. -/
theorem fetchElement_cases (c : Ctx) (waiting s : State) :
    (∃ i r, decode c s.rd = .instr i r ∧ fetchElement c waiting s = .run i (s.withReader r)) ∨
    (∃ why r, decode c s.rd = .reject why r ∧ fetchElement c waiting s = rejected why (s.withReader r)) ∨
    (∃ r, decode c s.rd = .truncated r ∧
      fetchElement c waiting s = .goes (((s.keepPartial c).withReader r).raise .truncatedStream)) ∨
    (decode c s.rd = .wait ∧ fetchElement c waiting s = .goes waiting) := by
  unfold fetchElement
  cases h : decode c s.rd with
  | instr i r => exact .inl ⟨i, r, rfl, rfl⟩
  | reject why r => exact .inr (.inl ⟨why, r, rfl, rfl⟩)
  | truncated r => exact .inr (.inr (.inl ⟨r, rfl, rfl⟩))
  | wait => exact .inr (.inr (.inr ⟨rfl, rfl⟩))

/-! ### Rotations -/

theorem moveToFront_wf {w : Nat} {m : Store w} (h : m.wf = true) (j : Nat) : (moveToFront m j).wf = true :=
  Store.putAll_wf h _

/-- Moving entry `j` to the front shifts the entries before it down by one (42_tables.md R257, 44_symbol_decoder.md R326). -/
theorem moveToFront_look {w : Nat} {m : Store w} (h : m.wf = true) (j k : Nat) :
    (moveToFront m j).look k = if k = 0 then m.look j else if k ≤ j then m.look (k - 1) else m.look k := by
  unfold moveToFront
  rw [Store.putAll_append]
  simp only [Store.putAll_cons, Store.putAll_nil]
  rw [Store.look_put (Store.putAll_wf h _)]
  by_cases hk : k = 0
  · simp [hk]
  · simp only [hk, if_false]
    have := Store.look_putAll_range h 1 j (fun p => m.look p) k
    rw [show (fun p => (p + 1, m.look p)) = fun p => (1 + p, m.look p) by funext p; rw [Nat.add_comm], this]
    by_cases hj : k ≤ j
    · rw [if_pos ⟨by omega, by omega⟩, if_pos hj]
    · rw [if_neg (by omega), if_neg hj]

/-! ### Encodings of the registers -/

/-- The codes of ST are distinct (10_state.md R21). -/
theorem St.code_injective {a b : St} (h : a.code = b.code) : a = b := by
  cases a <;> cases b <;> first | rfl | exact absurd h (by decide)

/-- A fault is known by its code and detail (60_exceptions.md R501). -/
theorem CoreFault.code_detail_injective {f g : CoreFault} (hc : f.code = g.code) (hd : f.detail = g.detail) : f = g := by
  cases f <;> cases g <;> first | rfl | exact absurd hc (by decide) | exact absurd hd (by decide)

end Sys2Proof.Machine
end

