-- ==== Sys2Proof/Laws/Memory.lean ====
section
/-! SUPPORT. Every operation that writes a store keeps every store in its canonical form, and every other operation leaves
the stores alone. -/

namespace Sys2Proof.Machine

/-- The canonical form, store by store. -/
theorem Memory.wf_iff (s : State) : Memory.wf s = true ↔
    s.map.inUse16.wf = true ∧ s.map.inUse.wf = true ∧ s.map.seqToUnseq.wf = true ∧ s.map.unseqToSeq.wf = true ∧
    s.sel.selector.wf = true ∧ s.sel.selPos.wf = true ∧ s.tab.len.wf = true ∧ s.tab.minLen.wf = true ∧
    s.tab.maxLen.wf = true ∧ s.tab.limit.wf = true ∧ s.tab.base.wf = true ∧ s.tab.perm.wf = true ∧
    s.sym.mtf.wf = true ∧ s.sym.freq.wf = true ∧ s.bwt.cftab.wf = true ∧ s.bwt.ll8.wf = true ∧ s.bwt.tt.wf = true := by
  simp only [Memory.wf, Bool.and_eq_true, and_assoc]

/-- The reset state lists nothing. -/
theorem Memory.wf_reset : Memory.wf State.reset = true := by decide

/-- The canonical form depends on the stores only. -/
theorem Memory.wf_congr {s t : State} (hm : t.map = s.map) (hs : t.sel = s.sel) (ht : t.tab = s.tab) (hy : t.sym = s.sym)
    (hb : t.bwt = s.bwt) : Memory.wf t = Memory.wf s := by
  simp only [Memory.wf, hm, hs, ht, hy, hb]

section untouched
variable (s : State)
@[simp] theorem Memory.wf_goto (p : Phase) : Memory.wf (s.goto p) = Memory.wf s := rfl
@[simp] theorem Memory.wf_setSt (st : St) : Memory.wf (s.setSt st) = Memory.wf s := rfl
@[simp] theorem Memory.wf_emit (e : OutEvent) : Memory.wf (s.emit e) = Memory.wf s := rfl
@[simp] theorem Memory.wf_respond (st : BitVec 3) (d : Byte) : Memory.wf (s.respond st d) = Memory.wf s := rfl
@[simp] theorem Memory.wf_respondByte (b : Byte) : Memory.wf (s.respondByte b) = Memory.wf s := rfl
@[simp] theorem Memory.wf_raise (f : CoreFault) : Memory.wf (s.raise f) = Memory.wf s := rfl
@[simp] theorem Memory.wf_clearFault : Memory.wf s.clearFault = Memory.wf s := rfl
@[simp] theorem Memory.wf_withReader (r : BitReader) : Memory.wf (s.withReader r) = Memory.wf s := rfl
@[simp] theorem Memory.wf_crcUpdate (b : Byte) : Memory.wf (s.crcUpdate b) = Memory.wf s := rfl
@[simp] theorem Memory.wf_derandomise (b : Byte) : Memory.wf (s.derandomise b).2 = Memory.wf s := rfl
@[simp] theorem Memory.wf_srcClose : Memory.wf s.srcClose = Memory.wf s :=
  Memory.wf_congr (by simp) (by simp) (by simp) (by simp) (by simp)
@[simp] theorem Memory.wf_takeFromGroup : Memory.wf s.takeFromGroup = Memory.wf s := by simp [Memory.wf]
@[simp] theorem Memory.wf_compareBytes : Memory.wf s.compareBytes = Memory.wf s := by
  unfold State.compareBytes; split <;> rfl
@[simp] theorem Memory.wf_countMissing : Memory.wf s.countMissing = Memory.wf s := rfl
@[simp] theorem Memory.wf_emitCopy : Memory.wf s.emitCopy = Memory.wf s := by
  unfold State.emitCopy; split <;> rfl
@[simp] theorem Memory.wf_blockEnd : Memory.wf s.blockEnd = Memory.wf s := by
  unfold State.blockEnd; dsimp only; split <;> rfl
end untouched

/-- Reset empties every store. -/
theorem Memory.wf_afterReset (s : State) : Memory.wf s.afterReset = true := Memory.wf_reset

variable {s t : State}

theorem Memory.wf_setRange (h : Memory.wf s = true) (i : Nat) (b : BitVec 16) : Memory.wf (s.setRange i b) = true := by
  rw [Memory.wf_iff] at h ⊢
  simp only [State.setRange_map, State.setRange_sel, State.setRange_tab, State.setRange_sym, State.setRange_bwt]
  exact ⟨h.1, Store.putAll_wf h.2.1 _, h.2.2⟩

theorem Memory.wf_keepPartial (h : Memory.wf s = true) (c : Ctx) : Memory.wf (s.keepPartial c) = true := by
  have hi := (Memory.wf_iff s).1 h
  cases c <;> first
    | exact h
    | exact (Memory.wf_iff _).2 ⟨Store.putAll_wf hi.1 _, hi.2⟩
    | exact (Memory.wf_iff _).2 ⟨hi.1, Store.putAll_wf hi.2.1 _, hi.2.2⟩

/-- The map loop keeps both stores canonical. -/
theorem mapByte_wf (inUse : Store 1) (l : List Nat) {acc : Store 8 × Store 8 × Nat} (h1 : acc.1.wf = true)
    (h2 : acc.2.1.wf = true) :
    (l.foldl (mapByte inUse) acc).1.wf = true ∧ (l.foldl (mapByte inUse) acc).2.1.wf = true := by
  induction l generalizing acc with
  | nil => exact ⟨h1, h2⟩
  | cons v l ih =>
    rw [List.foldl_cons]
    unfold mapByte
    split
    · exact ih (Store.put_wf h1 _ _) (Store.put_wf h2 _ _)
    · exact ih h1 h2

theorem Memory.wf_buildMap (h : Memory.wf s = true) : Memory.wf s.buildMap = true := by
  rw [Memory.wf_iff] at h ⊢
  have hm := mapByte_wf s.map.inUse (List.range 256) (acc := (s.map.seqToUnseq, s.map.unseqToSeq, 0)) h.2.2.1 h.2.2.2.1
  exact ⟨h.1, h.2.1, hm.1, hm.2, h.2.2.2.2⟩

theorem Memory.wf_finishMap (h : Memory.wf s = true) : Memory.wf s.finishMap = true := by
  unfold State.finishMap; dsimp only; split <;> simpa using Memory.wf_buildMap h

theorem Memory.wf_seekRange (l : List Nat) (h : Memory.wf s = true) : Memory.wf (State.seekRange l s) = true := by
  induction l generalizing s with
  | nil => exact Memory.wf_finishMap h
  | cons i l ih =>
    unfold State.seekRange
    split
    · exact h
    · exact ih (Memory.wf_setRange h i 0)

theorem Memory.wf_selectorMtf (h : Memory.wf s = true) (i j : Nat) : Memory.wf (s.selectorMtf i j) = true := by
  rw [Memory.wf_iff] at h ⊢
  obtain ⟨h1, h2, h3, h4, h5, h6, h7⟩ := h
  exact ⟨h1, h2, h3, h4, Store.put_wf h5 _ _, moveToFront_wf h6 j, h7⟩

/-! ### The table builder -/

theorem permStep_wf (t i : Nat) (len : Store 5) (l : List Nat) {acc : Store 9 × Nat} (h : acc.1.wf = true) :
    (l.foldl (permStep t i len) acc).1.wf = true := by
  induction l generalizing acc with
  | nil => exact h
  | cons j l ih =>
    rw [List.foldl_cons]
    unfold permStep
    split
    · exact ih (Store.put_wf h _ _)
    · exact ih h

theorem buildPerm_wf (t alpha lo hi : Nat) (len : Store 5) {perm : Store 9} (h : perm.wf = true) :
    (buildPerm t alpha lo hi len perm).wf = true := by
  have key : ∀ (ls : List Nat) (acc : Store 9 × Nat), acc.1.wf = true →
      (ls.foldl (fun acc i => (List.range alpha).foldl (permStep t i len) acc) acc).1.wf = true := by
    intro ls
    induction ls with
    | nil => exact fun acc h => h
    | cons i ls ih => exact fun acc h => ih _ (permStep_wf t i len _ h)
  exact key _ _ h

theorem histogram_wf (t alpha : Nat) (len : Store 5) {base : Store 32} (h : base.wf = true) :
    (histogram t alpha len base).wf = true :=
  Store.foldl_put_wf _ (fun _ j => lengthKey t ((len.look (symbolKey t j)).toNat + 1)) _ (Store.putAll_wf h _)

theorem prefixSum_wf (t : Nat) {base : Store 32} (h : base.wf = true) : (prefixSum t base).wf = true :=
  Store.foldl_put_wf _ (fun _ i => lengthKey t i) _ h

theorem buildLimit_wf (t lo hi : Nat) (base : Store 32) {limit : Store 32} (h : limit.wf = true) :
    (buildLimit t lo hi base limit).wf = true := by
  have key : ∀ (ls : List Nat) (acc : Store 32 × Nat), acc.1.wf = true →
      (ls.foldl (limitStep t base) acc).1.wf = true := by
    intro ls
    induction ls with
    | nil => exact fun acc h => h
    | cons i ls ih => exact fun acc h => ih _ (Store.put_wf h _ _)
  unfold buildLimit
  refine key _ _ ?_
  dsimp only
  exact Store.putAll_wf h _

theorem adjustBase_wf (t lo hi : Nat) (limit : Store 32) {base : Store 32} (h : base.wf = true) :
    (adjustBase t lo hi limit base).wf = true :=
  Store.foldl_put_wf _ (fun _ i => lengthKey t i) _ h

theorem Memory.wf_buildTable (h : Memory.wf s = true) (t : Nat) : Memory.wf (s.buildTable t) = true := by
  rw [Memory.wf_iff] at h ⊢
  obtain ⟨h1, h2, h3, h4, h5, h6, h7, h8, h9, h10, h11, h12, h13⟩ := h
  simp only [State.buildTable]
  refine ⟨h1, h2, h3, h4, h5, h6, h7, ?_, ?_, ?_, ?_, ?_, h13⟩
  · exact Store.put_wf h8 _ _
  · exact Store.put_wf h9 _ _
  · exact buildLimit_wf _ _ _ _ h10
  · exact adjustBase_wf _ _ _ _ (prefixSum_wf _ (histogram_wf _ _ _ h11))
  · exact buildPerm_wf _ _ _ _ _ h12

theorem Memory.wf_buildTables (h : Memory.wf s = true) (hb : s.buildTables = .ok t) : Memory.wf t = true := by
  unfold State.buildTables at hb
  split at hb
  · injection hb with hb
    subst hb
    have key : ∀ (ls : List Nat) (u : State), Memory.wf u = true → Memory.wf (ls.foldl State.buildTable u) = true := by
      intro ls
      induction ls with
      | nil => exact fun u h => h
      | cons i ls ih => exact fun u h => ih _ (Memory.wf_buildTable h i)
    exact key _ _ h
  · cases hb

theorem Memory.wf_initSymbols (h : Memory.wf s = true) : Memory.wf s.initSymbols = true := by
  rw [Memory.wf_iff] at h ⊢
  obtain ⟨h1, h2, h3, h4, h5, h6, h7, h8, h9, h10, h11, h12, h13, h14, h15⟩ := h
  simp only [State.initSymbols]
  exact ⟨h1, h2, h3, h4, h5, h6, h7, h8, h9, h10, h11, h12, Store.putAll_wf h13 _, Store.putAll_wf h14 _, h15⟩

/-! ### Symbols and the successor chain -/

theorem Memory.wf_emitRun (h : Memory.wf s = true) (he : s.emitRun = .ok t) : Memory.wf t = true := by
  unfold State.emitRun at he
  dsimp only at he
  split at he
  · injection he with he
    subst he
    rw [Memory.wf_iff] at h ⊢
    obtain ⟨h1, h2, h3, h4, h5, h6, h7, h8, h9, h10, h11, h12, h13, h14, h15, h16, h17⟩ := h
    exact ⟨h1, h2, h3, h4, h5, h6, h7, h8, h9, h10, h11, h12, h13, Store.put_wf h14 _ _, h15, Store.putAll_wf h16 _, h17⟩
  · cases he

theorem Memory.wf_endRun (h : Memory.wf s = true) (he : s.endRun = .ok t) : Memory.wf t = true := by
  unfold State.endRun at he
  split at he
  · cases hr : s.emitRun with
    | error f => simp [hr, bind, Except.bind] at he
    | ok u =>
      simp only [hr, bind, Except.bind, pure, Except.pure] at he
      injection he with he
      subst he
      have hu := Memory.wf_emitRun h hr
      exact hu
  · injection he with he; subst he; exact h

theorem Memory.wf_literal (h : Memory.wf s = true) {v : Nat} (he : s.literal v = .ok t) : Memory.wf t = true := by
  unfold State.literal at he
  dsimp only at he
  split at he
  · split at he
    · injection he with he
      subst he
      rw [Memory.wf_iff] at h ⊢
      obtain ⟨h1, h2, h3, h4, h5, h6, h7, h8, h9, h10, h11, h12, h13, h14, h15, h16, h17⟩ := h
      exact ⟨h1, h2, h3, h4, h5, h6, h7, h8, h9, h10, h11, h12, moveToFront_wf h13 _, Store.put_wf h14 _ _, h15,
        Store.put_wf h16 _ _, h17⟩
    · cases he
  · cases he

theorem cumulate_wf (freq : Store 20) {cftab : Store 20} (h : cftab.wf = true) : (cumulate freq cftab).wf = true :=
  Store.foldl_put_wf _ (fun _ c => c + 1) _ (Store.put_wf h _ _)

theorem fillStep_wf {bound : Nat} {ll8 : Store 8} {acc out : Store 20 × Store 20} {i : Nat} (h1 : acc.1.wf = true)
    (h2 : acc.2.wf = true) (he : fillStep bound ll8 acc i = .ok out) : out.1.wf = true ∧ out.2.wf = true := by
  unfold fillStep at he
  dsimp only [bind, Except.bind, pure, Except.pure] at he
  split at he
  · cases he
  · split at he
    · cases he
    · rename_i u hu
      injection he with he
      subst he
      obtain ⟨-, hu⟩ := storeAt_ok_iff.1 hu
      exact ⟨hu ▸ Store.put_wf h1 _ _, Store.put_wf h2 _ _⟩

theorem fill_wf {bound : Nat} {ll8 : Store 8} (l : List Nat) {acc out : Store 20 × Store 20} (h1 : acc.1.wf = true)
    (h2 : acc.2.wf = true) (he : l.foldlM (fillStep bound ll8) acc = .ok out) : out.1.wf = true ∧ out.2.wf = true := by
  induction l generalizing acc with
  | nil =>
    simp only [List.foldlM_nil, pure, Except.pure] at he
    injection he with he
    exact he ▸ ⟨h1, h2⟩
  | cons i l ih =>
    rw [List.foldlM_cons] at he
    cases hs : fillStep bound ll8 acc i with
    | error f => simp [hs, bind, Except.bind] at he
    | ok a =>
      simp only [hs, bind, Except.bind] at he
      obtain ⟨ha, hb⟩ := fillStep_wf h1 h2 hs
      exact ih ha hb he

theorem Memory.wf_buildSuccessors (h : Memory.wf s = true) (he : s.buildSuccessors = .ok t) : Memory.wf t = true := by
  unfold State.buildSuccessors at he
  cases hr : (List.range s.sym.nblock.toNat).foldlM (fillStep s.blockBound s.bwt.ll8)
      (s.bwt.tt, cumulate s.sym.freq s.bwt.cftab) with
  | error f => rw [hr] at he; cases he
  | ok r =>
    rw [hr] at he
    injection he with he
    subst he
    rw [Memory.wf_iff] at h ⊢
    obtain ⟨h1, h2, h3, h4, h5, h6, h7, h8, h9, h10, h11, h12, h13, h14, h15, h16, h17⟩ := h
    have hf : r.1.wf = true ∧ r.2.wf = true := by
      have hc := cumulate_wf s.sym.freq h15
      generalize cumulate s.sym.freq s.bwt.cftab = c at hr hc
      exact fill_wf _ h17 hc hr
    exact ⟨h1, h2, h3, h4, h5, h6, h7, h8, h9, h10, h11, h12, h13, h14, hf.2, h16, hf.1⟩

theorem Memory.wf_blockSetup (h : Memory.wf s = true) (he : s.blockSetup = .ok t) : Memory.wf t = true := by
  unfold State.blockSetup at he
  dsimp only [bind, Except.bind, pure, Except.pure] at he
  split at he
  · cases he
  · injection he with he
    subst he
    exact h

theorem Memory.wf_fetchByte (h : Memory.wf s = true) {b : Byte} (he : s.fetchByte = .ok (b, t)) : Memory.wf t = true := by
  unfold State.fetchByte at he
  dsimp only [bind, Except.bind, pure, Except.pure] at he
  split at he
  · cases he
  · split at he
    · cases he
    · injection he with he
      split at he
      · have := congrArg Prod.snd he
        dsimp only at this
        rw [← this]; exact h
      · injection he with _ he
        subst he; exact h

end Sys2Proof.Machine
end

