-- ==== Sys2Proof/Laws/PerInstr.lean ====
section
/-! SUPPORT. Statements made per instruction. Family `Width`: at a place of fixed width (30_encoding.md R121 to R123, R130) an
instruction's encoding has exactly that many bits. -/

namespace Sys2Proof.Laws.Width

/-- The encoding of `i` has the width of the place it stands at. -/
def Statement (i : Instr) : Prop :=
  ∀ (c : Ctx) (n : Nat), c.admits i = true → c.fixedWidth = some n → (encode c i).length = n

theorem sig : Statement .sig := by
  intro k n ha hw; cases k <;> simp_all [Ctx.admits, Ctx.fixedWidth, encode]

theorem hdr (d : Byte) : Statement (.hdr d) := by
  intro k n ha hw; cases k <;> simp_all [Ctx.admits, Ctx.fixedWidth, encode]

theorem otherTrailer (h d : Byte) : Statement (.otherTrailer h d) := by
  intro k n ha hw; cases k <;> simp_all [Ctx.admits, Ctx.fixedWidth, encode]

theorem blockMagic : Statement .blockMagic := by
  intro k n ha hw; cases k <;> simp_all [Ctx.admits, Ctx.fixedWidth, encode]

theorem eosMagic : Statement .eosMagic := by
  intro k n ha hw; cases k <;> simp_all [Ctx.admits, Ctx.fixedWidth, encode]

theorem blockCrc (c : Word) : Statement (.blockCrc c) := by
  intro k n ha hw; cases k <;> simp_all [Ctx.admits, Ctx.fixedWidth, encode]

theorem streamCrc (c : Word) : Statement (.streamCrc c) := by
  intro k n ha hw; cases k <;> simp_all [Ctx.admits, Ctx.fixedWidth, encode]

theorem randBit (r : BitVec 1) : Statement (.randBit r) := by
  intro k n ha hw; cases k <;> simp_all [Ctx.admits, Ctx.fixedWidth, encode]

theorem origPtr (p : BitVec 24) : Statement (.origPtr p) := by
  intro k n ha hw; cases k <;> simp_all [Ctx.admits, Ctx.fixedWidth, encode]

theorem inuse16 (u : BitVec 16) : Statement (.inuse16 u) := by
  intro k n ha hw; cases k <;> simp_all [Ctx.admits, Ctx.fixedWidth, encode]

theorem inuseInner (b : BitVec 16) : Statement (.inuseInner b) := by
  intro k n ha hw; cases k <;> simp_all [Ctx.admits, Ctx.fixedWidth, encode]

theorem nGroups (n : BitVec 3) : Statement (.nGroups n) := by
  intro k n ha hw; cases k <;> simp_all [Ctx.admits, Ctx.fixedWidth, encode]

theorem nSelectors (n : BitVec 15) : Statement (.nSelectors n) := by
  intro k n ha hw; cases k <;> simp_all [Ctx.admits, Ctx.fixedWidth, encode]

theorem selectorMtf (j : BitVec 3) : Statement (.selectorMtf j) := by
  intro k n ha hw; cases k <;> simp_all [Ctx.admits, Ctx.fixedWidth]

theorem lenStart (s : BitVec 5) : Statement (.lenStart s) := by
  intro k n ha hw; cases k <;> simp_all [Ctx.admits, Ctx.fixedWidth, encode]

theorem lenInc : Statement .lenInc := by
  intro k n ha hw; cases k <;> simp_all [Ctx.admits, Ctx.fixedWidth]

theorem lenDec : Statement .lenDec := by
  intro k n ha hw; cases k <;> simp_all [Ctx.admits, Ctx.fixedWidth]

theorem lenEnd : Statement .lenEnd := by
  intro k n ha hw; cases k <;> simp_all [Ctx.admits, Ctx.fixedWidth]

theorem symRuna : Statement .symRuna := by
  intro k n ha hw; cases k <;> simp_all [Ctx.admits, Ctx.fixedWidth]

theorem symRunb : Statement .symRunb := by
  intro k n ha hw; cases k <;> simp_all [Ctx.admits, Ctx.fixedWidth]

theorem symMtfv (v : BitVec 9) : Statement (.symMtfv v) := by
  intro k n ha hw; cases k <;> simp_all [Ctx.admits, Ctx.fixedWidth]

theorem symEob : Statement .symEob := by
  intro k n ha hw; cases k <;> simp_all [Ctx.admits, Ctx.fixedWidth]

theorem rle2Literal (b : Byte) : Statement (.rle2Literal b) := by
  intro k n ha hw; cases k <;> simp_all [Ctx.admits, Ctx.fixedWidth, encode]

theorem rle2Count (k : Byte) : Statement (.rle2Count k) := by
  intro k n ha hw; cases k <;> simp_all [Ctx.admits, Ctx.fixedWidth, encode]

theorem openCmd (nc : BitVec 1) : Statement (.openCmd nc) := by
  intro k n ha hw; cases k <;> simp_all [Ctx.admits, Ctx.fixedWidth, encode]

theorem nextCmd : Statement .nextCmd := by
  intro k n ha hw; cases k <;> simp_all [Ctx.admits, Ctx.fixedWidth, encode]

theorem closeCmd : Statement .closeCmd := by
  intro k n ha hw; cases k <;> simp_all [Ctx.admits, Ctx.fixedWidth, encode]

theorem cmdReserved (o : BitVec 2) (n : BitVec 1) (r : BitVec 5) : Statement (.cmdReserved o n r) := by
  intro k n ha hw; cases k <;> simp_all [Ctx.admits, Ctx.fixedWidth, encode]

end Sys2Proof.Laws.Width
end

