-- ==== Sys2Proof/Tests/Slice0.lean ====
section
/-! SUPPORT. Tests of the model, each expected result taken from the spec's own examples and vectors (named in each
comment), and for every statement with hypotheses a witness that meets them. -/

namespace Sys2Proof.Tests

open Sys2Proof.Machine

-- one theorem after the other: many long kernel evaluations at once would need a thread each
set_option Elab.async false

/-! ### Helpers -/

/-- The state a step or an instruction goes on to. -/
def nextOf (r : Result) : Option State :=
  match r with
  | .next s => some s
  | .fault _ => none
  | .refused _ => none

theorem next_of {r : Result} (h : (nextOf r).isSome = true) : ∃ t, r = .next t := by
  cases r <;> simp_all [nextOf]

/-- A fact about the state a step goes on to. -/
def after (r : Result) (p : State → Bool) : Bool := (nextOf r).any p

/-- The bits of a string, in stream order, as a reader. -/
def reader (bits : List Bool) : BitReader :=
  BitReader.start ((bitBytes 40 (bits ++ List.replicate ((8 - bits.length % 8) % 8) false)).map .byte)

/-- A state at place `p` with ST = `st`, an open stream of multiplier 9, and these source bytes. -/
def place (p : Phase) (st : St) (bytes : List Byte) : State :=
  { State.reset with
    ctl := { State.reset.ctl with st := st, srcClosed := false, blockSize100k := 9 }
    rd := BitReader.start (bytes.map .byte)
    work := { State.reset.work with phase := p } }

/-- The last response word put out. -/
def lastResponse (s : State) : Option (BitVec 16) := (responsesOf s.out).head?

/-- A store holding a list from index 0 on. -/
def storeOf (w : Nat) (l : List Nat) : Store w := Store.putAll [] (l.zipIdx.map fun p => (p.2, BitVec.ofNat w p.1))

/-- A state in the middle of a block with these code lengths for group 0. -/
def rowState (lengths : List Nat) : State :=
  let s := place .lenStart .startBlock []
  { s with
    map := { s.map with nInUse := BitVec.ofNat 9 (lengths.length - 2) }
    sel := { s.sel with nGroups := 1, nSelectors := 1 }
    tab := { s.tab with len := storeOf 5 lengths } }

/-- The decode table built from these lengths. -/
def tableOf (lengths : List Nat) : CodeTable := ((rowState lengths).buildTable 0).codeTable 0

/-- PERM, and LIMIT and BASE from the shortest length to the longest. -/
def tableRows (lengths : List Nat) : List Nat × List Nat × List Nat :=
  let T := tableOf lengths
  ((List.range T.alpha).map T.permAt, (upTo T.minLen T.maxLen).map T.limitAt, (upTo T.minLen T.maxLen).map T.baseAt)

/-- The instruction decoded from bits at a place, with the number of bits it took. -/
def decoded (c : Ctx) (bits : List Bool) : Option (Instr × Nat) :=
  match decode c (reader bits) with
  | .instr i r => some (i, (reader bits).bits.length - r.bits.length)
  | _ => none

/-! ### Well-formedness: an ill-formed term for each check -/

theorem test_wf_hdr : (Instr.hdr 0x30).wf = false ∧ (Instr.hdr 0x3A).wf = false ∧ (Instr.hdr 0x39).wf = true := by decide
theorem test_wf_otherTrailer :
    (Instr.otherTrailer 0x68 0x31).wf = false ∧ (Instr.otherTrailer 0x68 0x30).wf = true := by decide
theorem test_wf_nGroups : (Instr.nGroups 0).wf = false ∧ (Instr.nGroups 7).wf = false ∧ (Instr.nGroups 6).wf = true := by
  decide
theorem test_wf_nSelectors : (Instr.nSelectors 0).wf = false ∧ (Instr.nSelectors 0x7FFF).wf = true := by decide
theorem test_wf_selectorMtf : (Instr.selectorMtf 6).wf = false ∧ (Instr.selectorMtf 5).wf = true := by decide
theorem test_wf_lenStart :
    (Instr.lenStart 0).wf = false ∧ (Instr.lenStart 21).wf = false ∧ (Instr.lenStart 20).wf = true := by decide
theorem test_wf_symMtfv :
    (Instr.symMtfv 1).wf = false ∧ (Instr.symMtfv 257).wf = false ∧ (Instr.symMtfv 256).wf = true := by decide
theorem test_wf_cmdReserved :
    (Instr.cmdReserved 1 1 0).wf = false ∧ (Instr.cmdReserved 2 0 0).wf = false ∧ (Instr.cmdReserved 3 1 0).wf = true := by
  decide

/-! ### Decoding: words written out from the encoding tables (30_encoding.md R121 to R126, R130; opcode_table.json) -/

-- 0x42 0x5A = 0100 0010 0101 1010
theorem test_decode_sig : decoded (.signature false)
    [false, true, false, false, false, false, true, false, false, true, false, true, true, false, true, false]
    = some (.sig, 16) := by decide +kernel
-- 0x68 0x39 = 0110 1000 0011 1001
theorem test_decode_hdr : decoded .trailer
    [false, true, true, false, true, false, false, false, false, false, true, true, true, false, false, true]
    = some (.hdr 0x39, 16) := by decide +kernel
-- 0x78 0x39: the first byte is not `h`
theorem test_decode_otherTrailer : decoded .trailer
    [false, true, true, true, true, false, false, false, false, false, true, true, true, false, false, true]
    = some (.otherTrailer 0x78 0x39, 16) := by decide +kernel
-- 0x31 0x41 0x59 0x26 0x53 0x59
theorem test_decode_blockMagic : decodeTableWord 48 0x314159265359 = some .blockMagic := by decide +kernel
theorem test_decode_eosMagic : decodeTableWord 48 0x177245385090 = some .eosMagic := by decide +kernel
-- the bytes 64 8C BB 73 (R226's example), five bits into the accumulator
theorem test_decode_blockCrc : decoded .blockCrc (bitsMsb 8 0x64 ++ bitsMsb 8 0x8C ++ bitsMsb 8 0xBB ++ bitsMsb 8 0x73)
    = some (.blockCrc 0x648CBB73, 32) := by decide +kernel
theorem test_decode_streamCrc : decoded .streamCrc (bitsMsb 8 0x45 ++ bitsMsb 8 0x1C ++ bitsMsb 8 0x7F ++ bitsMsb 8 0x5C)
    = some (.streamCrc 0x451C7F5C, 32) := by decide +kernel
theorem test_decode_randBit : decoded .randBit [true] = some (.randBit 1, 1) := by decide +kernel
-- 24 bits, of which the last but two is set
theorem test_decode_origPtr : decoded .origPtr (List.replicate 21 false ++ [true, false, false]) = some (.origPtr 4, 24) := by
  decide +kernel
-- 0000 0010 0000 0000 (R250's example): the seventh bit of the stream is the bit of group 6
theorem test_decode_inuse16 : decoded .inuse16
    [false, false, false, false, false, false, true, false, false, false, false, false, false, false, false, false]
    = some (.inuse16 0x0200, 16) := by decide +kernel
-- 0111 0000 0000 0000 (R251's example)
theorem test_decode_inuseInner : decoded .inuseInner
    [false, true, true, true, false, false, false, false, false, false, false, false, false, false, false, false]
    = some (.inuseInner 0x7000, 16) := by decide +kernel
-- 010 (R254's example)
theorem test_decode_nGroups : decoded .nGroups [false, true, false] = some (.nGroups 2, 3) := by decide +kernel
-- 000000000000001 (R255's example)
theorem test_decode_nSelectors : decoded .nSelectors (List.replicate 14 false ++ [true]) = some (.nSelectors 1, 15) := by
  decide +kernel
-- 10 is rank 1; with N_GROUPS = 2 a second 1 bit ends the element (R256's example)
theorem test_decode_selectorMtf : decoded (.selector 2) [true, false] = some (.selectorMtf 1, 2) ∧
    decoded (.selector 2) [true, true] = some (.selectorMtf 2, 2) := by decide +kernel
-- 00010 (R258's example)
theorem test_decode_lenStart : decoded .lenStart [false, false, false, true, false] = some (.lenStart 2, 5) := by
  decide +kernel
theorem test_decode_deltas : decoded .lenDelta [true, false] = some (.lenInc, 2) ∧
    decoded .lenDelta [true, true] = some (.lenDec, 2) ∧ decoded .lenDelta [false] = some (.lenEnd, 1) := by decide +kernel
-- R299, first row: 0=`00` 1=`01` 2=`10` 3=`110` 4=`111`, with N_IN_USE = 3, so symbol 4 is EOB
theorem test_decode_symbols :
    decoded (.symbol (tableOf [2, 2, 2, 3, 3]) 4) [false, false] = some (.symRuna, 2) ∧
    decoded (.symbol (tableOf [2, 2, 2, 3, 3]) 4) [false, true] = some (.symRunb, 2) ∧
    decoded (.symbol (tableOf [2, 2, 2, 3, 3]) 4) [true, false] = some (.symMtfv 2, 2) ∧
    decoded (.symbol (tableOf [2, 2, 2, 3, 3]) 4) [true, true, false] = some (.symMtfv 3, 3) ∧
    decoded (.symbol (tableOf [2, 2, 2, 3, 3]) 4) [true, true, true] = some (.symEob, 3) := by decide +kernel
-- R298's example: lengths [2, 2, 3, 3, 3], the bits 111 fault
theorem test_decode_noCode : (match decode (.symbol (tableOf [2, 2, 3, 3, 3]) 4) (reader [true, true, true]) with
    | .reject .noCode r => r.bits.length | _ => 99) = 5 := by decide +kernel
theorem test_decode_chain : decoded .chainLiteral (bitsMsb 8 0x61) = some (.rle2Literal 0x61, 8) ∧
    decoded .chainCount (bitsMsb 8 3) = some (.rle2Count 3, 8) := by decide +kernel
-- R130: OP in bits 1:0, NC in bit 2, reserved bits 7:3
theorem test_decode_commands : decodeCommand 0x01 = .openCmd 0 ∧ decodeCommand 0x05 = .openCmd 1 ∧
    decodeCommand 0x02 = .nextCmd ∧ decodeCommand 0x03 = .closeCmd ∧ decodeCommand 0x00 = .cmdReserved 0 0 0 ∧
    decodeCommand 0x06 = .cmdReserved 2 1 0 ∧ decodeCommand 0x81 = .cmdReserved 1 0 0x10 := by decide

/-! ### The assembly notation: programs P1 and P2 of 95_test_vectors.md give the bytes printed there -/

def programP1 : List AsmLine :=
  [.sig, .hdr 9, .block 0x648CBB73, .rand 0, .orig 0, .map [0x61, 0x62, 0x63], .ngroups 2, .nsel 1, .sel 0,
    .lens 2 [2, 2, 2, 3, 3], .lens 2 [2, 2, 2, 3, 3], .lit 0x63, .lit 0x61, .lit 0x62, .eob, .eos 0x648CBB73, .pad]

theorem test_assemble_P1 : assemble programP1 =
    [0x42, 0x5A, 0x68, 0x39, 0x31, 0x41, 0x59, 0x26, 0x53, 0x59, 0x64, 0x8C, 0xBB, 0x73, 0x00, 0x00, 0x00, 0x01, 0x00,
      0x38] ++
    [0x00, 0x20, 0x00, 0x21, 0x08, 0x10, 0x8D, 0x6E, 0x2E, 0xE4, 0x8A, 0x70, 0xA1, 0x20, 0xC9, 0x19, 0x76, 0xE6] := by
  decide +kernel

def programP2 : List AsmLine :=
  [.sig, .hdr 9, .block 0x32A4B623, .rand 0, .orig 4, .map [0x03, 0x61], .ngroups 2, .nsel 1, .sel 0,
    .lens 2 [2, 2, 2, 2], .lens 2 [2, 2, 2, 2], .lit 0x61, .run 3, .lit 0x03, .eob, .eos 0x32A4B623, .pad]

theorem test_assemble_P2 : assemble programP2 =
    [0x42, 0x5A, 0x68, 0x39, 0x31, 0x41, 0x59, 0x26, 0x53, 0x59, 0x32, 0xA4, 0xB6, 0x23, 0x00, 0x00, 0x02, 0x41, 0x00,
      0x08] ++
    [0x00, 0x20, 0x00, 0x20, 0x00, 0x21, 0x00, 0x82, 0x0B, 0x17, 0x72, 0x45, 0x38, 0x50, 0x90, 0x32, 0xA4, 0xB6, 0x23] := by
  decide +kernel

/-! ### The bit reader: the worked sequence of 40_bit_reader.md R208 -/

def bytes208 : BitReader :=
  BitReader.start ([0xA5, 0x3C, 0xFF, 0x00, 0x12, 0x34, 0x56, 0x78].map (SrcAnswer.byte ·) ++ [.eof])

/-- The five values of R208, and BS_LIVE and BYTES_IN at its end. -/
theorem test_readBits_R208 :
    ((readBits 3 bytes208).andThen fun a r => (readBits 7 r).andThen fun b r => (readBits 1 r).andThen fun c r =>
      (readBits 24 r).andThen fun d r => (readBits 5 r).andThen fun e r =>
        .got [a.toNat, b.toNat, c.toNat, d.toNat, e.toNat, r.live.toNat, r.bytesIn.toNat] r) =
    .got [5, 20, 1, 0xE7F800, 0x12, 0, 5]
      { buff := 0x3CFF0012, live := 0, bytesIn := 5, src := [.byte 0x34, .byte 0x56, .byte 0x78, .eof] } := by
  decide +kernel

-- V40.3
theorem test_readInt32 : readInt32 (BitReader.start [.byte 0x12, .byte 0x34, .byte 0x56, .byte 0x78]) =
    .got 0x12345678 { buff := 0x12345678, live := 0, bytesIn := 4, src := [] } := by decide +kernel

/-! ### The table builder: the vectors of 43_huffman.md R299 -/

theorem test_table_1 : tableRows [2, 2, 2, 3, 3] = ([0, 1, 2, 3, 4], [2, 7], [0, 3]) := by decide +kernel
theorem test_table_2 : tableRows [1, 3, 3, 3, 3] = ([0, 1, 2, 3, 4], [0, 1, 7], [0, 1, 3]) := by decide +kernel
theorem test_table_3 : tableRows [1, 1, 1] = ([0, 1, 2], [2], [0]) := by decide +kernel
theorem test_table_4 : tableRows [3, 3, 3, 3, 3] = ([0, 1, 2, 3, 4], [4], [0]) := by decide +kernel
theorem test_table_5 : tableRows [1, 2, 3, 4, 5, 5] = ([0, 1, 2, 3, 4, 5], [0, 2, 6, 14, 31], [0, 1, 4, 11, 26]) := by
  decide +kernel
theorem test_table_6 : tableRows [4, 4, 1, 4, 4, 4] = ([2, 0, 1, 3, 4, 5], [0, 1, 3, 12], [0, 1, 3, 7]) := by
  decide +kernel

/-! ### The CRC and the derandomizer -/

-- 47_crc.md R439, 46_output_fsm.md R387: "abc"
theorem test_crc_abc : [0x61, 0x62, 0x63].foldl crcStep Config.crcInit = 0x9B73448C := by decide +kernel
-- R439: the check value of "123456789"
theorem test_crc_check :
    crcFinal ([0x31, 0x32, 0x33, 0x34, 0x35, 0x36, 0x37, 0x38, 0x39].foldl crcStep Config.crcInit) = 0xFC891918 := by
  decide +kernel
-- R430: the first entries of the table, and the last
theorem test_crc_table : (crcTable 0, crcTable 1, crcTable 2, crcTable 3) = (0, 0x04C11DB7, 0x09823B6E, 0x0D4326D9) ∧
    crcTable 255 = 0xB1F740B4 := by decide +kernel
-- R434's example
theorem test_combineCrc : combineCrc 0xE993FDCD 0x963B84C7 = 0x451C7F5C := by decide
-- R383: 512 entries, 50 to 999, with sum 278212
theorem test_rnums : Config.rnums.length = 512 ∧ Config.rnums.sum = 278212 ∧
    Config.rnums.all (fun n => decide (50 ≤ n) && decide (n ≤ 999)) = true := by decide +kernel
-- R383's example: the first flipped positions
theorem test_flipPositions : (List.range 4).map flipPosition = [617, 1337, 1464, 1945] := by decide +kernel

/-! ### One step, or one instruction, on a small state -/

-- R220's example: `BXh9` gives FAULT 1.1 with BYTES_IN = 2
theorem test_step_sig : after (step (place .signature .idle [0x42, 0x58, 0x68, 0x39])) (fun t =>
    t.ctl.st == .fault && lastResponse t == some 0x0211 && t.rd.bytesIn == 2) = true := by decide +kernel
-- R220: with LEGACY_SIGNATURE_AND it passes
theorem test_step_sig_legacy : after (step { place .signature .idle [0x42, 0x58, 0x68, 0x39] with legacyAnd := true })
    (fun t => t.work.phase == .trailer && t.rd.bytesIn == 2) = true := by decide +kernel
-- R221's examples
theorem test_step_hdr : after (step (place .trailer .idle [0x68, 0x39])) (fun t =>
    t.ctl.st == .startBlock && t.ctl.blockSize100k == 9 && lastResponse t == some 0x0300) = true := by decide +kernel
theorem test_step_otherTrailer : after (step (place .trailer .idle [0x68, 0x30])) (fun t =>
    t.ctl.st == .finished && lastResponse t == some 0x0300 && strobesOf t.out == 1) = true := by decide +kernel
-- R225's example
theorem test_step_badMagic : after (step (place .output .startBlock [0x31, 0x41, 0x59, 0x26, 0x53, 0x58])) (fun t =>
    lastResponse t == some 0x0212 && t.rd.bytesIn == 6 && t.cnt.blockIndex == 0) = true := by decide +kernel
theorem test_step_blockMagic : after (step (place .output .startBlock [0x31, 0x41, 0x59, 0x26, 0x53, 0x59])) (fun t =>
    t.work.phase == .blockCrc && t.cnt.blockIndex == 1) = true := by decide +kernel
theorem test_step_eosMagic : after (step (place .output .startBlock [0x17, 0x72, 0x45, 0x38, 0x50, 0x90])) (fun t =>
    t.work.phase == .streamCrc) = true := by decide +kernel
-- R223: an empty stream's trailer holds 0; R435: another value is FAULT 3.2
theorem test_exec_streamCrc : after (exec (.streamCrc 0) (place .streamCrc .startBlock [])) (fun t =>
    t.ctl.st == .finished && lastResponse t == some 0x0100 && strobesOf t.out == 1) = true ∧
    after (exec (.streamCrc 1) (place .streamCrc .startBlock [])) (fun t =>
      lastResponse t == some 0x0223 && strobesOf t.out == 0) = true := by decide +kernel
theorem test_exec_blockCrc : after (exec (.blockCrc 0x648CBB73) (place .blockCrc .startBlock [])) (fun t =>
    t.blk.storedBlockCrc == 0x648CBB73) = true := by decide +kernel
theorem test_exec_randBit : after (exec (.randBit 1) (place .randBit .startBlock [])) (fun t => t.blk.randomised) = true := by
  decide +kernel
theorem test_exec_origPtr : after (exec (.origPtr 4) (place .origPtr .startBlock [])) (fun t => t.blk.origPtr == 4) = true := by
  decide +kernel
-- R250's and R251's examples: only group 6, then 'a', 'b', 'c' in use
theorem test_exec_inuse16 : after (exec (.inuse16 0x0200) (place .inuse16 .startBlock [])) (fun t =>
    t.work.phase == .inuseInner && t.work.rangeIdx == 6 && t.map.inUse16 == [(6, 1)]) = true := by decide +kernel
theorem test_exec_inuseInner : after (exec (.inuseInner 0x7000)
    { place .inuseInner .startBlock [] with
      map := { State.reset.map with inUse16 := [(6, 1)] }
      work := { State.reset.work with rangeIdx := 6, phase := .inuseInner } }) (fun t =>
    t.map.nInUse == 3 && t.map.seqToUnseq == [(0, 0x61), (1, 0x62), (2, 0x63)] && t.map.unseqToSeq == [(0x62, 1), (0x63, 2)]
      && t.work.phase == .nGroups) = true := by decide +kernel
/-- A place at which the source gives one byte and then EOF. -/
def cutShort (p : Phase) (b : Byte) : State := { place p .startBlock [] with rd := BitReader.start [.byte b, .eof] }

-- R250's bits with the stream ending after eight of them: those read are written (R520), FAULT 5.1
theorem test_step_inuse16_cut : after (step (cutShort .inuse16 0x02)) (fun t =>
    lastResponse t == some 0x0215 && t.rd.bytesIn == 1 && t.map.inUse16 == [(6, 1)]) = true := by decide +kernel
-- R251's bits of range 6 cut the same way: the bits 0111 0000 mark 'a', 'b', 'c'
theorem test_step_inuseInner_cut : after (step
    { cutShort .inuseInner 0x70 with work := { State.reset.work with rangeIdx := 6, phase := .inuseInner } }) (fun t =>
    lastResponse t == some 0x0215 && t.map.inUse == [(0x61, 1), (0x62, 1), (0x63, 1)] && t.map.nInUse == 0) = true := by
  decide +kernel
-- R85, R86: a selector that names a group the block does not have is a model fault
theorem test_step_selectorOutOfRange : step { place .symbols .startBlock [0] with
    sel := { State.reset.sel with nGroups := 1, nSelectors := 1, selector := [(0, 1)] }
    map := { State.reset.map with nInUse := 1 } } = .fault (.indexOutOfRange .perm) := by rfl
-- R254's example, and R255's check
theorem test_exec_nGroups : after (exec (.nGroups 2) (place .nGroups .startBlock [])) (fun t => t.sel.nGroups == 2) = true ∧
    after (exec (.nGroups 7) (place .nGroups .startBlock [])) (fun t => lastResponse t == some 0x0216) = true := by
  decide +kernel
theorem test_exec_nSelectors : after (exec (.nSelectors 1) (place .nSelectors .startBlock [])) (fun t =>
    t.sel.nSelectors == 1 && t.work.phase == .selector) = true ∧
    after (exec (.nSelectors 0) (place .nSelectors .startBlock [])) (fun t => lastResponse t == some 0x0226) = true := by
  decide +kernel

/-- Selector ranks undone one after the other. -/
def selectorsAfter (ranks : List (BitVec 3)) (s : State) : Option State :=
  ranks.foldl (fun s j => s.bind fun s => nextOf (exec (.selectorMtf j) s)) (some s)

-- R257's example: ranks [1, 1, 0, 2] with N_GROUPS = 3
theorem test_exec_selectorMtf : (selectorsAfter [1, 1, 0, 2] { place .selector .startBlock [] with
    sel := { nGroups := 3, nSelectors := 4, selector := [], selPos := storeOf 3 [0, 1, 2] } }).any (fun t =>
      t.sel.selector == storeOf 3 [1, 0, 0, 2] && t.sel.selPos == storeOf 3 [2, 0, 1] && t.work.phase == .lenStart) = true := by
  decide +kernel
-- R258's check, and R260's example: start 20 followed by `10`
theorem test_exec_lenStart : after (exec (.lenStart 2) (rowState [])) (fun t =>
    t.work.curr == 2 && t.work.phase == .lenDelta) = true ∧
    after (exec (.lenStart 21) (rowState [])) (fun t => lastResponse t == some 0x0246) = true := by decide +kernel
theorem test_exec_lenInc : after (exec .lenInc { rowState [] with work := { State.reset.work with curr := 20 } })
    (fun t => lastResponse t == some 0x0246) = true := by decide +kernel
theorem test_exec_lenDec : after (exec .lenDec { rowState [] with work := { State.reset.work with curr := 3 } })
    (fun t => t.work.curr == 2 && t.work.phase == .lenDelta) = true := by decide +kernel
-- R259's example: the last of [2, 2, 2, 3, 3]; R261's example: MIN_LEN = 2, MAX_LEN = 3
theorem test_exec_lenEnd : after (exec .lenEnd
    { rowState [2, 2, 2, 3, 7] with work := { State.reset.work with lenSym := 4, curr := 3, phase := .lenDelta } }) (fun t =>
    t.tab.len == storeOf 5 [2, 2, 2, 3, 3] && t.tab.minLen == [(0, 2)] && t.tab.maxLen == [(0, 3)]
      && t.work.phase == .symbols && t.sym.mtf.look 255 == 255) = true := by decide +kernel

/-- Run digits one after the other. -/
def runAfter (digits : List Instr) (s : State) : Option State :=
  digits.foldl (fun s i => s.bind fun s => nextOf (exec i s)) (some s)

-- R323's examples: RUNA RUNB gives 5, RUNB RUNB gives 6
theorem test_exec_symRuna : (runAfter [.symRuna, .symRunb] (place .symbols .startBlock [])).any (fun t =>
    t.sym.runLen == 5 && t.sym.runWeight == 4 && t.work.inRun) = true := by decide +kernel
theorem test_exec_symRunb : (runAfter [.symRunb, .symRunb] (place .symbols .startBlock [])).any (fun t =>
    t.sym.runLen == 6) = true := by decide +kernel
-- R326's example: N_IN_USE = 3 (a, b, c), MTF = [0, 1, 2]; symbol 3 writes c and leaves MTF = [2, 0, 1]
theorem test_exec_symMtfv : after (exec (.symMtfv 3) { place .symbols .startBlock [] with
    map := { State.reset.map with nInUse := 3, seqToUnseq := storeOf 8 [0x61, 0x62, 0x63] }
    sym := { State.reset.sym with mtf := storeOf 8 [0, 1, 2] } }) (fun t =>
    t.sym.mtf == storeOf 8 [2, 0, 1] && t.bwt.ll8 == [(0, 0x63)] && t.sym.freq == [(0x63, 1)] && t.sym.nblock == 1) = true := by
  decide +kernel
-- R324's example: MTF = [1, 0], RUN_LEN = 2: the run writes 61 61, and then the literal follows
theorem test_exec_symMtfv_ends_run : after (exec (.symMtfv 2) { place .symbols .startBlock [] with
    map := { State.reset.map with nInUse := 2, seqToUnseq := storeOf 8 [0x03, 0x61] }
    sym := { State.reset.sym with mtf := storeOf 8 [1, 0], runLen := 2, runWeight := 4 }
    work := { State.reset.work with phase := .symbols, inRun := true } }) (fun t =>
    t.bwt.ll8 == storeOf 8 [0x61, 0x61, 0x03] && t.sym.freq == [(0x03, 1), (0x61, 2)] && t.sym.nblock == 3
      && !t.work.inRun) = true := by decide +kernel

/-- The block `c a b` before its EOB (45_inverse_bwt.md R361's example). -/
def cabState : State :=
  { place .symbols .startBlock [] with
    sym := { State.reset.sym with nblock := 3, freq := [(0x61, 1), (0x62, 1), (0x63, 1)] }
    bwt := { State.reset.bwt with ll8 := storeOf 8 [0x63, 0x61, 0x62] } }

-- R360's, R361's and R381's examples
theorem test_exec_symEob : after (exec .symEob cabState) (fun t =>
    t.bwt.tt == storeOf 20 [1, 2, 0] && t.cur.tPos == 1 && t.ctl.st == .noRandPartA && t.cur.chCur == 256) = true := by
  decide +kernel
-- R329: an origin pointer equal to the block length
theorem test_exec_symEob_badPtr : after (exec .symEob { cabState with blk := { State.reset.blk with origPtr := 3 } })
    (fun t => lastResponse t == some 0x0286) = true := by decide +kernel

/-- The "abc" block set up (R381, R382), a NEXT outstanding. -/
def abcState : State :=
  { place .output .noRandPartA [] with
    sym := { State.reset.sym with nblock := 3 }
    bwt := { State.reset.bwt with ll8 := storeOf 8 [0x63, 0x61, 0x62], tt := storeOf 20 [1, 2, 0] }
    cur := { State.reset.cur with tPos := 1 } }

-- R384's example: the fetch gives `a`
theorem test_step_rle2Literal : after (step abcState) (fun t =>
    lastResponse t == some 0x0061 && t.cur.consumed == 1 && t.ctl.st == .noRandPartB && t.cur.tPos == 2
      && t.cnt.bytesOut == 1) = true := by decide +kernel
-- R385's example: after `a a a a` the count byte 3
theorem test_step_rle2Count : after (step { abcState with
    ctl := { abcState.ctl with st := .noRandPartB }
    sym := { abcState.sym with nblock := 5 }
    bwt := { State.reset.bwt with ll8 := storeOf 8 [0x61, 0x61, 0x61, 0x61, 3], tt := storeOf 20 [4, 0, 1, 2, 3] }
    cur := { State.reset.cur with tPos := 4, consumed := 4, chCur := 0x61, chPrev := 0x61, runCount := 3 } }) (fun t =>
    t.cur.repCount == 3 && t.ctl.st == .noRandPartC && t.cur.runCount == 4 && t.cur.consumed == 4
      && lastResponse t == none) = true := by decide +kernel
-- R385: the fourth equal byte with no position left
theorem test_step_countMissing : after (step { abcState with
    ctl := { abcState.ctl with st := .noRandPartB }
    cur := { State.reset.cur with consumed := 3, chCur := 0x61, chPrev := 0x61, runCount := 3 } }) (fun t =>
    lastResponse t == some 0x0296) = true := by decide +kernel
-- R387's example: BLOCK_CRC = 0x9B73448C against the stored 0x648CBB73
theorem test_step_blockEnd : after (step { abcState with
    blk := { State.reset.blk with storedBlockCrc := 0x648CBB73 }
    cur := { State.reset.cur with consumed := 3 }
    crc := { State.reset.crc with blockCrc := 0x9B73448C } }) (fun t =>
    t.ctl.st == .startBlock && t.crc.computedBlockCrc == 0x648CBB73 && t.crc.combinedCrc == 0x648CBB73) = true := by
  decide +kernel
-- R296's example: the 51st symbol of a block with one selector
theorem test_step_selectorsExhausted : after (step { place .symbols .startBlock [] with
    sel := { State.reset.sel with nGroups := 1, nSelectors := 1 }
    sym := { State.reset.sym with groupNo := 0, groupPos := 0 } }) (fun t =>
    lastResponse t == some 0x0266 && t.sym.groupNo == 1) = true := by decide +kernel
-- R561: no answer, no change
theorem test_step_wait : nextOf (step (place .blockCrc .startBlock [0x64])) = some (place .blockCrc .startBlock [0x64]) := by
  decide +kernel

-- R453, R457
theorem test_exec_open : after (exec (.openCmd 1) State.reset) (fun t =>
    t.work.phase == .signature && t.ctl.noClose && !t.ctl.srcClosed) = true ∧
    after (exec (.openCmd 0) (place .ready .finished [])) (fun t => lastResponse t == some 0x0501) = true := by decide +kernel
theorem test_exec_next : after (exec .nextCmd State.reset) (fun t => lastResponse t == some 0x0501) = true ∧
    after (exec .nextCmd (place .ready .finished [])) (fun t => lastResponse t == some 0x0100) = true := by decide +kernel
theorem test_exec_close : after (exec .closeCmd State.reset) (fun t =>
    lastResponse t == some 0x0400 && strobesOf t.out == 0) = true ∧
    after (exec .closeCmd (place .ready .startBlock [])) (fun t =>
      strobesOf t.out == 1 && t.ctl.st == .idle && t.ctl.srcClosed) = true := by decide +kernel
theorem test_exec_cmdReserved : after (exec (.cmdReserved 0 0 0) State.reset) (fun t => lastResponse t == some 0x0502) = true := by
  decide +kernel
-- R460: STATUS after the "abc" stream
theorem test_statusWord : State.statusWord { State.reset with
    ctl := { State.reset.ctl with st := .finished, blockSize100k := 9 } } 0 = 0x928 := by decide
-- the host interface: a word placed for the first step after reset runs
theorem test_withFetchWord : after (step (State.reset.withFetchWord 16 0x6839)) (fun t => t.ctl.blockSize100k == 9) = true ∧
    after (step (State.reset.withFetchWord 1 0)) (fun t => t.tab.len == [(0, 2)]) = true ∧
    after (step (State.reset.withFetchWord 8 1)) (fun t => t.work.phase == .signature) = true := by decide +kernel


/-! ### Witnesses: for every statement with hypotheses, states and operands that meet all of them together, at the
boundary values where a clause has a range -/

/-- A command, presented as the host's duties ask. -/
def command (w : Byte) (s : State) : State := { s with host := [.whenReady (.command w)] }

/-- An act of the host that lands at once. -/
def atOnce (a : HostAction) (s : State) : State := { s with host := [.atOnce a] }

theorem coreActs_of {s : State} (h : s.work.phase ≠ .ready) (hw : s.hostWaits = true) : s.coreActs := ⟨h, hw⟩

theorem no_reset {s : State} (h : s.host = []) : ¬ s.takesReset := by
  rintro ⟨rest, h' | ⟨h', -⟩⟩ <;> simp [h] at h'

theorem no_attach {s : State} (h : s.host = []) : ∀ answers rest, ¬ s.hostActs (.attach answers) rest := by
  rintro answers rest (h' | ⟨h', -⟩) <;> simp [h] at h'

theorem witness_ResetRegisters :
    (atOnce .reset (place .symbols .startBlock [])).hostActs .reset [] ∧
    ({ place .ready .fault [] with host := [.whenReady .reset] } : State).hostActs .reset [] := ⟨.inl rfl, .inr ⟨rfl, rfl⟩⟩

-- OP = 0; a reserved bit with OP = 2; NC with OP = 2
theorem witness_ReservedCommandsRefused :
    ((command 0x00 (place .ready .finished [])).hostActs (.command 0x00) [] ∧ (0x00 : Byte).extractLsb' 0 2 = 0) ∧
    ((command 0x0A (place .ready .fault [])).hostActs (.command 0x0A) [] ∧ (0x0A : Byte).extractLsb' 3 5 ≠ 0) ∧
    ((command 0x06 State.reset).hostActs (.command 0x06) [] ∧
      ((0x06 : Byte).extractLsb' 2 1 = 1 ∧ (0x06 : Byte).extractLsb' 0 2 ≠ 1)) ∧
    (command 0x06 State.reset).work.phase = .ready :=
  ⟨⟨.inr ⟨rfl, rfl⟩, by decide⟩, ⟨.inr ⟨rfl, rfl⟩, by decide⟩, ⟨.inr ⟨rfl, rfl⟩, by decide⟩, rfl⟩

-- every state of ST that can stand between commands
theorem witness_OpenAndNext :
    (State.reset.work.phase = .ready ∧ State.reset.ctl.st = .idle) ∧
    ((place .ready .startBlock []).work.phase = .ready ∧ (place .ready .startBlock []).ctl.st ≠ .idle) ∧
    (place .ready .finished []).ctl.st = .finished ∧ (place .ready .fault []).ctl.st = .fault ∧
    (place .ready .startBlock []).ctl.st.running = true ∧ (place .ready .randPartB []).ctl.st.running = true ∧
    (place .ready .noRandPartC []).ctl.st.running = true := by decide

theorem witness_CloseAndStrobe :
    (place .ready .noRandPartB []).work.phase = .ready ∧ State.reset.ctl.srcClosed = true ∧
    ((place .ready .noRandPartB []).ctl.srcClosed = false ∧ (place .ready .noRandPartB []).ctl.noClose = false) ∧
    (let s := { place .ready .noRandPartB [] with ctl := { (place .ready .noRandPartB []).ctl with noClose := true } }
    s.ctl.srcClosed = false ∧ s.ctl.noClose = true) := by decide

theorem witness_StatusReads :
    ((atOnce (.statusRead 15) State.reset).hostActs (.statusRead 15) [] ∧
      (atOnce (.statusRead 15) State.reset).work.phase = .ready) ∧
    ((atOnce (.statusRead 0) (place .symbols .startBlock [])).hostActs (.statusRead 0) [] ∧
      (atOnce (.statusRead 0) (place .symbols .startBlock [])).work.phase ≠ .ready) :=
  ⟨⟨.inl rfl, rfl⟩, .inl rfl, by decide⟩

/-- The refusal a step ends in. -/
def refusalOf (r : Result) : Option Refusal :=
  match r with
  | .next _ => none
  | .fault _ => none
  | .refused why => some why

-- each of the three runs the model refuses
theorem witness_RefusedRuns :
    refusalOf (step (atOnce (.command 2) (place .symbols .startBlock []))) = some .commandOutstanding ∧
    refusalOf (step (atOnce (.statusRead 0) (place .symbols .startBlock []))) = some .statusReadOutstanding ∧
    refusalOf (step (atOnce (.attach []) (place .ready .startBlock []))) = some .sourceReplaced := by decide +kernel

/-- OPEN presented in IDLE on a source that begins `B`, `Z`, `h`, `d`. -/
def launch (nc : BitVec 1) (d : Byte) : State :=
  { State.reset with
    rd := BitReader.start [.byte 0x42, .byte 0x5A, .byte 0x68, .byte d, .byte 0x31]
    host := [.whenReady (.command (BitVec.ofNat 8 (4 * nc.toNat + 1)))] }

-- the least and the greatest digit
theorem witness_LaunchState :
    ((launch 0 0x31).work.phase = .ready ∧ (launch 0 0x31).ctl.st = .idle ∧ 0x31 ≤ (0x31 : Byte).toNat ∧
      (0x31 : Byte).toNat ≤ 0x39 ∧ (launch 0 0x31).host = [.whenReady (.command (BitVec.ofNat 8 1))] ∧
      (launch 0 0x31).rd.src = .byte 0x42 :: .byte 0x5A :: .byte 0x68 :: .byte 0x31 :: [.byte 0x31]) ∧
    ((launch 1 0x39).work.phase = .ready ∧ (launch 1 0x39).ctl.st = .idle ∧ 0x31 ≤ (0x39 : Byte).toNat ∧
      (0x39 : Byte).toNat ≤ 0x39 ∧ (launch 1 0x39).host = [.whenReady (.command (BitVec.ofNat 8 5))] ∧
      (launch 1 0x39).rd.src = .byte 0x42 :: .byte 0x5A :: .byte 0x68 :: .byte 0x39 :: [.byte 0x31]) := by decide

/-- Three valid bits, then these answers. -/
def readerOf (src : List SrcAnswer) : BitReader := { buff := 5, live := 3, bytesIn := 1, src := src }

-- 1 and 24 bits; EOF and silence inside a read of 24 bits; EOF in the first and in the second half of a 32-bit number
theorem witness_ReadBitsResult :
    1 ≤ (readerOf []).bits.length ∧ 24 ≤ (readerOf [.byte 1, .byte 2, .byte 3]).bits.length ∧
    ((readerOf [.byte 1, .byte 2, .eof]).src = [1, 2].map .byte ++ .eof :: [] ∧
      (readerOf [.byte 1, .byte 2, .eof]).live.toNat + 8 * 2 < 24) ∧
    ((readerOf [.byte 1, .byte 2]).src = [1, 2].map .byte ∧ (readerOf [.byte 1, .byte 2]).live.toNat + 8 * 2 < 24) ∧
    (readerOf [.byte 1, .byte 2, .byte 3, .byte 4]).bits
      = bitsMsb 32 (0xA0204060 : Word).toNat ++ [true, false, false] ∧
    ((readerOf [.byte 1, .eof]).src = [1].map .byte ++ .eof :: [] ∧ (readerOf [.byte 1, .eof]).live.toNat + 8 * 1 < 16) ∧
    ((readerOf [.byte 1, .byte 2, .byte 3, .eof]).src = [1, 2, 3].map .byte ++ .eof :: [] ∧
      16 ≤ (readerOf [.byte 1, .byte 2, .byte 3, .eof]).live.toNat + 8 * 3 ∧
      (readerOf [.byte 1, .byte 2, .byte 3, .eof]).live.toNat + 8 * 3 < 32) := by decide +kernel

-- a decoding that ends in an instruction, in a rejection, in TruncatedStream
theorem witness_LateAnswersChangeNothing :
    decode .nGroups (readerOf []) ≠ .wait ∧ decode (.signature false) (readerOf [.byte 1, .byte 2]) ≠ .wait ∧
    decode .blockStart (readerOf [.eof]) ≠ .wait := by decide +kernel

-- the shortest and the longest field
theorem witness_TruncatedFields :
    (Ctx.randBit.fixedWidth = some 1 ∧ (BitReader.start [.eof]).src = ([] : List Byte).map .byte ++ .eof :: [] ∧
      (BitReader.start [.eof]).live.toNat + 8 * 0 < 1) ∧
    (Ctx.blockStart.fixedWidth = some 48 ∧
      (readerOf [.byte 1, .byte 2, .byte 3, .byte 4, .byte 5, .eof]).src = [1, 2, 3, 4, 5].map .byte ++ .eof :: [] ∧
      (readerOf [.byte 1, .byte 2, .byte 3, .byte 4, .byte 5, .eof]).live.toNat + 8 * 5 < 48) := by decide +kernel

/-- What DecodeEncodeAgree asks, at a reader that holds the instruction's bits and one more. -/
def agrees (c : Ctx) (i : Instr) : Bool :=
  c.plain && c.admits i && i.wf && ((reader (encode c i ++ [true])).bits.take ((encode c i).length + 1) == encode c i ++ [true])

-- the least and the greatest operand of each place whose instruction has a range
theorem witness_DecodeEncodeAgree :
    agrees .trailer (.hdr 0x31) ∧ agrees .trailer (.hdr 0x39) ∧ agrees .trailer (.otherTrailer 0x68 0x3A) ∧
    agrees .nGroups (.nGroups 1) ∧ agrees .nGroups (.nGroups 6) ∧ agrees .nSelectors (.nSelectors 1) ∧
    agrees .nSelectors (.nSelectors 0x7FFF) ∧ agrees (.selector 1) (.selectorMtf 0) ∧
    agrees (.selector 6) (.selectorMtf 5) ∧ agrees .lenStart (.lenStart 1) ∧ agrees .lenStart (.lenStart 20) ∧
    agrees .lenDelta .lenInc ∧ agrees .blockStart .eosMagic ∧ agrees .streamCrc (.streamCrc 0xFFFFFFFF) ∧
    agrees (.signature true) .sig ∧ agrees .command (.cmdReserved 3 1 0x1F) ∧ agrees .chainCount (.rle2Count 255) := by
  decide +kernel

/-- What CanonicalCodesDecode and UnmatchedBitsReject ask of group 0 with these lengths. -/
def rowFits (lengths : List Nat) : Prop :=
  Memory.wf (rowState lengths) = true ∧ 0 < (rowState lengths).sel.nGroups.toNat ∧
    (rowState lengths).sel.nGroups.toNat ≤ Config.maxGroups ∧ 3 ≤ (rowState lengths).alphaSize ∧
    (rowState lengths).alphaSize ≤ Config.maxAlpha ∧ (rowState lengths).rowOk 0

theorem rowFits_of {lengths : List Nat}
    (h : (Memory.wf (rowState lengths) && decide (3 ≤ (rowState lengths).alphaSize)
      && decide ((rowState lengths).alphaSize ≤ Config.maxAlpha)
      && ((rowState lengths).lengthsOf 0).all fun l => decide (1 ≤ l) && decide (l ≤ 20)) = true) : rowFits lengths := by
  simp only [Bool.and_eq_true, decide_eq_true_eq, List.all_eq_true] at h
  exact ⟨h.1.1.1, Nat.zero_lt_one, (by decide : 1 ≤ 6), h.1.1.2, h.1.2, h.2⟩

-- the smallest alphabet; and lengths from 1 to 20 that fill the code space
theorem witness_CanonicalCodesDecode :
    (rowFits [1, 2, 2] ∧ (((rowState [1, 2, 2]).lengthsOf 0).map fun l => 2 ^ (20 - l)).sum ≤ 2 ^ 20 ∧
      (reader [true, true, false]).bits.take 2 = canonicalCode ((rowState [1, 2, 2]).lengthsOf 0) 2) ∧
    (rowFits ((List.range 20).map (· + 1) ++ [20]) ∧
      (((rowState ((List.range 20).map (· + 1) ++ [20])).lengthsOf 0).map fun l => 2 ^ (20 - l)).sum ≤ 2 ^ 20 ∧
      canonicalCode ((rowState ((List.range 20).map (· + 1) ++ [20])).lengthsOf 0) 20 = List.replicate 20 true) :=
  ⟨⟨rowFits_of (by decide +kernel), by decide +kernel, by decide +kernel⟩,
    rowFits_of (by decide +kernel), by decide +kernel, by decide +kernel⟩

-- R298's example: lengths [2, 2, 3, 3, 3], the bits 111
theorem witness_UnmatchedBitsReject :
    rowFits [2, 2, 3, 3, 3] ∧
    maxOf ((rowState [2, 2, 3, 3, 3]).lengthsOf 0) ≤ (reader [true, true, true]).bits.length ∧
    (∀ v, v < (rowState [2, 2, 3, 3, 3]).alphaSize →
      ¬ canonicalCode ((rowState [2, 2, 3, 3, 3]).lengthsOf 0) v <+: (reader [true, true, true]).bits) :=
  ⟨rowFits_of (by decide +kernel), by decide +kernel, by decide +kernel⟩

/-- At the start of the symbol part: one selector, the table of `[2, 2, 2, 3, 3]` for group 0, these source bytes. -/
def symState (bytes : List Byte) : State :=
  let s := (rowState [2, 2, 2, 3, 3]).buildTable 0
  { s with
    rd := BitReader.start (bytes.map .byte)
    sym := { s.sym with mtf := (List.range 255).map fun k => (k + 1, BitVec.ofNat 8 (k + 1)) }
    work := { s.work with phase := .symbols } }

/-- The "abc" block with four equal bytes read, in PART_B. -/
def fourState : State :=
  { abcState with
    ctl := { abcState.ctl with st := .noRandPartB }
    sym := { abcState.sym with nblock := 5 }
    bwt := { State.reset.bwt with ll8 := storeOf 8 [0x61, 0x61, 0x61, 0x61, 3], tt := storeOf 20 [4, 0, 1, 2, 3] }
    cur := { State.reset.cur with tPos := 4, consumed := 4, chCur := 0x61, chPrev := 0x61, runCount := 3 } }

theorem fetches {s : State} {b : Byte} (h : (match s.fetchByte with | .ok (c, _) => c == b | .error _ => false) = true) :
    ∃ t, s.fetchByte = .ok (b, t) := by
  cases hf : s.fetchByte with
  | error f => simp [hf] at h
  | ok p =>
    obtain ⟨c, t⟩ := p
    simp only [hf, beq_iff_eq] at h
    exact ⟨t, by rw [h]⟩

theorem decodes {d : Decoded} {i : Instr} (h : (match d with | .instr j _ => j == i | _ => false) = true) :
    ∃ r, d = .instr i r := by
  cases d <;> simp_all

theorem rejects {d : Decoded} {why : Reject} (h : (match d with | .reject w _ => w == why | _ => false) = true) :
    ∃ r, d = .reject why r := by
  cases d <;> simp_all

theorem truncates {d : Decoded} (h : (match d with | .truncated _ => true | _ => false) = true) : ∃ r, d = .truncated r := by
  cases d <;> simp_all

-- an element of the header, a block start, a symbol, a literal position, a count position, a command
theorem witness_StepRunsDecoded :
    ((place .blockCrc .startBlock [1, 2, 3, 4]).coreActs ∧
      (place .blockCrc .startBlock [1, 2, 3, 4]).ctxAt .blockCrc = some .blockCrc ∧
      ∃ r, decode .blockCrc (place .blockCrc .startBlock [1, 2, 3, 4]).rd = .instr (.blockCrc 0x01020304) r) ∧
    ((place .output .startBlock [0x31, 0x41, 0x59, 0x26, 0x53, 0x59]).coreActs ∧
      (place .output .startBlock [0x31, 0x41, 0x59, 0x26, 0x53, 0x59]).ctl.st = .startBlock ∧
      ∃ r, decode .blockStart (place .output .startBlock [0x31, 0x41, 0x59, 0x26, 0x53, 0x59]).rd = .instr .blockMagic r) ∧
    ((symState [0xC0]).coreActs ∧ (symState [0xC0]).work.phase = .symbols ∧ (symState [0xC0]).selectorsExhausted = false ∧
      (symState [0xC0]).takeFromGroup.sym.groupNo.toNat < (symState [0xC0]).sel.nSelectors.toNat ∧
      ∃ r, decode (.symbol ((symState [0xC0]).codeTable
        ((symState [0xC0]).sel.selector.look (symState [0xC0]).takeFromGroup.sym.groupNo.toNat).toNat)
        (symState [0xC0]).eob) (symState [0xC0]).rd = .instr (.symMtfv 3) r) ∧
    (abcState.coreActs ∧ abcState.work.phase = .output ∧ abcState.ctl.st.isPartA = true ∧ abcState.positionLeft = true ∧
      ∃ t, abcState.fetchByte = .ok (0x61, t)) ∧
    (fourState.coreActs ∧ fourState.ctl.st.isPartB = true ∧ fourState.fourthEqual = true ∧ fourState.positionLeft = true ∧
      ∃ t, fourState.fetchByte = .ok (3, t)) ∧
    (command 5 State.reset).hostActs (.command 5) [] :=
  ⟨⟨coreActs_of (by decide) rfl, rfl, decodes (by decide +kernel)⟩,
    ⟨coreActs_of (by decide) rfl, rfl, decodes (by decide +kernel)⟩,
    ⟨coreActs_of (by decide) rfl, rfl, by decide +kernel, by decide +kernel, decodes (by decide +kernel)⟩,
    ⟨coreActs_of (by decide) rfl, rfl, rfl, by decide +kernel, fetches (by decide +kernel)⟩,
    ⟨coreActs_of (by decide) rfl, rfl, by decide +kernel, by decide +kernel, fetches (by decide +kernel)⟩, .inr ⟨rfl, rfl⟩⟩

-- EOF, a bad signature, a bad magic, silence; in the symbol part EOF, bits without a code, silence; a map word cut short
-- after eight bits and after none
theorem witness_StepWithoutElement :
    (∃ r, decode .randBit (BitReader.start [.eof]) = .truncated r) ∧
    (∃ r, decode (.signature false) (place .signature .idle [0x42, 0x58]).rd = .reject .badSignature r) ∧
    (∃ r, decode .blockStart (place .output .startBlock [1, 2, 3, 4, 5, 6]).rd = .reject .badMagic r) ∧
    decode .trailer (place .trailer .idle [0x68]).rd = .wait ∧
    (∃ r, decode (.symbol (tableOf [2, 2, 3, 3, 3]) 4) (BitReader.start [.eof]) = .truncated r) ∧
    (∃ r, decode (.symbol (tableOf [2, 2, 3, 3, 3]) 4) (reader [true, true, true]) = .reject .noCode r) ∧
    decode (.symbol (tableOf [2, 2, 3, 3, 3]) 4) (reader []) = .wait ∧
    (symState []).coreActs ∧ (symState []).selectorsExhausted = false ∧
    (symState []).takeFromGroup.sym.groupNo.toNat < (symState []).sel.nSelectors.toNat ∧
    (∀ p ∈ [Phase.inuse16, .inuseInner], (cutShort p 0x70).coreActs) ∧ Memory.wf (cutShort .inuse16 0x70) = true ∧
    (∃ r, decode .inuse16 (cutShort .inuse16 0x70).rd = .truncated r) ∧
    (∃ r, decode .inuseInner (BitReader.start [.eof]) = .truncated r) :=
  ⟨⟨_, rfl⟩, rejects (by decide +kernel), rejects (by decide +kernel), by decide +kernel,
    truncates (by decide +kernel), rejects (by decide +kernel), by decide +kernel, coreActs_of (by decide) rfl,
    by decide +kernel, by decide +kernel, by simp [State.coreActs, State.hostWaits, cutShort, place, State.reset],
    by decide +kernel, truncates (by decide +kernel), truncates (by decide +kernel)⟩

-- the signature, and one that passes under the parameter only
theorem witness_SignatureTest :
    ((place .signature .idle [0x42, 0x5A]).coreActs ∧ (place .signature .idle [0x42, 0x5A]).work.phase = .signature ∧
      (place .signature .idle [0x42, 0x5A]).rd.bits = bitsMsb 8 0x42 ++ (bitsMsb 8 0x5A ++ [])) ∧
    (let s := { place .signature .idle [0x42, 0x58] with legacyAnd := true }
    s.coreActs ∧ s.rd.bits = bitsMsb 8 0x42 ++ (bitsMsb 8 0x58 ++ [])) :=
  ⟨⟨coreActs_of (by decide) rfl, rfl, by decide +kernel⟩, coreActs_of (by decide) rfl, by decide +kernel⟩

-- the digits next to the ends of the range, on either side
theorem witness_HeaderTrailer :
    (∀ d ∈ [0x30, 0x31, 0x39, 0x3A], (place .trailer .idle [0x68, d]).coreActs ∧
      (place .trailer .idle [0x68, d]).rd.bits = bitsMsb 8 0x68 ++ (bitsMsb 8 d.toNat ++ [])) ∧
    (0x31 ≤ (0x31 : Byte).toNat ∧ (0x39 : Byte).toNat ≤ 0x39) := by
  refine ⟨fun d h => ⟨coreActs_of (by simp [place]) rfl, ?_⟩, by decide⟩
  revert d
  decide +kernel

theorem witness_BlockStart :
    (place .output .startBlock [0x31, 0x41, 0x59, 0x26, 0x53, 0x58]).coreActs ∧
    (place .output .startBlock [0x31, 0x41, 0x59, 0x26, 0x53, 0x58]).ctl.st = .startBlock ∧
    (place .output .startBlock [0x31, 0x41, 0x59, 0x26, 0x53, 0x58]).rd.bits = bitsMsb 48 (0x314159265358 : BitVec 48).toNat ++ []
    := ⟨coreActs_of (by decide) rfl, rfl, by decide +kernel⟩

theorem witness_HeaderElements : (1 : Word) ≠ (place .streamCrc .startBlock []).crc.combinedCrc := by decide

/-- A map with range 6 present, and of it three bytes in use. -/
def mapState : State :=
  { place .inuseInner .startBlock [] with
    map := { State.reset.map with inUse16 := [(6, 1)], inUse := [(0x61, 1), (0x62, 1), (0x63, 1)] } }

-- a present range still to come, and none
theorem witness_MappingWords :
    Memory.wf mapState = true ∧ (upTo 0 15).dropWhile (fun i => mapState.map.inUse16.look i ≠ 1) = 6 :: upTo 7 15 ∧
    (upTo 7 15).dropWhile (fun i => mapState.map.inUse16.look i ≠ 1) = [] := by decide +kernel

-- an empty map and a map of three bytes
theorem witness_MapConstruction :
    (Memory.wf State.reset = true ∧ State.reset.usedBytes = []) ∧
    (Memory.wf mapState = true ∧ mapState.usedBytes = [0x61, 0x62, 0x63]) := by decide +kernel

-- both ends of each count
theorem witness_GroupAndSelectorCounts :
    Memory.wf (rowState []) = true ∧ (1 : BitVec 15) ≠ 0 ∧ (0x7FFF : BitVec 15) ≠ 0 ∧
    (rowState []).sel.nGroups.toNat ≤ Config.maxGroups ∧ (6 : BitVec 3).toNat ≤ Config.maxGroups := by decide +kernel

/-- Six groups, `n` selectors, the rank of selector `i` next. -/
def rankState (n i : BitVec 15) : State :=
  { place .selector .startBlock [] with
    sel := { nGroups := 6, nSelectors := n, selector := [], selPos := storeOf 3 [0, 1, 2, 3, 4, 5] }
    work := { State.reset.work with selIdx := i, phase := .selector } }

-- rank N_GROUPS; six 1 bits; the least and the greatest rank, at the last selector of 32767 and at one that is not the last
theorem witness_SelectorRanks :
    (rankState 1 0).sel.nGroups.toNat ≤ (6 : BitVec 3).toNat ∧
    (reader (List.replicate 6 true ++ [false])).bits.take 7 = List.replicate 6 true ++ [false] ∧
    (reader [true, false]).bits.take 1 = List.replicate 1 true ∧
    (Memory.wf (rankState 0x7FFF 0x7FFE) = true ∧ (5 : BitVec 3).toNat < (rankState 0x7FFF 0x7FFE).sel.nGroups.toNat ∧
      (rankState 0x7FFF 0x7FFE).sel.nGroups.toNat ≤ Config.maxGroups ∧
      (rankState 0x7FFF 0x7FFE).work.selIdx.toNat < (rankState 0x7FFF 0x7FFE).sel.nSelectors.toNat) ∧
    (Memory.wf (rankState 2 0) = true ∧ (0 : BitVec 3).toNat < (rankState 2 0).sel.nGroups.toNat ∧
      (rankState 2 0).work.selIdx.toNat + 1 < (rankState 2 0).sel.nSelectors.toNat) := by decide +kernel

-- the lengths 1 and 20
theorem witness_CodeLengthElements :
    (let s := { rowState [] with work := { State.reset.work with curr := 20 } }
    1 ≤ s.work.curr.toNat ∧ s.work.curr.toNat ≤ 20) ∧
    (let s := { rowState [] with work := { State.reset.work with curr := 1 } }
    1 ≤ s.work.curr.toNat ∧ s.work.curr.toNat ≤ 20) := by decide

/-- At the end of the length of symbol `v` of group `t`, of `n` groups and five symbols. -/
def endState (n t : BitVec 3) (v : BitVec 9) : State :=
  { rowState [2, 2, 2, 3, 3] with
    sel := { State.reset.sel with nGroups := n, nSelectors := 1 }
    work := { State.reset.work with lenGroup := t, lenSym := v, curr := 3, phase := .lenDelta } }

-- a symbol that is not the last, the last of a group that is not the last, the last of all
theorem witness_LengthEnd :
    (Memory.wf (endState 6 5 3) = true ∧ (endState 6 5 3).work.lenGroup.toNat < (endState 6 5 3).sel.nGroups.toNat ∧
      (endState 6 5 3).sel.nGroups.toNat ≤ Config.maxGroups ∧
      (endState 6 5 3).work.lenSym.toNat + 1 < (endState 6 5 3).alphaSize) ∧
    ((endState 6 4 4).work.lenSym.toNat + 1 = (endState 6 4 4).alphaSize ∧
      (endState 6 4 4).work.lenGroup.toNat + 1 < (endState 6 4 4).sel.nGroups.toNat) ∧
    ((endState 1 0 4).work.lenSym.toNat + 1 = (endState 1 0 4).alphaSize ∧
      (endState 1 0 4).work.lenGroup.toNat + 1 = (endState 1 0 4).sel.nGroups.toNat ∧
      (endState 1 0 4).alphaSize ≤ Config.maxAlpha ∧ (endState 1 0 4).rowOk 0) := by
  refine ⟨by decide +kernel, by decide +kernel, by decide +kernel, by decide +kernel, by decide +kernel, ?_⟩
  unfold State.rowOk
  decide +kernel

-- lengths 1 and 20 in one row, and a full row of one length
theorem witness_PermutationOrder :
    rowFits [1, 20, 1, 20] ∧
    (let s := { rowState [] with
      map := { State.reset.map with nInUse := 256 }
      tab := { State.reset.tab with len := (List.range 258).map fun k => (k, 9) } }
    Memory.wf s = true ∧ s.alphaSize = Config.maxAlpha ∧ s.rowOk 0) :=
  ⟨rowFits_of (by decide +kernel), by decide +kernel, by decide +kernel, by unfold State.rowOk; decide +kernel⟩

theorem witness_CumulativeCounts : rowFits [20, 1, 20] := rowFits_of (by decide +kernel)

-- the shortest and the longest length, and lengths below and above them
theorem witness_LimitsAndBases :
    rowFits [2, 2, 2, 3, 3] ∧
    minOf ((rowState [2, 2, 2, 3, 3]).lengthsOf 0) + 1 ≤ maxOf ((rowState [2, 2, 2, 3, 3]).lengthsOf 0) ∧
    1 < minOf ((rowState [2, 2, 2, 3, 3]).lengthsOf 0) ∧ maxOf ((rowState [2, 2, 2, 3, 3]).lengthsOf 0) < 22 :=
  ⟨rowFits_of (by decide +kernel), by decide +kernel, by decide +kernel, by decide +kernel⟩

theorem witness_SymbolPartStart : Memory.wf (rowState [2, 2, 2, 3, 3]) = true := by decide +kernel

-- a group used up, a group with a symbol left, and no selector left
theorem witness_GroupSelection :
    (symState []).sym.groupPos = 0 ∧ (symState []).takeFromGroup.sym.groupPos ≠ 0 ∧
    (let s := { place .symbols .startBlock [] with
      sel := { State.reset.sel with nGroups := 1, nSelectors := 1 }
      sym := { State.reset.sym with groupNo := 0, groupPos := 0 } }
    s.coreActs ∧ s.work.phase = .symbols ∧ s.selectorsExhausted = true) :=
  ⟨by decide +kernel, by decide +kernel, coreActs_of (by decide) rfl, rfl, by decide +kernel⟩

/-- In a run of 2 with the next digit weighing 2, after `n` bytes of a block of multiplier 9. -/
def runState (n : BitVec 20) : State :=
  { symState [0xC0] with
    sym := { (symState [0xC0]).sym with nblock := n, runLen := 2, runWeight := 2 }
    work := { (symState [0xC0]).work with inRun := true } }

theorem runOk_full : (runState 899998).RunOk := ⟨by decide +kernel, 1, by decide +kernel⟩

-- a run that fills the block to its capacity, and the first digit of one in an empty block
theorem witness_RunDigits :
    ((runState 899998).sym.nblock.toNat ≤ (runState 899998).capacity ∧ (runState 899998).capacity ≤ Config.bufCapacity ∧
      (runState 899998).RunOk) ∧
    ((symState []).sym.nblock.toNat ≤ (symState []).capacity ∧ (symState []).work.inRun = false) :=
  ⟨⟨by decide +kernel, by decide +kernel, runOk_full⟩, by decide +kernel, by decide +kernel⟩

-- RUNB RUNB
theorem witness_RunLength :
    (symState []).work.inRun = false ∧ (symState []).work.phase = .symbols ∧ (∀ x ∈ [1, 1], x ≤ 1) ∧
    (symState []).capacity ≤ Config.bufCapacity ∧ runValue [1, 1] = 6 ∧
    (symState []).sym.nblock.toNat + runValue [1, 1] ≤ (symState []).capacity := by decide +kernel

theorem witness_RunEmission :
    Memory.wf (runState 899998) = true ∧ (runState 899998).work.inRun = true ∧
    (runState 899998).sym.nblock.toNat + (runState 899998).sym.runLen.toNat ≤ Config.bufCapacity := by decide +kernel

-- a full block; the least and the greatest literal, at the last position and at the first
theorem witness_LiteralSymbol :
    (let s := { symState [] with sym := { (symState []).sym with nblock := 900000 } }
    s.work.inRun = false ∧ s.capacity ≤ s.sym.nblock.toNat) ∧
    (let s := { symState [] with sym := { (symState []).sym with nblock := 899999 } }
    Memory.wf s = true ∧ s.work.inRun = false ∧ 2 ≤ (2 : BitVec 9).toNat ∧ s.sym.nblock.toNat < s.capacity ∧
      s.capacity ≤ Config.bufCapacity) ∧
    ((symState []).sym.nblock.toNat < (symState []).capacity ∧ (256 : BitVec 9).toNat ≤ 256) := by decide +kernel

theorem witness_MoveToFrontPermutes : (storeOf 8 [0, 1, 2]).wf = true ∧ 2 < 3 ∧ 0 < 1 := by decide

-- 900000 bytes of one value
theorem witness_CumulativeTable :
    Store.wf ([] : Store 20) = true ∧
    ((List.range 256).map fun b => (Store.look ([(255, 900000)] : Store 20) b).toNat).sum < 2 ^ 20 := by decide +kernel

theorem cab_freqOk : cabState.FreqOk := by unfold State.FreqOk; decide +kernel

-- a pointer equal to the length; the first and the last position
theorem witness_EndOfBlock :
    (let s := { cabState with blk := { State.reset.blk with origPtr := 3 } }
    s.work.inRun = false ∧ s.sym.nblock.toNat ≤ s.blk.origPtr.toNat) ∧
    (Memory.wf cabState = true ∧ cabState.work.inRun = false ∧ cabState.blk.origPtr.toNat < cabState.sym.nblock.toNat ∧
      cabState.sym.nblock.toNat ≤ Config.bufCapacity ∧ cabState.FreqOk) ∧
    (let s := { cabState with blk := { State.reset.blk with origPtr := 2 } }
    s.blk.origPtr.toNat < s.sym.nblock.toNat) :=
  ⟨by decide, ⟨by decide +kernel, by decide, by decide, by decide, cab_freqOk⟩, by decide⟩

theorem witness_ByteFetch :
    abcState.cur.tPos.toNat < abcState.sym.nblock.toNat ∧ abcState.sym.nblock.toNat ≤ Config.bufCapacity ∧
    (let s := { abcState with cur := { abcState.cur with rNtogo := 1 } }
    s.cur.rNtogo ≠ 0) ∧ abcState.cur.rNtogo = 0 := by decide

-- the first flipped position, and the one before it
theorem witness_FlippedPositions :
    abcState.cur.rNtogo = 0 ∧ abcState.cur.rTpos = 0 ∧ (List.replicate 618 (0x61 : Byte))[617]? = some 0x61 ∧
    617 = flipPosition 0 := by decide +kernel

/-- In the output stage, ST = `st`, with this run count. -/
def outState (st : St) (run : BitVec 3) : State :=
  { abcState with
    ctl := { abcState.ctl with st := st }
    cur := { abcState.cur with chCur := 0x61, chPrev := 0x61, runCount := run } }

theorem outState_acts (st : St) (run : BitVec 3) : (outState st run).coreActs := coreActs_of (by simp [outState, abcState, place]) rfl

-- unequal bytes; the third and the fourth equal byte; a copy left and none; the block end with and without a match
theorem witness_OutputTransitions :
    ((outState .randPartB 3).coreActs ∧ (outState .randPartB 3).work.phase = .output ∧
      (outState .randPartB 3).ctl.st.isPartB = true ∧ (outState .randPartB 3).cur.chCur = (outState .randPartB 3).cur.chPrev ∧
      3 ≤ (outState .randPartB 3).cur.runCount.toNat) ∧
    (let s := { outState .noRandPartB 3 with sym := { abcState.sym with nblock := 0 } }
    s.sym.nblock.toNat ≤ s.cur.consumed.toNat) ∧
    (outState .noRandPartB 2).cur.runCount.toNat < 3 ∧
    (let s := { outState .noRandPartB 1 with cur := { (outState .noRandPartB 1).cur with chPrev := 256 } }
    s.cur.chCur ≠ s.cur.chPrev) ∧
    ((outState .noRandPartC 4).ctl.st.isPartC = true ∧
      (outState .noRandPartC 4).cur.repCount.toNat ≤ (outState .noRandPartC 4).cur.repDone.toNat) ∧
    (let s := { outState .randPartC 4 with cur := { (outState .randPartC 4).cur with repCount := 255, repDone := 254 } }
    s.cur.repDone.toNat < s.cur.repCount.toNat) ∧
    (let s := { outState .noRandPartA 0 with
      cur := { abcState.cur with consumed := 3 }
      crc := { State.reset.crc with blockCrc := 0x9B73448C }
      blk := { State.reset.blk with storedBlockCrc := 0x648CBB73 } }
    s.ctl.st.isPartA = true ∧ s.sym.nblock.toNat ≤ s.cur.consumed.toNat ∧ ~~~ s.crc.blockCrc = s.blk.storedBlockCrc) ∧
    (let s := { outState .noRandPartA 0 with
      cur := { abcState.cur with consumed := 3 }
      blk := { State.reset.blk with storedBlockCrc := 1 } }
    s.sym.nblock.toNat ≤ s.cur.consumed.toNat ∧ ~~~ s.crc.blockCrc ≠ s.blk.storedBlockCrc) :=
  ⟨⟨outState_acts _ _, by decide +kernel⟩, by decide +kernel⟩

/-! ### Safe states, for the statements about every step -/

theorem ctlOk_of {s : State} (hp : s.work.phase ≠ .ready ∨ s.ctl.st.isPartA = false)
    (ho : s.work.phase.opening = true → s.ctl.st = .idle) (hb : s.work.phase.inBlock = true → s.ctl.st = .startBlock)
    (hd : s.work.phase = .output → s.ctl.st.running = true) (hf : s.ctl.st ≠ .fault) (h0 : s.ctl.faultCode = 0)
    (h1 : s.ctl.faultDetail = 0)
    (hc : s.ctl.srcClosed = true ↔ s.ctl.st = .finished ∨ (s.ctl.st = .idle ∧ s.work.phase = .ready))
    (hn : s.ctl.noClose = false) (hm : s.ctl.st.running = true → 1 ≤ s.ctl.blockSize100k.toNat ∧ s.ctl.blockSize100k.toNat ≤ 9)
    (hr : s.ctl.st.inPart = true → s.blk.randomised = s.ctl.st.randForm) : s.CtlOk where
  between h := hp.resolve_left (absurd h)
  opening := ho
  inBlock := hb
  driver := hd
  noFault _ := ⟨h0, h1⟩
  faultRow h := absurd h hf
  closed := hc
  noClose _ _ := hn
  multiplier := hm
  form := hr

/-- Between commands, in a state that is not reset's: the parameter set, a stream ended. -/
def endedState : State :=
  { State.reset with
    ctl := { State.reset.ctl with st := .finished, blockSize100k := 9 }
    legacyAnd := true }

theorem ended_inv : endedState.Inv where
  ctl := by apply ctlOk_of <;> decide
  data := by
    constructor <;> intro h <;> exact absurd h (by decide)
  stores := by decide

theorem abc_ctlOk : abcState.CtlOk := by apply ctlOk_of <;> decide

theorem abc_inv : abcState.Inv where
  ctl := abc_ctlOk
  data := by
    constructor <;> intro h <;> first | exact absurd h (by decide) | decide
  stores := by decide +kernel

/-- The abc block in PART_C, a copy of 255 left. -/
def copyState : State :=
  { outState .noRandPartC 4 with cur := { (outState .noRandPartC 4).cur with repCount := 255, repDone := 254 } }

theorem copy_inv : copyState.Inv where
  ctl := by apply ctlOk_of <;> decide
  data := by
    constructor <;> intro h <;> first | exact absurd h (by decide) | decide
  stores := by decide +kernel

theorem symTable_ok : CodeTableOk ((runState 0).codeTable 0) where
  range := by decide +kernel
  first := by decide +kernel
  lower n h1 h2 := by
    have : n ∈ [3] := by
      have a : ((runState 0).codeTable 0).minLen = 2 := by decide +kernel
      have b : ((runState 0).codeTable 0).maxLen = 3 := by decide +kernel
      simp only [List.mem_singleton]; omega
    clear h1 h2
    revert n; decide +kernel
  upper n h1 h2 := by
    have : n ∈ [2, 3] := by
      have a : ((runState 0).codeTable 0).minLen = 2 := by decide +kernel
      have b : ((runState 0).codeTable 0).maxLen = 3 := by decide +kernel
      simp only [List.mem_cons, List.not_mem_nil]; omega
    clear h1 h2
    revert n; decide +kernel
  symbols := by decide +kernel

/-- In the symbol part and inside a run. -/
theorem run_inv : (runState 0).Inv where
  ctl := by apply ctlOk_of <;> decide
  data := by
    constructor
    · decide +kernel
    · decide +kernel
    · decide +kernel
    · decide +kernel
    · decide +kernel
    · decide +kernel
    · intro _ t ht
      have h0 : t = 0 := by
        have : (runState 0).sel.nGroups.toNat = 1 := by decide +kernel
        omega
      exact h0 ▸ symTable_ok
    · decide +kernel
    · decide +kernel
    · intro _
      unfold State.FreqOk
      decide +kernel
    · exact fun _ _ => ⟨by decide +kernel, 1, by decide +kernel⟩
    · decide +kernel
  stores := by decide +kernel

-- three bytes; and four equal bytes with a count byte of 0
theorem witness_BlockOutput :
    (let s := { abcState with host := List.replicate 3 (.whenReady (.command 2)) }
    s.work.phase = .output ∧ s.ctl.st.isPartA = true ∧ s.cur.consumed = 0 ∧ s.cur.chCur = 256 ∧ s.cur.chPrev = 256 ∧
      s.cur.runCount = 0 ∧ expandRuns 0 none (State.chainBytes s.sym.nblock.toNat s) = some [0x61, 0x62, 0x63] ∧
      s.host = List.replicate ([0x61, 0x62, 0x63] : List Byte).length (.whenReady (.command 2))) ∧
    expandRuns 0 none (State.chainBytes 5 { fourState with
      bwt := { fourState.bwt with ll8 := storeOf 8 [0x61, 0x61, 0x61, 0x61] }
      cur := { State.reset.cur with tPos := 3 } }) = some [0x61, 0x61, 0x61, 0x61] := by decide +kernel

/-- Further events of the host touch no part of a safe state. -/
theorem inv_host {s : State} (h : s.Inv) (l : List HostEvent) : ({ s with host := l } : State).Inv where
  ctl := ⟨h.ctl.between, h.ctl.opening, h.ctl.inBlock, h.ctl.driver, h.ctl.noFault, h.ctl.faultRow, h.ctl.closed,
    h.ctl.noClose, h.ctl.multiplier, h.ctl.form⟩
  data := ⟨h.data.map, h.data.groups, h.data.ranks, h.data.selectors, h.data.rows, h.data.row, h.data.tables, h.data.group,
    h.data.length, h.data.counts, h.data.run, h.data.block⟩
  stores := h.stores

theorem witness_BlockOutput_inv :
    ({ abcState with host := List.replicate 3 (.whenReady (.command 2)) } : State).Inv := inv_host abc_inv _

-- a step that answers, and one that does not
theorem witness_OneResponsePerCommand :
    ((∃ t, step abcState = .next t) ∧ ¬ abcState.takesReset) ∧
    ((∃ t, step (symState [0xC0]) = .next t) ∧ ¬ (symState [0xC0]).takesReset) :=
  ⟨⟨next_of (by decide +kernel), no_reset rfl⟩, next_of (by decide +kernel), no_reset rfl⟩

-- a step that takes a source: OPEN
theorem witness_StrobeOncePerOpen :
    ∃ t, step (command 1 State.reset) = .next t ∧ (command 1 State.reset).ctl.srcClosed = true ∧ t.ctl.srcClosed = false :=
  ⟨_, rfl, rfl, rfl⟩

/-- A stream that faulted: FAULT 1.1. -/
def faultState : State :=
  let s := place .ready .fault [0x5A]
  { s with ctl := { s.ctl with faultCode := 1, faultDetail := 1, blockSize100k := 0 } }

theorem fault_ctlOk : faultState.CtlOk where
  between := by decide
  opening := by decide
  inBlock := by decide
  driver := by decide
  noFault := by decide
  faultRow _ := ⟨.invalidSignature, by decide⟩
  closed := by decide
  noClose := by decide
  multiplier := by decide
  form := by decide

theorem ctlOk_host {s : State} (h : s.CtlOk) (l : List HostEvent) : ({ s with host := l } : State).CtlOk :=
  ⟨h.between, h.opening, h.inBlock, h.driver, h.noFault, h.faultRow, h.closed, h.noClose, h.multiplier, h.form⟩

-- NEXT and CLOSE in FAULT
theorem witness_FaultIsSticky :
    (faultState.work.phase = .ready ∧ faultState.ctl.st = .fault) ∧
    ((command 2 faultState).CtlOk ∧ (command 2 faultState).ctl.st = .fault ∧ ∃ t, step (command 2 faultState) = .next t) ∧
    ((command 3 faultState).CtlOk ∧ ∃ t, step (command 3 faultState) = .next t) :=
  ⟨⟨rfl, rfl⟩, ⟨ctlOk_host fault_ctlOk _, rfl, next_of (by decide +kernel)⟩, ctlOk_host fault_ctlOk _,
    next_of (by decide +kernel)⟩

theorem witness_NothingReadAfterEnd :
    (command 2 endedState).CtlOk ∧ (command 2 endedState).ctl.st = .finished ∧
    (∃ t, step (command 2 endedState) = .next t) ∧ ¬ (command 2 endedState).takesReset ∧
    ∀ answers rest, ¬ (command 2 endedState).hostActs (.attach answers) rest := by
  refine ⟨ctlOk_host ended_inv.ctl _, rfl, next_of (by decide +kernel), ?_, ?_⟩
  · rintro ⟨rest, h | ⟨h, -⟩⟩ <;> simp [command] at h
  · rintro answers rest (h | ⟨h, -⟩) <;> simp [command] at h

theorem witness_EmissionKeepsBlock :
    copyState.CtlOk ∧ copyState.ctl.st.inPart = true ∧ (∃ t, step copyState = .next t) ∧ ¬ copyState.takesReset :=
  ⟨copy_inv.ctl, rfl, next_of (by decide +kernel), no_reset rfl⟩

-- the setup of a block, and a byte returned
theorem witness_CrcCoversReturnedBytes :
    ((∃ t, step (symState [0xE0]) = .next t) ∧ ¬ (symState [0xE0]).takesReset) ∧
    ((∃ t, step copyState = .next t) ∧ ¬ copyState.takesReset) :=
  ⟨⟨next_of (by decide +kernel), no_reset rfl⟩, next_of (by decide +kernel), no_reset rfl⟩

-- inside a run, the next symbol a literal
theorem witness_MtfStaysPermutation :
    (runState 0).Inv ∧ (∃ t, step (runState 0) = .next t) ∧ (runState 0).work.phase = .symbols ∧
    ∀ n ∈ [256, (runState 0).map.nInUse.toNat],
      ((List.range n).map fun i => ((runState 0).sym.mtf.look i).toNat).Perm (List.range n) :=
  ⟨run_inv, next_of (by decide +kernel), rfl, by decide +kernel⟩

-- a symbol read, and a block start
theorem witness_ReadingAdvances :
    ((symState [0xC0]).coreActs ∧ ((symState [0xC0]).work.phase = .output → (symState [0xC0]).ctl.st = .startBlock) ∧
      ∃ t, step (symState [0xC0]) = .next t) ∧
    ((place .output .startBlock [0x31, 0x41, 0x59, 0x26, 0x53, 0x59]).coreActs ∧
      (place .output .startBlock [0x31, 0x41, 0x59, 0x26, 0x53, 0x59]).ctl.st = .startBlock ∧
      ∃ t, step (place .output .startBlock [0x31, 0x41, 0x59, 0x26, 0x53, 0x59]) = .next t) :=
  ⟨⟨coreActs_of (by decide) rfl, by decide, next_of (by decide +kernel)⟩, coreActs_of (by decide) rfl, rfl,
    next_of (by decide +kernel)⟩

theorem witness_DriverTerminates :
    copyState.Inv ∧ copyState.hostWaits = true ∧ copyState.work.phase = .output ∧ copyState.ctl.st.inPart = true :=
  ⟨copy_inv, rfl, rfl, rfl⟩

theorem witness_ControlStaysCoherent : abcState.CtlOk ∧ ∃ t, step abcState = .next t :=
  ⟨abc_ctlOk, next_of (by decide +kernel)⟩

theorem witness_StoresStayCanonical : Memory.wf (runState 0) = true ∧ ∃ t, step (runState 0) = .next t :=
  ⟨run_inv.stores, next_of (by decide +kernel)⟩

theorem witness_RangesAreKept :
    ((runState 0).Inv ∧ ∃ t, step (runState 0) = .next t) ∧ (abcState.Inv ∧ ∃ t, step abcState = .next t) :=
  ⟨⟨run_inv, next_of (by decide +kernel)⟩, abc_inv, next_of (by decide +kernel)⟩

theorem witness_NoModelFault : (runState 0).Inv ∧ abcState.Inv ∧ copyState.Inv ∧ endedState.Inv :=
  ⟨run_inv, abc_inv, copy_inv, ended_inv⟩

end Sys2Proof.Tests
end

section
/-! SUPPORT. Lemmas and proofs for family 10_state (10_state.md): reset, and the coherence of the control state. Coherence
depends on the control registers, the block's form and the place inside the command only; so an instruction is described
by what it does to these three, and coherence of its outcome is shown once per value of ST. -/

namespace Sys2Proof

/-! ### What the decoder can give at a place of the grammar -/

/-- The place inside the command at which an instruction is read; a command is presented between commands. -/
def Instr.place : Instr → Machine.Phase
  | .sig => .signature
  | .hdr _ | .otherTrailer _ _ => .trailer
  | .blockMagic | .eosMagic | .rle2Literal _ | .rle2Count _ => .output
  | .blockCrc _ => .blockCrc
  | .streamCrc _ => .streamCrc
  | .randBit _ => .randBit
  | .origPtr _ => .origPtr
  | .inuse16 _ => .inuse16
  | .inuseInner _ => .inuseInner
  | .nGroups _ => .nGroups
  | .nSelectors _ => .nSelectors
  | .selectorMtf _ => .selector
  | .lenStart _ => .lenStart
  | .lenInc | .lenDec | .lenEnd => .lenDelta
  | .symRuna | .symRunb | .symMtfv _ | .symEob => .symbols
  | .openCmd _ | .nextCmd | .closeCmd | .cmdReserved _ _ _ => .ready

/-- If decoding gives an instruction, then one with property `P`. -/
def Decoded.Gives (P : Instr → Prop) : Decoded → Prop
  | .instr i _ => P i
  | .reject _ _ | .truncated _ | .wait => True

section
variable {P : Instr → Prop}

@[simp] theorem Decoded.gives_instr (i : Instr) (r : BitReader) : (Decoded.instr i r).Gives P ↔ P i := Iff.rfl
@[simp] theorem Decoded.gives_reject (why : Reject) (r : BitReader) : (Decoded.reject why r).Gives P := trivial

theorem Decoded.Gives.of_instr {d : Decoded} (h : d.Gives P) {i : Instr} {r : BitReader} (hd : d = .instr i r) : P i := by
  subst hd; exact h

/-- A read followed by a decoding gives what the decoding gives. -/
theorem Rd.decoded_gives {α : Type} (x : Rd α) {k : α → BitReader → Decoded} (h : ∀ a r, (k a r).Gives P) :
    (x.decoded k).Gives P := by
  cases x with
  | got a r => exact h a r
  | eof r => trivial
  | wait => trivial

end

theorem decodeCommand_place (w : Byte) : (decodeCommand w).place = .ready := by
  unfold decodeCommand; dsimp only; split_ifs <;> rfl

theorem classifySymbol_place (eob v : Nat) : (classifySymbol eob v).place = .symbols := by
  unfold classifySymbol; split_ifs <;> rfl

theorem finishSymbol_gives_symbol (T : CodeTable) (eob n v : Nat) (r : BitReader) :
    (finishSymbol T eob n v r).Gives (·.place = .symbols) := by
  unfold finishSymbol
  split
  · exact classifySymbol_place _ _
  · trivial

theorem decodeSymbolFrom_gives_symbol (T : CodeTable) (eob fuel n v : Nat) (r : BitReader) :
    (decodeSymbolFrom T eob fuel n v r).Gives (·.place = .symbols) := by
  induction fuel generalizing n v r with
  | zero =>
    unfold decodeSymbolFrom
    split
    · trivial
    · exact finishSymbol_gives_symbol T eob n v r
  | succ fuel ih =>
    unfold decodeSymbolFrom
    split
    · exact Rd.decoded_gives _ fun b r => ih _ _ r
    · exact finishSymbol_gives_symbol T eob n v r

theorem decodeSymbol_gives_symbol (T : CodeTable) (eob : Nat) (r : BitReader) :
    (decodeSymbol T eob r).Gives (·.place = .symbols) := by
  unfold decodeSymbol
  split
  · exact Rd.decoded_gives _ fun v r => decodeSymbolFrom_gives_symbol T eob _ _ _ r
  · trivial

theorem decodeDelta_gives_delta (r : BitReader) : (decodeDelta r).Gives (·.place = .lenDelta) := by
  refine Rd.decoded_gives _ fun flag r => ?_
  split
  · rfl
  · refine Rd.decoded_gives _ fun dir r => ?_
    rw [Decoded.gives_instr]
    split <;> rfl

theorem decodeMagic_gives_magic (m : BitVec 48) (r : BitReader) : (decodeMagic m r).Gives (·.place = .output) := by
  unfold decodeMagic; split_ifs <;> simp [Instr.place]

theorem decodeTrailer_place (h d : Byte) : (decodeTrailer h d).place = .trailer := by
  unfold decodeTrailer; split <;> rfl

/-- No element is read at another's place (30_encoding.md R120, R128). -/
theorem decode_gives_place (c : Ctx) (r : BitReader) : (decode c r).Gives (·.place = Machine.phaseOf c) := by
  cases c with
  | signature legacyAnd =>
    refine Rd.decoded_gives _ fun b0 r => Rd.decoded_gives _ fun b1 r => ?_
    split
    · trivial
    · rfl
  | command => exact Rd.decoded_gives _ fun w _ => decodeCommand_place w
  | trailer => exact Rd.decoded_gives _ fun h _ => Rd.decoded_gives _ fun d _ => decodeTrailer_place h d
  | blockStart => exact Rd.decoded_gives _ decodeMagic_gives_magic
  | lenDelta => exact decodeDelta_gives_delta r
  | symbol T eob => exact decodeSymbol_gives_symbol T eob r
  | streamCrc | blockCrc | randBit | origPtr | inuse16 | inuseInner | nGroups | nSelectors | selector n | lenStart
  | chainLiteral | chainCount => exact Rd.decoded_gives _ fun _ _ => rfl

/-- HDR carries a digit `1` to `9` (41_stream_block_header.md R221). -/
theorem decode_hdr_digit {c : Ctx} {r r' : BitReader} {d : Byte} (h : decode c r = .instr (.hdr d) r') :
    isMultiplierDigit d = true := by
  have hc : c = .trailer := by
    have hp : .trailer = Machine.phaseOf c := (decode_gives_place c r).of_instr h
    cases c
    case trailer => rfl
    all_goals cases hp
  subst hc
  have key : (decode .trailer r).Gives (fun i => ∀ d, i = .hdr d → isMultiplierDigit d = true) := by
    refine Rd.decoded_gives _ fun h r => Rd.decoded_gives _ fun d r => ?_
    rw [Decoded.gives_instr]
    intro d' hd
    unfold decodeTrailer at hd
    split at hd <;> simp_all
  exact key.of_instr h d rfl

end Sys2Proof

namespace Sys2Proof.Machine

/-! ### Inversion of the shared control structures -/

theorem bind_eq_ok {ε α β : Type} {x : Except ε α} {f : α → Except ε β} {b : β} (h : x >>= f = .ok b) :
    ∃ a, x = .ok a ∧ f a = .ok b := by
  cases x with
  | error e => cases h
  | ok a => exact ⟨a, rfl, h⟩

theorem ifReady_next {s t : State} {r : Result} (h : ifReady s r = .next t) : s.work.phase = .ready ∧ r = .next t := by
  unfold ifReady at h
  split at h
  · exact ⟨‹_›, h⟩
  · cases h

/-! ### The forms of ST a block selects (46_output_fsm.md R381), and the places of the grammar -/

section
variable (s : State)
@[simp] theorem State.partA_inPart : s.partA.inPart = true := by unfold State.partA; split <;> rfl
@[simp] theorem State.partB_inPart : s.partB.inPart = true := by unfold State.partB; split <;> rfl
@[simp] theorem State.partC_inPart : s.partC.inPart = true := by unfold State.partC; split <;> rfl
@[simp] theorem State.partA_randForm : s.partA.randForm = s.blk.randomised := by
  unfold State.partA; split <;> simp [St.randForm, *]
@[simp] theorem State.partB_randForm : s.partB.randForm = s.blk.randomised := by
  unfold State.partB; split <;> simp [St.randForm, *]
@[simp] theorem State.partC_randForm : s.partC.randForm = s.blk.randomised := by
  unfold State.partC; split <;> simp [St.randForm, *]
@[simp] theorem State.partB_isPartA : s.partB.isPartA = false := by unfold State.partB; split <;> rfl
end

theorem Phase.opening_iff {p : Phase} : p.opening = true ↔ p = .signature ∨ p = .trailer := by
  cases p <;> decide

theorem Phase.opening_of_inBlock {p : Phase} (h : p.inBlock = true) : p.opening = false := by
  cases p <;> first | rfl | cases h

theorem St.running_of_inPart {st : St} (h : st.inPart = true) : st.running = true := by
  cases st <;> first | rfl | cases h

theorem St.ne_of_running {st : St} (h : st.running = true) : st ≠ .idle ∧ st ≠ .finished ∧ st ≠ .fault := by
  refine ⟨?_, ?_, ?_⟩ <;> rintro rfl <;> cases h

/-! ### Coherence, by the value of ST -/

/-- What the control registers hold besides ST while a stream is decoded (10_state.md R23 to R25). -/
structure Control.Decoding (c : Control) : Prop where
  owned : c.srcClosed = false
  code : c.faultCode = 0
  detail : c.faultDetail = 0
  multiplier : 1 ≤ c.blockSize100k.toNat ∧ c.blockSize100k.toNat ≤ 9

section
variable {s t : State}

/-- Coherence depends on the control registers, the block's form and the place only. -/
theorem State.CtlOk.congr (h : s.CtlOk) (hc : t.ctl = s.ctl) (hb : t.blk = s.blk) (hw : t.work = s.work) : t.CtlOk := by
  constructor <;> rw [hc]
  · rw [hw]; exact h.between
  · rw [hw]; exact h.opening
  · rw [hw]; exact h.inBlock
  · rw [hw]; exact h.driver
  · exact h.noFault
  · exact h.faultRow
  · rw [hw]; exact h.closed
  · rw [hw]; exact h.noClose
  · exact h.multiplier
  · rw [hb]; exact h.form

/-- While a command is outstanding the core owns the source. -/
theorem State.CtlOk.owned (h : s.CtlOk) (hp : s.work.phase ≠ .ready) : s.ctl.srcClosed = false := by
  have hst : s.ctl.st ≠ .finished := by
    intro hf
    have ho := h.opening
    have hb := h.inBlock
    have hd := h.driver
    rw [hf] at ho hb hd
    cases hw : s.work.phase <;> rw [hw] at hp ho hb hd
    case ready => exact hp rfl
    case signature | trailer => cases ho rfl
    case output => cases hd rfl
    all_goals cases hb rfl
  rw [← Bool.not_eq_true, h.closed]
  rintro (hf | ⟨-, hr⟩)
  · exact hst hf
  · exact hp hr

theorem State.CtlOk.decoding (h : s.CtlOk) (hr : s.ctl.st.running = true) : s.ctl.Decoding := by
  obtain ⟨hidle, hfin, hfault⟩ := St.ne_of_running hr
  exact ⟨by simp [← Bool.not_eq_true, h.closed, hidle, hfin], (h.noFault hfault).1, (h.noFault hfault).2,
    h.multiplier hr⟩

/-- Between blocks and inside one, ST is START_BLOCK. -/
theorem Control.Decoding.ctlOk_startBlock (h : t.ctl.Decoding) (hst : t.ctl.st = .startBlock)
    (hp : t.work.phase.opening = false) : t.CtlOk := by
  constructor <;> simp [hst, hp, h.owned, h.code, h.detail, h.multiplier, St.isPartA, St.running, St.inPart]

/-- While a block is emitted, ST is a PART state of the block's form. -/
theorem Control.Decoding.ctlOk_part (h : t.ctl.Decoding) (hst : t.ctl.st.inPart = true)
    (hf : t.blk.randomised = t.ctl.st.randForm)
    (hp : t.work.phase = .output ∨ (t.work.phase = .ready ∧ t.ctl.st.isPartA = false)) : t.CtlOk := by
  have hr := St.running_of_inPart hst
  obtain ⟨hidle, hfin, hfault⟩ := St.ne_of_running hr
  rcases hp with hp | ⟨hp, hA⟩
  · constructor <;> simp [hp, hf, hr, hidle, hfin, hfault, h.owned, h.code, h.detail, h.multiplier, Phase.opening,
      Phase.inBlock]
  · constructor <;> simp [hp, hA, hf, hidle, hfin, hfault, h.owned, h.code, h.detail, h.multiplier, Phase.opening,
      Phase.inBlock]

/-- A fault of the core ends the command, and the core still owns the source (60_exceptions.md R520). -/
theorem ctlOk_raise (h : s.ctl.srcClosed = false) (f : CoreFault) : (s.raise f).CtlOk where
  between _ := rfl
  opening := nofun
  inBlock := nofun
  driver := nofun
  noFault hn := absurd rfl hn
  faultRow _ := ⟨f, rfl, rfl⟩
  closed := by simp [h]
  noClose := nofun
  multiplier := nofun
  form := nofun

/-- The stream has ended and its source is released (48_host_interface.md R470). -/
theorem ctlOk_finished (hst : t.ctl.st = .finished) (hc : t.ctl.srcClosed = true)
    (hf : t.ctl.faultCode = 0 ∧ t.ctl.faultDetail = 0) (hp : t.work.phase = .ready) : t.CtlOk := by
  constructor <;> simp [hst, hc, hf, hp, Phase.opening, Phase.inBlock, St.isPartA, St.running, St.inPart]

/-- No stream is open. -/
theorem ctlOk_idle (hst : t.ctl.st = .idle) (hc : t.ctl.srcClosed = true)
    (hf : t.ctl.faultCode = 0 ∧ t.ctl.faultDetail = 0) (hn : t.ctl.noClose = false) (hp : t.work.phase = .ready) :
    t.CtlOk := by
  constructor <;> simp [hst, hc, hf, hn, hp, Phase.opening, Phase.inBlock, St.isPartA, St.running, St.inPart]

/-- OPEN is outstanding (R453). -/
theorem ctlOk_opening (hst : t.ctl.st = .idle) (hc : t.ctl.srcClosed = false)
    (hf : t.ctl.faultCode = 0 ∧ t.ctl.faultDetail = 0) (hp : t.work.phase.opening = true) : t.CtlOk := by
  rcases Phase.opening_iff.1 hp with hp | hp <;>
    constructor <;> simp [hst, hc, hf, hp, Phase.inBlock, St.running, St.inPart]

end

/-! ### Instructions that read on inside a block -/

/-- `t` is raised from a state with the control registers of `s`. -/
def Raised (s t : State) : Prop := ∃ f u, u.ctl = s.ctl ∧ t = State.raise f u

/-- `t` leaves the control registers as in `s` and stands at a field of the block, or a fault of the core ended the
command. -/
def ReadsOn (s t : State) : Prop := (t.ctl = s.ctl ∧ t.work.phase.inBlock = true) ∨ Raised s t

section
variable {s t u : State}

theorem Raised.ctlOk (h : Raised s t) (ho : s.ctl.srcClosed = false) : t.CtlOk := by
  obtain ⟨f, u, hu, rfl⟩ := h
  exact ctlOk_raise (by rw [hu, ho]) f

theorem raised_raise (hu : u.ctl = s.ctl) (f : CoreFault) : Raised s (u.raise f) := ⟨f, u, hu, rfl⟩

theorem readsOn_raise (hu : u.ctl = s.ctl) (f : CoreFault) : ReadsOn s (u.raise f) := .inr (raised_raise hu f)

theorem readsOn_goto (hu : u.ctl = s.ctl) {p : Phase} (hp : p.inBlock = true) : ReadsOn s (u.goto p) := .inl ⟨hu, hp⟩

/-- A check of the decoder: a fault of the core, or on to the next field. -/
theorem readsOn_check {c : Prop} [Decidable c] (hu : u.ctl = s.ctl) (f : CoreFault) {p : Phase} (hp : p.inBlock = true) :
    ReadsOn s (if c then u.raise f else u.goto p) := by
  split
  · exact readsOn_raise hu f
  · exact readsOn_goto hu hp

theorem ReadsOn.of_ctl (h : ReadsOn u t) (hu : u.ctl = s.ctl) : ReadsOn s t := by
  rcases h with ⟨hc, hp⟩ | ⟨f, v, hv, rfl⟩
  · exact .inl ⟨hc.trans hu, hp⟩
  · exact readsOn_raise (hv.trans hu) f

theorem ReadsOn.ctlOk (h : ReadsOn s t) (hd : s.ctl.Decoding) (hst : s.ctl.st = .startBlock) : t.CtlOk := by
  rcases h with ⟨hc, hp⟩ | hr
  · exact Control.Decoding.ctlOk_startBlock (hc ▸ hd) (hc ▸ hst) (Phase.opening_of_inBlock hp)
  · exact hr.ctlOk hd.owned

/-! The map -/

theorem finishMap_readsOn (s : State) : ReadsOn s s.finishMap := readsOn_check (State.buildMap_ctl s) _ rfl

theorem seekRange_readsOn (l : List Nat) (s : State) : ReadsOn s (State.seekRange l s) := by
  induction l generalizing s with
  | nil => exact finishMap_readsOn s
  | cons i l ih =>
    unfold State.seekRange
    split
    · exact readsOn_goto rfl rfl
    · exact (ih _).of_ctl (State.setRange_ctl s i 0)

theorem execInuse16_readsOn {b : BitVec 16} (h : execInuse16 b s = .next t) : ReadsOn s t := by
  injection h with h
  exact h ▸ (seekRange_readsOn _ _).of_ctl rfl

theorem execInuseInner_readsOn {b : BitVec 16} (h : execInuseInner b s = .next t) : ReadsOn s t := by
  injection h with h
  exact h ▸ (seekRange_readsOn _ _).of_ctl (State.setRange_ctl s _ b)

/-! Selectors -/

theorem execNGroups_readsOn {n : BitVec 3} (h : execNGroups n s = .next t) : ReadsOn s t := by
  injection h with h
  exact h ▸ readsOn_check rfl _ rfl

theorem execNSelectors_readsOn {n : BitVec 15} (h : execNSelectors n s = .next t) : ReadsOn s t := by
  unfold execNSelectors at h
  dsimp only at h
  split_ifs at h
  · injection h with h
    exact h ▸ readsOn_raise rfl _
  · injection h with h
    exact h ▸ readsOn_goto rfl rfl

theorem execSelectorMtf_readsOn {j : BitVec 3} (h : execSelectorMtf j s = .next t) : ReadsOn s t := by
  unfold execSelectorMtf at h
  dsimp only at h
  split at h
  · injection h with h
    exact h ▸ readsOn_raise rfl _
  · obtain ⟨_, -, h⟩ := bind_eq_ok (ofExcept_next_iff.1 h)
    obtain ⟨_, -, h⟩ := bind_eq_ok h
    split at h
    · injection h with h
      exact h ▸ readsOn_goto rfl rfl
    · injection h with h
      exact h ▸ readsOn_goto rfl rfl

/-! Code lengths -/

theorem setCurr_readsOn (c : BitVec 5) (s : State) : ReadsOn s (s.setCurr c) := readsOn_check rfl _ rfl

theorem foldl_buildTable_ctl (l : List Nat) (s : State) : (l.foldl State.buildTable s).ctl = s.ctl := by
  induction l generalizing s with
  | nil => rfl
  | cons i l ih => exact (ih _).trans (State.buildTable_ctl s i)

theorem buildTables_ctl (h : s.buildTables = .ok t) : t.ctl = s.ctl := by
  unfold State.buildTables at h
  split at h
  · injection h with h
    exact h ▸ foldl_buildTable_ctl _ s
  · cases h

theorem execLenEnd_readsOn (h : execLenEnd s = .next t) : ReadsOn s t := by
  obtain ⟨_, -, h⟩ := bind_eq_ok (ofExcept_next_iff.1 h)
  obtain ⟨_, -, h⟩ := bind_eq_ok h
  split_ifs at h
  · injection h with h
    exact h ▸ readsOn_goto rfl rfl
  · injection h with h
    exact h ▸ readsOn_goto rfl rfl
  · obtain ⟨b, hb, h⟩ := bind_eq_ok h
    injection h with h
    subst h
    have hc := buildTables_ctl hb
    exact .inl ⟨(State.initSymbols_ctl b).trans hc, by rw [State.initSymbols_work]; rfl⟩

/-! Symbols -/

theorem runDigit_readsOn (d : Nat) (s : State) : ReadsOn s (s.runDigit d) := readsOn_check rfl _ rfl

theorem emitRun_ctl (h : s.emitRun = .ok t) : t.ctl = s.ctl := by
  unfold State.emitRun at h
  dsimp only at h
  split at h
  · injection h with h
    exact h ▸ rfl
  · cases h

theorem endRun_ctl (h : s.endRun = .ok t) : t.ctl = s.ctl := by
  unfold State.endRun at h
  split at h
  · obtain ⟨u, hu, h⟩ := bind_eq_ok h
    injection h with h
    have hc := emitRun_ctl hu
    exact h ▸ hc
  · injection h with h
    exact h ▸ rfl

theorem literal_ctl {v : Nat} (h : s.literal v = .ok t) : t.ctl = s.ctl := by
  unfold State.literal at h
  dsimp only at h
  split_ifs at h
  injection h with h
  exact h ▸ rfl

theorem execSymMtfv_readsOn {v : BitVec 9} (h : execSymMtfv v s = .next t) : ReadsOn s t := by
  obtain ⟨u, hu, h⟩ := bind_eq_ok (ofExcept_next_iff.1 h)
  split at h
  · injection h with h
    exact h ▸ readsOn_raise (endRun_ctl hu) _
  · obtain ⟨w, hw, h⟩ := bind_eq_ok h
    injection h with h
    exact h ▸ readsOn_goto ((literal_ctl hw).trans (endRun_ctl hu)) rfl

theorem buildSuccessors_ctl (h : s.buildSuccessors = .ok t) : t.ctl = s.ctl := by
  obtain ⟨r, -, h⟩ := bind_eq_ok h
  injection h with h
  exact h ▸ rfl

/-- The block setup enters PART_A in the block's form (46_output_fsm.md R381). -/
theorem blockSetup_control (h : s.blockSetup = .ok t) :
    t.ctl = { s.ctl with st := t.partA } ∧ t.work.phase = .output := by
  obtain ⟨first, -, h⟩ := bind_eq_ok h
  injection h with h
  exact h ▸ ⟨rfl, rfl⟩

/-- SYM_EOB ends in a fault of the core, or the block is set up. -/
theorem execSymEob_control (h : execSymEob s = .next t) :
    Raised s t ∨ (t.ctl = { s.ctl with st := t.partA } ∧ t.work.phase = .output) := by
  obtain ⟨u, hu, h⟩ := bind_eq_ok (ofExcept_next_iff.1 h)
  split at h
  · injection h with h
    exact .inl (h ▸ raised_raise (endRun_ctl hu) _)
  · obtain ⟨v, hv, h⟩ := bind_eq_ok h
    obtain ⟨hc, hp⟩ := blockSetup_control h
    exact .inr ⟨by rw [hc, buildSuccessors_ctl hv, endRun_ctl hu], hp⟩

end

/-! ### Each agent's instructions keep the control state coherent -/

section
variable {s t : State}

theorem Control.Decoding.setSt {c : Control} (h : c.Decoding) (st : St) : Control.Decoding { c with st := st } :=
  ⟨h.owned, h.code, h.detail, h.multiplier⟩

/-! The host's commands (48_host_interface.md) -/

theorem ctlOk_respond (h : s.CtlOk) (hp : s.work.phase = .ready) (status : BitVec 3) (d : Byte) :
    (s.respond status d).CtlOk :=
  h.congr rfl rfl (by rw [State.respond_work, ← hp])

theorem execOpen_ctlOk {nc : BitVec 1} (h : s.CtlOk) (he : execOpen nc s = .next t) : t.CtlOk := by
  obtain ⟨hp, he⟩ := ifReady_next he
  split at he
  · injection he with he
    exact he ▸ ctlOk_respond h hp _ _
  · rename_i hst
    injection he with he
    exact he ▸ ctlOk_opening (not_not.1 hst) rfl ⟨rfl, rfl⟩ rfl

/-- The driver takes over in the states it runs in (46_output_fsm.md R389). -/
theorem ctlOk_startDriver (h : s.CtlOk) (hr : s.ctl.st.running = true) : (s.goto .output).CtlOk where
  between := nofun
  opening := nofun
  inBlock := nofun
  driver _ := hr
  noFault := h.noFault
  faultRow := h.faultRow
  closed := by
    obtain ⟨hidle, hfin, -⟩ := St.ne_of_running hr
    simp [(h.decoding hr).owned, hidle, hfin]
  noClose := nofun
  multiplier := h.multiplier
  form := h.form

theorem execNext_ctlOk (h : s.CtlOk) (he : execNext s = .next t) : t.CtlOk := by
  obtain ⟨hp, he⟩ := ifReady_next he
  have hrun : s.ctl.st.running = true → (s.goto .output).CtlOk := ctlOk_startDriver h
  cases hst : s.ctl.st <;> rw [hst] at he hrun <;> injection he with he <;> subst he
  case idle | finished | fault => exact ctlOk_respond h hp _ _
  all_goals exact hrun rfl

theorem execClose_ctlOk (he : execClose s = .next t) : t.CtlOk := by
  obtain ⟨-, he⟩ := ifReady_next he
  injection he with he
  subst he
  exact ctlOk_idle rfl (srcClose_srcClosed s) ⟨rfl, rfl⟩ rfl rfl

theorem execCmdReserved_ctlOk {o : BitVec 2} {n : BitVec 1} {r : BitVec 5} (h : s.CtlOk)
    (he : execCmdReserved o n r s = .next t) : t.CtlOk := by
  obtain ⟨hp, he⟩ := ifReady_next he
  injection he with he
  exact he ▸ ctlOk_respond h hp _ _

/-! The stream header and the stream's end (41_stream_block_header.md) -/

/-- The digits `1` to `9` are the multipliers 1 to 9 (R221). -/
theorem multiplierOf_range {d : Byte} (h : isMultiplierDigit d = true) :
    1 ≤ (multiplierOf d).toNat ∧ (multiplierOf d).toNat ≤ 9 := by
  unfold isMultiplierDigit at h
  unfold multiplierOf
  simp only [Bool.and_eq_true, decide_eq_true_eq] at h
  bv_omega

theorem execHdr_ctlOk {d : Byte} (h : s.CtlOk) (hp : s.work.phase.opening = true) (hd : isMultiplierDigit d = true)
    (he : execHdr d s = .next t) : t.CtlOk := by
  injection he with he
  subst he
  have hst := h.opening hp
  obtain ⟨hcode, hdetail⟩ := h.noFault (by rw [hst]; decide)
  have howned : s.ctl.srcClosed = false := h.owned fun hr => by rw [hr] at hp; cases hp
  exact Control.Decoding.ctlOk_startBlock ⟨howned, hcode, hdetail, multiplierOf_range hd⟩ rfl rfl

/-- The end of the stream: the source is released and the command answered, from a state without a fault. -/
theorem ctlOk_endStream (hf : s.ctl.faultCode = 0 ∧ s.ctl.faultDetail = 0) (status : BitVec 3) (d : Byte) :
    ((s.srcClose.setSt .finished).respond status d).CtlOk :=
  ctlOk_finished rfl (srcClose_srcClosed s) (by simpa [srcClose_ctl] using hf) rfl

theorem execOtherTrailer_ctlOk {b d : Byte} (h : s.CtlOk) (hp : s.work.phase.opening = true)
    (he : execOtherTrailer b d s = .next t) : t.CtlOk := by
  injection he with he
  exact he ▸ ctlOk_endStream (h.noFault (by rw [h.opening hp]; decide)) _ _

theorem execSig_ctlOk (h : s.CtlOk) (hp : s.work.phase.opening = true) (he : execSig s = .next t) : t.CtlOk := by
  injection he with he
  subst he
  have hst := h.opening hp
  exact ctlOk_opening hst (h.owned fun hr => by rw [hr] at hp; cases hp) (h.noFault (by rw [hst]; decide)) rfl

theorem execStreamCrc_ctlOk {c : Word} (hd : s.ctl.Decoding) (he : execStreamCrc c s = .next t) : t.CtlOk := by
  unfold execStreamCrc at he
  dsimp only at he
  split at he
  · injection he with he
    exact he ▸ (raised_raise rfl _).ctlOk hd.owned
  · injection he with he
    subst he
    refine ctlOk_endStream ?_ _ _
    exact ⟨hd.code, hd.detail⟩

/-! The end of a block's symbols -/

theorem execSymEob_ctlOk (hd : s.ctl.Decoding) (he : execSymEob s = .next t) : t.CtlOk := by
  rcases execSymEob_control he with hr | ⟨hc, hp⟩
  · exact hr.ctlOk hd.owned
  · have hst : t.ctl.st = t.partA := congrArg Control.st hc
    exact Control.Decoding.ctlOk_part (hc ▸ hd.setSt _) (by simp [hst]) (by simp [hst]) (.inl hp)

/-! The driver (46_output_fsm.md) -/

theorem execRle2Literal_ctlOk {b : Byte} (hd : s.ctl.Decoding) (he : execRle2Literal b s = .next t) : t.CtlOk := by
  injection he with he
  subst he
  exact Control.Decoding.ctlOk_part (hd.setSt _) s.partB_inPart s.partB_randForm.symm (.inr ⟨rfl, s.partB_isPartA⟩)

theorem execRle2Count_ctlOk {k : Byte} (hd : s.ctl.Decoding) (he : execRle2Count k s = .next t) : t.CtlOk := by
  injection he with he
  subst he
  exact Control.Decoding.ctlOk_part (hd.setSt _) s.partC_inPart s.partC_randForm.symm (.inl rfl)

theorem compareBytes_ctlOk (hd : s.ctl.Decoding) (hp : s.work.phase = .output) : s.compareBytes.CtlOk := by
  unfold State.compareBytes
  split <;> exact Control.Decoding.ctlOk_part (hd.setSt _) s.partA_inPart s.partA_randForm.symm (.inl hp)

theorem emitCopy_ctlOk (h : s.CtlOk) (hst : s.ctl.st.isPartC = true) (hp : s.work.phase = .output) :
    s.emitCopy.CtlOk := by
  have hd : s.ctl.Decoding := h.decoding (h.driver hp)
  unfold State.emitCopy
  split
  · have hin : s.ctl.st.inPart = true ∧ s.ctl.st.isPartA = false := by
      cases hs : s.ctl.st <;> rw [hs] at hst <;> first | exact ⟨rfl, rfl⟩ | cases hst
    exact Control.Decoding.ctlOk_part hd hin.1 (h.form hin.1) (.inr ⟨rfl, hin.2⟩)
  · exact Control.Decoding.ctlOk_part (hd.setSt _) s.partA_inPart s.partA_randForm.symm (.inl hp)

theorem blockEnd_ctlOk (hd : s.ctl.Decoding) (hp : s.work.phase = .output) : s.blockEnd.CtlOk := by
  unfold State.blockEnd
  dsimp only
  split
  · exact (raised_raise rfl _).ctlOk hd.owned
  · exact Control.Decoding.ctlOk_startBlock (hd.setSt _) rfl (by rw [State.setSt_work]; dsimp only; rw [hp]; rfl)

/-! Reset -/

theorem ctlOk_afterReset (s : State) : s.afterReset.CtlOk := ctlOk_idle rfl rfl ⟨rfl, rfl⟩ rfl rfl

end

/-! ### Every instruction keeps the control state coherent where the fetch runs it -/

/-- Where the fetch runs an instruction: OPEN's elements while OPEN is outstanding, a block's elements in START_BLOCK, the
decoded block's elements in the driver. A command may be presented at any time. -/
def Due (st : St) (p : Phase) : Instr → Prop
  | .sig | .otherTrailer _ _ => p.opening = true
  | .hdr d => p.opening = true ∧ isMultiplierDigit d = true
  | .blockMagic | .eosMagic | .blockCrc _ | .streamCrc _ | .randBit _ | .origPtr _ | .inuse16 _ | .inuseInner _
  | .nGroups _ | .nSelectors _ | .selectorMtf _ | .lenStart _ | .lenInc | .lenDec | .lenEnd | .symRuna | .symRunb
  | .symMtfv _ | .symEob => st = .startBlock
  | .rle2Literal _ | .rle2Count _ => p = .output
  | .openCmd _ | .nextCmd | .closeCmd | .cmdReserved _ _ _ => True

section
variable {s t : State}

/-- A command is due at any time. -/
theorem due_of_command {st : St} {p : Phase} {i : Instr} (hi : i.place = .ready) : Due st p i := by
  cases i
  case openCmd | nextCmd | closeCmd | cmdReserved => trivial
  all_goals cases hi

/-- What the decoder gives at a place of the grammar is due there. In the driver, the stream is read in START_BLOCK. -/
theorem due_of_decode (h : s.CtlOk) {c : Ctx} {r r' : BitReader} {i : Instr} (hc : phaseOf c = s.work.phase)
    (hb : s.work.phase = .output → s.ctl.st = .startBlock) (hd : decode c r = .instr i r') :
    Due s.ctl.st s.work.phase i := by
  have hp : s.work.phase = i.place := hc.symm.trans ((decode_gives_place c r).of_instr hd).symm
  cases i with
  | sig | otherTrailer _ _ => exact congrArg Phase.opening hp
  | hdr d => exact ⟨congrArg Phase.opening hp, decode_hdr_digit hd⟩
  | blockMagic | eosMagic => exact hb hp
  | rle2Literal _ | rle2Count _ => exact hp
  | openCmd _ | nextCmd | closeCmd | cmdReserved _ _ _ => trivial
  | blockCrc _ | streamCrc _ | randBit _ | origPtr _ | inuse16 _ | inuseInner _ | nGroups _ | nSelectors _
  | selectorMtf _ | lenStart _ | lenInc | lenDec | lenEnd | symRuna | symRunb | symMtfv _ | symEob =>
    exact h.inBlock (congrArg Phase.inBlock hp)

theorem exec_keeps_ctlOk {i : Instr} (h : s.CtlOk) (hd : Due s.ctl.st s.work.phase i) (he : exec i s = .next t) :
    t.CtlOk := by
  have hblock : s.ctl.st = .startBlock → ReadsOn s t → t.CtlOk := fun hst hr =>
    hr.ctlOk (h.decoding (by rw [hst]; rfl)) hst
  cases i with
  | sig => exact execSig_ctlOk h hd he
  | hdr d => exact execHdr_ctlOk h hd.1 hd.2 he
  | otherTrailer b d => exact execOtherTrailer_ctlOk (b := b) (d := d) h hd he
  | blockMagic | eosMagic | blockCrc c | randBit r | origPtr p =>
    injection he with he
    exact hblock hd (he ▸ readsOn_goto rfl rfl)
  | streamCrc c => exact execStreamCrc_ctlOk (h.decoding (by rw [hd]; rfl)) he
  | inuse16 u => exact hblock hd (execInuse16_readsOn he)
  | inuseInner b => exact hblock hd (execInuseInner_readsOn he)
  | nGroups n => exact hblock hd (execNGroups_readsOn he)
  | nSelectors n => exact hblock hd (execNSelectors_readsOn he)
  | selectorMtf j => exact hblock hd (execSelectorMtf_readsOn he)
  | lenStart c =>
    injection he with he
    exact hblock hd (he ▸ (setCurr_readsOn _ _).of_ctl rfl)
  | lenInc | lenDec =>
    injection he with he
    exact hblock hd (he ▸ setCurr_readsOn _ s)
  | lenEnd => exact hblock hd (execLenEnd_readsOn he)
  | symRuna | symRunb =>
    injection he with he
    exact hblock hd (he ▸ runDigit_readsOn _ s)
  | symMtfv v => exact hblock hd (execSymMtfv_readsOn he)
  | symEob => exact execSymEob_ctlOk (h.decoding (by rw [hd]; rfl)) he
  | rle2Literal b => exact execRle2Literal_ctlOk (h.decoding (h.driver hd)) he
  | rle2Count k => exact execRle2Count_ctlOk (h.decoding (h.driver hd)) he
  | openCmd nc => exact execOpen_ctlOk h he
  | nextCmd => exact execNext_ctlOk h he
  | closeCmd => exact execClose_ctlOk he
  | cmdReserved o n r => exact execCmdReserved_ctlOk (o := o) (n := n) (r := r) h he

/-! ### What the fetch finds -/

/-- The fetch found a coherent state, and an instruction that is due there. -/
def Fetched.Coherent : Fetched → Prop
  | .run i u => u.CtlOk ∧ Due u.ctl.st u.work.phase i
  | .goes t => t.CtlOk
  | .broken _ | .refuses _ => True

theorem rejected_coherent (ho : s.ctl.srcClosed = false) (why : Reject) : (rejected why s).Coherent := by
  cases why with
  | badSignature | badMagic | noCode => exact ctlOk_raise ho _
  | tableIndex => trivial

theorem fetchElement_coherent {waiting : State} {c : Ctx} (h : s.CtlOk) (hw : waiting.CtlOk)
    (hp : s.work.phase ≠ .ready) (hc : phaseOf c = s.work.phase) (hb : s.work.phase = .output → s.ctl.st = .startBlock) :
    (fetchElement c waiting s).Coherent := by
  have ho := h.owned hp
  rcases fetchElement_cases c waiting s with ⟨i, r, hd, hf⟩ | ⟨why, r, -, hf⟩ | ⟨r, -, hf⟩ | ⟨-, hf⟩ <;> rw [hf]
  · exact ⟨h.congr rfl rfl rfl, due_of_decode h hc hb hd⟩
  · exact rejected_coherent (s := s.withReader r) ho why
  · exact ctlOk_raise (by simpa using ho) _
  · exact hw

theorem fetchSymbol_coherent (h : s.CtlOk) (hp : s.work.phase = .symbols) : (fetchSymbol s).Coherent := by
  have hr : s.work.phase ≠ .ready := by rw [hp]; decide
  have ht : s.takeFromGroup.CtlOk := h.congr (by simp) (by simp) (by simp)
  unfold fetchSymbol
  split
  · exact (raised_raise rfl _).ctlOk (h.owned hr)
  · dsimp only
    split
    · trivial
    · exact fetchElement_coherent ht h (by simpa using hr) (by simpa [phaseOf] using hp.symm) (by simp [hp])

theorem fetchByte_control {b : Byte} (h : s.fetchByte = .ok (b, t)) :
    t.ctl = s.ctl ∧ t.blk = s.blk ∧ t.work = s.work := by
  obtain ⟨c, -, h⟩ := bind_eq_ok h
  obtain ⟨n, -, h⟩ := bind_eq_ok h
  injection h with h
  split at h <;> obtain ⟨-, rfl⟩ := Prod.mk.inj h <;> exact ⟨rfl, rfl, rfl⟩

theorem fetchChain_coherent {mk : Byte → Instr} (h : s.CtlOk) (hm : ∀ b, Due s.ctl.st s.work.phase (mk b)) :
    (fetchChain mk s).Coherent := by
  unfold fetchChain
  split
  · obtain ⟨hc, hb, hw⟩ := fetchByte_control ‹_›
    exact ⟨h.congr hc hb hw, by rw [hc, hw]; exact hm _⟩
  · trivial

/-- One iteration of the driver (46_output_fsm.md R389). -/
theorem fetchOutput_coherent (h : s.CtlOk) (hp : s.work.phase = .output) : (fetchOutput s).Coherent := by
  have hd : s.ctl.Decoding := h.decoding (h.driver hp)
  have hA : (if s.positionLeft then fetchChain .rle2Literal s else .goes s.blockEnd).Coherent := by
    split
    · exact fetchChain_coherent h fun _ => hp
    · exact blockEnd_ctlOk hd hp
  have hB : (if s.fourthEqual then (if s.positionLeft then fetchChain .rle2Count s else .goes s.countMissing)
      else .goes s.compareBytes).Coherent := by
    split_ifs
    · exact fetchChain_coherent h fun _ => hp
    · exact (raised_raise rfl _).ctlOk hd.owned
    · exact compareBytes_ctlOk hd hp
  unfold fetchOutput
  cases hst : s.ctl.st with
  | startBlock => exact fetchElement_coherent h h (by simp [hp]) hp.symm fun _ => hst
  | randPartA | noRandPartA => exact hA
  | randPartB | noRandPartB => exact hB
  | randPartC | noRandPartC => exact emitCopy_ctlOk h (by rw [hst]; rfl) hp
  | idle | finished | fault => trivial

theorem fetchCore_coherent (h : s.CtlOk) : (fetchCore s).Coherent := by
  unfold fetchCore
  cases hp : s.work.phase with
  | ready => exact h
  | output => exact fetchOutput_coherent h hp
  | symbols => exact fetchSymbol_coherent h hp
  | signature | trailer | streamCrc | blockCrc | randBit | origPtr | inuse16 | inuseInner | nGroups | nSelectors | selector
  | lenStart | lenDelta => exact fetchElement_coherent h h (by simp [hp]) hp.symm (by simp [hp])

theorem fetchHost_coherent (h : s.CtlOk) (a : HostAction) : (fetchHost a s).Coherent := by
  cases a with
  | command w => exact ⟨h, due_of_command (decodeCommand_place w)⟩
  | statusRead n =>
    unfold fetchHost
    dsimp only
    split
    · exact h.congr rfl rfl rfl
    · trivial
  | attach answers =>
    unfold fetchHost
    dsimp only
    split
    · exact h.congr rfl rfl rfl
    · trivial
  | reset => exact ctlOk_afterReset s

theorem fetch_coherent (h : s.CtlOk) : (fetch s).Coherent := by
  have hh : ∀ rest, ({ s with host := rest } : State).CtlOk := fun rest => h.congr rfl rfl rfl
  unfold fetch
  split
  · exact fetchCore_coherent h
  · exact fetchHost_coherent (hh _) _
  · split
    · exact fetchHost_coherent (hh _) _
    · exact fetchCore_coherent h

end

/-! ### The obligations -/

/-- Settles O57: what the fetch finds is coherent, and so is what the instruction makes of it. -/
theorem controlStaysCoherent : Obligations.ControlStaysCoherent := by
  intro s t h hs
  have hf := fetch_coherent h
  rcases step_next_cases hs with ⟨i, u, hrun, he⟩ | hgo
  · rw [hrun] at hf
    exact exec_keeps_ctlOk hf.1 hf.2 he
  · rw [hgo] at hf
    exact hf

theorem registersReset_reset : RegistersReset State.reset := by constructor <;> rfl

/-- What is not a register survives a reset, and every register is as in the reset state (70_reset_and_hazards.md R550). -/
theorem registersReset_afterReset (s : State) : RegistersReset s.afterReset := by constructor <;> rfl

/-- Settles O1: the reset event is taken by the fetch, whatever the core is doing. -/
theorem resetRegisters : Obligations.ResetRegisters := by
  refine ⟨registersReset_reset, rfl, fun s rest h => ?_⟩
  have hstep : step s = .next ({ s with host := rest } : State).afterReset := by
    unfold step
    rw [fetch_of_hostActs h]
    rfl
  exact ⟨_, hstep, registersReset_afterReset _, rfl, rfl, rfl⟩

end Sys2Proof.Machine
end

section
/-! SUPPORT. Lemmas and proofs for family 20_memory (20_memory.md). Between commands only the host moves the machine: a step
is one of its acts or changes nothing. Where the stream has ended no command is outstanding and the source is released, so
no command finds anything to do at the reader. -/

namespace Sys2Proof.Machine

section
variable {s t : State}

/-! ### Steps between commands -/

/-- Between commands a step is an act of the host, or nothing happens (70_reset_and_hazards.md R551). -/
theorem step_of_ready (hp : s.work.phase = .ready) (hs : step s = .next t) : t = s ∨ ∃ a rest, s.hostActs a rest := by
  cases hh : s.host with
  | nil =>
    have hf : fetch s = .goes s := by simp [fetch, fetchCore, hh, hp]
    rw [step, hf] at hs
    injection hs with hs
    exact .inl hs.symm
  | cons e rest =>
    cases e with
    | atOnce a => exact .inr ⟨a, rest, .inl hh⟩
    | whenReady a => exact .inr ⟨a, rest, .inr ⟨hh, hp⟩⟩

/-- What a step can do in which the host acts (48_host_interface.md R451, R459; 70_reset_and_hazards.md R550, R552). -/
theorem step_hostActs_cases {a : HostAction} {rest : List HostEvent} (ha : s.hostActs a rest) (hs : step s = .next t) :
    (∃ w, a = .command w ∧ exec (decodeCommand w) { s with host := rest } = .next t) ∨
    (∃ n, a = .statusRead n ∧ s.work.phase = .ready ∧
      t = ({ s with host := rest } : State).emit (.statusData (s.statusWord n))) ∨
    (∃ answers, a = .attach answers ∧ s.ctl.srcClosed = true ∧
      t = { s with host := rest, rd := { s.rd with src := answers } }) ∨
    (a = .reset ∧ t = ({ s with host := rest } : State).afterReset) := by
  rw [step, fetch_of_hostActs ha] at hs
  cases a with
  | command w => exact .inl ⟨w, rfl, hs⟩
  | statusRead n =>
    refine .inr (.inl ⟨n, rfl, ?_⟩)
    by_cases hp : s.work.phase = .ready <;> simp only [fetchHost, hp, reduceIte] at hs
    · injection hs with hs
      exact ⟨hp, hs.symm⟩
    · cases hs
  | attach answers =>
    refine .inr (.inr (.inl ⟨answers, rfl, ?_⟩))
    by_cases hc : s.ctl.srcClosed = true <;> simp only [fetchHost, hc, reduceIte] at hs
    · injection hs with hs
      exact ⟨hc, hs.symm⟩
    · cases hs
  | reset =>
    injection hs with hs
    exact .inr (.inr (.inr ⟨rfl, hs.symm⟩))

/-! ### Commands and the reader -/

/-- OPEN is refused outside IDLE (48_host_interface.md R453). -/
theorem execOpen_of_ne_idle {nc : BitVec 1} (hst : s.ctl.st ≠ .idle) (he : execOpen nc s = .next t) :
    t = s.refuseState := by
  obtain ⟨-, he⟩ := ifReady_next he
  rw [if_pos hst] at he
  injection he with he
  exact he.symm

/-- NEXT answers or starts the driver: what it reads is read by later steps (R454). -/
theorem execNext_rd (he : execNext s = .next t) : t.rd = s.rd := by
  obtain ⟨-, he⟩ := ifReady_next he
  split at he <;> injection he with he <;> subst he <;> rfl

/-- CLOSE touches the source port only by releasing the source (R455, R470). -/
theorem execClose_rd (he : execClose s = .next t) : t.rd = s.srcClose.rd := by
  obtain ⟨-, he⟩ := ifReady_next he
  injection he with he
  exact he ▸ rfl

theorem execCmdReserved_rd {o : BitVec 2} {n : BitVec 1} {r : BitVec 5} (he : execCmdReserved o n r s = .next t) :
    t.rd = s.rd := by
  obtain ⟨-, he⟩ := ifReady_next he
  injection he with he
  exact he ▸ rfl

/-- Only OPEN of a closed stream and the release of an owned source change the reader. -/
theorem exec_command_keeps_rd {i : Instr} (hi : i.place = .ready) (hst : s.ctl.st ≠ .idle)
    (hc : s.ctl.srcClosed = true) (he : exec i s = .next t) : t.rd = s.rd := by
  cases i
  case openCmd nc => exact execOpen_of_ne_idle (nc := nc) hst he ▸ rfl
  case nextCmd => exact execNext_rd he
  case closeCmd => exact (execClose_rd he).trans (by rw [srcClose_of_closed hc])
  case cmdReserved o n r => exact execCmdReserved_rd (o := o) (n := n) (r := r) he
  all_goals cases hi

/-! ### The end of the stream -/

/-- In END the source is released and no command is outstanding (10_state.md R22, R24). -/
theorem State.CtlOk.ended (h : s.CtlOk) (hst : s.ctl.st = .finished) :
    s.ctl.srcClosed = true ∧ s.work.phase = .ready := by
  have hc : s.ctl.srcClosed = true := h.closed.2 (.inl hst)
  refine ⟨hc, ?_⟩
  by_contra hp
  exact Bool.false_ne_true ((h.owned hp).symm.trans hc)

end

/-! ### The obligation -/

/-- Settles O51: in END the step is the host's, and neither a command nor a status read changes the reader. -/
theorem nothingReadAfterEnd : Obligations.NothingReadAfterEnd := by
  intro s t h hst hs hreset hattach
  obtain ⟨hc, hp⟩ := h.ended hst
  obtain rfl | ⟨a, rest, ha⟩ := step_of_ready hp hs
  · rfl
  obtain ⟨w, -, he⟩ | ⟨n, -, -, rfl⟩ | ⟨answers, rfl, -, -⟩ | ⟨rfl, -⟩ := step_hostActs_cases ha hs
  · exact exec_command_keeps_rd (s := { s with host := rest }) (decodeCommand_place w) (by simp [hst]) hc he
  · rfl
  · exact absurd ha (hattach answers rest)
  · exact absurd ⟨rest, ha⟩ hreset

end Sys2Proof.Machine
end

section
/-! SUPPORT. Lemmas and proofs for family 42_tables (42_tables.md). The map loop writes, for every byte in use and its rank
among them, one entry of each of its two stores; so each store is its old self after one sequence of writes at distinct
indices. -/

namespace Sys2Proof

/-! ### Writes at distinct indices -/

/-- Where no index is written twice, each entry holds the value written there. -/
theorem Store.look_putAll_of_mem {w : Nat} {m : Store w} (h : m.wf = true) {l : List (Nat × BitVec w)}
    (hl : (l.map Prod.fst).Nodup) {i : Nat} {v : BitVec w} (hi : (i, v) ∈ l) : (m.putAll l).look i = v := by
  induction l generalizing m with
  | nil => cases hi
  | cons p l ih =>
    rw [List.map_cons, List.nodup_cons] at hl
    rw [Store.putAll_cons]
    rcases List.mem_cons.1 hi with rfl | hi
    · have hother : ∀ q ∈ l, q.1 ≠ i := fun q hq hqi => hl.1 (List.mem_map.2 ⟨q, hq, hqi⟩)
      rw [Store.look_putAll_other (Store.put_wf h _ _) hother, Store.look_put_same h]
    · exact ih (Store.put_wf h _ _) hl.2 hi

end Sys2Proof

namespace Sys2Proof.Machine

/-! ### The writes of the map loop -/

/-- SEQ_TO_UNSEQ's writes: at each rank, counted from `n`, the byte value of that rank. -/
def rankWrites (l : List Nat) (n : Nat) : List (Nat × BitVec 8) := (l.zipIdx n).map fun p => (p.2, BitVec.ofNat 8 p.1)

/-- UNSEQ_TO_SEQ's writes: at each byte value its rank, counted from `n`. -/
def byteWrites (l : List Nat) (n : Nat) : List (Nat × BitVec 8) := (l.zipIdx n).map fun p => (p.1, BitVec.ofNat 8 p.2)

/-- The map loop over the byte values `l`, when `n` bytes in use came before them (42_tables.md R252). -/
theorem foldl_mapByte (inUse : Store 1) (l : List Nat) (f g : Store 8) (n : Nat) :
    l.foldl (mapByte inUse) (f, g, n) =
      (f.putAll (rankWrites (l.filter fun v => inUse.look v = 1) n),
       g.putAll (byteWrites (l.filter fun v => inUse.look v = 1) n),
       n + (l.filter fun v => inUse.look v = 1).length) := by
  induction l generalizing f g n with
  | nil => rfl
  | cons v l ih =>
    by_cases hv : inUse.look v = 1
    · have hstep : mapByte inUse (f, g, n) v = (f.put n (BitVec.ofNat 8 v), g.put v (BitVec.ofNat 8 n), n + 1) :=
        if_pos hv
      rw [List.foldl_cons, hstep, ih, List.filter_cons_of_pos (by simpa using hv), List.length_cons, Nat.add_assoc,
        Nat.add_comm 1]
      rfl
    · have hstep : mapByte inUse (f, g, n) v = (f, g, n) := if_neg hv
      rw [List.foldl_cons, hstep, ih, List.filter_cons_of_neg (by simpa using hv)]

theorem look_rankWrites {f : Store 8} (h : f.wf = true) (l : List Nat) (k : Nat) :
    (f.putAll (rankWrites l 0)).look k = if k < l.length then BitVec.ofNat 8 (l.getD k 0) else f.look k := by
  split
  · rename_i hk
    refine Store.look_putAll_of_mem h ?_ ?_
    · have hranks : (rankWrites l 0).map Prod.fst = List.range' 0 l.length := by
        simp [rankWrites, Function.comp_def]
      exact hranks ▸ List.nodup_range'
    · exact List.mem_map.2 ⟨(l[k], k), by simp [List.mk_mem_zipIdx_iff_getElem?, hk], by simp [hk]⟩
  · rename_i hk
    refine Store.look_putAll_other h fun p hp => ?_
    obtain ⟨⟨v, i⟩, hmem, rfl⟩ := List.mem_map.1 hp
    have hi : i < l.length := by simpa using List.snd_lt_of_mem_zipIdx hmem
    exact fun hik => hk (hik ▸ hi)

theorem look_byteWrites {g : Store 8} (h : g.wf = true) {l : List Nat} (hl : l.Nodup) (v : Nat) :
    (g.putAll (byteWrites l 0)).look v = if v ∈ l then BitVec.ofNat 8 (l.idxOf v) else g.look v := by
  have hbytes : (byteWrites l 0).map Prod.fst = l := by
    simp [byteWrites, Function.comp_def]
  split
  · rename_i hv
    refine Store.look_putAll_of_mem h (hbytes.symm ▸ hl) ?_
    exact List.mem_map.2 ⟨(v, l.idxOf v), by simp [List.mk_mem_zipIdx_iff_getElem?, hv], rfl⟩
  · rename_i hv
    exact Store.look_putAll_other h fun p hp hpv => hv (hbytes ▸ hpv ▸ List.mem_map_of_mem hp)

/-! ### The map -/

section
variable (s : State)

theorem State.usedBytes_nodup : s.usedBytes.Nodup := List.nodup_range.filter _

theorem State.usedBytes_length_le : s.usedBytes.length ≤ 256 :=
  (List.length_filter_le _ _).trans_eq List.length_range

/-- Map construction as two sequences of writes and a count (R252). -/
theorem State.buildMap_eq : s.buildMap = { s with map := { s.map with
    seqToUnseq := s.map.seqToUnseq.putAll (rankWrites s.usedBytes 0)
    unseqToSeq := s.map.unseqToSeq.putAll (byteWrites s.usedBytes 0)
    nInUse := BitVec.ofNat 9 s.usedBytes.length } } := by
  simp only [State.buildMap, foldl_mapByte, Nat.zero_add, State.usedBytes]

/-- N_IN_USE is 9 bits wide and counts at most 256 bytes. -/
theorem State.buildMap_nInUse_eq_zero_iff : s.buildMap.map.nInUse = 0 ↔ s.usedBytes = [] := by
  have hle := s.usedBytes_length_le
  rw [State.buildMap_eq, ← List.length_eq_zero_iff, BitVec.toNat_eq, BitVec.toNat_ofNat, Nat.mod_eq_of_lt (by omega)]
  rfl

end

/-! ### The current code length -/

theorem badLength_iff (c : BitVec 5) : badLength c = true ↔ c.toNat < 1 ∨ 20 < c.toNat := by
  simp [badLength, Config.maxCodeLenAccepted]

/-- CheckLength where the current length changes (42_tables.md R260). -/
theorem State.setCurr_eq (c : BitVec 5) (s : State) :
    s.setCurr c = if c.toNat < 1 ∨ 20 < c.toNat then { s with work := { s.work with curr := c } }.raise .codeLength
      else { s with work := { s.work with curr := c, phase := .lenDelta } } := by
  simp only [State.setCurr, badLength_iff, State.goto]

/-- The same for a length given as a number; at most 21, so that it fits the 5 bits. -/
theorem State.setCurr_ofNat {n : Nat} (h : n ≤ 21) (s : State) :
    s.setCurr (BitVec.ofNat 5 n) =
      if n < 1 ∨ 20 < n then { s with work := { s.work with curr := BitVec.ofNat 5 n } }.raise .codeLength
      else { s with work := { s.work with curr := BitVec.ofNat 5 n, phase := .lenDelta } } := by
  have hn : (BitVec.ofNat 5 n).toNat = n := by rw [BitVec.toNat_ofNat, Nat.mod_eq_of_lt (by omega)]
  rw [State.setCurr_eq, hn]

/-! ### The obligations -/

/-- Settles O25: the two stores after the map loop's writes are the witnesses. -/
theorem mapConstruction : Obligations.MapConstruction := by
  intro s h
  obtain ⟨-, -, hseq, hunseq, -⟩ := (Memory.wf_iff s).1 h
  refine ⟨_, _, look_rankWrites hseq s.usedBytes, look_byteWrites hunseq s.usedBytes_nodup, ?_⟩
  simp only [State.finishMap, State.buildMap_nInUse_eq_zero_iff, State.goto]
  rw [State.buildMap_eq]

/-- Settles O28: one up from a length of at most 20, or one down from a length of at least 1, does not wrap in 5 bits. -/
theorem codeLengthElements : Obligations.CodeLengthElements := by
  refine ⟨fun s c => congrArg _ (State.setCurr_eq c _), fun s h => ?_, fun s h1 h => ?_⟩
  · have hinc : s.work.curr + 1 = BitVec.ofNat 5 (s.work.curr.toNat + 1) := by bv_omega
    have hexec : exec .lenInc s = .next (s.setCurr (s.work.curr + 1)) := rfl
    have hlow : ¬ s.work.curr.toNat + 1 < 1 := by omega
    rw [hexec, hinc, State.setCurr_ofNat (by omega)]
    simp only [hlow, false_or]
  · have hdec : s.work.curr - 1 = BitVec.ofNat 5 (s.work.curr.toNat - 1) := by bv_omega
    have hexec : exec .lenDec s = .next (s.setCurr (s.work.curr - 1)) := rfl
    have hhigh : ¬ 20 < s.work.curr.toNat - 1 := by omega
    rw [hexec, hdec, State.setCurr_ofNat (by omega)]
    simp only [hhigh, or_false]

end Sys2Proof.Machine
end

section
/-! SUPPORT. Lemmas and proofs for family 43_huffman (43_huffman.md). The counts of a row (how many symbols have a length,
how many a shorter one) are what BASE holds once it is summed; the limits and the first codes are then a recursion over the
lengths, and PERM is one sequence of writes along the symbols in code order. -/

namespace Sys2Proof

/-! ### Folds of writes -/

section
variable {w : Nat} {α : Type}

/-- A fold of writes leaves an index alone that it does not write. -/
theorem Store.look_foldl_put_other {m : Store w} (h : m.wf = true) {l : List α} {key : α → Nat}
    (val : Store w → α → BitVec w) {i : Nat} (hi : ∀ x ∈ l, i ≠ key x) :
    (l.foldl (fun m x => m.put (key x) (val m x)) m).look i = m.look i := by
  induction l generalizing m with
  | nil => rfl
  | cons x l ih =>
    rw [List.foldl_cons, ih (Store.put_wf h _ _) fun y hy => hi y (List.mem_cons_of_mem x hy),
      Store.look_put_other h (hi x List.mem_cons_self)]

/-- Where every entry is written at most once, and from its own old value, it holds what that write gives. -/
theorem Store.look_foldl_put_own {m : Store w} (h : m.wf = true) {l : List α} {key : α → Nat} (hl : (l.map key).Nodup)
    (val : BitVec w → α → BitVec w) {x : α} (hx : x ∈ l) :
    (l.foldl (fun m x => m.put (key x) (val (m.look (key x)) x)) m).look (key x) = val (m.look (key x)) x := by
  induction l generalizing m with
  | nil => cases hx
  | cons y l ih =>
    rw [List.map_cons, List.nodup_cons] at hl
    obtain ⟨hy, hl⟩ := hl
    have hne : ∀ z ∈ l, key y ≠ key z := fun z hz hyz => hy (hyz ▸ List.mem_map_of_mem hz)
    rw [List.foldl_cons]
    rcases List.mem_cons.1 hx with rfl | hx
    · rw [Store.look_foldl_put_other (Store.put_wf h _ _) (fun m z => val (m.look (key z)) z) hne, Store.look_put_same h]
    · rw [ih (Store.put_wf h _ _) hl hx, Store.look_put_other h (hne x hx).symm]

/-- Counting up at each index of a list adds to an entry how often its index occurs. -/
theorem Store.look_foldl_count {m : Store w} (h : m.wf = true) (l : List α) (key : α → Nat) (i : Nat) :
    (l.foldl (fun m x => m.put (key x) (m.look (key x) + 1)) m).look i
      = m.look i + BitVec.ofNat w ((l.map key).count i) := by
  induction l generalizing m with
  | nil => simp
  | cons x l ih =>
    rw [List.foldl_cons, ih (Store.put_wf h _ _), Store.look_put h, List.map_cons, List.count_cons]
    by_cases hi : i = key x
    · subst hi
      simp only [if_true, beq_self_eq_true, BitVec.ofNat_add, BitVec.add_assoc]
      rw [BitVec.add_comm 1]
      rfl
    · simp [hi, Ne.symm hi]

end

/-! ### Rows -/

@[simp] theorem lengthKey_inj (t l l' : Nat) : lengthKey t l = lengthKey t l' ↔ l = l' := by
  simp only [lengthKey]; omega

@[simp] theorem symbolKey_inj (t k k' : Nat) : symbolKey t k = symbolKey t k' ↔ k = k' := by
  simp only [symbolKey]; omega

theorem lengthKey_add (t l k : Nat) : lengthKey t (l + k) = lengthKey t l + k := (Nat.add_assoc ..).symm

/-- The indices up to `c` are those up to `b` and those after it. -/
theorem upTo_append {a b c : Nat} (hab : a ≤ b + 1) (hbc : b ≤ c) : upTo a b ++ upTo (b + 1) c = upTo a c := by
  have happend := List.range'_append_1 (s := a) (m := b + 1 - a) (n := c - b)
  have hnext : a + (b + 1 - a) = b + 1 := by omega
  have hcount : b + 1 - a + (c - b) = c + 1 - a := by omega
  rw [hnext, hcount] at happend
  rw [upTo, upTo, upTo, Nat.add_sub_add_right, happend]

/-- Row `t` cleared, as the histogram and the limits begin (43_huffman.md R291, R293). -/
def clearRow (t : Nat) (m : Store 32) : Store 32 :=
  m.putAll ((List.range Config.maxCodeLen).map fun i => (lengthKey t i, 0))

theorem clearRow_wf (t : Nat) {m : Store 32} (h : m.wf = true) : (clearRow t m).wf = true := Store.putAll_wf h _

theorem look_clearRow {m : Store 32} (h : m.wf = true) (t : Nat) {l : Nat} (hl : l ≤ 22) :
    (clearRow t m).look (lengthKey t l) = 0 := by
  refine (Store.look_putAll_range h (lengthKey t 0) 23 (fun _ => 0) _).trans (if_pos ?_)
  simp only [lengthKey]; omega

theorem look_clearRow_other {m : Store 32} (h : m.wf = true) {t k : Nat} (hk : ∀ l, l ≤ 22 → k ≠ lengthKey t l) :
    (clearRow t m).look k = m.look k := by
  refine Store.look_putAll_other h fun p hp => ?_
  obtain ⟨l, hl, rfl⟩ := List.mem_map.1 hp
  exact (hk l (Nat.le_of_lt_succ (List.mem_range.1 hl))).symm

end Sys2Proof

namespace Sys2Proof.Machine

/-! ### The shortest and the longest length -/

theorem minOf_spec {l : List Nat} (h : l ≠ []) : minOf l ∈ l ∧ ∀ u ∈ l, minOf l ≤ u := by
  refine List.min?_eq_some_iff.1 ?_
  obtain ⟨a, l, rfl⟩ := List.exists_cons_of_ne_nil h
  simp only [minOf, List.min?_cons', List.headD_cons, List.foldl_cons, min_self]

theorem maxOf_spec {l : List Nat} (h : l ≠ []) : maxOf l ∈ l ∧ ∀ u ∈ l, u ≤ maxOf l := by
  refine List.max?_eq_some_iff.1 ?_
  obtain ⟨a, l, rfl⟩ := List.exists_cons_of_ne_nil h
  simp only [maxOf, List.max?_cons', List.foldl_cons, Nat.zero_max]

/-! ### The counts of a row -/

section
variable (s : State) (t : Nat)

@[simp] theorem State.lengthsOf_length : (s.lengthsOf t).length = s.alphaSize := by simp [State.lengthsOf]

/-- The symbols of one length, ascending. -/
def State.symbolsOf (l : Nat) : List Nat := (List.range s.alphaSize).filter fun j => s.lenAt t j = l

@[simp] theorem State.symbolsOf_length (l : Nat) : (s.symbolsOf t l).length = s.codesOf t l := by
  rw [State.symbolsOf, State.codesOf, State.lengthsOf, List.count_eq_countP, List.countP_map, List.countP_eq_length_filter]
  rfl

theorem State.codesBelow_le (l : Nat) : s.codesBelow t l ≤ s.alphaSize :=
  List.countP_le_length.trans_eq (s.lengthsOf_length t)

theorem State.codesBelow_succ (l : Nat) : s.codesBelow t (l + 1) = s.codesBelow t l + s.codesOf t l := by
  unfold State.codesBelow State.codesOf
  induction s.lengthsOf t with
  | nil => rfl
  | cons u us ih =>
    rw [List.countP_cons, List.countP_cons, List.count_cons, ih]
    rcases Nat.lt_trichotomy u l with hu | hu | hu
    · simp [hu, hu.ne, Nat.lt_succ_of_lt hu, Nat.add_right_comm]
    · simp [hu, Nat.add_assoc]
    · simp [hu.ne', Nat.not_lt_of_gt hu, Nat.not_lt.2 (Nat.succ_le_of_lt hu)]

variable {s t}

/-- No symbol is shorter than a lower bound of the row. -/
theorem State.codesBelow_eq_zero {l : Nat} (h : ∀ u ∈ s.lengthsOf t, l ≤ u) : s.codesBelow t l = 0 :=
  List.countP_eq_zero.2 fun u hu => by simpa using h u hu

/-- Every symbol is shorter than a strict upper bound of the row. -/
theorem State.codesBelow_eq_alphaSize {l : Nat} (h : ∀ u ∈ s.lengthsOf t, u < l) : s.codesBelow t l = s.alphaSize := by
  rw [← s.lengthsOf_length t]
  exact List.countP_eq_length.2 fun u hu => by simpa using h u hu

end

/-- What a row of legal lengths says of its shortest length `lo` and its longest length `hi`. -/
structure State.RowSpan (s : State) (t lo hi : Nat) : Prop where
  one_le   : 1 ≤ lo
  le       : lo ≤ hi
  le_20    : hi ≤ 20
  lo_mem   : lo ∈ s.lengthsOf t
  bounds   : ∀ u ∈ s.lengthsOf t, lo ≤ u ∧ u ≤ hi

theorem State.rowSpan {s : State} {t : Nat} (hrow : s.rowOk t) (ha : 3 ≤ s.alphaSize) :
    s.RowSpan t (minOf (s.lengthsOf t)) (maxOf (s.lengthsOf t)) := by
  have hne : s.lengthsOf t ≠ [] := List.ne_nil_of_length_pos (by rw [State.lengthsOf_length]; omega)
  obtain ⟨hminMem, hmin⟩ := minOf_spec hne
  obtain ⟨hmaxMem, hmax⟩ := maxOf_spec hne
  exact ⟨(hrow _ hminMem).1, hmin _ hmaxMem, (hrow _ hmaxMem).2, hminMem, fun u hu => ⟨hmin u hu, hmax u hu⟩⟩

section
variable {s : State} {t lo hi : Nat}

theorem State.RowSpan.codesBelow_lo (h : s.RowSpan t lo hi) : s.codesBelow t lo = 0 :=
  State.codesBelow_eq_zero fun u hu => (h.bounds u hu).1

theorem State.RowSpan.symbolsOf_outside (h : s.RowSpan t lo hi) {l : Nat} (hl : l < lo ∨ hi < l) :
    s.symbolsOf t l = [] := by
  refine List.filter_eq_nil_iff.2 fun j hj => ?_
  have hb := h.bounds (s.lenAt t j) (List.mem_map_of_mem hj)
  simp only [decide_eq_true_eq]
  omega

/-! ### First codes -/

/-- The first code of a length is at least the number of shorter symbols (R294). -/
theorem State.RowSpan.codesBelow_le_firstCode (h : s.RowSpan t lo hi) (k : Nat) :
    s.codesBelow t (lo + k) ≤ firstCode (s.codesOf t) lo k := by
  induction k with
  | zero => exact h.codesBelow_lo.le
  | succ k ih => rw [← Nat.add_assoc, State.codesBelow_succ, firstCode]; omega

/-- Each of the shorter symbols adds at most `2 ^ k` to the first code of the length `k` steps on (R293). -/
theorem State.firstCode_le (s : State) (t lo k : Nat) :
    firstCode (s.codesOf t) lo k ≤ 2 ^ k * s.codesBelow t (lo + k) := by
  induction k with
  | zero => exact Nat.zero_le _
  | succ k ih =>
    have hcodes : s.codesOf t (lo + k) ≤ 2 ^ k * s.codesOf t (lo + k) := Nat.le_mul_of_pos_left _ (Nat.two_pow_pos k)
    rw [← Nat.add_assoc, State.codesBelow_succ, firstCode, pow_succ', Nat.mul_assoc, Nat.mul_add (2 ^ k)]
    omega

/-- R293: the code after the last one of a length is not 0 and fits LIMIT's 32 bits. -/
theorem State.RowSpan.codeEnd_range (h : s.RowSpan t lo hi) (ha : s.alphaSize ≤ 258) {k : Nat} (hk : lo + k ≤ hi) :
    1 ≤ firstCode (s.codesOf t) lo k + s.codesOf t (lo + k) ∧
      firstCode (s.codesOf t) lo k + s.codesOf t (lo + k) < 2 ^ 29 := by
  have hbelow := State.codesBelow_succ s t (lo + k)
  have hlow := h.codesBelow_le_firstCode k
  have hhigh := s.firstCode_le t lo (k + 1)
  have hpos : 1 ≤ s.codesBelow t (lo + k + 1) := List.countP_pos_iff.2 ⟨lo, h.lo_mem, decide_eq_true (by omega)⟩
  have hpow : 2 ^ (k + 1) * s.codesBelow t (lo + (k + 1)) ≤ 2 ^ 20 * 258 :=
    Nat.mul_le_mul (Nat.pow_le_pow_right (by decide) (by have := h.one_le; have := h.le_20; omega))
      ((s.codesBelow_le t _).trans ha)
  rw [firstCode] at hhigh
  omega

end

/-! ### The histogram and its sums -/

section
variable {s : State} {t : Nat} {base : Store 32}

/-- R291: the histogram stands one position higher than the lengths it counts. -/
theorem look_histogram (h : base.wf = true) {l : Nat} (hl : l ≤ 22) :
    (histogram t s.alphaSize s.tab.len base).look (lengthKey t l)
      = BitVec.ofNat 32 (((s.lengthsOf t).map (· + 1)).count l) := by
  have hkeys : (List.range s.alphaSize).map (fun j => lengthKey t (s.lenAt t j + 1))
      = ((s.lengthsOf t).map (· + 1)).map (lengthKey t) := by
    simp [State.lengthsOf, Function.comp_def]
  have hinj : Function.Injective (lengthKey t) := fun _ _ => (lengthKey_inj t _ _).1
  refine (Store.look_foldl_count (clearRow_wf t h) _ (fun j => lengthKey t (s.lenAt t j + 1)) _).trans ?_
  rw [look_clearRow h t hl, hkeys, List.count_map_of_injective _ _ hinj, zero_add]

theorem look_histogram_other (h : base.wf = true) (hrow : s.rowOk t) {k : Nat}
    (hk : ∀ l, l ≤ 22 → k ≠ lengthKey t l) :
    (histogram t s.alphaSize s.tab.len base).look k = base.look k := by
  have hother : ∀ j ∈ List.range s.alphaSize, k ≠ lengthKey t (s.lenAt t j + 1) := fun j hj =>
    hk _ (by have := (hrow _ (List.mem_map_of_mem hj)).2; simp only [Config.maxCodeLenAccepted] at this; omega)
  exact (Store.look_foldl_put_other (clearRow_wf t h) _ hother).trans (look_clearRow_other h hk)

/-- R292: if the entries are the differences of `c`, their sums are `c`. -/
theorem look_foldl_prefixSum (h : base.wf = true) {c : Nat → Nat}
    (hzero : base.look (lengthKey t 0) = BitVec.ofNat 32 (c 0))
    {n : Nat} (hsucc : ∀ l < n, base.look (lengthKey t (l + 1)) + BitVec.ofNat 32 (c l) = BitVec.ofNat 32 (c (l + 1)))
    (l : Nat) :
    ((List.range' 1 n).foldl
        (fun b i => b.put (lengthKey t i) (b.look (lengthKey t i) + b.look (lengthKey t (i - 1)))) base).look (lengthKey t l)
      = if l ≤ n then BitVec.ofNat 32 (c l) else base.look (lengthKey t l) := by
  induction n generalizing l with
  | zero =>
    by_cases hl : l = 0
    · subst hl; exact hzero
    · simp [hl]
  | succ n ih =>
    have ih := ih fun l hl => hsucc l (by omega)
    rw [List.range'_1_concat, List.foldl_append, List.foldl_cons, List.foldl_nil,
      Store.look_put (Store.foldl_put_wf _ (fun _ i => lengthKey t i) _ h), Nat.add_comm 1 n, Nat.add_sub_cancel, ih, ih, ih,
      if_neg (Nat.not_succ_le_self n), if_pos (le_refl n), hsucc n (Nat.lt_succ_self n)]
    simp only [lengthKey_inj]
    split
    · rename_i hl; rw [hl, if_pos (le_refl _)]
    · simp only [show l ≤ n + 1 ↔ l ≤ n by omega]

theorem look_prefixSum_other (h : base.wf = true) {k : Nat} (hk : ∀ l, l ≤ 22 → k ≠ lengthKey t l) :
    (prefixSum t base).look k = base.look k := by
  have hother : ∀ i ∈ upTo 1 22, k ≠ lengthKey t i := fun i hi =>
    hk i (by rw [upTo, List.mem_range'_1] at hi; omega)
  exact Store.look_foldl_put_other h _ hother

/-- BASE of one group after R292. -/
def State.counted (s : State) (t : Nat) : Store 32 := prefixSum t (histogram t s.alphaSize s.tab.len s.tab.base)

theorem State.counted_wf (h : s.tab.base.wf = true) : (s.counted t).wf = true := prefixSum_wf t (histogram_wf _ _ _ h)

/-- R292: BASE counts the shorter symbols. -/
theorem State.look_counted (h : s.tab.base.wf = true) {l : Nat} (hl : l ≤ 22) :
    (s.counted t).look (lengthKey t l) = BitVec.ofNat 32 (s.codesBelow t l) := by
  have hzero : (histogram t s.alphaSize s.tab.len s.tab.base).look (lengthKey t 0) = BitVec.ofNat 32 (s.codesBelow t 0) := by
    rw [look_histogram h (by decide), State.codesBelow_eq_zero fun u _ => Nat.zero_le u, List.count_eq_zero.2 (by simp)]
  have hsucc : ∀ i < 22, (histogram t s.alphaSize s.tab.len s.tab.base).look (lengthKey t (i + 1))
      + BitVec.ofNat 32 (s.codesBelow t i) = BitVec.ofNat 32 (s.codesBelow t (i + 1)) := fun i hi => by
    rw [look_histogram (l := i + 1) h hi, List.count_map_of_injective _ _ (add_left_injective 1), State.codesBelow_succ,
      Nat.add_comm, BitVec.ofNat_add]
    rfl
  exact (look_foldl_prefixSum (histogram_wf _ _ _ h) hzero hsucc l).trans (if_pos hl)

theorem State.toNat_look_counted (h : s.tab.base.wf = true) (ha : s.alphaSize ≤ 258) {l : Nat} (hl : l ≤ 22) :
    ((s.counted t).look (lengthKey t l)).toNat = s.codesBelow t l := by
  have hle := s.codesBelow_le t l
  rw [State.look_counted h hl, BitVec.toNat_ofNat, Nat.mod_eq_of_lt (by omega)]

theorem State.look_counted_other (h : s.tab.base.wf = true) (hrow : s.rowOk t) {k : Nat}
    (hk : ∀ l, l ≤ 22 → k ≠ lengthKey t l) : (s.counted t).look k = s.tab.base.look k :=
  (look_prefixSum_other (histogram_wf _ _ _ h) hk).trans (look_histogram_other h hrow hk)

end

/-! ### The limits -/

/-- LIMIT's writes along the lengths from `lo` on, `codes l` being the number of codes of length `l`. -/
def limitWrites (t : Nat) (codes : Nat → Nat) (lo n : Nat) : List (Nat × BitVec 32) :=
  (List.range n).map fun k => (lengthKey t lo + k, BitVec.ofNat 32 (firstCode codes lo k + codes (lo + k) - 1))

/-- R293: the running value is the first code of the next length. -/
theorem foldl_limitStep {t lo n : Nat} {base : Store 32} {codes : Nat → Nat}
    (hb : ∀ k < n, (base.look (lengthKey t (lo + k + 1))).toNat - (base.look (lengthKey t (lo + k))).toNat
      = codes (lo + k))
    (m : Store 32) :
    (List.range' lo n).foldl (limitStep t base) (m, 0) = (m.putAll (limitWrites t codes lo n), firstCode codes lo n) := by
  induction n with
  | zero => rfl
  | succ n ih =>
    rw [List.range'_1_concat, List.foldl_append, ih fun k hk => hb k (by omega), limitWrites, limitWrites,
      List.range_succ, List.map_append, Store.putAll_append, List.foldl_cons, List.foldl_nil, limitStep,
      hb n (by omega), lengthKey_add]
    simp only [Nat.shiftLeft_eq, pow_one, Nat.mul_comm _ 2]
    rfl

section
variable {s : State} {t lo hi : Nat} {limit : Store 32}

/-- LIMIT of one group after R293. -/
theorem State.RowSpan.buildLimit_eq (h : s.RowSpan t lo hi) (hb : s.tab.base.wf = true) (ha : s.alphaSize ≤ 258) :
    buildLimit t lo hi (s.counted t) limit
      = (clearRow t limit).putAll (limitWrites t (s.codesOf t) lo (hi + 1 - lo)) := by
  have hcodes : ∀ k < hi + 1 - lo, ((s.counted t).look (lengthKey t (lo + k + 1))).toNat
      - ((s.counted t).look (lengthKey t (lo + k))).toNat = s.codesOf t (lo + k) := fun k hk => by
    have := h.le_20
    rw [State.toNat_look_counted hb ha (by omega), State.toNat_look_counted hb ha (by omega), State.codesBelow_succ]
    omega
  exact congrArg Prod.fst (foldl_limitStep hcodes _)

/-- R293: LIMIT of a length in use is its last code. -/
theorem State.RowSpan.look_buildLimit (h : s.RowSpan t lo hi) (hb : s.tab.base.wf = true) (hl : limit.wf = true)
    (ha : s.alphaSize ≤ 258) {k : Nat} (hk : lo + k ≤ hi) :
    ((buildLimit t lo hi (s.counted t) limit).look (lengthKey t (lo + k))).toNat + 1
      = firstCode (s.codesOf t) lo k + s.codesOf t (lo + k) := by
  obtain ⟨hpos, hlt⟩ := h.codeEnd_range ha hk
  rw [h.buildLimit_eq hb ha, limitWrites, Store.look_putAll_range (clearRow_wf t hl), if_pos (by rw [lengthKey_add]; omega),
    lengthKey_add, Nat.add_sub_cancel_left, BitVec.toNat_ofNat, Nat.mod_eq_of_lt (by omega)]
  omega

theorem State.RowSpan.look_buildLimit_other (h : s.RowSpan t lo hi) (hb : s.tab.base.wf = true) (hl : limit.wf = true)
    (ha : s.alphaSize ≤ 258) {i : Nat} (hout : ∀ l, lo ≤ l → l ≤ hi → i ≠ lengthKey t l) :
    (buildLimit t lo hi (s.counted t) limit).look i = (clearRow t limit).look i := by
  rw [h.buildLimit_eq hb ha]
  refine Store.look_putAll_other (clearRow_wf t hl) fun p hp => ?_
  obtain ⟨k, hk, rfl⟩ := List.mem_map.1 hp
  rw [List.mem_range] at hk
  exact fun hki => hout (lo + k) (by omega) (by omega) (hki.symm.trans (lengthKey_add ..).symm)

end

/-! ### The base adjustment -/

section
variable {t lo hi : Nat} {limit base : Store 32}

/-- R294 at a length it adjusts. -/
theorem look_adjustBase (h : base.wf = true) {l : Nat} (hlo : lo < l) (hhi : l ≤ hi) :
    (adjustBase t lo hi limit base).look (lengthKey t l)
      = BitVec.ofNat 32 (2 * ((limit.look (lengthKey t (l - 1))).toNat + 1) - (base.look (lengthKey t l)).toNat) := by
  have hkeys : ((upTo (lo + 1) hi).map (lengthKey t)).Nodup :=
    List.Nodup.map (fun _ _ => (lengthKey_inj t _ _).1) List.nodup_range'
  have hmem : l ∈ upTo (lo + 1) hi := by rw [upTo, List.mem_range'_1]; omega
  refine (Store.look_foldl_put_own h hkeys
    (fun b i => BitVec.ofNat 32 ((((limit.look (lengthKey t (i - 1))).toNat + 1) <<< 1) - b.toNat)) hmem).trans ?_
  simp only [Nat.shiftLeft_eq, pow_one, Nat.mul_comm _ 2]

theorem look_adjustBase_other (h : base.wf = true) {i : Nat} (hout : ∀ l, lo < l → l ≤ hi → i ≠ lengthKey t l) :
    (adjustBase t lo hi limit base).look i = base.look i := by
  have hother : ∀ l ∈ upTo (lo + 1) hi, i ≠ lengthKey t l := fun l hl => by
    rw [upTo, List.mem_range'_1] at hl
    exact hout l (by omega) (by omega)
  exact Store.look_foldl_put_other h _ hother

end

section
variable {s : State} {t lo hi : Nat} {limit : Store 32}

/-- R294: BASE of a length in use is its first code less the number of shorter symbols. -/
theorem State.RowSpan.look_adjustBase (h : s.RowSpan t lo hi) (hb : s.tab.base.wf = true) (hl : limit.wf = true)
    (ha : s.alphaSize ≤ 258) {k : Nat} (hk : lo + k ≤ hi) :
    ((adjustBase t lo hi (buildLimit t lo hi (s.counted t) limit) (s.counted t)).look (lengthKey t (lo + k))).toNat
      + s.codesBelow t (lo + k) = firstCode (s.codesOf t) lo k := by
  have hle := h.le_20
  cases k with
  | zero =>
    rw [look_adjustBase_other (State.counted_wf hb) fun l _ _ => mt (lengthKey_inj t _ _).1 (by omega),
      State.toNat_look_counted hb ha (by omega), Nat.add_zero, h.codesBelow_lo]
    rfl
  | succ k =>
    have hlow := h.codesBelow_le_firstCode (k + 1)
    obtain ⟨-, hlt⟩ := h.codeEnd_range ha hk
    have hprev : lo + (k + 1) - 1 = lo + k := by omega
    rw [Machine.look_adjustBase (State.counted_wf hb) (by omega) hk, hprev, h.look_buildLimit hb hl ha (by omega),
      State.toNat_look_counted hb ha (by omega), ← firstCode, Nat.succ_eq_add_one, BitVec.toNat_ofNat,
      Nat.mod_eq_of_lt (by omega)]
    omega

end

/-! ### The permutation -/

/-- Symbol `j` takes the next place of PERM[t]. -/
def permPut (t : Nat) (acc : Store 9 × Nat) (j : Nat) : Store 9 × Nat :=
  (acc.1.put (symbolKey t acc.2) (BitVec.ofNat 9 j), acc.2 + 1)

/-- The symbols of a row by ascending length, symbols of one length in ascending order. -/
def State.codeOrder (s : State) (t lo hi : Nat) : List Nat := (upTo lo hi).flatMap (s.symbolsOf t)

/-- R290 as one loop over the symbols in code order. -/
theorem State.buildPerm_eq (s : State) (t lo hi : Nat) (perm : Store 9) :
    buildPerm t s.alphaSize lo hi s.tab.len perm = ((s.codeOrder t lo hi).foldl (permPut t) (perm, 0)).1 := by
  simp only [buildPerm, State.codeOrder, State.symbolsOf, List.foldl_flatMap, List.foldl_filter, decide_eq_true_eq]
  rfl

section
variable {t : Nat} {m : Store 9}

theorem look_foldl_permPut_other (h : m.wf = true) {l : List Nat} {n i : Nat}
    (hi : ∀ k < l.length, i ≠ symbolKey t (n + k)) :
    (l.foldl (permPut t) (m, n)).1.look i = m.look i := by
  induction l generalizing m n with
  | nil => rfl
  | cons j l ih =>
    refine (ih (Store.put_wf h _ _) fun k hk => ?_).trans (Store.look_put_other h (hi 0 (Nat.succ_pos _)) _)
    exact Nat.add_right_comm n 1 k ▸ hi (k + 1) (Nat.succ_lt_succ hk)

theorem look_foldl_permPut (h : m.wf = true) {l : List Nat} (n : Nat) {k : Nat} (hk : k < l.length) :
    (l.foldl (permPut t) (m, n)).1.look (symbolKey t (n + k)) = BitVec.ofNat 9 l[k] := by
  induction l generalizing m n k with
  | nil => cases hk
  | cons j l ih =>
    cases k with
    | zero =>
      have hother : ∀ k < l.length, symbolKey t n ≠ symbolKey t (n + 1 + k) := fun k _ => by
        rw [ne_eq, symbolKey_inj]; omega
      exact (look_foldl_permPut_other (Store.put_wf h _ _) hother).trans (Store.look_put_same h _ _)
    | succ k =>
      have htail := ih (m := m.put (symbolKey t n) (BitVec.ofNat 9 j)) (Store.put_wf h _ _) (n + 1) (Nat.lt_of_succ_lt_succ hk)
      rwa [Nat.add_right_comm] at htail

end

section
variable {s : State} {t lo hi : Nat}

theorem State.codeOrder_lt {j : Nat} (hj : j ∈ s.codeOrder t lo hi) : j < s.alphaSize := by
  obtain ⟨l, -, hj⟩ := List.mem_flatMap.1 hj
  exact List.mem_range.1 (List.mem_of_mem_filter hj)

/-- The symbols of the lengths from `lo` on are those below the next length but not below `lo`. -/
theorem State.flatMap_symbolsOf_length (s : State) (t lo n : Nat) :
    ((List.range' lo n).flatMap (s.symbolsOf t)).length + s.codesBelow t lo = s.codesBelow t (lo + n) := by
  induction n with
  | zero => simp
  | succ n ih =>
    rw [List.range'_1_concat, List.flatMap_append, List.length_append, List.flatMap_singleton, State.symbolsOf_length,
      ← Nat.add_assoc lo, State.codesBelow_succ]
    omega

/-- R290: after the loops `pp` is ALPHA_SIZE. -/
theorem State.RowSpan.codeOrder_length (h : s.RowSpan t lo hi) : (s.codeOrder t lo hi).length = s.alphaSize := by
  have hlen := s.flatMap_symbolsOf_length t lo (hi + 1 - lo)
  have hall : s.codesBelow t (lo + (hi + 1 - lo)) = s.alphaSize := by
    refine State.codesBelow_eq_alphaSize fun u hu => ?_
    have := h.bounds u hu
    omega
  rwa [h.codesBelow_lo, hall] at hlen

/-- The lengths not in use add no symbol. -/
theorem State.RowSpan.codeOrder_all (h : s.RowSpan t lo hi) : s.codeOrder t 1 20 = s.codeOrder t lo hi := by
  have h1 := h.one_le; have h2 := h.le; have h3 := h.le_20
  have hlo : lo - 1 + 1 = lo := by omega
  have hsplit : upTo 1 20 = upTo 1 (lo - 1) ++ (upTo lo hi ++ upTo (hi + 1) 20) := by
    rw [upTo_append (by omega) h3, ← upTo_append (b := lo - 1) (by omega) (by omega), hlo]
  have hbelow : (upTo 1 (lo - 1)).flatMap (s.symbolsOf t) = [] :=
    List.flatMap_eq_nil_iff.2 fun l hl => h.symbolsOf_outside (by rw [upTo, List.mem_range'_1] at hl; omega)
  have habove : (upTo (hi + 1) 20).flatMap (s.symbolsOf t) = [] :=
    List.flatMap_eq_nil_iff.2 fun l hl => h.symbolsOf_outside (by rw [upTo, List.mem_range'_1] at hl; omega)
  rw [State.codeOrder, hsplit, List.flatMap_append, List.flatMap_append, hbelow, habove, List.append_nil]
  rfl

/-- R290: the row of PERM after the loops. -/
theorem State.RowSpan.map_buildPerm (h : s.RowSpan t lo hi) (ha : s.alphaSize ≤ 258) {perm : Store 9}
    (hp : perm.wf = true) :
    (List.range s.alphaSize).map
        (fun k => ((buildPerm t s.alphaSize lo hi s.tab.len perm).look (symbolKey t k)).toNat)
      = s.codeOrder t lo hi := by
  refine List.ext_getElem (by simp [h.codeOrder_length]) fun k _ hk => ?_
  have hlook := look_foldl_permPut (t := t) hp 0 hk
  have hsym := State.codeOrder_lt (List.getElem_mem hk)
  rw [Nat.zero_add] at hlook
  rw [List.getElem_map, List.getElem_range, State.buildPerm_eq, hlook, BitVec.toNat_ofNat, Nat.mod_eq_of_lt (by omega)]

theorem State.RowSpan.look_buildPerm_other (h : s.RowSpan t lo hi) {perm : Store 9} (hp : perm.wf = true) {i : Nat}
    (hout : ∀ j, j < s.alphaSize → i ≠ symbolKey t j) :
    (buildPerm t s.alphaSize lo hi s.tab.len perm).look i = perm.look i := by
  rw [State.buildPerm_eq]
  exact look_foldl_permPut_other hp fun k hk => by
    rw [Nat.zero_add]; exact hout k (h.codeOrder_length ▸ hk)

end

/-! ### The obligations -/

/-- Settles O30: both loops of R290 are one loop over the symbols in code order, each taking the next place. -/
theorem permutationOrder : Obligations.PermutationOrder := by
  intro s t hwf _ ha3 ha hrow
  obtain ⟨-, -, -, -, -, -, -, hmin, hmax, -, -, hperm, -⟩ := (Memory.wf_iff s).1 hwf
  have hspan := State.rowSpan hrow ha3
  refine ⟨?_, fun k hk => hspan.look_buildPerm_other hperm hk, _, rfl, rfl, ?_, ?_, fun u hu => ⟨?_, ?_⟩⟩
  · exact (hspan.map_buildPerm ha hperm).trans hspan.codeOrder_all.symm
  · have := hspan.le; have := hspan.le_20
    rw [Store.look_put_same hmin, BitVec.toNat_ofNat, Nat.mod_eq_of_lt (by omega)]
  · have := hspan.le_20
    rw [Store.look_put_same hmax, BitVec.toNat_ofNat, Nat.mod_eq_of_lt (by omega)]
  · exact Store.look_put_other hmin hu _
  · exact Store.look_put_other hmax hu _

/-- Settles O31: the histogram counts one position higher, so its sums count the shorter symbols. -/
theorem cumulativeCounts : Obligations.CumulativeCounts := by
  intro s t hwf _ ha hrow
  obtain ⟨-, -, -, -, -, -, -, -, -, -, hbase, -⟩ := (Memory.wf_iff s).1 hwf
  exact ⟨fun l hl => State.toNat_look_counted hbase ha hl, fun k hk => State.look_counted_other hbase hrow hk⟩

/-- Settles O32: LIMIT by the recursion of the first codes (R293), BASE from LIMIT of the length before (R294). -/
theorem limitsAndBases : Obligations.LimitsAndBases := by
  intro s t hwf _ ha3 ha hrow
  obtain ⟨-, -, -, -, -, -, -, -, -, hlimit, hbase, -⟩ := (Memory.wf_iff s).1 hwf
  have hspan := State.rowSpan hrow ha3
  have hle := hspan.le_20
  refine ⟨fun k hk => ⟨hspan.look_buildLimit hbase hlimit ha hk, hspan.look_adjustBase hbase hlimit ha hk⟩,
    fun l hl hout => ⟨?_, ?_⟩, fun k hk => ⟨?_, ?_⟩⟩
  · exact congrArg BitVec.toNat ((hspan.look_buildLimit_other hbase hlimit ha fun l' _ _ =>
      mt (lengthKey_inj t _ _).1 (by omega)).trans (look_clearRow hlimit t hl))
  · exact (congrArg BitVec.toNat (look_adjustBase_other (State.counted_wf hbase) fun l' _ _ =>
      mt (lengthKey_inj t _ _).1 (by omega))).trans (State.toNat_look_counted hbase ha hl)
  · exact (hspan.look_buildLimit_other hbase hlimit ha fun l _ h2 => hk l (by omega)).trans (look_clearRow_other hlimit hk)
  · exact (look_adjustBase_other (State.counted_wf hbase) fun l _ h2 => hk l (by omega)).trans
      (State.look_counted_other hbase hrow hk)

end Sys2Proof.Machine
end

section
/-! SUPPORT. Lemmas and proofs for family 44_symbol_decoder (44_symbol_decoder.md). Each element of the symbol part is one
named next state (a digit of a run, a run ended, a literal done) and a check before or after it. The end of a block is a
stable counting sort: TT is filled bucket by bucket, one bucket per byte value. The MTF list stays a permutation because the
fetch and every instruction keep it one; only the start of the symbol part and a literal write it. -/

namespace Sys2Proof

/-! ### Stores -/

/-- Writing `f 0, …, f (n-1)` at the first `n` indices. -/
theorem Store.look_putAll_first {w : Nat} {m : Store w} (h : m.wf = true) (n : Nat) (f : Nat → BitVec w) (j : Nat) :
    (m.putAll ((List.range n).map fun k => (k, f k))).look j = if j < n then f j else m.look j := by
  simpa using Store.look_putAll_range h 0 n f j

/-- Reading after an entry was changed by `f`. -/
theorem Store.look_put_own {w : Nat} {m : Store w} (h : m.wf = true) (i j : Nat) (f : BitVec w → BitVec w) :
    (m.put i (f (m.look i))).look j = if j = i then f (m.look j) else m.look j := by
  rw [Store.look_put h]
  split
  · rename_i hji; rw [hji]
  · rfl

/-! ### What the decoder makes of a symbol (43_huffman.md R297) -/

section
variable {P : Instr → Prop} {T : CodeTable} {eob : Nat}

theorem finishSymbol_gives (h : ∀ k < T.alpha, P (classifySymbol eob (T.permAt k))) (n v : Nat) (r : BitReader) :
    (finishSymbol T eob n v r).Gives P := by
  unfold finishSymbol
  split
  · rename_i hv; exact h _ hv.2
  · trivial

theorem decodeSymbolFrom_gives (h : ∀ k < T.alpha, P (classifySymbol eob (T.permAt k))) (fuel n v : Nat)
    (r : BitReader) : (decodeSymbolFrom T eob fuel n v r).Gives P := by
  induction fuel generalizing n v r with
  | zero =>
    unfold decodeSymbolFrom
    split
    · trivial
    · exact finishSymbol_gives h n v r
  | succ fuel ih =>
    unfold decodeSymbolFrom
    split
    · exact Rd.decoded_gives _ fun b r => ih _ _ r
    · exact finishSymbol_gives h n v r

/-- A symbol read is the element of some symbol the table lists. -/
theorem decodeSymbol_gives (h : ∀ k < T.alpha, P (classifySymbol eob (T.permAt k))) (r : BitReader) :
    (decodeSymbol T eob r).Gives P := by
  unfold decodeSymbol
  split
  · exact Rd.decoded_gives _ fun v r => decodeSymbolFrom_gives h _ _ _ r
  · trivial

end

/-- A literal is a symbol value that is not EOB (30_encoding.md R125). -/
theorem classifySymbol_eq_symMtfv {eob v : Nat} {u : BitVec 9} (hv : v < 512) (h : classifySymbol eob v = .symMtfv u) :
    u.toNat = v ∧ v ≠ eob := by
  unfold classifySymbol at h
  split_ifs at h with heob
  injection h with h
  subst h
  exact ⟨Nat.mod_eq_of_lt hv, heob⟩

end Sys2Proof

namespace Sys2Proof.Machine

/-! ### The start of the symbol part (44_symbol_decoder.md R320) -/

theorem look_initSymbols_mtf {s : State} (h : s.sym.mtf.wf = true) (i : Nat) :
    s.initSymbols.sym.mtf.look i = if i < 256 then BitVec.ofNat 8 i else s.sym.mtf.look i := by
  simp only [State.initSymbols]
  exact Store.look_putAll_first h 256 (BitVec.ofNat 8) i

theorem look_initSymbols_freq {s : State} (h : s.sym.freq.wf = true) (c : Nat) :
    s.initSymbols.sym.freq.look c = if c < 256 then 0 else s.sym.freq.look c := by
  simp only [State.initSymbols]
  exact Store.look_putAll_first h 256 (fun _ => 0) c

/-! ### Run digits (R323, R325) -/

/-- The value of the run so far; 0 where none is open. -/
def State.runSoFar (s : State) : Nat := if s.work.inRun then s.sym.runLen.toNat else 0

/-- The weight of the next digit; 1 where no run is open. -/
def State.digitWeight (s : State) : Nat := if s.work.inRun then s.sym.runWeight.toNat else 1

/-- RUN_LEN and RUN_WEIGHT take these values, inside a run. -/
def State.withRun (len weight : Nat) (s : State) : State :=
  { s with
    sym := { s.sym with runLen := BitVec.ofNat 21 len, runWeight := BitVec.ofNat 21 weight }
    work := { s.work with inRun := true } }

/-- A run digit writes the run's two registers, and is then checked. -/
theorem State.runDigit_withRun (s : State) (d : Nat) :
    s.runDigit d =
      let t := s.withRun (s.runSoFar + s.digitWeight * (d + 1)) (s.digitWeight <<< 1)
      if t.runOverrun then t.raise .blockOverrunRun else t.goto .symbols := rfl

/-- A digit whose value fits RUN_LEN is checked by that value. -/
theorem State.runDigit_eq {s : State} {d : Nat} (h : s.runSoFar + s.digitWeight * (d + 1) < 2 ^ 21) :
    s.runDigit d =
      let t := s.withRun (s.runSoFar + s.digitWeight * (d + 1)) (2 * s.digitWeight)
      if s.capacity < s.sym.nblock.toNat + (s.runSoFar + s.digitWeight * (d + 1)) then t.raise .blockOverrunRun
      else t.goto .symbols := by
  have hlen : (BitVec.ofNat 21 (s.runSoFar + s.digitWeight * (d + 1))).toNat = s.runSoFar + s.digitWeight * (d + 1) :=
    Nat.mod_eq_of_lt h
  simp only [State.runDigit_withRun, State.runOverrun, State.withRun, hlen, decide_eq_true_eq, Nat.shiftLeft_eq, pow_one,
    Nat.mul_comm _ 2]
  rfl

/-- Inside a block of at most 900000 bytes a run and its next weight stay below `2 ^ 20` (R325). -/
theorem State.runSoFar_bounds {s : State} (hn : s.sym.nblock.toNat ≤ s.capacity) (hcap : s.capacity ≤ 900000)
    (hrun : s.work.inRun = true → s.RunOk) : s.runSoFar ≤ 900000 ∧ s.digitWeight ≤ 2 ^ 19 := by
  unfold State.runSoFar State.digitWeight
  split
  · rename_i hin
    obtain ⟨hfit, k, hk, hle⟩ := hrun hin
    have hk20 : k < 20 := (Nat.pow_lt_pow_iff_right (by decide)).1 (by omega : 2 ^ k < 2 ^ 20)
    exact ⟨by omega, hk ▸ Nat.pow_le_pow_right (by decide) (by omega)⟩
  · decide

/-! ### The end of a run (R323, R324) -/

/-- Outside a run there is nothing to end. -/
theorem State.endRun_of_not_inRun {s : State} (h : s.work.inRun = false) : s.endRun = .ok s := by
  simp [State.endRun, h]

/-- The state a run leaves: its copies in LL8, counted in FREQ and NBLOCK (R324). -/
def State.runEnded (s : State) : State :=
  { s with
    sym := { s.sym with
      freq := s.sym.freq.put s.runByte.toNat (s.sym.freq.look s.runByte.toNat + BitVec.ofNat 20 s.sym.runLen.toNat)
      nblock := BitVec.ofNat 20 (s.sym.nblock.toNat + s.sym.runLen.toNat) }
    bwt := { s.bwt with
      ll8 := s.bwt.ll8.putAll ((List.range s.sym.runLen.toNat).map fun k => (s.sym.nblock.toNat + k, s.runByte)) }
    work := { s.work with inRun := false } }

/-- A run ends if its copies fit the buffer. -/
theorem State.endRun_ok_iff {s t : State} (h : s.work.inRun = true) :
    s.endRun = .ok t ↔ s.sym.nblock.toNat + s.sym.runLen.toNat ≤ Config.bufCapacity ∧ s.runEnded = t := by
  by_cases hfit : s.sym.nblock.toNat + s.sym.runLen.toNat ≤ Config.bufCapacity
  · have hend : s.endRun = .ok s.runEnded := by
      simp only [State.endRun, State.emitRun, h, if_true, hfit]
      rfl
    simp [hend, hfit]
  · have hend : s.endRun = .error (.indexOutOfRange .ll8) := by
      simp only [State.endRun, State.emitRun, h, if_true, hfit, if_false]
      rfl
    simp [hend, hfit]

/-- What a literal and EOB do depends on the state the run before them leaves. -/
theorem exec_congr_endRun {s t : State} (h : s.endRun = t.endRun) :
    (∀ v, exec (.symMtfv v) s = exec (.symMtfv v) t) ∧ exec .symEob s = exec .symEob t := by
  simp only [exec, execSymMtfv, execSymEob, h, implies_true, and_self]

/-! ### Literals (R326, R327) -/

/-- The byte a literal stands for. -/
def State.literalByte (v : Nat) (s : State) : Byte := s.map.seqToUnseq.look (s.sym.mtf.look (v - 1)).toNat

/-- The state a literal leaves. -/
def State.literalDone (v : Nat) (s : State) : State :=
  { s with
    sym := { s.sym with
      mtf := moveToFront s.sym.mtf (v - 1)
      freq := s.sym.freq.put (s.literalByte v).toNat (s.sym.freq.look (s.literalByte v).toNat + 1)
      nblock := s.sym.nblock + 1 }
    bwt := { s.bwt with ll8 := s.bwt.ll8.put s.sym.nblock.toNat (s.literalByte v) } }

/-- A literal is done if its entry exists and the buffer has room. -/
theorem State.literal_ok_iff {s t : State} {v : Nat} :
    s.literal v = .ok t ↔ (1 ≤ v ∧ v ≤ 256) ∧ s.sym.nblock.toNat < Config.bufCapacity ∧ s.literalDone v = t := by
  have hnext : BitVec.ofNat 20 (s.sym.nblock.toNat + 1) = s.sym.nblock + 1 := by bv_omega
  unfold State.literal
  dsimp only
  rw [hnext]
  split_ifs with hv hroom
  · simp only [hv, hroom, true_and]
    exact Iff.of_eq (Except.ok.injEq _ _)
  · simp [hroom]
  · simp [hv]

/-- A literal outside a run is checked before it writes anything (R327). -/
theorem exec_symMtfv_of_full {s : State} {v : BitVec 9} (hin : s.work.inRun = false)
    (hfull : s.capacity ≤ s.sym.nblock.toNat) : exec (.symMtfv v) s = .next (s.raise .blockOverrunLiteral) := by
  have hover : s.literalOverrun = true := decide_eq_true hfull
  simp only [exec, execSymMtfv, State.endRun_of_not_inRun hin, bind, Except.bind, hover, if_true, pure, Except.pure,
    ofExcept_ok]

theorem exec_symMtfv_of_room {s t : State} {v : BitVec 9} (hin : s.work.inRun = false)
    (hroom : s.sym.nblock.toNat < s.capacity) (hlit : s.literal v.toNat = .ok t) :
    exec (.symMtfv v) s = .next (t.goto .symbols) := by
  have hover : s.literalOverrun = false := decide_eq_false (by omega)
  simp only [exec, execSymMtfv, State.endRun_of_not_inRun hin, bind, Except.bind, hover, hlit, Bool.false_eq_true, if_false,
    pure, Except.pure, ofExcept_ok]

/-! ### The cumulative table (45_inverse_bwt.md R360) -/

/-- How many bytes below `c` FREQ counts. -/
def bytesBelow (freq : Store 20) (c : Nat) : Nat := ((List.range c).map fun b => (freq.look b).toNat).sum

theorem bytesBelow_eq_sum (freq : Store 20) (c : Nat) :
    bytesBelow freq c = ∑ b ∈ Finset.range c, (freq.look b).toNat := rfl

theorem bytesBelow_succ (freq : Store 20) (c : Nat) :
    bytesBelow freq (c + 1) = bytesBelow freq c + (freq.look c).toNat := by
  simp only [bytesBelow_eq_sum, Finset.sum_range_succ]

theorem bytesBelow_mono (freq : Store 20) {a b : Nat} (h : a ≤ b) : bytesBelow freq a ≤ bytesBelow freq b :=
  Finset.sum_le_sum_of_subset (Finset.range_subset_range.2 h)

/-- The first `n` iterations of R360's loop set the entries up to `n`. -/
theorem look_foldl_cumulate (freq : Store 20) {cftab : Store 20} (h : cftab.wf = true) (n c : Nat) :
    ((List.range n).foldl (fun m c => m.put (c + 1) (m.look c + freq.look c)) (cftab.put 0 0)).look c
      = if c ≤ n then BitVec.ofNat 20 (bytesBelow freq c) else cftab.look c := by
  induction n generalizing c with
  | zero =>
    rw [List.range_zero, List.foldl_nil, Store.look_put h]
    by_cases hc : c = 0
    · subst hc; rfl
    · rw [if_neg hc, if_neg (by omega)]
  | succ n ih =>
    have hwf := Store.foldl_put_wf (List.range n) (fun _ c => c + 1) (fun m c => m.look c + freq.look c)
      (Store.put_wf h 0 0)
    rw [List.range_succ, List.foldl_append, List.foldl_cons, List.foldl_nil, Store.look_put hwf, ih, ih, if_pos (le_refl n)]
    by_cases hc : c = n + 1
    · subst hc
      rw [if_pos rfl, if_pos (le_refl _), bytesBelow_succ, BitVec.ofNat_add, BitVec.ofNat_toNat, BitVec.setWidth_eq]
    · rw [if_neg hc]
      simp only [show c ≤ n + 1 ↔ c ≤ n by omega]

/-- R360: the entries up to 256 sum the counts below them. -/
theorem look_cumulate (freq : Store 20) {cftab : Store 20} (h : cftab.wf = true) (c : Nat) :
    (cumulate freq cftab).look c = if c ≤ 256 then BitVec.ofNat 20 (bytesBelow freq c) else cftab.look c :=
  look_foldl_cumulate freq h 256 c

/-! ### The buckets of the sort -/

/-- The positions below `k` that hold byte `c`, ascending. -/
def positionsOf (byteAt : Nat → Byte) (c k : Nat) : List Nat := (List.range k).filter fun i => (byteAt i).toNat = c

section
variable (byteAt : Nat → Byte)

theorem positionsOf_length (c k : Nat) :
    (positionsOf byteAt c k).length = ((List.range k).map fun i => (byteAt i).toNat).count c := by
  rw [List.count_eq_countP, List.countP_map, List.countP_eq_length_filter]
  rfl

theorem positionsOf_succ (c k : Nat) :
    positionsOf byteAt c (k + 1) = positionsOf byteAt c k ++ if (byteAt k).toNat = c then [k] else [] := by
  unfold positionsOf
  rw [List.range_succ, List.filter_append]
  by_cases hc : (byteAt k).toNat = c <;> simp [hc]

theorem positionsOf_length_mono (c : Nat) {j k : Nat} (h : j ≤ k) :
    (positionsOf byteAt c j).length ≤ (positionsOf byteAt c k).length := by
  induction k, h using Nat.le_induction with
  | base => exact Nat.le_refl _
  | succ k _ ih => rw [positionsOf_succ, List.length_append]; omega

end

/-- FREQ holds the sizes of the buckets of a block of `n` bytes. -/
def BucketSizes (freq : Store 20) (byteAt : Nat → Byte) (n : Nat) : Prop :=
  ∀ c < 256, (freq.look c).toNat = (positionsOf byteAt c n).length

theorem State.FreqOk.bucketSizes {s : State} (h : s.FreqOk) : BucketSizes s.sym.freq s.bwt.ll8.look s.sym.nblock.toNat := by
  intro c hc
  have hc8 : (BitVec.ofNat 8 c).toNat = c := Nat.mod_eq_of_lt hc
  have hfreq := h (BitVec.ofNat 8 c)
  rw [State.blockBytes, ← List.count_map_of_injective _ BitVec.toNat fun _ _ => BitVec.eq_of_toNat_eq, List.map_map,
    hc8] at hfreq
  rw [hfreq, positionsOf_length]
  rfl

section
variable {freq : Store 20} {byteAt : Nat → Byte} {n : Nat}

/-- Numbers below `m` are counted once each. -/
theorem sum_count_of_lt {l : List Nat} {m : Nat} (h : ∀ u ∈ l, u < m) : ∑ c ∈ Finset.range m, l.count c = l.length := by
  simpa only [Multiset.coe_count, Multiset.coe_card] using
    Multiset.sum_count_eq_card (m := (l : Multiset Nat)) fun u hu => Finset.mem_range.2 (h u hu)

/-- Together the buckets hold every position once. -/
theorem bytesBelow_256 (h : BucketSizes freq byteAt n) : bytesBelow freq 256 = n := by
  have hbyte : ∀ u ∈ (List.range n).map fun i => (byteAt i).toNat, u < 256 := fun u hu => by
    obtain ⟨i, -, rfl⟩ := List.mem_map.1 hu
    exact (byteAt i).isLt
  calc bytesBelow freq 256
      = ∑ c ∈ Finset.range 256, ((List.range n).map fun i => (byteAt i).toNat).count c :=
        (bytesBelow_eq_sum freq 256).trans (Finset.sum_congr rfl fun c hc =>
          (h c (Finset.mem_range.1 hc)).trans (positionsOf_length byteAt c n))
    _ = ((List.range n).map fun i => (byteAt i).toNat).length := sum_count_of_lt hbyte
    _ = n := by rw [List.length_map, List.length_range]

theorem bytesBelow_le (h : BucketSizes freq byteAt n) {c : Nat} (hc : c ≤ 256) : bytesBelow freq c ≤ n :=
  (bytesBelow_mono freq hc).trans_eq (bytesBelow_256 h)

/-- Buckets do not overlap. -/
theorem bucket_disjoint (freq : Store 20) {b c i j : Nat} (hbc : b ≠ c) (hi : i < (freq.look b).toNat)
    (hj : j < (freq.look c).toNat) : bytesBelow freq b + i ≠ bytesBelow freq c + j := by
  have hb := bytesBelow_succ freq b
  have hc := bytesBelow_succ freq c
  rcases Nat.lt_or_gt_of_ne hbc with hlt | hgt
  · have := bytesBelow_mono freq (a := b + 1) hlt
    omega
  · have := bytesBelow_mono freq (a := c + 1) hgt
    omega

/-- Position `k` has a place in its bucket. -/
theorem positionsOf_own_lt (h : BucketSizes freq byteAt n) {k : Nat} (hk : k < n) :
    (positionsOf byteAt (byteAt k).toNat k).length < (freq.look (byteAt k).toNat).toNat := by
  have hmono := positionsOf_length_mono byteAt (byteAt k).toNat (Nat.succ_le_of_lt hk)
  rw [positionsOf_succ, if_pos rfl, List.length_append, List.length_singleton] at hmono
  rw [h _ (byteAt k).isLt]
  exact hmono

/-- Position `k` is sorted inside the block. -/
theorem slot_lt (h : BucketSizes freq byteAt n) {k : Nat} (hk : k < n) :
    bytesBelow freq (byteAt k).toNat + (positionsOf byteAt (byteAt k).toNat k).length < n := by
  have hown := positionsOf_own_lt h hk
  have hle := bytesBelow_le h (Nat.succ_le_of_lt (byteAt k).isLt)
  rw [bytesBelow_succ] at hle
  omega

end

/-! ### The sort (R361) -/

/-- After `k` positions of a block of `n` bytes: each bucket of TT begins with its positions below `k`, CFTAB stands at the
next place of each bucket, and nothing else changed. -/
structure SortedUpTo (freq : Store 20) (byteAt : Nat → Byte) (n : Nat) (tt0 cf0 : Store 20) (k : Nat) (tt cf : Store 20) :
    Prop where
  ttWf : tt.wf = true
  cfWf : cf.wf = true
  next : ∀ c < 256, (cf.look c).toNat = bytesBelow freq c + (positionsOf byteAt c k).length
  cfOutside : ∀ c, 256 ≤ c → cf.look c = cf0.look c
  bucket : ∀ c < 256, (List.range (positionsOf byteAt c k).length).map (fun j => (tt.look (bytesBelow freq c + j)).toNat)
    = positionsOf byteAt c k
  ttOutside : ∀ p, n ≤ p → tt.look p = tt0.look p

section
variable {freq tt0 cf0 tt cf : Store 20} {ll8 : Store 8} {n k : Nat}

theorem fillStep_ok (hk : k < n) (hslot : (cf.look (ll8.look k).toNat).toNat < n) :
    fillStep n ll8 (tt, cf) k = .ok (tt.put (cf.look (ll8.look k).toNat).toNat (BitVec.ofNat 20 k),
      cf.put (ll8.look k).toNat (cf.look (ll8.look k).toNat + 1)) := by
  simp only [fillStep, loadAt_of_lt hk, storeAt_of_lt hslot, bind, Except.bind, pure, Except.pure]

/-- The next place moves on in the bucket of the position sorted in, and in no other. -/
theorem SortedUpTo.next_put (h : SortedUpTo freq ll8.look n tt0 cf0 k tt cf) (hb : BucketSizes freq ll8.look n)
    (hk : k < n) (hn : n < 2 ^ 20) {c : Nat} (hc : c < 256) :
    ((cf.put (ll8.look k).toNat (cf.look (ll8.look k).toNat + 1)).look c).toNat
      = bytesBelow freq c + (positionsOf ll8.look c (k + 1)).length := by
  have hslot := slot_lt hb hk
  rw [Store.look_put h.cfWf, positionsOf_succ, List.length_append]
  by_cases hcc : c = (ll8.look k).toNat
  · subst hcc
    have hone : (1 : BitVec 20).toNat = 1 := rfl
    rw [if_pos rfl, if_pos rfl, BitVec.toNat_add, h.next _ hc, hone, List.length_singleton]
    exact (Nat.mod_eq_of_lt (by omega)).trans (Nat.add_assoc ..)
  · rw [if_neg hcc, if_neg (Ne.symm hcc), h.next c hc]
    rfl

/-- The position sorted in comes to the end of its bucket, and no other bucket changes. -/
theorem SortedUpTo.bucket_put (h : SortedUpTo freq ll8.look n tt0 cf0 k tt cf) (hb : BucketSizes freq ll8.look n)
    (hk : k < n) (hn : n < 2 ^ 20) {c : Nat} (hc : c < 256) :
    (List.range (positionsOf ll8.look c (k + 1)).length).map (fun j =>
        ((tt.put (bytesBelow freq (ll8.look k).toNat + (positionsOf ll8.look (ll8.look k).toNat k).length)
          (BitVec.ofNat 20 k)).look (bytesBelow freq c + j)).toNat)
      = positionsOf ll8.look c (k + 1) := by
  rw [positionsOf_succ]
  by_cases hcc : c = (ll8.look k).toNat
  · subst hcc
    rw [if_pos rfl, List.length_append, List.length_singleton, List.range_succ, List.map_append, List.map_singleton,
      Store.look_put_same h.ttWf, BitVec.toNat_ofNat, Nat.mod_eq_of_lt (hk.trans hn)]
    refine congrArg (· ++ [k]) ((List.map_congr_left fun j hj => ?_).trans (h.bucket _ hc))
    rw [Store.look_put_other h.ttWf (by have := List.mem_range.1 hj; omega)]
  · rw [if_neg (Ne.symm hcc), List.append_nil]
    refine (List.map_congr_left fun j hj => ?_).trans (h.bucket c hc)
    have hj : j < (freq.look c).toNat :=
      (List.mem_range.1 hj).trans_le ((positionsOf_length_mono _ c hk.le).trans_eq (hb c hc).symm)
    rw [Store.look_put_other h.ttWf (bucket_disjoint freq hcc hj (positionsOf_own_lt hb hk))]

/-- The next position is sorted in. -/
theorem SortedUpTo.step (h : SortedUpTo freq ll8.look n tt0 cf0 k tt cf) (hb : BucketSizes freq ll8.look n) (hk : k < n)
    (hn : n < 2 ^ 20) :
    ∃ tt' cf', fillStep n ll8 (tt, cf) k = .ok (tt', cf') ∧ SortedUpTo freq ll8.look n tt0 cf0 (k + 1) tt' cf' := by
  have hslot := slot_lt hb hk
  have hch : (ll8.look k).toNat < 256 := (ll8.look k).isLt
  have hnext := h.next _ hch
  refine ⟨_, _, fillStep_ok hk (hnext ▸ hslot), Store.put_wf h.ttWf _ _, Store.put_wf h.cfWf _ _,
    fun c => h.next_put hb hk hn, fun c hc => ?_, fun c hc => ?_, fun p hp => ?_⟩
  · rw [Store.look_put_other h.cfWf (by omega), h.cfOutside c hc]
  · rw [hnext, h.bucket_put hb hk hn hc]
  · rw [hnext, Store.look_put_other h.ttWf (by omega), h.ttOutside p hp]

theorem sortedUpTo_zero (htt : tt0.wf = true) (hcf : cf0.wf = true) (hcum : ∀ c < 256, (cf0.look c).toNat = bytesBelow freq c) :
    SortedUpTo freq ll8.look n tt0 cf0 0 tt0 cf0 :=
  ⟨htt, hcf, hcum, fun _ _ => rfl, fun _ _ => rfl, fun _ _ => rfl⟩

/-- The first `k` positions are sorted in one after the other. -/
theorem foldlM_fillStep (h0 : SortedUpTo freq ll8.look n tt0 cf0 0 tt0 cf0) (hb : BucketSizes freq ll8.look n)
    (hn : n < 2 ^ 20) (hk : k ≤ n) :
    ∃ tt cf, (List.range k).foldlM (fillStep n ll8) (tt0, cf0) = .ok (tt, cf) ∧
      SortedUpTo freq ll8.look n tt0 cf0 k tt cf := by
  induction k with
  | zero => exact ⟨tt0, cf0, rfl, h0⟩
  | succ k ih =>
    obtain ⟨tt, cf, hrun, hsorted⟩ := ih (by omega)
    obtain ⟨tt', cf', hstep, hsorted'⟩ := hsorted.step hb hk hn
    refine ⟨tt', cf', ?_, hsorted'⟩
    rw [List.range_succ, List.foldlM_append, hrun]
    simp only [bind, Except.bind, List.foldlM_cons, List.foldlM_nil, hstep, pure, Except.pure]

/-- Bucket after bucket, TT holds the sorted positions. -/
theorem SortedUpTo.map_look (h : SortedUpTo freq ll8.look n tt0 cf0 n tt cf) (hb : BucketSizes freq ll8.look n) {c : Nat}
    (hc : c ≤ 256) :
    (List.range (bytesBelow freq c)).map (fun i => (tt.look i).toNat)
      = (List.range c).flatMap fun c => positionsOf ll8.look c n := by
  induction c with
  | zero => rfl
  | succ c ih =>
    have hbucket := h.bucket c hc
    rw [← hb c hc] at hbucket
    rw [bytesBelow_succ, List.range_add, List.map_append, List.map_map, ih (by omega), List.range_succ,
      List.flatMap_append, List.flatMap_singleton]
    exact congrArg _ hbucket

end

section
variable {s : State}

/-- BuildSuccessors sorts the whole block (45_inverse_bwt.md R360, R361). -/
theorem State.buildSuccessors_sorts (hwf : Memory.wf s = true) (hcap : s.sym.nblock.toNat ≤ Config.bufCapacity)
    (hfreq : s.FreqOk) :
    ∃ tt cf, s.buildSuccessors = .ok { s with bwt := { s.bwt with tt := tt, cftab := cf } } ∧
      SortedUpTo s.sym.freq s.bwt.ll8.look s.sym.nblock.toNat s.bwt.tt (cumulate s.sym.freq s.bwt.cftab) s.sym.nblock.toNat
        tt cf := by
  obtain ⟨-, -, -, -, -, -, -, -, -, -, -, -, -, -, hcf, -, htt⟩ := (Memory.wf_iff s).1 hwf
  have hb := hfreq.bucketSizes
  have hcum : ∀ c < 256, ((cumulate s.sym.freq s.bwt.cftab).look c).toNat = bytesBelow s.sym.freq c := fun c hc => by
    have hle := bytesBelow_le hb hc.le
    rw [look_cumulate s.sym.freq hcf, if_pos hc.le, BitVec.toNat_ofNat, Nat.mod_eq_of_lt (by omega)]
  obtain ⟨tt, cf, hrun, hsorted⟩ :=
    foldlM_fillStep (sortedUpTo_zero htt (cumulate_wf _ hcf) hcum) hb s.sym.nblock.isLt (le_refl _)
  refine ⟨tt, cf, ?_, hsorted⟩
  rw [State.buildSuccessors, State.blockBound, Nat.min_eq_left hcap, hrun]
  rfl

/-- CFTAB after the sort: each entry below 256 stands at the end of its bucket, and entry 256 at the end of the block. -/
theorem SortedUpTo.look_cftab {freq tt0 tt cf cftab : Store 20} {byteAt : Nat → Byte} {n : Nat}
    (h : SortedUpTo freq byteAt n tt0 (cumulate freq cftab) n tt cf) (hb : BucketSizes freq byteAt n) (hn : n < 2 ^ 20)
    (hcf : cftab.wf = true) {c : Nat} (hc : c ≤ 256) : (cf.look c).toNat = bytesBelow freq (min (c + 1) 256) := by
  rcases Nat.lt_or_eq_of_le hc with hlt | rfl
  · rw [h.next c hlt, ← hb c hlt, ← bytesBelow_succ, Nat.min_eq_left hlt]
  · have hle := bytesBelow_le hb hc
    rw [h.cfOutside 256 (le_refl _), look_cumulate freq hcf, if_pos hc, BitVec.toNat_ofNat, Nat.mod_eq_of_lt (by omega)]
    rfl

/-- The check of the origin pointer (R329). -/
theorem exec_symEob_of_bad (hin : s.work.inRun = false) (hbad : s.sym.nblock.toNat ≤ s.blk.origPtr.toNat) :
    exec .symEob s = .next (s.raise .originPointer) := by
  have hcheck : s.badOrigPtr = true := decide_eq_true hbad
  simp only [exec, execSymEob, State.endRun_of_not_inRun hin, bind, Except.bind, hcheck, if_true, pure, Except.pure,
    ofExcept_ok]

theorem exec_symEob_of_good {t : State} (hin : s.work.inRun = false) (hgood : s.blk.origPtr.toNat < s.sym.nblock.toNat)
    (hsucc : s.buildSuccessors = .ok t) : exec .symEob s = Result.ofExcept t.blockSetup := by
  have hcheck : s.badOrigPtr = false := decide_eq_false (by omega)
  simp only [exec, execSymEob, State.endRun_of_not_inRun hin, bind, Except.bind, hcheck, Bool.false_eq_true, if_false, hsucc]

/-- The block setup starts at the chain entry the origin pointer names (46_output_fsm.md R381). -/
theorem State.blockSetup_ok (h : s.blk.origPtr.toNat < s.blockBound) :
    s.blockSetup = .ok { s with
      crc := { s.crc with blockCrc := 0xFFFFFFFF }
      cur := { tPos := s.bwt.tt.look s.blk.origPtr.toNat, consumed := 0, chCur := 256, chPrev := 256, runCount := 0,
               repCount := 0, repDone := 0, rNtogo := 0, rTpos := 0 }
      ctl := { s.ctl with st := s.partA }
      work := { s.work with phase := .output } } := by
  rw [State.blockSetup, loadAt_of_lt h]
  rfl

end

/-! ### The MTF list (R328) -/

/-- Moving an entry to the front permutes the first `n` entries if it is among them. -/
theorem moveToFront_perm {w : Nat} {m : Store w} (h : m.wf = true) {j n : Nat} (hj : j < n) :
    ((List.range n).map (moveToFront m j).look).Perm ((List.range n).map m.look) := by
  obtain ⟨k, rfl⟩ : ∃ k, n = j + 1 + k := ⟨n - (j + 1), by omega⟩
  have hfront : (List.range (j + 1)).map (moveToFront m j).look = m.look j :: (List.range j).map m.look := by
    rw [List.range_succ_eq_map, List.map_cons, List.map_map, moveToFront_look h, if_pos rfl]
    refine congrArg _ (List.map_congr_left fun p hp => ?_)
    have hp : p < j := List.mem_range.1 hp
    simp [moveToFront_look h, Nat.succ_le_of_lt hp]
  have hrest : (List.range k).map ((moveToFront m j).look ∘ (j + 1 + ·)) = (List.range k).map (m.look ∘ (j + 1 + ·)) := by
    refine List.map_congr_left fun p _ => ?_
    rw [Function.comp, moveToFront_look h, if_neg (by omega), if_neg (by omega), Function.comp]
  rw [List.range_add, List.map_append, List.map_append, List.map_map, List.map_map, hfront, hrest, List.range_succ,
    List.map_append]
  exact (List.perm_append_singleton _ _).symm.append_right _

/-- In the symbol part the whole MTF list is a permutation, and so are its first N_IN_USE entries (R328). -/
def State.MtfOk (s : State) : Prop :=
  s.work.phase = .symbols → ∀ n, n = 256 ∨ n = s.map.nInUse.toNat →
    ((List.range n).map fun i => (s.sym.mtf.look i).toNat).Perm (List.range n)

section
variable {s t u : State}

theorem State.MtfOk.congr (h : s.MtfOk) (hm : t.map = s.map) (hl : t.sym.mtf = s.sym.mtf)
    (hp : t.work.phase = s.work.phase) : t.MtfOk := by
  unfold State.MtfOk
  rw [hm, hl, hp]
  exact h

/-- Nothing is claimed outside the symbol part. -/
theorem mtfOk_of_ne (h : t.work.phase ≠ .symbols) : t.MtfOk := fun hp => absurd hp h

theorem mtfOk_raise (f : CoreFault) : (s.raise f).MtfOk := mtfOk_of_ne nofun

theorem mtfOk_goto {p : Phase} (hp : p ≠ .symbols) : (s.goto p).MtfOk := mtfOk_of_ne hp

theorem mtfOk_check {c : Prop} [Decidable c] (f : CoreFault) {p : Phase} (hp : p ≠ .symbols) :
    (if c then s.raise f else u.goto p).MtfOk := by
  split
  · exact mtfOk_raise f
  · exact mtfOk_goto hp

/-! ### Instructions that leave the symbol part, or never reach it -/

theorem seekRange_mtfOk (l : List Nat) (s : State) : (State.seekRange l s).MtfOk := by
  induction l generalizing s with
  | nil => exact mtfOk_check _ nofun
  | cons i l ih =>
    unfold State.seekRange
    split
    · exact mtfOk_goto nofun
    · exact ih _

theorem execNSelectors_mtfOk {n : BitVec 15} (h : execNSelectors n s = .next t) : t.MtfOk := by
  unfold execNSelectors at h
  dsimp only at h
  split_ifs at h <;> injection h with h <;> subst h
  · exact mtfOk_raise _
  · exact mtfOk_goto nofun

theorem execSelectorMtf_mtfOk {j : BitVec 3} (h : execSelectorMtf j s = .next t) : t.MtfOk := by
  unfold execSelectorMtf at h
  dsimp only at h
  split at h
  · injection h with h
    exact h ▸ mtfOk_raise _
  · obtain ⟨_, -, h⟩ := bind_eq_ok (ofExcept_next_iff.1 h)
    obtain ⟨_, -, h⟩ := bind_eq_ok h
    split at h <;> injection h with h <;> exact h ▸ mtfOk_goto nofun

theorem setCurr_mtfOk (c : BitVec 5) (s : State) : (s.setCurr c).MtfOk := mtfOk_check _ nofun

theorem execStreamCrc_mtfOk {c : Word} (h : execStreamCrc c s = .next t) : t.MtfOk := by
  unfold execStreamCrc at h
  dsimp only at h
  split at h <;> injection h with h <;> exact h ▸ mtfOk_of_ne nofun

theorem execSymEob_mtfOk (h : execSymEob s = .next t) : t.MtfOk := by
  rcases execSymEob_control h with ⟨f, u, -, rfl⟩ | ⟨-, hp⟩
  · exact mtfOk_raise f
  · exact mtfOk_of_ne (by simp [hp])

/-- A command ends, or starts what is not the symbol part. -/
theorem exec_command_mtfOk {i : Instr} (hi : i.place = .ready) (h : exec i s = .next t) : t.MtfOk := by
  cases i
  case openCmd nc =>
    obtain ⟨-, h⟩ := ifReady_next h
    split at h <;> injection h with h <;> exact h ▸ mtfOk_of_ne nofun
  case nextCmd =>
    obtain ⟨-, h⟩ := ifReady_next h
    split at h <;> injection h with h <;> exact h ▸ mtfOk_of_ne nofun
  case closeCmd | cmdReserved =>
    obtain ⟨-, h⟩ := ifReady_next h
    injection h with h
    exact h ▸ mtfOk_of_ne nofun
  all_goals cases hi

/-! ### The start of the symbol part, run digits and literals -/

theorem foldl_buildTable_map_sym (l : List Nat) (s : State) :
    (l.foldl State.buildTable s).map = s.map ∧ (l.foldl State.buildTable s).sym = s.sym := by
  induction l generalizing s with
  | nil => exact ⟨rfl, rfl⟩
  | cons i l ih =>
    obtain ⟨hm, hy⟩ := ih (s.buildTable i)
    exact ⟨hm.trans (State.buildTable_map s i), hy.trans (State.buildTable_sym s i)⟩

/-- The builder accepts at most 256 bytes in use and leaves the map and the list alone. -/
theorem buildTables_map_sym (h : s.buildTables = .ok t) : t.map = s.map ∧ t.sym = s.sym ∧ s.map.nInUse.toNat ≤ 256 := by
  unfold State.buildTables at h
  split at h
  · rename_i hr
    injection h with h
    obtain ⟨hm, hy⟩ := foldl_buildTable_map_sym (List.range s.sel.nGroups.toNat) s
    simp only [State.lengthsInRange, Bool.and_eq_true, decide_eq_true_eq] at hr
    obtain ⟨⟨-, ha⟩, -⟩ := hr
    exact ⟨h ▸ hm, h ▸ hy, Nat.le_of_add_le_add_right (b := 2) ha⟩
  · cases h

/-- The identity is a permutation. -/
theorem initSymbols_mtfOk (hl : s.sym.mtf.wf = true) (hn : s.map.nInUse.toNat ≤ 256) : s.initSymbols.MtfOk := by
  intro _ n hor
  rw [State.initSymbols_map] at hor
  have hid : (List.range n).map (fun i => (s.initSymbols.sym.mtf.look i).toNat) = List.range n := by
    refine (List.map_congr_left fun i hi => ?_).trans (List.map_id _)
    have hi : i < 256 := by have := List.mem_range.1 hi; omega
    rw [look_initSymbols_mtf hl, if_pos hi, BitVec.toNat_ofNat, Nat.mod_eq_of_lt hi, id]
  rw [hid]

theorem execLenEnd_mtfOk (hl : s.sym.mtf.wf = true) (h : execLenEnd s = .next t) : t.MtfOk := by
  obtain ⟨_, -, h⟩ := bind_eq_ok (ofExcept_next_iff.1 h)
  obtain ⟨_, -, h⟩ := bind_eq_ok h
  split_ifs at h
  · injection h with h
    exact h ▸ mtfOk_goto nofun
  · injection h with h
    exact h ▸ mtfOk_goto nofun
  · obtain ⟨b, hb, h⟩ := bind_eq_ok h
    injection h with h
    subst h
    obtain ⟨hm, hy, hn⟩ := buildTables_map_sym hb
    exact initSymbols_mtfOk (by rw [hy]; exact hl) (by rw [hm]; exact hn)

/-- A run digit leaves the list alone. -/
theorem runDigit_mtfOk (h : s.MtfOk) (hp : s.work.phase = .symbols) (d : Nat) : (s.runDigit d).MtfOk := by
  rw [State.runDigit_withRun]
  dsimp only
  split
  · exact mtfOk_raise _
  · exact h.congr rfl rfl hp.symm

/-- The end of a run leaves the map, the list and the place alone. -/
theorem endRun_frame (h : s.endRun = .ok t) :
    t.map = s.map ∧ t.sym.mtf = s.sym.mtf ∧ t.work.phase = s.work.phase := by
  cases hin : s.work.inRun with
  | false =>
    rw [State.endRun_of_not_inRun hin] at h
    injection h with h
    exact h ▸ ⟨rfl, rfl, rfl⟩
  | true =>
    obtain ⟨-, h⟩ := (State.endRun_ok_iff hin).1 h
    exact h ▸ ⟨rfl, rfl, rfl⟩

/-- A literal whose entry is among the first N_IN_USE permutes both lists of R328. -/
theorem literal_mtfOk (h : s.MtfOk) (hl : s.sym.mtf.wf = true) (hp : s.work.phase = .symbols) {v : Nat}
    (hv : v ≤ s.map.nInUse.toNat) (ht : s.literal v = .ok t) : t.MtfOk := by
  obtain ⟨⟨h1, h256⟩, -, rfl⟩ := State.literal_ok_iff.1 ht
  intro _ n hn
  have hj : v - 1 < n := by
    rcases hn with rfl | rfl
    · omega
    · exact Nat.sub_one_lt_of_le h1 hv
  have hmoved := (moveToFront_perm hl hj).map BitVec.toNat
  rw [List.map_map, List.map_map] at hmoved
  exact hmoved.trans (h hp n hn)

theorem execSymMtfv_mtfOk (h : s.MtfOk) (hl : s.sym.mtf.wf = true) (hp : s.work.phase = .symbols) {v : BitVec 9}
    (hv : v.toNat ≤ s.map.nInUse.toNat) (he : execSymMtfv v s = .next t) : t.MtfOk := by
  obtain ⟨u, hu, he⟩ := bind_eq_ok (ofExcept_next_iff.1 he)
  obtain ⟨hm, hy, hw⟩ := endRun_frame hu
  split at he
  · injection he with he
    exact he ▸ mtfOk_raise _
  · obtain ⟨x, hx, he⟩ := bind_eq_ok he
    have hux : x.MtfOk := literal_mtfOk (h.congr hm hy hw) (hy ▸ hl) (hw.trans hp) (hm ▸ hv) hx
    obtain ⟨-, -, rfl⟩ := State.literal_ok_iff.1 hx
    injection he with he
    exact he ▸ hux.congr rfl rfl (hw.trans hp).symm

/-! ### Every instruction keeps the list a permutation where the fetch runs it -/

/-- What the symbol part's own elements take for granted of the state they run on. -/
def SymbolDue (s : State) : Instr → Prop
  | .symRuna | .symRunb => s.work.phase = .symbols
  | .symMtfv v => s.work.phase = .symbols ∧ v.toNat ≤ s.map.nInUse.toNat
  | _ => True

theorem symbolDue_of_place_ne {i : Instr} (h : i.place ≠ .symbols) : SymbolDue s i := by
  cases i
  case symRuna | symRunb | symMtfv => exact absurd rfl h
  all_goals trivial

theorem exec_keeps_mtfOk {i : Instr} (h : s.MtfOk) (hwf : Memory.wf s = true) (hd : SymbolDue s i)
    (he : exec i s = .next t) : t.MtfOk := by
  obtain ⟨-, -, -, -, -, -, -, -, -, -, -, -, hl, -⟩ := (Memory.wf_iff s).1 hwf
  cases i with
  | openCmd _ | nextCmd | closeCmd | cmdReserved _ _ _ => exact exec_command_mtfOk (by rfl) he
  | sig | hdr _ | otherTrailer _ _ | blockMagic | eosMagic | blockCrc _ | randBit _ | origPtr _ | rle2Literal _
  | rle2Count _ =>
    injection he with he
    exact he ▸ mtfOk_of_ne nofun
  | streamCrc _ => exact execStreamCrc_mtfOk he
  | inuse16 _ | inuseInner _ =>
    injection he with he
    exact he ▸ seekRange_mtfOk _ _
  | nGroups _ =>
    injection he with he
    exact he ▸ mtfOk_check _ nofun
  | nSelectors _ => exact execNSelectors_mtfOk he
  | selectorMtf _ => exact execSelectorMtf_mtfOk he
  | lenStart _ | lenInc | lenDec =>
    injection he with he
    exact he ▸ setCurr_mtfOk _ _
  | lenEnd => exact execLenEnd_mtfOk hl he
  | symRuna | symRunb =>
    injection he with he
    exact he ▸ runDigit_mtfOk h hd _
  | symMtfv v => exact execSymMtfv_mtfOk h hl hd.1 hd.2 he
  | symEob => exact execSymEob_mtfOk he

/-! ### What the fetch finds -/

/-- The fetch keeps the list a permutation, and what it runs finds what it takes for granted. -/
def Fetched.ListOk : Fetched → Prop
  | .run i u => u.MtfOk ∧ Memory.wf u = true ∧ SymbolDue u i
  | .goes t => t.MtfOk
  | .broken _ | .refuses _ => True

theorem rejected_listOk (why : Reject) (s : State) : (rejected why s).ListOk := by
  cases why with
  | badSignature | badMagic | noCode => exact mtfOk_raise _
  | tableIndex => trivial

theorem fetchElement_listOk {waiting : State} {c : Ctx} (h : s.MtfOk) (hwf : Memory.wf s = true) (hw : waiting.MtfOk)
    (hd : (decode c s.rd).Gives (SymbolDue s)) : (fetchElement c waiting s).ListOk := by
  rcases fetchElement_cases c waiting s with ⟨i, r, hi, hf⟩ | ⟨why, r, -, hf⟩ | ⟨r, -, hf⟩ | ⟨-, hf⟩ <;> rw [hf]
  · exact ⟨h.congr rfl rfl rfl, hwf, hd.of_instr hi⟩
  · exact rejected_listOk _ _
  · exact mtfOk_raise _
  · exact hw

/-- An element read outside the symbol part is none of its elements. -/
theorem decode_gives_symbolDue {c : Ctx} (hc : phaseOf c ≠ .symbols) (r : BitReader) :
    (decode c r).Gives (SymbolDue s) := by
  cases hd : decode c r with
  | instr i r' => exact symbolDue_of_place_ne (((decode_gives_place c r).of_instr hd) ▸ hc)
  | reject _ _ | truncated _ | wait => trivial

/-- A literal read with a table of the block is a symbol below EOB. -/
theorem decode_symbol_gives_symbolDue {T : CodeTable} (hT : CodeTableOk T) (ha : T.alpha = s.alphaSize)
    (hp : s.work.phase = .symbols) (hn : s.map.nInUse.toNat ≤ 256) (r : BitReader) :
    (decode (.symbol T s.eob) r).Gives (SymbolDue s) := by
  refine decodeSymbol_gives (fun k hk => ?_) r
  have hsym := hT.symbols k hk
  cases hi : classifySymbol s.eob (T.permAt k)
  case symRuna | symRunb => exact hp
  case symMtfv v =>
    rw [ha, State.alphaSize] at hsym
    obtain ⟨hv, heob⟩ := classifySymbol_eq_symMtfv (by omega) hi
    rw [State.eob] at heob
    exact ⟨hp, by omega⟩
  all_goals trivial

@[simp] theorem State.takeFromGroup_codeTable (s : State) (g : Nat) : s.takeFromGroup.codeTable g = s.codeTable g := by
  simp [State.codeTable]

theorem fetchSymbol_listOk (h : s.MtfOk) (hinv : s.Inv) (hp : s.work.phase = .symbols) : (fetchSymbol s).ListOk := by
  have hafter : s.work.phase.afterSelectors = true ∧ s.work.phase.afterMap = true := by rw [hp]; exact ⟨rfl, rfl⟩
  unfold fetchSymbol
  split
  · exact mtfOk_raise _
  · dsimp only
    split
    · trivial
    · rename_i g hg
      obtain ⟨hno, rfl⟩ := loadAt_ok_iff.1 hg
      rw [State.takeFromGroup_sel] at hno ⊢
      have hgroup := hinv.data.selectors hafter.1 _ hno
      have hT := hinv.data.tables hp _ hgroup
      rw [← State.takeFromGroup_codeTable] at hT
      have ht : s.takeFromGroup.MtfOk := h.congr (by simp) (by simp) (by simp)
      refine fetchElement_listOk ht (by simpa using hinv.stores) h ?_
      exact decode_symbol_gives_symbolDue hT rfl (by simpa using hp) (by simpa using (hinv.data.map hafter.2).2) _

theorem fetchChain_listOk {mk : Byte → Instr} (hwf : Memory.wf s = true) (hp : s.work.phase = .output)
    (hm : ∀ b, (mk b).place = .output) : (fetchChain mk s).ListOk := by
  unfold fetchChain
  split
  · rename_i b u hb
    obtain ⟨-, -, hw⟩ := fetchByte_control hb
    exact ⟨mtfOk_of_ne (by simp [hw, hp]), Memory.wf_fetchByte hwf hb, symbolDue_of_place_ne (by simp [hm b])⟩
  · trivial

/-- The driver's iterations without an element stay in the driver or end the command. -/
theorem compareBytes_mtfOk (hp : s.work.phase = .output) : s.compareBytes.MtfOk := by
  unfold State.compareBytes
  split <;> exact mtfOk_of_ne (by simp [hp])

theorem emitCopy_mtfOk (hp : s.work.phase = .output) : s.emitCopy.MtfOk := by
  unfold State.emitCopy
  split <;> exact mtfOk_of_ne (by simp [hp])

theorem blockEnd_mtfOk (hp : s.work.phase = .output) : s.blockEnd.MtfOk := by
  unfold State.blockEnd
  dsimp only
  split
  · exact mtfOk_raise _
  · exact mtfOk_of_ne (by simp [hp])

theorem fetchOutput_listOk (hwf : Memory.wf s = true) (hp : s.work.phase = .output) : (fetchOutput s).ListOk := by
  have hs : s.MtfOk := mtfOk_of_ne (by simp [hp])
  unfold fetchOutput
  cases s.ctl.st with
  | startBlock => exact fetchElement_listOk hs hwf hs (decode_gives_symbolDue (by simp [phaseOf]) _)
  | randPartA | noRandPartA =>
    dsimp only
    split
    · exact fetchChain_listOk hwf hp fun _ => rfl
    · exact blockEnd_mtfOk hp
  | randPartB | noRandPartB =>
    dsimp only
    split_ifs
    · exact fetchChain_listOk hwf hp fun _ => rfl
    · exact mtfOk_raise _
    · exact compareBytes_mtfOk hp
  | randPartC | noRandPartC => exact emitCopy_mtfOk hp
  | idle | finished | fault => trivial

theorem fetchCore_listOk (h : s.MtfOk) (hinv : s.Inv) : (fetchCore s).ListOk := by
  unfold fetchCore
  cases hp : s.work.phase with
  | ready => exact h
  | output => exact fetchOutput_listOk hinv.stores hp
  | symbols => exact fetchSymbol_listOk h hinv hp
  | signature | trailer | streamCrc | blockCrc | randBit | origPtr | inuse16 | inuseInner | nGroups | nSelectors | selector
  | lenStart | lenDelta => exact fetchElement_listOk h hinv.stores h (decode_gives_symbolDue (by simp [phaseOf]) _)

theorem fetchHost_listOk (h : s.MtfOk) (hwf : Memory.wf s = true) (a : HostAction) : (fetchHost a s).ListOk := by
  cases a with
  | command w => exact ⟨h, hwf, symbolDue_of_place_ne (by simp [decodeCommand_place w])⟩
  | statusRead n =>
    unfold fetchHost
    dsimp only
    split
    · exact h.congr rfl rfl rfl
    · trivial
  | attach answers =>
    unfold fetchHost
    dsimp only
    split
    · exact h.congr rfl rfl rfl
    · trivial
  | reset => exact mtfOk_of_ne nofun

theorem fetch_listOk (h : s.MtfOk) (hinv : s.Inv) : (fetch s).ListOk := by
  have hhost : ∀ a rest, (fetchHost a { s with host := rest }).ListOk := fun a rest =>
    fetchHost_listOk (s := { s with host := rest }) (h.congr rfl rfl rfl) hinv.stores a
  unfold fetch
  split
  · exact fetchCore_listOk h hinv
  · exact hhost _ _
  · split
    · exact hhost _ _
    · exact fetchCore_listOk h hinv

end

/-! ### The obligations -/

/-- Settles O33: FREQ and MTF after their sequences of writes are the witnesses. -/
theorem symbolPartStart : Obligations.SymbolPartStart := by
  intro s h
  obtain ⟨-, -, -, -, -, -, -, -, -, -, -, -, hmtf, hfreq, -⟩ := (Memory.wf_iff s).1 h
  refine ⟨_, _, look_initSymbols_freq hfreq, look_initSymbols_mtf hmtf, ?_⟩
  simp only [State.initSymbols]
  rfl

/-- Settles O37: the run is over after its copies, so that it ends there without further ones. -/
theorem runEmission : Obligations.RunEmission := by
  intro s hwf hin hfit
  obtain ⟨-, -, -, -, -, -, -, -, -, -, -, -, -, hfreq, -, hll8, -⟩ := (Memory.wf_iff s).1 hwf
  refine ⟨_, _, fun i => Store.look_putAll_range hll8 s.sym.nblock.toNat s.sym.runLen.toNat (fun _ => s.runByte) i,
    fun c => Store.look_put_own hfreq s.runByte.toNat c (· + BitVec.ofNat 20 s.sym.runLen.toNat), ?_⟩
  exact exec_congr_endRun (((State.endRun_ok_iff hin).2 ⟨hfit, rfl⟩).trans (State.endRun_of_not_inRun rfl).symm)

/-- Settles O38: the check is made before the literal writes anything. -/
theorem literalSymbol : Obligations.LiteralSymbol := by
  refine ⟨fun s v => exec_symMtfv_of_full, fun s v hwf hin h2 h256 hroom hcap => ?_⟩
  obtain ⟨-, -, -, -, -, -, -, -, -, -, -, -, hmtf, hfreq, -, hll8, -⟩ := (Memory.wf_iff s).1 hwf
  have hlit := State.literal_ok_iff.2 ⟨⟨by omega, h256⟩, hroom.trans_le hcap, rfl⟩
  exact ⟨_, _, _, moveToFront_look hmtf (v.toNat - 1), fun i => Store.look_put hll8 _ i _,
    fun c => Store.look_put_own hfreq _ c (· + 1), exec_symMtfv_of_room hin hroom hlit⟩

/-- Settles O41: the loop of R361 is a stable counting sort, bucket by bucket. -/
theorem endOfBlock : Obligations.EndOfBlock := by
  refine ⟨fun s => exec_symEob_of_bad, fun s hwf hin hgood hcap hfreq => ?_⟩
  obtain ⟨-, -, -, -, -, -, -, -, -, -, -, -, -, -, hcf, -⟩ := (Memory.wf_iff s).1 hwf
  obtain ⟨tt, cf, hsucc, hsorted⟩ := State.buildSuccessors_sorts hwf hcap hfreq
  have hb := hfreq.bucketSizes
  have hmap := hsorted.map_look hb (le_refl 256)
  rw [bytesBelow_256 hb] at hmap
  refine ⟨tt, cf, hmap, hsorted.ttOutside, fun c => hsorted.look_cftab hb s.sym.nblock.isLt hcf, fun c hc => ?_, ?_⟩
  · rw [hsorted.cfOutside c hc.le, look_cumulate _ hcf, if_neg (Nat.not_le.2 hc)]
  · rw [exec_symEob_of_good hin hgood hsucc, State.blockSetup_ok]
    · rfl
    · exact Nat.lt_min.2 ⟨hgood, hgood.trans_le hcap⟩

/-- Settles O54: the fetch keeps the list, and so does the instruction it finds, or the symbol part begins with the
identity. -/
theorem mtfStaysPermutation : Obligations.MtfStaysPermutation := by
  intro s t hinv hs h
  have hf := fetch_listOk h hinv
  rcases step_next_cases hs with ⟨i, u, hrun, he⟩ | hgo
  · rw [hrun] at hf
    obtain ⟨hu, hwf, hd⟩ := hf
    exact exec_keeps_mtfOk hu hwf hd he
  · rw [hgo] at hf
    exact hf

end Sys2Proof.Machine

-- `Machine.runDigits` is a definition of the assembler, so the theorem of that name stands outside its namespace.
namespace Sys2Proof

open Machine in
/-- Settles O35: the run and its weight before the digit are at most 900000 and `2 ^ 19`, so that both fit after it. -/
theorem runDigits : Obligations.RunDigits := by
  intro s hn hcap hrun d hd
  obtain ⟨hlen, hweight⟩ := State.runSoFar_bounds hn hcap hrun
  have hmul : s.digitWeight * (d + 1) ≤ 2 ^ 19 * 2 := Nat.mul_le_mul hweight (by omega)
  have hfit : s.runSoFar + s.digitWeight * (d + 1) < 2 ^ 21 := by omega
  refine ⟨hfit, show 2 * s.digitWeight < 2 ^ 21 by omega, ?_⟩
  have hexec : exec (if d = 0 then .symRuna else .symRunb) s = .next (s.runDigit d) := by
    obtain rfl | rfl : d = 0 ∨ d = 1 := by omega
    · rfl
    · rfl
  rw [hexec, State.runDigit_eq hfit]
  rfl

end Sys2Proof
end

section
/-! SUPPORT. Lemmas and proofs for family 46_output_fsm (46_output_fsm.md). An iteration of the driver is told by the PART of
ST and by the two tests, of a position left and of a fourth equal byte; what each named next state of the driver is, is said
once per case of its own test. -/

namespace Sys2Proof

/-! ### The run lengths of the derandomizer (R383) -/

theorem Config.rnums_length : Config.rnums.length = 512 := by decide +kernel

theorem Config.rnums_range : ∀ n ∈ Config.rnums, 50 ≤ n ∧ n ≤ 999 := by decide +kernel

end Sys2Proof

namespace Sys2Proof.Machine

theorem rnum_range (i : Nat) : 50 ≤ rnum i ∧ rnum i ≤ 999 := by
  have hi : i % 512 < Config.rnums.length := by
    rw [Config.rnums_length]
    exact Nat.mod_lt _ (by decide)
  rw [rnum, List.getD_eq_getElem _ _ hi]
  exact Config.rnums_range _ (List.getElem_mem hi)

/-! ### The CRC registers at a block's end (47_crc.md) -/

/-- The final form of a block CRC is its complement (R432). -/
theorem crcFinal_eq_not (c : Word) : crcFinal c = ~~~ c := BitVec.xor_allOnes

/-- The combined CRC is rotated left by one bit, and the block's is folded in (R434). -/
theorem combineCrc_eq_rotateLeft (combined block : Word) :
    combineCrc combined block = combined.rotateLeft 1 ^^^ block := rfl

/-! ### The PARTs of ST -/

theorem St.isPartA_iff {st : St} : st.isPartA = true ↔ st = .randPartA ∨ st = .noRandPartA := by cases st <;> decide

theorem St.isPartB_iff {st : St} : st.isPartB = true ↔ st = .randPartB ∨ st = .noRandPartB := by cases st <;> decide

theorem St.isPartC_iff {st : St} : st.isPartC = true ↔ st = .randPartC ∨ st = .noRandPartC := by cases st <;> decide

section
variable {s t : State}

/-! ### The byte fetch (R382, R383) -/

theorem State.fetchByte_ok (h : s.cur.tPos.toNat < s.blockBound) :
    s.fetchByte = .ok
      (let t : State := { s with cur := { s.cur with tPos := s.bwt.tt.look s.cur.tPos.toNat } }
      if s.blk.randomised then t.derandomise (s.bwt.ll8.look s.cur.tPos.toNat)
        else (s.bwt.ll8.look s.cur.tPos.toNat, t)) := by
  rw [State.fetchByte, loadAt_of_lt h, loadAt_of_lt h]
  rfl

theorem State.derandomise_of_counting (b : Byte) (h : s.cur.rNtogo ≠ 0) :
    s.derandomise b =
      (if s.cur.rNtogo = 2 then b ^^^ 1 else b, { s with cur := { s.cur with rNtogo := s.cur.rNtogo - 1 } }) := by
  have hflip : s.cur.rNtogo - 1 = 1 ↔ s.cur.rNtogo = 2 := BitVec.sub_eq_iff_eq_add
  simp only [State.derandomise, h, if_false, hflip]

/-- A new run length is at least 50, so its first byte is never flipped. -/
theorem State.derandomise_of_expired (b : Byte) (h : s.cur.rNtogo = 0) :
    s.derandomise b = (b, { s with cur := { s.cur with
      rNtogo := BitVec.ofNat 10 (rnum s.cur.rTpos.toNat - 1), rTpos := BitVec.ofNat 9 ((s.cur.rTpos.toNat + 1) % 512) } }) := by
  obtain ⟨hlow, hhigh⟩ := rnum_range s.cur.rTpos.toNat
  have hentry : Config.rnums.getD s.cur.rTpos.toNat 0 = rnum s.cur.rTpos.toNat := by
    rw [rnum, Nat.mod_eq_of_lt s.cur.rTpos.isLt]
  have hcount : BitVec.ofNat 10 (rnum s.cur.rTpos.toNat) - 1 = BitVec.ofNat 10 (rnum s.cur.rTpos.toNat - 1) := by
    bv_omega
  have hkept : BitVec.ofNat 10 (rnum s.cur.rTpos.toNat - 1) ≠ 1 := by bv_omega
  have hnext : s.cur.rTpos + 1 = BitVec.ofNat 9 ((s.cur.rTpos.toNat + 1) % 512) := by bv_omega
  simp only [State.derandomise, h, if_true, hentry, hcount, hkept, if_false, hnext]

/-! ### The driver's two tests (R384, R385) -/

theorem State.positionLeft_of_consumed (h : s.sym.nblock.toNat ≤ s.cur.consumed.toNat) : s.positionLeft = false :=
  decide_eq_false (Nat.not_lt.2 h)

theorem State.fourthEqual_iff : s.fourthEqual = true ↔ s.cur.chCur = s.cur.chPrev ∧ 3 ≤ s.cur.runCount.toNat := by
  rw [State.fourthEqual, Bool.and_eq_true, beq_iff_eq, decide_eq_true_eq, Nat.add_le_add_iff_right (n := 1) (m := 3)]

/-! ### One iteration of the driver, by the PART of ST (R389) -/

theorem fetchOutput_of_partA (hst : s.ctl.st.isPartA = true) :
    fetchOutput s = if s.positionLeft then fetchChain .rle2Literal s else .goes s.blockEnd := by
  rcases St.isPartA_iff.1 hst with h | h <;> simp only [fetchOutput, h]

theorem fetchOutput_of_partB (hst : s.ctl.st.isPartB = true) :
    fetchOutput s =
      if s.fourthEqual then (if s.positionLeft then fetchChain .rle2Count s else .goes s.countMissing)
      else .goes s.compareBytes := by
  rcases St.isPartB_iff.1 hst with h | h <;> simp only [fetchOutput, h]

theorem fetchOutput_of_partC (hst : s.ctl.st.isPartC = true) : fetchOutput s = .goes s.emitCopy := by
  rcases St.isPartC_iff.1 hst with h | h <;> simp only [fetchOutput, h]

/-- An iteration that takes no element is a step of its own. -/
theorem step_of_fetchOutput_goes (ha : s.coreActs) (hp : s.work.phase = .output) (h : fetchOutput s = .goes t) :
    step s = .next t := by
  have hcore : fetchCore s = fetchOutput s := by simp only [fetchCore, hp]
  simp only [step, fetch_of_coreActs ha, hcore, h]

/-- PART_A with every position consumed ends the block (R387). -/
theorem step_of_blockDone (ha : s.coreActs) (hp : s.work.phase = .output) (hst : s.ctl.st.isPartA = true)
    (hdone : s.sym.nblock.toNat ≤ s.cur.consumed.toNat) : step s = .next s.blockEnd := by
  refine step_of_fetchOutput_goes ha hp ?_
  rw [fetchOutput_of_partA hst, State.positionLeft_of_consumed hdone]
  rfl

/-- PART_B without a count byte due compares (R385). -/
theorem step_of_noCountDue (ha : s.coreActs) (hp : s.work.phase = .output) (hst : s.ctl.st.isPartB = true)
    (hdue : ¬ (s.cur.chCur = s.cur.chPrev ∧ 3 ≤ s.cur.runCount.toNat)) : step s = .next s.compareBytes := by
  refine step_of_fetchOutput_goes ha hp ?_
  rw [fetchOutput_of_partB hst, if_neg (mt State.fourthEqual_iff.1 hdue)]

/-- PART_B with a count byte due and none left (R385). -/
theorem step_of_countMissing (ha : s.coreActs) (hp : s.work.phase = .output) (hst : s.ctl.st.isPartB = true)
    (hdue : s.cur.chCur = s.cur.chPrev ∧ 3 ≤ s.cur.runCount.toNat)
    (hdone : s.sym.nblock.toNat ≤ s.cur.consumed.toNat) : step s = .next s.countMissing := by
  refine step_of_fetchOutput_goes ha hp ?_
  rw [fetchOutput_of_partB hst, if_pos (State.fourthEqual_iff.2 hdue), State.positionLeft_of_consumed hdone]
  rfl

theorem step_of_partC (ha : s.coreActs) (hp : s.work.phase = .output) (hst : s.ctl.st.isPartC = true) :
    step s = .next s.emitCopy :=
  step_of_fetchOutput_goes ha hp (fetchOutput_of_partC hst)

/-! ### The driver's next states, by the case of their own test -/

theorem State.compareBytes_of_eq (h : s.cur.chCur = s.cur.chPrev) :
    s.compareBytes = { s with
      cur := { s.cur with runCount := s.cur.runCount + 1 }, ctl := { s.ctl with st := s.partA } } := if_pos h

theorem State.compareBytes_of_ne (h : s.cur.chCur ≠ s.cur.chPrev) :
    s.compareBytes = { s with cur := { s.cur with runCount := 1 }, ctl := { s.ctl with st := s.partA } } := if_neg h

theorem State.emitCopy_of_copyLeft (h : s.cur.repDone.toNat < s.cur.repCount.toNat) :
    s.emitCopy = { s with
      cur := { s.cur with repDone := s.cur.repDone + 1 }
      crc := { s.crc with blockCrc := crcStep s.crc.blockCrc (s.cur.chCur.setWidth 8) }
      cnt := { s.cnt with bytesOut := s.cnt.bytesOut + 1 }
      work := { s.work with phase := .ready }
      out := .response (0#8 ++ s.cur.chCur.setWidth 8) :: s.out } := if_pos h

theorem State.emitCopy_of_done (h : s.cur.repCount.toNat ≤ s.cur.repDone.toNat) :
    s.emitCopy = { s with
      cur := { s.cur with consumed := s.cur.consumed + 1, runCount := 0 }, ctl := { s.ctl with st := s.partA } } :=
  if_neg (Nat.not_lt.2 h)

theorem State.blockEnd_of_match (h : ~~~ s.crc.blockCrc = s.blk.storedBlockCrc) :
    s.blockEnd = { s with
      crc := { s.crc with
        computedBlockCrc := ~~~ s.crc.blockCrc
        combinedCrc := s.crc.combinedCrc.rotateLeft 1 ^^^ ~~~ s.crc.blockCrc }
      ctl := { s.ctl with st := .startBlock } } := by
  simp only [State.blockEnd, crcFinal_eq_not, h, bne_self_eq_false, Bool.false_eq_true, if_false,
    combineCrc_eq_rotateLeft, State.setSt]

theorem State.blockEnd_of_mismatch (h : ~~~ s.crc.blockCrc ≠ s.blk.storedBlockCrc) :
    s.blockEnd = { s with crc := { s.crc with computedBlockCrc := ~~~ s.crc.blockCrc } }.raise .crcMismatchBlock := by
  simp only [State.blockEnd, crcFinal_eq_not, bne_iff_ne.2 h, if_true]

end

/-! ### The obligations -/

/-- Settles O42: the chain position lies in the block, and a derandomizer's countdown is running or has expired. -/
theorem byteFetch : Obligations.ByteFetch :=
  ⟨fun _ hpos hcap => State.fetchByte_ok (Nat.lt_min.2 ⟨hpos, hpos.trans_le hcap⟩),
    fun _ => State.derandomise_of_counting, fun _ => State.derandomise_of_expired⟩

/-- Settles O45: the PART and its test select the next state, which is then read off. -/
theorem outputTransitions : Obligations.OutputTransitions := by
  refine ⟨fun s ha hp hst hne => ?_, fun s ha hp hst heq hrun => ?_, fun s ha hp hst heq hrun hdone => ?_,
    fun s ha hp hst hleft => ?_, fun s ha hp hst hend => ?_, fun s ha hp hst hdone hcrc => ?_,
    fun s ha hp hst hdone hcrc => ?_⟩
  · rw [step_of_noCountDue ha hp hst fun hdue => hne hdue.1, State.compareBytes_of_ne hne]
  · rw [step_of_noCountDue ha hp hst fun hdue => Nat.not_lt.2 hdue.2 hrun, State.compareBytes_of_eq heq]
  · exact step_of_countMissing ha hp hst ⟨heq, hrun⟩ hdone
  · rw [step_of_partC ha hp hst, State.emitCopy_of_copyLeft hleft]
  · rw [step_of_partC ha hp hst, State.emitCopy_of_done hend]
  · rw [step_of_blockDone ha hp hst hdone, State.blockEnd_of_match hcrc]
  · rw [step_of_blockDone ha hp hst hdone, State.blockEnd_of_mismatch hcrc]

end Sys2Proof.Machine
end

section
/-! SUPPORT. Lemmas and proofs for family 47_crc (47_crc.md). What a step does is a chain of updates; each puts out nothing
and leaves BLOCK_CRC alone, or puts out a response that is no BYTE response, or folds the byte it returns. The block setup
is the only one that does none of these. -/

namespace Sys2Proof.Machine

/-! ### The bytes among the events -/

theorem responsesOf_append (a b : List OutEvent) : responsesOf (a ++ b) = responsesOf a ++ responsesOf b := by
  induction a with
  | nil => rfl
  | cons e a ih =>
    cases e with
    | response w => exact congrArg (w :: ·) ih
    | closeStrobe | statusData _ => exact ih

/-- Later events stand first in the log and last in the order of output. -/
theorem bytesOf_append (a b : List OutEvent) : bytesOf (a ++ b) = bytesOf b ++ bytesOf a := by
  simp only [bytesOf, responsesOf_append, List.reverse_append, List.filterMap_append]

/-- The status field is zero in a BYTE response only (48_host_interface.md R452). -/
theorem responseWord_status_eq_zero_iff (status : BitVec 3) (d : Byte) :
    (responseWord status d).extractLsb' 8 8 = 0 ↔ status = statusByte := by
  have hfield : (responseWord status d).extractLsb' 8 8 = 0#5 ++ status := BitVec.extractLsb'_append_eq_left
  have hzero : ∀ field : BitVec 3, 0#5 ++ field = 0 ↔ field = statusByte := by decide
  rw [hfield, hzero]

theorem responseWord_data (status : BitVec 3) (d : Byte) : (responseWord status d).extractLsb' 0 8 = d :=
  BitVec.extractLsb'_append_eq_right

/-- Only a BYTE response returns a byte. -/
theorem bytesOf_response (status : BitVec 3) (d : Byte) :
    bytesOf [.response (responseWord status d)] = if status = statusByte then [d] else [] := by
  simp only [bytesOf, responsesOf, List.reverse_singleton, List.filterMap_cons, List.filterMap_nil,
    responseWord_status_eq_zero_iff, responseWord_data]
  split_ifs <;> rfl

/-! ### The bytes BLOCK_CRC covers -/

/-- From `s` to `t`, BLOCK_CRC takes in exactly the bytes of the BYTE responses put out (47_crc.md R437). -/
def CrcCovers (s t : State) : Prop :=
  ∃ events, t.out = events ++ s.out ∧ t.crc.blockCrc = (bytesOf events).foldl crcStep s.crc.blockCrc

section
variable {s t u : State}

theorem newEvents_of_append {events : List OutEvent} (h : t.out = events ++ s.out) : newEvents s t = events := by
  rw [newEvents, h, List.length_append, Nat.add_sub_cancel, List.take_left]

theorem CrcCovers.blockCrc_eq (h : CrcCovers s t) :
    t.crc.blockCrc = (bytesOf (newEvents s t)).foldl crcStep s.crc.blockCrc := by
  obtain ⟨events, hout, hcrc⟩ := h
  rw [newEvents_of_append hout, hcrc]

/-- Nothing is put out and BLOCK_CRC stays. -/
theorem crcCovers_of_eq (hout : t.out = s.out) (hcrc : t.crc.blockCrc = s.crc.blockCrc) : CrcCovers s t :=
  ⟨[], hout, hcrc⟩

theorem CrcCovers.refl (s : State) : CrcCovers s s := crcCovers_of_eq rfl rfl

theorem CrcCovers.trans (h : CrcCovers s t) (h' : CrcCovers t u) : CrcCovers s u := by
  obtain ⟨events, hout, hcrc⟩ := h
  obtain ⟨events', hout', hcrc'⟩ := h'
  refine ⟨events' ++ events, ?_, ?_⟩
  · rw [hout', hout, List.append_assoc]
  · rw [bytesOf_append, List.foldl_append, ← hcrc, hcrc']

/-- What leads to a state depends on the ports and the CRC registers only. -/
theorem CrcCovers.of_eq_left (h : CrcCovers u t) (hout : u.out = s.out) (hcrc : u.crc = s.crc) : CrcCovers s t :=
  (crcCovers_of_eq hout (congrArg CrcRegs.blockCrc hcrc)).trans h

/-- An event that returns no byte. -/
theorem crcCovers_emit {e : OutEvent} (he : bytesOf [e] = []) : CrcCovers s (s.emit e) := ⟨[e], rfl, by rw [he]; rfl⟩

theorem CrcCovers.goto (h : CrcCovers s u) (p : Phase) : CrcCovers s (u.goto p) := h

theorem CrcCovers.respond (h : CrcCovers s u) {status : BitVec 3} (hs : status ≠ statusByte) (d : Byte) :
    CrcCovers s (u.respond status d) :=
  h.trans (crcCovers_emit (s := u.goto .ready) (by rw [bytesOf_response, if_neg hs]))

theorem CrcCovers.raise (h : CrcCovers s u) (f : CoreFault) : CrcCovers s (u.raise f) := h.respond (by decide) _

/-- A check of the core: a fault, or on to the next place. -/
theorem CrcCovers.check {c : Prop} [Decidable c] (h : CrcCovers s u) (f : CoreFault) (p : Phase) :
    CrcCovers s (if c then u.raise f else u.goto p) := by
  split
  · exact h.raise f
  · exact h.goto p

/-- A byte is folded and returned in one update (46_output_fsm.md R384, R386). -/
theorem crcCovers_returnByte {b : Byte} (hout : t.out = .response (responseWord statusByte b) :: s.out)
    (hcrc : t.crc.blockCrc = crcStep s.crc.blockCrc b) : CrcCovers s t :=
  ⟨[_], hout, by rw [bytesOf_response, if_pos rfl, hcrc]; rfl⟩

/-- Releasing the source puts out the strobe at most (48_host_interface.md R470). -/
theorem crcCovers_srcClose (s : State) : CrcCovers s s.srcClose := by
  have hcrc : s.srcClose.crc.blockCrc = s.crc.blockCrc := by rw [State.srcClose_crc]
  have hout := srcClose_out s
  split at hout
  · exact ⟨[.closeStrobe], hout, hcrc⟩
  · exact crcCovers_of_eq hout hcrc

/-! ### Instructions -/

theorem seekRange_crcCovers (l : List Nat) (s : State) : CrcCovers s (State.seekRange l s) := by
  induction l generalizing s with
  | nil => exact CrcCovers.check (u := s.buildMap) (crcCovers_of_eq rfl rfl) _ _
  | cons i l ih =>
    unfold State.seekRange
    split
    · exact crcCovers_of_eq rfl rfl
    · exact (ih _).of_eq_left (State.setRange_out s i 0) (State.setRange_crc s i 0)

theorem execNSelectors_crcCovers {n : BitVec 15} (h : execNSelectors n s = .next t) : CrcCovers s t := by
  unfold execNSelectors at h
  dsimp only at h
  split_ifs at h <;> injection h with h <;> subst h
  · exact CrcCovers.raise (crcCovers_of_eq rfl rfl) _
  · exact crcCovers_of_eq rfl rfl

theorem execSelectorMtf_crcCovers {j : BitVec 3} (h : execSelectorMtf j s = .next t) : CrcCovers s t := by
  unfold execSelectorMtf at h
  dsimp only at h
  split at h
  · injection h with h
    exact h ▸ (CrcCovers.refl s).raise _
  · obtain ⟨_, -, h⟩ := bind_eq_ok (ofExcept_next_iff.1 h)
    obtain ⟨_, -, h⟩ := bind_eq_ok h
    split at h <;> injection h with h <;> exact h ▸ crcCovers_of_eq rfl rfl

theorem setCurr_crcCovers (c : BitVec 5) (s : State) : CrcCovers s (s.setCurr c) :=
  CrcCovers.check (u := { s with work := { s.work with curr := c } }) (crcCovers_of_eq rfl rfl) _ _

theorem foldl_buildTable_crcCovers (l : List Nat) (s : State) : CrcCovers s (l.foldl State.buildTable s) := by
  induction l generalizing s with
  | nil => exact CrcCovers.refl s
  | cons i l ih =>
    exact (ih _).of_eq_left (State.buildTable_out s i) (State.buildTable_crc s i)

theorem buildTables_crcCovers (h : s.buildTables = .ok t) : CrcCovers s t := by
  unfold State.buildTables at h
  split at h
  · injection h with h
    exact h ▸ foldl_buildTable_crcCovers _ s
  · cases h

theorem execLenEnd_crcCovers (h : execLenEnd s = .next t) : CrcCovers s t := by
  obtain ⟨_, -, h⟩ := bind_eq_ok (ofExcept_next_iff.1 h)
  obtain ⟨_, -, h⟩ := bind_eq_ok h
  split_ifs at h
  · injection h with h
    exact h ▸ crcCovers_of_eq rfl rfl
  · injection h with h
    exact h ▸ crcCovers_of_eq rfl rfl
  · obtain ⟨b, hb, h⟩ := bind_eq_ok h
    injection h with h
    subst h
    have hinit : CrcCovers b b.initSymbols := (CrcCovers.refl _).of_eq_left b.initSymbols_out b.initSymbols_crc
    exact ((buildTables_crcCovers hb).of_eq_left rfl rfl).trans hinit

theorem runDigit_crcCovers (d : Nat) (s : State) : CrcCovers s (s.runDigit d) :=
  CrcCovers.check (u := s.withRun _ _) (crcCovers_of_eq rfl rfl) _ _

/-- The end of a run writes to the block, not to the ports. -/
theorem endRun_out_crc (h : s.endRun = .ok t) : t.out = s.out ∧ t.crc = s.crc := by
  cases hin : s.work.inRun with
  | false =>
    rw [State.endRun_of_not_inRun hin] at h
    injection h with h
    exact h ▸ ⟨rfl, rfl⟩
  | true =>
    obtain ⟨-, h⟩ := (State.endRun_ok_iff hin).1 h
    exact h ▸ ⟨rfl, rfl⟩

theorem endRun_crcCovers (h : s.endRun = .ok t) : CrcCovers s t := by
  obtain ⟨hout, hcrc⟩ := endRun_out_crc h
  exact crcCovers_of_eq hout (by rw [hcrc])

theorem execSymMtfv_crcCovers {v : BitVec 9} (h : execSymMtfv v s = .next t) : CrcCovers s t := by
  obtain ⟨u, hu, h⟩ := bind_eq_ok (ofExcept_next_iff.1 h)
  have hrun := endRun_crcCovers hu
  split at h
  · injection h with h
    exact h ▸ hrun.raise _
  · obtain ⟨w, hw, h⟩ := bind_eq_ok h
    obtain ⟨-, -, rfl⟩ := State.literal_ok_iff.1 hw
    injection h with h
    exact h ▸ hrun.trans (crcCovers_of_eq rfl rfl)

theorem execStreamCrc_crcCovers {c : Word} (h : execStreamCrc c s = .next t) : CrcCovers s t := by
  unfold execStreamCrc at h
  dsimp only at h
  split at h <;> injection h with h <;> subst h
  · exact CrcCovers.raise (crcCovers_of_eq rfl rfl) _
  · exact CrcCovers.respond ((crcCovers_srcClose _).of_eq_left rfl rfl) (by decide) _

/-- A command starts what returns bytes in later steps. -/
theorem exec_command_crcCovers {i : Instr} (hi : i.place = .ready) (h : exec i s = .next t) : CrcCovers s t := by
  cases i
  case openCmd nc =>
    obtain ⟨-, h⟩ := ifReady_next h
    split at h <;> injection h with h <;> subst h
    · exact (CrcCovers.refl s).respond (by decide) _
    · exact crcCovers_of_eq rfl rfl
  case nextCmd =>
    obtain ⟨-, h⟩ := ifReady_next h
    cases hst : s.ctl.st <;> rw [hst] at h <;> injection h with h <;> subst h
    case idle | finished | fault => exact (CrcCovers.refl s).respond (by decide) _
    all_goals exact crcCovers_of_eq rfl rfl
  case closeCmd =>
    obtain ⟨-, h⟩ := ifReady_next h
    injection h with h
    exact h ▸ CrcCovers.respond (crcCovers_srcClose s) (by decide) _
  case cmdReserved =>
    obtain ⟨-, h⟩ := ifReady_next h
    injection h with h
    exact h ▸ (CrcCovers.refl s).respond (by decide) _
  all_goals cases hi

/-- SYM_EOB faults, or the block is set up with the initial value (47_crc.md R431). -/
theorem execSymEob_crc (h : execSymEob s = .next t) :
    CrcCovers s t ∨ (t.work.phase = .output ∧ t.out = s.out ∧ t.crc.blockCrc = 0xFFFFFFFF) := by
  obtain ⟨u, hu, h⟩ := bind_eq_ok (ofExcept_next_iff.1 h)
  split at h
  · injection h with h
    exact .inl (h ▸ (endRun_crcCovers hu).raise _)
  · obtain ⟨v, hv, h⟩ := bind_eq_ok h
    obtain ⟨r, -, hv⟩ := bind_eq_ok hv
    obtain ⟨first, -, h⟩ := bind_eq_ok h
    injection hv with hv
    injection h with h
    subst hv h
    exact .inr ⟨rfl, (endRun_out_crc hu).1, rfl⟩

/-- Every instruction but the one that sets up a block. -/
theorem exec_crcCovers {i : Instr} (hi : i ≠ .symEob) (h : exec i s = .next t) : CrcCovers s t := by
  cases i with
  | openCmd _ | nextCmd | closeCmd | cmdReserved _ _ _ => exact exec_command_crcCovers (by rfl) h
  | sig | blockMagic | eosMagic | blockCrc _ | randBit _ | origPtr _ | rle2Count _ =>
    injection h with h
    exact h ▸ crcCovers_of_eq rfl rfl
  | hdr _ =>
    injection h with h
    exact h ▸ CrcCovers.respond (crcCovers_of_eq rfl rfl) (by decide) _
  | otherTrailer _ _ =>
    injection h with h
    exact h ▸ CrcCovers.respond (crcCovers_srcClose s) (by decide) _
  | streamCrc _ => exact execStreamCrc_crcCovers h
  | inuse16 _ =>
    injection h with h
    exact h ▸ (seekRange_crcCovers _ _).of_eq_left rfl rfl
  | inuseInner b =>
    injection h with h
    exact h ▸ (seekRange_crcCovers _ _).of_eq_left (State.setRange_out s _ b) (State.setRange_crc s _ b)
  | nGroups _ =>
    injection h with h
    exact h ▸ CrcCovers.check (crcCovers_of_eq rfl rfl) _ _
  | nSelectors _ => exact execNSelectors_crcCovers h
  | selectorMtf _ => exact execSelectorMtf_crcCovers h
  | lenStart _ =>
    injection h with h
    exact h ▸ (setCurr_crcCovers _ _).of_eq_left rfl rfl
  | lenInc | lenDec =>
    injection h with h
    exact h ▸ setCurr_crcCovers _ s
  | lenEnd => exact execLenEnd_crcCovers h
  | symRuna | symRunb =>
    injection h with h
    exact h ▸ runDigit_crcCovers _ s
  | symMtfv _ => exact execSymMtfv_crcCovers h
  | symEob => exact absurd rfl hi
  | rle2Literal _ =>
    injection h with h
    exact h ▸ crcCovers_returnByte rfl rfl

/-! ### What the core's fetch finds -/

/-- What the fetch finds in `s`: an instruction of the place where `s` stands, on a state with BLOCK_CRC and the ports as
in `s`, or a step that is settled here. -/
def Fetched.CrcCovered (s : State) : Fetched → Prop
  | .run i u => i.place = s.work.phase ∧ u.out = s.out ∧ u.crc = s.crc
  | .goes t => CrcCovers s t
  | .broken _ | .refuses _ => True

theorem rejected_crcCovered (hu : CrcCovers s u) (why : Reject) : (rejected why u).CrcCovered s := by
  cases why with
  | badSignature | badMagic | noCode => exact hu.raise _
  | tableIndex => trivial

theorem fetchElement_crcCovered {c : Ctx} (hc : phaseOf c = s.work.phase) (hout : u.out = s.out) (hcrc : u.crc = s.crc) :
    (fetchElement c s u).CrcCovered s := by
  have hu : CrcCovers s u := crcCovers_of_eq hout (by rw [hcrc])
  rcases fetchElement_cases c s u with ⟨i, r, hd, hf⟩ | ⟨why, r, -, hf⟩ | ⟨r, -, hf⟩ | ⟨-, hf⟩ <;> rw [hf]
  · exact ⟨((decode_gives_place c u.rd).of_instr hd).trans hc, hout, hcrc⟩
  · exact rejected_crcCovered (u := u.withReader r) hu why
  · have hkept : CrcCovers s (u.keepPartial c) :=
      crcCovers_of_eq (by rw [u.keepPartial_out, hout]) (by rw [u.keepPartial_crc, hcrc])
    exact CrcCovers.raise (u := (u.keepPartial c).withReader r) hkept _
  · exact CrcCovers.refl s

theorem fetchSymbol_crcCovered (hp : s.work.phase = .symbols) : (fetchSymbol s).CrcCovered s := by
  unfold fetchSymbol
  split
  · exact CrcCovers.raise (crcCovers_of_eq rfl rfl) _
  · dsimp only
    split
    · trivial
    · exact fetchElement_crcCovered hp.symm s.takeFromGroup_out s.takeFromGroup_crc

/-- The byte fetch moves along the chain only (46_output_fsm.md R382, R383). -/
theorem fetchByte_out_crc {b : Byte} (h : s.fetchByte = .ok (b, t)) : t.out = s.out ∧ t.crc = s.crc := by
  obtain ⟨c, -, h⟩ := bind_eq_ok h
  obtain ⟨n, -, h⟩ := bind_eq_ok h
  injection h with h
  split at h <;> obtain ⟨-, rfl⟩ := Prod.mk.inj h <;> exact ⟨rfl, rfl⟩

theorem fetchChain_crcCovered {mk : Byte → Instr} (hm : ∀ b, (mk b).place = s.work.phase) :
    (fetchChain mk s).CrcCovered s := by
  unfold fetchChain
  split
  · exact ⟨hm _, fetchByte_out_crc ‹_›⟩
  · trivial

theorem compareBytes_crcCovers (s : State) : CrcCovers s s.compareBytes := by
  unfold State.compareBytes
  split <;> exact crcCovers_of_eq rfl rfl

theorem emitCopy_crcCovers (s : State) : CrcCovers s s.emitCopy := by
  unfold State.emitCopy
  split
  · exact crcCovers_returnByte rfl rfl
  · exact crcCovers_of_eq rfl rfl

theorem blockEnd_crcCovers (s : State) : CrcCovers s s.blockEnd := by
  unfold State.blockEnd
  dsimp only
  split
  · exact CrcCovers.raise (crcCovers_of_eq rfl rfl) _
  · exact crcCovers_of_eq rfl rfl

theorem fetchOutput_crcCovered (hp : s.work.phase = .output) : (fetchOutput s).CrcCovered s := by
  unfold fetchOutput
  cases s.ctl.st with
  | startBlock => exact fetchElement_crcCovered hp.symm rfl rfl
  | randPartA | noRandPartA =>
    dsimp only
    split
    · exact fetchChain_crcCovered fun _ => hp.symm
    · exact blockEnd_crcCovers s
  | randPartB | noRandPartB =>
    dsimp only
    split_ifs
    · exact fetchChain_crcCovered fun _ => hp.symm
    · exact CrcCovers.raise (crcCovers_of_eq rfl rfl) _
    · exact compareBytes_crcCovers s
  | randPartC | noRandPartC => exact emitCopy_crcCovers s
  | idle | finished | fault => trivial

theorem fetchCore_crcCovered (s : State) : (fetchCore s).CrcCovered s := by
  unfold fetchCore
  cases hp : s.work.phase with
  | ready => exact CrcCovers.refl s
  | output => exact fetchOutput_crcCovered hp
  | symbols => exact fetchSymbol_crcCovered hp
  | signature | trailer | streamCrc | blockCrc | randBit | origPtr | inuse16 | inuseInner | nGroups | nSelectors | selector
  | lenStart | lenDelta => exact fetchElement_crcCovered hp.symm rfl rfl

/-! ### Who acts -/

/-- A step is an act of the host, or the core's own (70_reset_and_hazards.md R551). -/
theorem hostActs_or_fetchCore (s : State) : (∃ a rest, s.hostActs a rest) ∨ fetch s = fetchCore s := by
  unfold fetch
  split
  · exact .inr rfl
  · exact .inl ⟨_, _, .inl ‹_›⟩
  · split
    · exact .inl ⟨_, _, .inr ⟨‹_›, ‹_›⟩⟩
    · exact .inr rfl

/-- The host's acts but a reset: none returns a byte. -/
theorem step_hostActs_crcCovers {a : HostAction} {rest : List HostEvent} (ha : s.hostActs a rest) (hne : a ≠ .reset)
    (hs : step s = .next t) : CrcCovers s t := by
  obtain ⟨w, -, he⟩ | ⟨n, -, -, rfl⟩ | ⟨answers, -, -, rfl⟩ | ⟨hr, -⟩ := step_hostActs_cases ha hs
  · exact (exec_command_crcCovers (decodeCommand_place w) he).of_eq_left rfl rfl
  · exact crcCovers_emit (s := { s with host := rest }) rfl
  · exact crcCovers_of_eq rfl rfl
  · exact absurd hr hne

/-- The core's own step: BLOCK_CRC covers the bytes returned, or the symbol part ends in a block setup. -/
theorem step_core_crc (hf : fetch s = fetchCore s) (hs : step s = .next t) :
    CrcCovers s t ∨
      (s.work.phase = .symbols ∧ t.work.phase = .output ∧ t.out = s.out ∧ t.crc.blockCrc = 0xFFFFFFFF) := by
  have hcov := fetchCore_crcCovered s
  rw [← hf] at hcov
  rcases step_next_cases hs with ⟨i, u, hrun, he⟩ | hgo
  · rw [hrun] at hcov
    obtain ⟨hplace, hout, hcrc⟩ := hcov
    have hu : CrcCovers s u := crcCovers_of_eq hout (by rw [hcrc])
    by_cases hi : i = .symEob
    · subst hi
      refine (execSymEob_crc he).imp hu.trans fun ⟨hphase, hsame, hinit⟩ => ?_
      exact ⟨hplace.symm, hphase, hsame.trans hout, hinit⟩
    · exact .inl (hu.trans (exec_crcCovers hi he))
  · rw [hgo] at hcov
    exact .inl hcov

end

/-! ### The obligation -/

/-- Settles O53: a byte is returned only where it is folded, and only a block setup writes BLOCK_CRC otherwise. -/
theorem crcCoversReturnedBytes : Obligations.CrcCoversReturnedBytes := by
  intro s t hs hreset
  obtain ⟨a, rest, ha⟩ | hf := hostActs_or_fetchCore s
  · exact .inr (step_hostActs_crcCovers ha (fun hr => hreset ⟨rest, hr ▸ ha⟩) hs).blockCrc_eq
  · obtain hcov | ⟨hp, hp', hout, hinit⟩ := step_core_crc hf hs
    · exact .inr hcov.blockCrc_eq
    · exact .inl ⟨hp, hp', by rw [newEvents_of_append (events := []) hout]; rfl, hinit⟩

end Sys2Proof.Machine
end

section
/-! SUPPORT. Lemmas and proofs for family 48_host_interface (48_host_interface.md): reserved command words and status reads.
A status word is its fields set side by side, so each field is found by going past the fields below it. -/

namespace Sys2Proof

/-! ### Reserved command words -/

theorem isReservedCommand_iff {o : BitVec 2} {n : BitVec 1} {r : BitVec 5} :
    isReservedCommand o n r = true ↔ o = 0 ∨ r ≠ 0 ∨ (n = 1 ∧ o ≠ 1) := by
  simp only [isReservedCommand, Bool.or_eq_true, Bool.and_eq_true, beq_iff_eq, bne_iff_ne, or_assoc]

/-- A reserved word decodes to CMD_RESERVED, whatever its OP (30_encoding.md R130). -/
theorem decodeCommand_of_reserved {w : Byte}
    (h : isReservedCommand (w.extractLsb' 0 2) (w.extractLsb' 2 1) (w.extractLsb' 3 5) = true) :
    decodeCommand w = .cmdReserved (w.extractLsb' 0 2) (w.extractLsb' 2 1) (w.extractLsb' 3 5) :=
  if_pos h

end Sys2Proof

namespace Sys2Proof.Machine

section
variable {s : State}

/-- Between commands a response is put out and nothing else happens. -/
theorem respond_of_ready (hp : s.work.phase = .ready) (status : BitVec 3) (d : Byte) :
    s.respond status d = s.emit (.response (responseWord status d)) := by
  have hgoto : s.goto .ready = s := by rw [State.goto, ← hp]
  rw [State.respond, hgoto]

/-- CMD_RESERVED answers REFUSED with reason 2 (R456): STATUS 5, DATA 2. -/
theorem exec_cmdReserved_of_ready (hp : s.work.phase = .ready) (o : BitVec 2) (n : BitVec 1) (r : BitVec 5) :
    exec (.cmdReserved o n r) s = .next (s.emit (.response 0x0502)) :=
  calc
    exec (.cmdReserved o n r) s = ifReady s (.next (s.respond statusRefused 2)) := rfl
    _ = .next (s.respond statusRefused 2) := ifReady_of_ready hp _
    _ = .next (s.emit (.response 0x0502)) := by rw [respond_of_ready hp]; rfl

/-! ### Steps in which the host acts -/

/-- The step in which a command is presented runs the instruction it decodes to. -/
theorem step_command {w : Byte} {rest : List HostEvent} (ha : s.hostActs (.command w) rest) :
    step s = exec (decodeCommand w) { s with host := rest } := by
  rw [step, fetch_of_hostActs ha]; rfl

theorem step_statusRead_of_ready {a : BitVec 4} {rest : List HostEvent} (ha : s.hostActs (.statusRead a) rest)
    (hp : s.work.phase = .ready) :
    step s = .next (({ s with host := rest } : State).emit (.statusData (s.statusWord a))) := by
  have hf : fetchHost (.statusRead a) { s with host := rest } = _ := if_pos hp
  rw [step, fetch_of_hostActs ha, hf]; rfl

theorem step_statusRead_of_busy {a : BitVec 4} {rest : List HostEvent} (ha : s.hostActs (.statusRead a) rest)
    (hp : s.work.phase ≠ .ready) : step s = .refused .statusReadOutstanding := by
  have hf : fetchHost (.statusRead a) { s with host := rest } = _ := if_neg hp
  rw [step, fetch_of_hostActs ha, hf]

end

/-! ### The bits of a concatenation -/

section
variable {v w i : Nat} (x : BitVec v) (y : BitVec w)

theorem getLsbD_append_low (h : i < w) : (x ++ y).getLsbD i = y.getLsbD i := by
  rw [BitVec.getLsbD_append, if_pos h]

theorem getLsbD_append_high (h : w ≤ i) : (x ++ y).getLsbD i = x.getLsbD (i - w) := by
  rw [BitVec.getLsbD_append, if_neg (Nat.not_lt.2 h)]

end

/-! ### The status words with several fields (R459) -/

section
variable (s : State)

/-- The one-bit fields of STATUS, bits 7 to 4. -/
def State.statusFlags : BitVec 4 :=
  0#1 ++ BitVec.ofBool s.ctl.noClose ++ BitVec.ofBool s.ctl.srcClosed ++ BitVec.ofBool s.blk.randomised

theorem statusFlags_bits :
    s.statusFlags.getLsbD 0 = s.blk.randomised ∧ s.statusFlags.getLsbD 1 = s.ctl.srcClosed ∧
    s.statusFlags.getLsbD 2 = s.ctl.noClose ∧ s.statusFlags.getLsbD 3 = false := by
  unfold State.statusFlags
  generalize s.ctl.noClose = n, s.ctl.srcClosed = c, s.blk.randomised = r
  revert n c r
  decide

/-- STATUS holds the flags in bits 7 to 4. -/
theorem statusWord_status_flag {i : Nat} (h : i < 4) : (s.statusWord 0).getLsbD (4 + i) = s.statusFlags.getLsbD i :=
  calc
    (s.statusWord 0).getLsbD (4 + i) = ((0#20 ++ s.ctl.blockSize100k) ++ s.statusFlags).getLsbD (4 + i - 4) :=
      getLsbD_append_high _ s.ctl.st.code (Nat.le_add_right 4 i)
    _ = s.statusFlags.getLsbD i := by rw [Nat.add_sub_cancel_left, getLsbD_append_low _ _ h]

theorem statusWord_status_st : (s.statusWord 0).extractLsb' 0 4 = s.ctl.st.code := BitVec.extractLsb'_append_eq_right

/-- Above the flags STATUS holds BLOCK_SIZE_100K in bits 11 to 8, and zeros. -/
theorem statusWord_status_above_flags {start len : Nat} :
    (s.statusWord 0).extractLsb' (8 + start) len = (0#20 ++ s.ctl.blockSize100k).extractLsb' start len := by
  refine (BitVec.extractLsb'_append_eq_of_le (by omega)).trans ?_
  refine (BitVec.extractLsb'_append_eq_of_le (by omega)).trans ?_
  congr 1
  omega

theorem statusWord_status_multiplier : (s.statusWord 0).extractLsb' 8 4 = s.ctl.blockSize100k :=
  (statusWord_status_above_flags s).trans BitVec.extractLsb'_append_eq_right

theorem statusWord_status_unlisted : (s.statusWord 0).extractLsb' 12 20 = 0 :=
  (statusWord_status_above_flags s).trans BitVec.extractLsb'_append_eq_left

theorem statusWord_fault_code : (s.statusWord 1).extractLsb' 0 4 = s.ctl.faultCode := BitVec.extractLsb'_append_eq_right

theorem statusWord_fault_detail : (s.statusWord 1).extractLsb' 4 4 = s.ctl.faultDetail :=
  (BitVec.extractLsb'_append_eq_of_le (by decide)).trans BitVec.extractLsb'_append_eq_right

theorem statusWord_fault_unlisted : (s.statusWord 1).extractLsb' 8 24 = 0 :=
  (BitVec.extractLsb'_append_eq_of_le (by decide)).trans BitVec.extractLsb'_append_eq_left

theorem statusWord_nblock : s.statusWord 8 = s.sym.nblock.setWidth 32 := (BitVec.setWidth_eq_append (by decide)).symm

theorem statusWord_origPtr : s.statusWord 9 = s.blk.origPtr.setWidth 32 := (BitVec.setWidth_eq_append (by decide)).symm

/-- TABLES holds N_IN_USE in bits 8 to 0, below zeros up to bit 11. -/
theorem statusWord_tables_low {start len : Nat} (h : start + len ≤ 12) :
    (s.statusWord 10).extractLsb' start len = (0#3 ++ s.map.nInUse).extractLsb' start len :=
  BitVec.extractLsb'_append_eq_of_add_le h

theorem statusWord_tables_nInUse : (s.statusWord 10).extractLsb' 0 9 = s.map.nInUse :=
  (statusWord_tables_low s (by decide)).trans BitVec.extractLsb'_append_eq_right

theorem statusWord_tables_unlisted : (s.statusWord 10).extractLsb' 9 3 = 0 :=
  (statusWord_tables_low s (by decide)).trans BitVec.extractLsb'_append_eq_left

theorem statusWord_tables_nGroups : (s.statusWord 10).extractLsb' 12 3 = s.sel.nGroups :=
  calc
    (s.statusWord 10).extractLsb' 12 3 = ((0#1 ++ s.sel.nSelectors) ++ (0#1 ++ s.sel.nGroups)).extractLsb' 0 3 :=
      BitVec.extractLsb'_append_eq_of_le (by decide)
    _ = (0#1 ++ s.sel.nGroups).extractLsb' 0 3 := BitVec.extractLsb'_append_eq_of_add_le (by decide)
    _ = s.sel.nGroups := BitVec.extractLsb'_append_eq_right

theorem statusWord_tables_bit15 : (s.statusWord 10).getLsbD 15 = false :=
  calc
    (s.statusWord 10).getLsbD 15 = ((0#1 ++ s.sel.nSelectors) ++ (0#1 ++ s.sel.nGroups)).getLsbD 3 :=
      getLsbD_append_high _ _ (by decide)
    _ = (0#1 ++ s.sel.nGroups).getLsbD 3 := getLsbD_append_low _ _ (by decide)
    _ = false := getLsbD_append_high 0#1 _ (by decide)

theorem statusWord_tables_nSelectors : (s.statusWord 10).extractLsb' 16 15 = s.sel.nSelectors :=
  calc
    (s.statusWord 10).extractLsb' 16 15 = ((0#1 ++ s.sel.nSelectors) ++ (0#1 ++ s.sel.nGroups)).extractLsb' 4 15 :=
      BitVec.extractLsb'_append_eq_of_le (by decide)
    _ = (0#1 ++ s.sel.nSelectors).extractLsb' 0 15 := BitVec.extractLsb'_append_eq_of_le (by decide)
    _ = s.sel.nSelectors := BitVec.extractLsb'_append_eq_right

theorem statusWord_tables_bit31 : (s.statusWord 10).getLsbD 31 = false :=
  calc
    (s.statusWord 10).getLsbD 31 = ((0#1 ++ s.sel.nSelectors) ++ (0#1 ++ s.sel.nGroups)).getLsbD 19 :=
      getLsbD_append_high _ _ (by decide)
    _ = (0#1 ++ s.sel.nSelectors).getLsbD 15 := getLsbD_append_high _ _ (by decide)
    _ = false := getLsbD_append_high 0#1 _ (by decide)

end

/-! ### The obligations -/

/-- Settles O4: the word decodes to CMD_RESERVED, which between commands only responds. -/
theorem reservedCommandsRefused : Obligations.ReservedCommandsRefused := by
  refine ⟨fun s w rest ha hp hw => ?_, fun s o n r hp => exec_cmdReserved_of_ready hp o n r⟩
  rw [step_command ha, decodeCommand_of_reserved (isReservedCommand_iff.2 hw)]
  exact exec_cmdReserved_of_ready (s := { s with host := rest }) hp _ _ _

/-- Settles O9: the step of a status read, then the sixteen words one by one. -/
theorem statusReads : Obligations.StatusReads := by
  refine ⟨fun s a rest => step_statusRead_of_ready, fun s a rest => step_statusRead_of_busy, fun s => ?_⟩
  obtain ⟨hrandomised, hsrcClosed, hnoClose, hbit7⟩ := statusFlags_bits s
  refine ⟨⟨statusWord_status_st s, ?_, ?_, ?_, ?_, statusWord_status_multiplier s, statusWord_status_unlisted s⟩,
    ⟨statusWord_fault_code s, statusWord_fault_detail s, statusWord_fault_unlisted s⟩, rfl, rfl, rfl, rfl, rfl, rfl,
    statusWord_nblock s, statusWord_origPtr s,
    ⟨statusWord_tables_nInUse s, statusWord_tables_unlisted s, statusWord_tables_nGroups s, statusWord_tables_bit15 s,
      statusWord_tables_nSelectors s, statusWord_tables_bit31 s⟩, rfl, rfl, rfl, rfl, rfl⟩
  · exact (statusWord_status_flag s (i := 0) (by decide)).trans hrandomised
  · exact (statusWord_status_flag s (i := 1) (by decide)).trans hsrcClosed
  · exact (statusWord_status_flag s (i := 2) (by decide)).trans hnoClose
  · exact (statusWord_status_flag s (i := 3) (by decide)).trans hbit7

end Sys2Proof.Machine
end

section
/-! SUPPORT. Lemmas and proofs for family 60_exceptions (60_exceptions.md). In FAULT no command is outstanding and the core
still owns the source, so a step is an act of the host: attaching a source is refused, a status read and every command but
CLOSE only put out an event. -/

namespace Sys2Proof.Machine

section
variable {s t : State}

/-! ### FAULT in a coherent state -/

/-- While a command is outstanding a stream is being opened or decoded (10_state.md R22, 48_host_interface.md R457). -/
theorem State.CtlOk.st_of_busy (h : s.CtlOk) (hp : s.work.phase ≠ .ready) :
    s.ctl.st = .idle ∨ s.ctl.st.running = true := by
  cases hw : s.work.phase with
  | ready => exact absurd hw hp
  | signature | trailer => exact .inl (h.opening (by rw [hw]; rfl))
  | output => exact .inr (h.driver hw)
  | streamCrc | blockCrc | randBit | origPtr | inuse16 | inuseInner | nGroups | nSelectors | selector | lenStart | lenDelta
  | symbols => exact .inr (by rw [h.inBlock (by rw [hw]; rfl)]; rfl)

theorem State.CtlOk.ready_of_fault (h : s.CtlOk) (hst : s.ctl.st = .fault) : s.work.phase = .ready := by
  by_contra hp
  have hbusy := h.st_of_busy hp
  rw [hst] at hbusy
  exact absurd hbusy (by decide)

theorem State.CtlOk.owned_of_fault (h : s.CtlOk) (hst : s.ctl.st = .fault) : s.ctl.srcClosed = false := by
  simp [← Bool.not_eq_true, h.closed, hst]

/-! ### Commands in FAULT (48_host_interface.md R453 to R457) -/

/-- OPEN is refused outside IDLE: STATUS 5, DATA 1. -/
theorem exec_openCmd_of_ne_idle (hp : s.work.phase = .ready) (hst : s.ctl.st ≠ .idle) (nc : BitVec 1) :
    exec (.openCmd nc) s = .next (s.emit (.response 0x0501)) :=
  calc
    exec (.openCmd nc) s = if s.ctl.st ≠ .idle then .next s.refuseState else _ := ifReady_of_ready hp _
    _ = .next s.refuseState := if_pos hst
    _ = .next (s.emit (.response 0x0501)) := by rw [State.refuseState, respond_of_ready hp]; rfl

/-- NEXT answers the stored fault. -/
theorem exec_nextCmd_of_fault (hp : s.work.phase = .ready) (hst : s.ctl.st = .fault) :
    exec .nextCmd s =
      .next (s.emit (.response (responseWord statusFault (s.ctl.faultDetail ++ s.ctl.faultCode)))) := by
  have hexec : exec .nextCmd s = _ := ifReady_of_ready hp _
  rw [hexec, hst]
  exact congrArg _ (respond_of_ready hp _ _)

theorem exec_closeCmd_of_ready (hp : s.work.phase = .ready) : ∃ t, exec .closeCmd s = .next t :=
  ⟨_, ifReady_of_ready hp _⟩

/-- CLOSE leaves the control registers as in IDLE, the multiplier kept (R455). -/
theorem exec_closeCmd_ctl (he : exec .closeCmd s = .next t) :
    t.ctl = { s.ctl with st := .idle, noClose := false, faultCode := 0, faultDetail := 0, srcClosed := true } := by
  obtain ⟨-, he⟩ := ifReady_next he
  injection he with he
  subst he
  simp [srcClose_ctl]

/-- In FAULT every command but CLOSE only responds. -/
theorem exec_command_of_fault {i : Instr} (hi : i.place = .ready) (hp : s.work.phase = .ready) (hst : s.ctl.st = .fault)
    (he : exec i s = .next t) : i = .closeCmd ∨ ∃ w, t = s.emit (.response w) := by
  have responds {w : BitVec 16} (hw : exec i s = .next (s.emit (.response w))) : ∃ w, t = s.emit (.response w) := by
    rw [hw] at he
    injection he with he
    exact ⟨w, he.symm⟩
  cases i
  case closeCmd => exact .inl rfl
  case openCmd nc => exact .inr (responds (exec_openCmd_of_ne_idle hp (by simp [hst]) nc))
  case nextCmd => exact .inr (responds (exec_nextCmd_of_fault hp hst))
  case cmdReserved o n r => exact .inr (responds (exec_cmdReserved_of_ready hp o n r))
  all_goals cases hi

/-! ### Steps in FAULT -/

/-- From a coherent FAULT state a step is a reset, a CLOSE, or leaves the control registers and the reader alone. -/
theorem step_of_fault (h : s.CtlOk) (hst : s.ctl.st = .fault) (hs : step s = .next t) :
    s.takesReset ∨
    (∃ w rest, s.hostActs (.command w) rest ∧ decodeCommand w = .closeCmd ∧
      exec .closeCmd { s with host := rest } = .next t) ∨
    (t.ctl = s.ctl ∧ t.rd = s.rd) := by
  have hp := h.ready_of_fault hst
  obtain rfl | ⟨a, rest, ha⟩ := step_of_ready hp hs
  · exact .inr (.inr ⟨rfl, rfl⟩)
  obtain ⟨w, rfl, he⟩ | ⟨n, -, -, rfl⟩ | ⟨answers, -, hclosed, -⟩ | ⟨rfl, -⟩ := step_hostActs_cases ha hs
  · obtain hclose | ⟨r, rfl⟩ := exec_command_of_fault (s := { s with host := rest }) (decodeCommand_place w) hp hst he
    · exact .inr (.inl ⟨w, rest, ha, hclose, hclose ▸ he⟩)
    · exact .inr (.inr ⟨rfl, rfl⟩)
  · exact .inr (.inr ⟨rfl, rfl⟩)
  · exact absurd hclosed (by simp [h.owned_of_fault hst])
  · exact .inl ⟨rest, ha⟩

end

/-! ### The obligations -/

/-- Settles O50: the answers of the three commands, then the step by who acts. -/
theorem faultIsSticky : Obligations.FaultIsSticky := by
  refine ⟨fun s hp hst => ⟨exec_nextCmd_of_fault hp hst, exec_openCmd_of_ne_idle hp (by simp [hst]), ?_⟩,
    fun s t h hst hs => ?_⟩
  · obtain ⟨t, he⟩ := exec_closeCmd_of_ready hp
    have hctl := exec_closeCmd_ctl he
    exact ⟨t, he, by simp [hctl]⟩
  · obtain hreset | ⟨w, rest, ha, hclose, he⟩ | ⟨hctl, hrd⟩ := step_of_fault h hst hs
    · exact .inl hreset
    · have hctl := exec_closeCmd_ctl he
      exact .inr (.inl ⟨by simp [hctl], by simp [hctl], by simp [hctl], w, rest, ha, hclose⟩)
    · exact .inr (.inr ⟨by rw [hctl, hst], by rw [hctl], by rw [hctl], hrd⟩)

/-- Settles O6: fault entry writes ST, FAULT_CODE and FAULT_DETAIL and then responds; R501 has sixteen rows. -/
theorem faultEntry : Obligations.FaultEntry :=
  ⟨fun _ _ => rfl, by decide⟩

end Sys2Proof.Machine
end

section
/-! SUPPORT. Which steps touch the stores. The commands, the header's elements and the driver leave every store alone; the
table elements and the symbols write theirs in canonical form. So every step keeps the canonical form, and no step of the
driver changes the block it emits (20_memory.md R97). -/

namespace Sys2Proof.Machine

/-- From `s` to `t` the map, the selectors, the tables, the symbol decoder and the block buffers stay. -/
structure SameStores (s t : State) : Prop where
  map : t.map = s.map
  sel : t.sel = s.sel
  tab : t.tab = s.tab
  sym : t.sym = s.sym
  bwt : t.bwt = s.bwt

section
variable {s t u : State}

theorem SameStores.refl (s : State) : SameStores s s := ⟨rfl, rfl, rfl, rfl, rfl⟩

theorem SameStores.trans (h : SameStores s t) (h' : SameStores t u) : SameStores s u :=
  ⟨h'.map.trans h.map, h'.sel.trans h.sel, h'.tab.trans h.tab, h'.sym.trans h.sym, h'.bwt.trans h.bwt⟩

theorem SameStores.wf (h : SameStores s t) (hwf : Memory.wf s = true) : Memory.wf t = true :=
  (Memory.wf_congr h.map h.sel h.tab h.sym h.bwt).trans hwf

theorem sameStores_srcClose (s : State) : SameStores s s.srcClose :=
  ⟨s.srcClose_map, s.srcClose_sel, s.srcClose_tab, s.srcClose_sym, s.srcClose_bwt⟩

/-! ### Instructions that leave the stores alone -/

/-- A command touches no store (48_host_interface.md R453 to R456). -/
theorem exec_command_sameStores {i : Instr} (hi : i.place = .ready) (he : exec i s = .next t) : SameStores s t := by
  cases i
  case openCmd nc =>
    obtain ⟨-, he⟩ := ifReady_next he
    split at he <;> injection he with he <;> exact he ▸ ⟨rfl, rfl, rfl, rfl, rfl⟩
  case nextCmd =>
    obtain ⟨-, he⟩ := ifReady_next he
    split at he <;> injection he with he <;> exact he ▸ ⟨rfl, rfl, rfl, rfl, rfl⟩
  case closeCmd =>
    obtain ⟨-, he⟩ := ifReady_next he
    injection he with he
    exact he ▸ (sameStores_srcClose s).trans ⟨rfl, rfl, rfl, rfl, rfl⟩
  case cmdReserved =>
    obtain ⟨-, he⟩ := ifReady_next he
    injection he with he
    exact he ▸ ⟨rfl, rfl, rfl, rfl, rfl⟩
  all_goals cases hi

theorem execStreamCrc_sameStores {c : Word} (he : execStreamCrc c s = .next t) : SameStores s t := by
  unfold execStreamCrc at he
  dsimp only at he
  split at he <;> injection he with he <;> subst he
  · exact ⟨rfl, rfl, rfl, rfl, rfl⟩
  · obtain ⟨hm, hs, ht, hy, hb⟩ := sameStores_srcClose { s with blk := { s.blk with storedCombinedCrc := c } }
    exact ⟨hm, hs, ht, hy, hb⟩

/-- An element of the stream header, of the block header or of the decoded block touches no store. -/
theorem exec_sameStores {i : Instr} (hi : i.place.opening = true ∨ i.place = .output ∨ i.place = .blockCrc ∨
    i.place = .streamCrc ∨ i.place = .randBit ∨ i.place = .origPtr) (he : exec i s = .next t) : SameStores s t := by
  cases i
  case sig | hdr | blockMagic | eosMagic | blockCrc | randBit | origPtr | rle2Literal | rle2Count =>
    injection he with he
    exact he ▸ ⟨rfl, rfl, rfl, rfl, rfl⟩
  case otherTrailer =>
    injection he with he
    exact he ▸ (sameStores_srcClose s).trans ⟨rfl, rfl, rfl, rfl, rfl⟩
  case streamCrc c => exact execStreamCrc_sameStores he
  all_goals simp [Instr.place, Phase.opening] at hi

/-! ### The table elements and the symbols keep the canonical form -/

/-- INUSE16's writes (42_tables.md R250). -/
theorem wf_storePresence (h : Memory.wf s = true) (l : List (Nat × BitVec 1)) :
    Memory.wf { s with map := { s.map with inUse16 := s.map.inUse16.putAll l } } = true := by
  obtain ⟨huse, hrest⟩ := (Memory.wf_iff s).1 h
  exact (Memory.wf_iff _).2 ⟨Store.putAll_wf huse _, hrest⟩

theorem execInuse16_wf {u : BitVec 16} (h : Memory.wf s = true) (he : execInuse16 u s = .next t) :
    Memory.wf t = true := by
  have hu := wf_storePresence h ((List.range 16).map fun i => (i, mapBit u i))
  rw [← Host.Outcome.next.inj he]
  exact Memory.wf_seekRange _ hu

theorem execInuseInner_wf {b : BitVec 16} (h : Memory.wf s = true) (he : execInuseInner b s = .next t) :
    Memory.wf t = true := by
  rw [← Host.Outcome.next.inj he]
  exact Memory.wf_seekRange _ (Memory.wf_setRange h _ b)

theorem execNSelectors_wf {n : BitVec 15} (h : Memory.wf s = true) (he : execNSelectors n s = .next t) :
    Memory.wf t = true := by
  unfold execNSelectors at he
  dsimp only at he
  split_ifs at he <;> injection he with he <;> subst he
  · exact h
  · obtain ⟨h1, h2, h3, h4, h5, hpos, h7⟩ := (Memory.wf_iff s).1 h
    exact (Memory.wf_iff _).2 ⟨h1, h2, h3, h4, h5, Store.putAll_wf hpos _, h7⟩

theorem execSelectorMtf_wf {j : BitVec 3} (h : Memory.wf s = true) (he : execSelectorMtf j s = .next t) :
    Memory.wf t = true := by
  unfold execSelectorMtf at he
  dsimp only at he
  split at he
  · injection he with he
    exact he ▸ h
  · obtain ⟨_, -, he⟩ := bind_eq_ok (ofExcept_next_iff.1 he)
    obtain ⟨_, -, he⟩ := bind_eq_ok he
    split at he <;> injection he with he <;> exact he ▸ Memory.wf_selectorMtf h _ _

theorem setCurr_wf (c : BitVec 5) (h : Memory.wf s = true) : Memory.wf (s.setCurr c) = true := by
  unfold State.setCurr
  dsimp only
  split <;> exact h

/-- LEN_END's write of the current length (42_tables.md R259). -/
theorem wf_storeLength (h : Memory.wf s = true) (k : Nat) :
    Memory.wf { s with tab := { s.tab with len := s.tab.len.put k s.work.curr } } = true := by
  obtain ⟨h1, h2, h3, h4, h5, h6, hlen, h8⟩ := (Memory.wf_iff s).1 h
  exact (Memory.wf_iff _).2 ⟨h1, h2, h3, h4, h5, h6, Store.put_wf hlen _ _, h8⟩

theorem execLenEnd_wf (h : Memory.wf s = true) (he : execLenEnd s = .next t) : Memory.wf t = true := by
  obtain ⟨_, -, he⟩ := bind_eq_ok (ofExcept_next_iff.1 he)
  obtain ⟨_, -, he⟩ := bind_eq_ok he
  have hu := wf_storeLength h (symbolKey s.work.lenGroup.toNat s.work.lenSym.toNat)
  split_ifs at he
  · injection he with he
    exact he ▸ hu
  · injection he with he
    exact he ▸ hu
  · obtain ⟨b, hb, he⟩ := bind_eq_ok he
    injection he with he
    exact he ▸ Memory.wf_initSymbols (Memory.wf_buildTables hu hb)

theorem runDigit_wf (d : Nat) (h : Memory.wf s = true) : Memory.wf (s.runDigit d) = true := by
  rw [State.runDigit_withRun]
  dsimp only
  split <;> exact h

theorem execSymMtfv_wf {v : BitVec 9} (h : Memory.wf s = true) (he : execSymMtfv v s = .next t) : Memory.wf t = true := by
  obtain ⟨u, hu, he⟩ := bind_eq_ok (ofExcept_next_iff.1 he)
  have hrun := Memory.wf_endRun h hu
  split at he
  · injection he with he
    exact he ▸ hrun
  · obtain ⟨w, hw, he⟩ := bind_eq_ok he
    have hlit := Memory.wf_literal hrun hw
    injection he with he
    exact he ▸ hlit

theorem execSymEob_wf (h : Memory.wf s = true) (he : execSymEob s = .next t) : Memory.wf t = true := by
  obtain ⟨u, hu, he⟩ := bind_eq_ok (ofExcept_next_iff.1 he)
  have hrun := Memory.wf_endRun h hu
  split at he
  · injection he with he
    exact he ▸ hrun
  · obtain ⟨w, hw, he⟩ := bind_eq_ok he
    exact Memory.wf_blockSetup (Memory.wf_buildSuccessors hrun hw) he

theorem exec_keeps_wf {i : Instr} (h : Memory.wf s = true) (he : exec i s = .next t) : Memory.wf t = true := by
  cases i with
  | openCmd _ | nextCmd | closeCmd | cmdReserved _ _ _ => exact (exec_command_sameStores (by rfl) he).wf h
  | sig | hdr _ | otherTrailer _ _ | blockMagic | eosMagic | blockCrc _ | streamCrc _ | randBit _ | origPtr _
  | rle2Literal _ | rle2Count _ => exact (exec_sameStores (by simp [Instr.place, Phase.opening]) he).wf h
  | inuse16 u => exact execInuse16_wf h he
  | inuseInner b => exact execInuseInner_wf h he
  | nGroups n =>
    injection he with he
    subst he
    split <;> exact h
  | nSelectors n => exact execNSelectors_wf h he
  | selectorMtf j => exact execSelectorMtf_wf h he
  | lenStart _ | lenInc | lenDec =>
    injection he with he
    exact he ▸ setCurr_wf _ h
  | lenEnd => exact execLenEnd_wf h he
  | symRuna | symRunb =>
    injection he with he
    exact he ▸ runDigit_wf _ h
  | symMtfv v => exact execSymMtfv_wf h he
  | symEob => exact execSymEob_wf h he

/-! ### What the fetch finds -/

/-- The fetch found a state whose stores are canonical. -/
def Fetched.StoresOk : Fetched → Prop
  | .run _ u => Memory.wf u = true
  | .goes t => Memory.wf t = true
  | .broken _ | .refuses _ => True

theorem rejected_storesOk (h : Memory.wf s = true) (why : Reject) : (rejected why s).StoresOk := by
  cases why with
  | badSignature | badMagic | noCode => exact h
  | tableIndex => trivial

theorem fetchElement_storesOk {waiting : State} (c : Ctx) (h : Memory.wf s = true) (hw : Memory.wf waiting = true) :
    (fetchElement c waiting s).StoresOk := by
  rcases fetchElement_cases c waiting s with ⟨i, r, -, hf⟩ | ⟨why, r, -, hf⟩ | ⟨r, -, hf⟩ | ⟨-, hf⟩ <;> rw [hf]
  · exact h
  · exact rejected_storesOk (s := s.withReader r) h why
  · exact Memory.wf_keepPartial h c
  · exact hw

theorem fetchSymbol_storesOk (h : Memory.wf s = true) : (fetchSymbol s).StoresOk := by
  unfold fetchSymbol
  split
  · exact h
  · dsimp only
    split
    · trivial
    · exact fetchElement_storesOk _ (by simpa using h) h

theorem fetchChain_storesOk (mk : Byte → Instr) (h : Memory.wf s = true) : (fetchChain mk s).StoresOk := by
  unfold fetchChain
  split
  · exact Memory.wf_fetchByte h ‹_›
  · trivial

theorem fetchOutput_storesOk (h : Memory.wf s = true) : (fetchOutput s).StoresOk := by
  unfold fetchOutput
  cases s.ctl.st with
  | startBlock => exact fetchElement_storesOk _ h h
  | randPartA | noRandPartA =>
    dsimp only
    split
    · exact fetchChain_storesOk _ h
    · exact (Memory.wf_blockEnd s).trans h
  | randPartB | noRandPartB =>
    dsimp only
    split_ifs
    · exact fetchChain_storesOk _ h
    · exact h
    · exact (Memory.wf_compareBytes s).trans h
  | randPartC | noRandPartC => exact (Memory.wf_emitCopy s).trans h
  | idle | finished | fault => trivial

theorem fetchCore_storesOk (h : Memory.wf s = true) : (fetchCore s).StoresOk := by
  unfold fetchCore
  cases hp : s.work.phase with
  | ready => exact h
  | output => exact fetchOutput_storesOk h
  | symbols => exact fetchSymbol_storesOk h
  | signature | trailer | streamCrc | blockCrc | randBit | origPtr | inuse16 | inuseInner | nGroups | nSelectors | selector
  | lenStart | lenDelta => exact fetchElement_storesOk _ h h

/-- The host's acts touch no store, but for reset, which empties them all. -/
theorem fetchHost_storesOk (h : Memory.wf s = true) (a : HostAction) : (fetchHost a s).StoresOk := by
  cases a with
  | command w => exact h
  | statusRead n =>
    unfold fetchHost
    dsimp only
    split
    · exact h
    · trivial
  | attach answers =>
    unfold fetchHost
    dsimp only
    split
    · exact h
    · trivial
  | reset => exact Memory.wf_afterReset s

theorem fetch_storesOk (h : Memory.wf s = true) : (fetch s).StoresOk := by
  obtain ⟨a, rest, ha⟩ | hf := hostActs_or_fetchCore s
  · rw [fetch_of_hostActs ha]
    exact fetchHost_storesOk (s := { s with host := rest }) h a
  · rw [hf]
    exact fetchCore_storesOk h

end

/-! ### The obligation -/

/-- Settles O58: what the fetch finds is canonical, and so is what the instruction makes of it. -/
theorem storesStayCanonical : Obligations.StoresStayCanonical := by
  intro s t h hs
  have hok := fetch_storesOk h
  rcases step_next_cases hs with ⟨i, u, hrun, he⟩ | hgo
  · rw [hrun] at hok
    exact exec_keeps_wf hok he
  · rw [hgo] at hok
    exact hok

end Sys2Proof.Machine
end

section
/-! SUPPORT. Lemmas and proofs about the bit reader (40_bit_reader.md): which bytes a read takes, that it looks at no answer
beyond them, and what it leaves when the source answers EOF first. Each is said of ReadBits and carried over to whatever is
read in several parts. -/

namespace Sys2Proof

/-! ### The bytes a read takes (R200) -/

section
variable {n : Nat} {src tail : List SrcAnswer} {buff : Word} {live : BitVec 5} {cnt : Word} {r r' : BitReader}

theorem live_add_eight (h : live.toNat < 24) : (live + 8).toNat = live.toNat + 8 := by bv_omega

/-- Counting a byte and then `k` more. -/
theorem count_one_more (cnt : Word) (k : Nat) : cnt + 1 + BitVec.ofNat 32 k = cnt + BitVec.ofNat 32 (k + 1) := by
  rw [Nat.add_comm, BitVec.ofNat_add, BitVec.add_assoc]; rfl

/-- The loop of R200 takes the bytes it needs, and counts each. -/
theorem fillBits_got_account (hn : n ≤ 24) (h : fillBits n src buff live cnt = .got () r') :
    r'.live.toNat = live.toNat + 8 * ((n - live.toNat + 7) / 8) ∧
      r'.bytesIn = cnt + BitVec.ofNat 32 ((n - live.toNat + 7) / 8) ∧ r'.src = src.drop ((n - live.toNat + 7) / 8) := by
  have enough {src : List SrcAnswer} {buff cnt : Word} {live : BitVec 5} (hl : n ≤ live.toNat)
      (h : Rd.got () ⟨buff, live, cnt, src⟩ = .got () r') :
      r'.live.toNat = live.toNat + 8 * ((n - live.toNat + 7) / 8) ∧
        r'.bytesIn = cnt + BitVec.ofNat 32 ((n - live.toNat + 7) / 8) ∧ r'.src = src.drop ((n - live.toNat + 7) / 8) := by
    have hk : (n - live.toNat + 7) / 8 = 0 := by omega
    injection h with _ h
    rw [hk]
    exact h ▸ ⟨rfl, (BitVec.add_zero cnt).symm, rfl⟩
  induction src generalizing buff live cnt with
  | nil =>
    rw [fillBits] at h
    split at h
    · exact enough ‹_› h
    · cases h
  | cons a src ih =>
    unfold fillBits at h
    split at h
    · exact enough ‹_› h
    · rename_i hl
      cases a with
      | eof => cases h
      | byte b =>
        obtain ⟨h1, h2, h3⟩ := ih h
        have h8 := live_add_eight (live := live) (by omega)
        have hk : (n - live.toNat + 7) / 8 = (n - (live + 8).toNat + 7) / 8 + 1 := by omega
        rw [hk]
        exact ⟨by omega, h2.trans (count_one_more cnt _), h3⟩

/-- The source answers EOF before the bits are there. -/
theorem fillBits_eof (hn : n ≤ 24) (bs : List Byte) (h : live.toNat + 8 * bs.length < n) :
    ∃ r', fillBits n (bs.map .byte ++ .eof :: tail) buff live cnt = .eof r' ∧
      r'.live.toNat = live.toNat + 8 * bs.length ∧ r'.bytesIn = cnt + BitVec.ofNat 32 bs.length ∧ r'.src = tail := by
  induction bs generalizing buff live cnt with
  | nil =>
    have hl : ¬ n ≤ live.toNat := by simpa using h
    exact ⟨⟨buff, live, cnt, tail⟩, by simp [fillBits, hl], rfl, (BitVec.add_zero cnt).symm, rfl⟩
  | cons b bs ih =>
    rw [List.length_cons] at h
    have h8 := live_add_eight (live := live) (by omega)
    obtain ⟨r', hr, h1, h2, h3⟩ := ih (buff := (buff <<< 8) ||| b.setWidth 32) (live := live + 8) (cnt := cnt + 1)
      (by omega)
    refine ⟨r', ?_, by rw [h1, List.length_cons]; omega, ?_, h3⟩
    · have hl : ¬ n ≤ live.toNat := by omega
      simp only [List.map_cons, List.cons_append, fillBits, hl, if_false]
      exact hr
    · exact h2.trans (count_one_more cnt _)

/-- The source stops answering before the bits are there (70_reset_and_hazards.md R561). -/
theorem fillBits_wait (hn : n ≤ 24) (bs : List Byte) (h : live.toNat + 8 * bs.length < n) :
    fillBits n (bs.map .byte) buff live cnt = .wait := by
  induction bs generalizing buff live cnt with
  | nil =>
    have hl : ¬ n ≤ live.toNat := by simpa using h
    simp [fillBits, hl]
  | cons b bs ih =>
    rw [List.length_cons] at h
    have h8 := live_add_eight (live := live) (by omega)
    have hl : ¬ n ≤ live.toNat := by omega
    simp only [List.map_cons, fillBits, hl, if_false]
    exact ih (by omega)

/-- A read that ends with a value has taken the bytes it needs and left the bits it did not return. -/
theorem readBits_got_account (hn : n ≤ 24) {v : BitVec n} (h : readBits n r = .got v r') :
    r'.live.toNat + n = r.live.toNat + 8 * ((n - r.live.toNat + 7) / 8) ∧
      r'.bytesIn = r.bytesIn + BitVec.ofNat 32 ((n - r.live.toNat + 7) / 8) ∧
      r'.src = r.src.drop ((n - r.live.toNat + 7) / 8) := by
  unfold readBits at h
  cases hf : fillBits n r.src r.buff r.live r.bytesIn with
  | got u r1 =>
    obtain ⟨h1, h2, h3⟩ := fillBits_got_account hn hf
    rw [hf, Rd.andThen_got] at h
    injection h with _ h
    subst h
    refine ⟨?_, h2, h3⟩
    rw [BitVec.toNat_ofNat, Nat.mod_eq_of_lt (by omega), h1]
    omega
  | eof r1 => rw [hf, Rd.andThen_eof] at h; cases h
  | wait => rw [hf, Rd.andThen_wait] at h; cases h

theorem readBits_eof (hn : n ≤ 24) {bs : List Byte} (hs : r.src = bs.map .byte ++ .eof :: tail)
    (h : r.live.toNat + 8 * bs.length < n) :
    ∃ r', readBits n r = .eof r' ∧ r'.live.toNat = r.live.toNat + 8 * bs.length ∧
      r'.bytesIn = r.bytesIn + BitVec.ofNat 32 bs.length ∧ r'.src = tail := by
  obtain ⟨r', hr, hrest⟩ := fillBits_eof (tail := tail) (buff := r.buff) (cnt := r.bytesIn) hn bs h
  exact ⟨r', by rw [readBits, hs, hr, Rd.andThen_eof], hrest⟩

theorem readBits_wait (hn : n ≤ 24) {bs : List Byte} (hs : r.src = bs.map .byte)
    (h : r.live.toNat + 8 * bs.length < n) : readBits n r = .wait := by
  rw [readBits, hs, fillBits_wait hn bs h, Rd.andThen_wait]

/-- Enough bits at hand: they are returned, first bit highest. -/
theorem readBits_got (hn : n ≤ 24) (h : n ≤ r.bits.length) :
    ∃ v r', readBits n r = .got v r' ∧ bitsMsb n v.toNat = r.bits.take n ∧ r'.bits = r.bits.drop n :=
  readBits_spec hn (List.take_append_drop n r.bits).symm (by simpa using h)

theorem srcBytes_map_append_eof (bs : List Byte) (tail : List SrcAnswer) :
    srcBytes (bs.map .byte ++ .eof :: tail) = bs := by
  induction bs with
  | nil => rfl
  | cons b bs ih => exact congrArg (b :: ·) ih

theorem bits_length (r : BitReader) : r.bits.length = r.live.toNat + 8 * (srcBytes r.src).length := by
  simp [BitReader.bits, List.length_flatMap, Nat.mul_comm]

end

/-! ### Reading in parts when the source ends -/

section
variable {α β : Type}

/-- `f` takes `n` bits. Of a source that ends in EOF after the bytes `bs`, it takes and counts the bytes it needs if they are
there, and else all of them. -/
def Rd.Takes (n : Nat) (f : BitReader → Rd α) : Prop :=
  ∀ (r : BitReader) (bs : List Byte) (tail : List SrcAnswer), r.src = bs.map .byte ++ .eof :: tail →
    (r.live.toNat + 8 * bs.length < n →
      ∃ r', f r = .eof r' ∧ r'.bytesIn = r.bytesIn + BitVec.ofNat 32 bs.length ∧ r'.src = tail) ∧
    (n ≤ r.live.toNat + 8 * bs.length →
      ∃ a r' k, f r = .got a r' ∧ k ≤ bs.length ∧ r'.src = (bs.drop k).map .byte ++ .eof :: tail ∧
        r'.bytesIn = r.bytesIn + BitVec.ofNat 32 k ∧ r'.live.toNat + n = r.live.toNat + 8 * k)

/-- Where the source ends inside the first `n` bits, `f` gives TruncatedStream, with every byte taken and counted. -/
def Decoded.TruncatesBelow (n : Nat) (f : BitReader → Decoded) : Prop :=
  ∀ (r : BitReader) (bs : List Byte) (tail : List SrcAnswer), r.src = bs.map .byte ++ .eof :: tail →
    r.live.toNat + 8 * bs.length < n →
      ∃ r', f r = .truncated r' ∧ r'.bytesIn = r.bytesIn + BitVec.ofNat 32 bs.length ∧ r'.src = tail

theorem readBits_takes {n : Nat} (hn : n ≤ 24) : Rd.Takes n (readBits n) := by
  intro r bs tail hs
  refine ⟨fun h => ?_, fun h => ?_⟩
  · obtain ⟨r', hr, -, hrest⟩ := readBits_eof hn hs h
    exact ⟨r', hr, hrest⟩
  · have hbits : n ≤ r.bits.length := by rw [bits_length, hs, srcBytes_map_append_eof]; exact h
    obtain ⟨v, r', hr, -, -⟩ := readBits_got hn hbits
    obtain ⟨hlive, hcount, hsrc⟩ := readBits_got_account hn hr
    have hk : (n - r.live.toNat + 7) / 8 ≤ bs.length := by omega
    refine ⟨v, r', _, hr, hk, ?_, hcount, hlive⟩
    rw [hsrc, hs, List.drop_append_of_le_length (by simpa using hk), List.map_drop]

/-- The bytes the first part takes and those that are left add up. -/
theorem count_rest (cnt : Word) {bs : List Byte} {k : Nat} (hk : k ≤ bs.length) :
    cnt + BitVec.ofNat 32 k + BitVec.ofNat 32 (bs.drop k).length = cnt + BitVec.ofNat 32 bs.length := by
  rw [List.length_drop, BitVec.add_assoc, ← BitVec.ofNat_add, Nat.add_sub_cancel' hk]

theorem Rd.Takes.andThen {n m : Nat} {f : BitReader → Rd α} {k : α → BitReader → Rd β} (hf : Rd.Takes n f)
    (hk : ∀ a, Rd.Takes m (k a)) : Rd.Takes (n + m) fun r => (f r).andThen k := by
  intro r bs tail hs
  obtain ⟨hend, hgot⟩ := hf r bs tail hs
  by_cases h : r.live.toNat + 8 * bs.length < n
  · obtain ⟨r', hr, hrest⟩ := hend h
    exact ⟨fun _ => ⟨r', by simp only [hr, Rd.andThen_eof], hrest⟩, fun _ => by omega⟩
  · obtain ⟨a, r1, j, hr, hj, hs1, hcount, hlive⟩ := hgot (by omega)
    have hleft : (bs.drop j).length = bs.length - j := List.length_drop
    obtain ⟨hend2, hgot2⟩ := hk a r1 _ tail hs1
    simp only [hr, Rd.andThen_got]
    refine ⟨fun h => ?_, fun h => ?_⟩
    · obtain ⟨r', hr', hcount', hsrc'⟩ := hend2 (by omega)
      refine ⟨r', hr', ?_, hsrc'⟩
      rw [hcount', hcount, count_rest _ hj]
    · obtain ⟨b, r', j', hr', hj', hs', hcount', hlive'⟩ := hgot2 (by omega)
      refine ⟨b, r', j + j', hr', by omega, by rw [hs', List.drop_drop], ?_, by omega⟩
      rw [hcount', hcount, BitVec.ofNat_add, BitVec.add_assoc]

theorem Rd.takes_got (a : α) : Rd.Takes 0 fun r => .got a r := fun r _ _ hs =>
  ⟨nofun, fun _ => ⟨a, r, 0, rfl, Nat.zero_le _, hs, (BitVec.add_zero _).symm, rfl⟩⟩

theorem Decoded.truncatesBelow_zero (f : BitReader → Decoded) : Decoded.TruncatesBelow 0 f := fun _ _ _ _ => nofun

theorem Rd.Takes.decoded {n m : Nat} {f : BitReader → Rd α} {k : α → BitReader → Decoded} (hf : Rd.Takes n f)
    (hk : ∀ a, Decoded.TruncatesBelow m (k a)) : Decoded.TruncatesBelow (n + m) fun r => (f r).decoded k := by
  intro r bs tail hs h
  obtain ⟨hend, hgot⟩ := hf r bs tail hs
  by_cases hn : r.live.toNat + 8 * bs.length < n
  · obtain ⟨r', hr, hrest⟩ := hend hn
    exact ⟨r', by simp only [hr, Rd.decoded], hrest⟩
  · obtain ⟨a, r1, j, hr, hj, hs1, hcount, hlive⟩ := hgot (by omega)
    have hleft : (bs.drop j).length = bs.length - j := List.length_drop
    obtain ⟨r', hr', hcount', hsrc'⟩ := hk a r1 _ tail hs1 (by omega)
    refine ⟨r', by simpa only [hr, Rd.decoded] using hr', ?_, hsrc'⟩
    rw [hcount', hcount, count_rest _ hj]

/-- An element that is one read. -/
theorem Rd.Takes.decoded_whole {n : Nat} {f : BitReader → Rd α} (hf : Rd.Takes n f) (k : α → BitReader → Decoded) :
    Decoded.TruncatesBelow n fun r => (f r).decoded k :=
  hf.decoded (m := 0) fun _ => Decoded.truncatesBelow_zero _

theorem readByte_takes : Rd.Takes 8 readByte := readBits_takes (by decide)

theorem readInt32_takes : Rd.Takes 32 readInt32 :=
  (readBits_takes (n := 16) (by decide)).andThen fun _ =>
    (readBits_takes (n := 16) (by decide)).andThen (m := 0) fun _ => Rd.takes_got _

theorem readMagic_takes : Rd.Takes 48 readMagic :=
  readByte_takes.andThen (m := 40) fun _ => readByte_takes.andThen (m := 32) fun _ =>
  readByte_takes.andThen (m := 24) fun _ => readByte_takes.andThen (m := 16) fun _ =>
  readByte_takes.andThen (m := 8) fun _ => readByte_takes.andThen (m := 0) fun _ => Rd.takes_got _

theorem readOneByOne_takes {w : Nat} (k : Nat) (acc : BitVec w) : Rd.Takes k (readOneByOne k acc) := by
  induction k generalizing acc with
  | zero => exact Rd.takes_got acc
  | succ k ih =>
    have hk : Rd.Takes (1 + k) (readOneByOne (k + 1) acc) := (readBits_takes (by decide)).andThen fun _ => ih _
    rwa [Nat.add_comm] at hk

theorem decode_truncatesBelow {c : Ctx} {n : Nat} (h : c.fixedWidth = some n) :
    Decoded.TruncatesBelow n (decode c) := by
  cases c <;> cases h
  case command | chainLiteral | chainCount => exact readByte_takes.decoded_whole _
  case signature | trailer => exact readByte_takes.decoded (m := 8) fun _ => readByte_takes.decoded_whole _
  case blockStart => exact readMagic_takes.decoded_whole _
  case streamCrc | blockCrc => exact readInt32_takes.decoded_whole _
  case inuse16 | inuseInner => exact (readOneByOne_takes 16 _).decoded_whole _
  case randBit | origPtr | nGroups | nSelectors | lenStart => exact (readBits_takes (by decide)).decoded_whole _

end

/-! ### Answers that come later -/

section
variable {α β : Type}

/-- A read whose reader has further answers to come. -/
def Rd.withMore (more : List SrcAnswer) : Rd α → Rd α
  | .got a r => .got a (r.withMore more)
  | .eof r => .eof (r.withMore more)
  | .wait => .wait

/-- A read that ends does not look at the answers after those it takes. -/
def Rd.NoLookahead (f : BitReader → Rd α) : Prop := ∀ r more, f r ≠ .wait → f (r.withMore more) = (f r).withMore more

/-- A decoding that ends does not look at the answers after those it takes. -/
def Decoded.NoLookahead (f : BitReader → Decoded) : Prop :=
  ∀ r more, f r ≠ .wait → f (r.withMore more) = (f r).withMore more

theorem Rd.noLookahead_got (a : α) : Rd.NoLookahead fun r => .got a r := fun _ _ _ => rfl

theorem Decoded.noLookahead_instr (i : Instr) : Decoded.NoLookahead (.instr i) := fun _ _ _ => rfl

theorem Decoded.noLookahead_reject (why : Reject) : Decoded.NoLookahead (.reject why) := fun _ _ _ => rfl

theorem Decoded.noLookahead_ite {c : Prop} [Decidable c] {f g : BitReader → Decoded} (hf : Decoded.NoLookahead f)
    (hg : Decoded.NoLookahead g) : Decoded.NoLookahead fun r => if c then f r else g r := by
  by_cases h : c <;> simpa only [h, if_true, if_false]

theorem Rd.NoLookahead.andThen {f : BitReader → Rd α} {k : α → BitReader → Rd β} (hf : Rd.NoLookahead f)
    (hk : ∀ a, Rd.NoLookahead (k a)) : Rd.NoLookahead fun r => (f r).andThen k := by
  intro r more h
  have hmore := hf r more
  cases hr : f r with
  | got a r1 =>
    rw [hr] at hmore
    simp only [hr, hmore nofun, Rd.withMore, Rd.andThen_got] at h ⊢
    exact hk a r1 more h
  | eof r1 =>
    rw [hr] at hmore
    simp only [hr, hmore nofun, Rd.withMore, Rd.andThen_eof]
  | wait => exact absurd (by simp only [hr, Rd.andThen_wait]) h

theorem Rd.NoLookahead.decoded {f : BitReader → Rd α} {k : α → BitReader → Decoded} (hf : Rd.NoLookahead f)
    (hk : ∀ a, Decoded.NoLookahead (k a)) : Decoded.NoLookahead fun r => (f r).decoded k := by
  intro r more h
  have hmore := hf r more
  cases hr : f r with
  | got a r1 =>
    rw [hr] at hmore
    simp only [hr, hmore nofun, Rd.withMore, Rd.decoded] at h ⊢
    exact hk a r1 more h
  | eof r1 =>
    rw [hr] at hmore
    simp only [hr, hmore nofun, Rd.withMore, Rd.decoded, Decoded.withMore]
  | wait => exact absurd (by simp only [hr, Rd.decoded]) h

theorem fillBits_withMore (n : Nat) (src more : List SrcAnswer) (buff : Word) (live : BitVec 5) (cnt : Word)
    (h : fillBits n src buff live cnt ≠ .wait) :
    fillBits n (src ++ more) buff live cnt = (fillBits n src buff live cnt).withMore more := by
  induction src generalizing buff live cnt with
  | nil =>
    by_cases hl : n ≤ live.toNat
    · cases more <;> simp only [fillBits, hl, if_true, List.nil_append, Rd.withMore, BitReader.withMore]
    · simp [fillBits, hl] at h
  | cons a src ih =>
    by_cases hl : n ≤ live.toNat
    · simp only [fillBits, hl, if_true, List.cons_append, Rd.withMore, BitReader.withMore]
    · cases a with
      | eof => simp only [fillBits, hl, if_false, List.cons_append, Rd.withMore, BitReader.withMore]
      | byte b =>
        simp only [fillBits, hl, if_false, List.cons_append] at h ⊢
        exact ih _ _ _ h

theorem readBits_noLookahead (n : Nat) : Rd.NoLookahead (readBits n) := by
  refine Rd.NoLookahead.andThen (f := fun r => fillBits n r.src r.buff r.live r.bytesIn) (fun r more h => ?_)
    (fun _ _ _ _ => rfl)
  exact fillBits_withMore n r.src more r.buff r.live r.bytesIn h

theorem readByte_noLookahead : Rd.NoLookahead readByte := readBits_noLookahead 8

theorem readInt32_noLookahead : Rd.NoLookahead readInt32 :=
  (readBits_noLookahead 16).andThen fun _ => (readBits_noLookahead 16).andThen fun _ => Rd.noLookahead_got _

theorem readMagic_noLookahead : Rd.NoLookahead readMagic :=
  readByte_noLookahead.andThen fun _ => readByte_noLookahead.andThen fun _ => readByte_noLookahead.andThen fun _ =>
  readByte_noLookahead.andThen fun _ => readByte_noLookahead.andThen fun _ => readByte_noLookahead.andThen fun _ =>
    Rd.noLookahead_got _

theorem readOneByOne_noLookahead {w : Nat} (k : Nat) (acc : BitVec w) : Rd.NoLookahead (readOneByOne k acc) := by
  induction k generalizing acc with
  | zero => exact Rd.noLookahead_got acc
  | succ k ih => exact (readBits_noLookahead 1).andThen fun _ => ih _

theorem readRank_noLookahead (n fuel j : Nat) : Rd.NoLookahead (readRank n fuel j) := by
  induction fuel generalizing j with
  | zero => exact Rd.noLookahead_got j
  | succ fuel ih =>
    refine (readBits_noLookahead 1).andThen fun b => ?_
    by_cases hb : b = 0
    · simpa only [hb, if_true] using Rd.noLookahead_got j
    · by_cases hn : n ≤ j + 1
      · simpa only [hb, hn, if_true, if_false] using Rd.noLookahead_got (j + 1)
      · simpa only [hb, hn, if_false] using ih (j + 1)

theorem finishSymbol_noLookahead (T : CodeTable) (eob n v : Nat) : Decoded.NoLookahead (finishSymbol T eob n v) :=
  Decoded.noLookahead_ite (Decoded.noLookahead_instr _) (Decoded.noLookahead_reject _)

theorem decodeSymbolFrom_noLookahead (T : CodeTable) (eob fuel n v : Nat) :
    Decoded.NoLookahead (decodeSymbolFrom T eob fuel n v) := by
  induction fuel generalizing n v with
  | zero => exact Decoded.noLookahead_ite (Decoded.noLookahead_reject _) (finishSymbol_noLookahead T eob n v)
  | succ fuel ih =>
    exact Decoded.noLookahead_ite ((readBits_noLookahead 1).decoded fun _ => ih _ _) (finishSymbol_noLookahead T eob n v)

theorem decode_noLookahead (c : Ctx) : Decoded.NoLookahead (decode c) := by
  cases c with
  | command | chainLiteral | chainCount =>
    exact readByte_noLookahead.decoded fun _ => Decoded.noLookahead_instr _
  | signature legacyAnd =>
    exact readByte_noLookahead.decoded fun _ => readByte_noLookahead.decoded fun _ =>
      Decoded.noLookahead_ite (Decoded.noLookahead_reject _) (Decoded.noLookahead_instr _)
  | trailer =>
    exact readByte_noLookahead.decoded fun _ => readByte_noLookahead.decoded fun _ => Decoded.noLookahead_instr _
  | blockStart =>
    exact readMagic_noLookahead.decoded fun _ => Decoded.noLookahead_ite (Decoded.noLookahead_instr _)
      (Decoded.noLookahead_ite (Decoded.noLookahead_instr _) (Decoded.noLookahead_reject _))
  | streamCrc | blockCrc => exact readInt32_noLookahead.decoded fun _ => Decoded.noLookahead_instr _
  | inuse16 | inuseInner => exact (readOneByOne_noLookahead 16 _).decoded fun _ => Decoded.noLookahead_instr _
  | randBit | origPtr | nGroups | nSelectors | lenStart =>
    exact (readBits_noLookahead _).decoded fun _ => Decoded.noLookahead_instr _
  | selector n => exact (readRank_noLookahead n _ _).decoded fun _ => Decoded.noLookahead_instr _
  | lenDelta =>
    exact (readBits_noLookahead 1).decoded fun _ => Decoded.noLookahead_ite (Decoded.noLookahead_instr _)
      ((readBits_noLookahead 1).decoded fun _ => Decoded.noLookahead_instr _)
  | symbol T eob =>
    exact Decoded.noLookahead_ite ((readBits_noLookahead _).decoded fun _ => decodeSymbolFrom_noLookahead T eob _ _ _)
      (Decoded.noLookahead_reject _)

end

/-! ### ReadInt32 (R203) -/

/-- The bits of two words set side by side. -/
theorem bitsMsb_append {a b : Nat} (x : BitVec a) (y : BitVec b) :
    bitsMsb (a + b) (x ++ y).toNat = bitsMsb a x.toNat ++ bitsMsb b y.toNat := by
  rw [bitsMsb_add]
  congr 1
  · refine bitsMsb_congr fun i _ => ?_
    rw [Nat.testBit_shiftRight, BitVec.testBit_toNat, BitVec.testBit_toNat, BitVec.getLsbD_append, if_neg (by omega),
      Nat.add_sub_cancel_left]
  · refine bitsMsb_congr fun i hi => ?_
    rw [BitVec.testBit_toNat, BitVec.testBit_toNat, BitVec.getLsbD_append, if_pos hi]

/-- A word is its high part and its low part. -/
theorem exists_append {a b : Nat} (w : BitVec (a + b)) : ∃ (x : BitVec a) (y : BitVec b), w = x ++ y :=
  ⟨w.extractLsb' b a, w.extractLsb' 0 b,
    ((BitVec.extractLsb'_append_extractLsb'_eq_extractLsb' (Nat.zero_add b).symm).trans BitVec.extractLsb'_eq_self).symm⟩

theorem readInt32_value {r : BitReader} {w : Word} {rest : List Bool} (h : r.bits = bitsMsb 32 w.toNat ++ rest) :
    ∃ r', readInt32 r = .got w r' ∧ r'.bits = rest := by
  obtain ⟨hi, lo, rfl⟩ := exists_append (a := 16) (b := 16) w
  rw [bitsMsb_append (a := 16) (b := 16) hi lo, List.append_assoc] at h
  obtain ⟨r1, h1, hb1⟩ := readBits_value (by decide) h
  obtain ⟨r2, h2, hb2⟩ := readBits_value (by decide) hb1
  exact ⟨r2, by rw [readInt32, h1, Rd.andThen_got, h2, Rd.andThen_got], hb2⟩

/-- EOF inside a 32-bit read; inside its second half the first 16 bits are gone. -/
theorem readInt32_eof {r : BitReader} {bs : List Byte} {tail : List SrcAnswer}
    (hs : r.src = bs.map .byte ++ .eof :: tail) (h : r.live.toNat + 8 * bs.length < 32) :
    ∃ r', readInt32 r = .eof r' ∧ r'.bytesIn = r.bytesIn + BitVec.ofNat 32 bs.length ∧ r'.src = tail ∧
      r'.live.toNat = if 16 ≤ r.live.toNat + 8 * bs.length then r.live.toNat + 8 * bs.length - 16
        else r.live.toNat + 8 * bs.length := by
  by_cases hn : r.live.toNat + 8 * bs.length < 16
  · obtain ⟨r', hr, hlive, hcount, hsrc⟩ := readBits_eof (by decide) hs hn
    exact ⟨r', by rw [readInt32, hr, Rd.andThen_eof], hcount, hsrc, by rw [hlive, if_neg (by omega)]⟩
  · obtain ⟨v, r1, k, hr1, hk, hs1, hcount1, hlive1⟩ := (readBits_takes (n := 16) (by decide) r bs tail hs).2 (by omega)
    have hleft : (bs.drop k).length = bs.length - k := List.length_drop
    obtain ⟨r', hr, hlive, hcount, hsrc⟩ := readBits_eof (n := 16) (by decide) hs1 (by omega)
    refine ⟨r', by rw [readInt32, hr1, Rd.andThen_got, hr, Rd.andThen_eof], ?_, hsrc, by rw [hlive, if_pos (by omega)]; omega⟩
    rw [hcount, hcount1, count_rest _ hk]

/-! ### The obligations -/

/-- Settles O12: what a read returns, then the bytes it takes, in each of its three endings. -/
theorem readBitsResult : Obligations.ReadBitsResult := by
  refine ⟨fun n r _ hn => ⟨fun h => ?_, fun bs tail => readBits_eof hn, fun bs => readBits_wait hn⟩,
    fun r w rest => readInt32_value, fun r bs tail => readInt32_eof⟩
  obtain ⟨v, r', hr, hv, hbits⟩ := readBits_got hn h
  exact ⟨v, r', hr, hv, hbits, readBits_got_account hn hr⟩

/-- Settles O13: each read inside a decoding stops before the later answers. -/
theorem lateAnswersChangeNothing : Obligations.LateAnswersChangeNothing := decode_noLookahead

/-- Settles O14: the reads of an element take its bits one part after the other. -/
theorem truncatedFields : Obligations.TruncatedFields := fun _ _ r bs tail h => decode_truncatesBelow h r bs tail

end Sys2Proof
end

section
/-! SUPPORT. Lemmas and proofs about decoding (30_encoding.md): each element's reads give back the value whose bits are next,
so that decoding undoes encoding at every place whose codes are fixed. -/

namespace Sys2Proof

section
variable {r : BitReader} {rest : List Bool}

/-! ### Reads of a value, one bit, two bytes, a magic -/

/-- One bit (40_bit_reader.md R200). -/
theorem readBits_one {b : Bool} (h : r.bits = b :: rest) :
    ∃ r', readBits 1 r = .got (BitVec.ofBool b) r' ∧ r'.bits = rest := by
  refine readBits_value (by decide) ?_
  rw [h]
  cases b <;> rfl

theorem readByte_value {b : Byte} (h : r.bits = bitsMsb 8 b.toNat ++ rest) :
    ∃ r', readByte r = .got b r' ∧ r'.bits = rest :=
  readBits_value (by decide) h

/-- Two bytes, one after the other. -/
theorem readTwoBytes_value {a b : Byte} (h : r.bits = bitsMsb 8 a.toNat ++ (bitsMsb 8 b.toNat ++ rest)) :
    ∃ r1 r2, readByte r = .got a r1 ∧ readByte r1 = .got b r2 ∧ r2.bits = rest := by
  obtain ⟨r1, h1, hb1⟩ := readByte_value h
  obtain ⟨r2, h2, hb2⟩ := readByte_value hb1
  exact ⟨r1, r2, h1, h2, hb2⟩

/-- Six bytes, the first byte highest (41_stream_block_header.md R222). -/
theorem readMagic_value {m : BitVec 48} (h : r.bits = bitsMsb 48 m.toNat ++ rest) :
    ∃ r', readMagic r = .got m r' ∧ r'.bits = rest := by
  obtain ⟨m, b5, rfl⟩ := exists_append (a := 40) (b := 8) m
  obtain ⟨m, b4, rfl⟩ := exists_append (a := 32) (b := 8) m
  obtain ⟨m, b3, rfl⟩ := exists_append (a := 24) (b := 8) m
  obtain ⟨m, b2, rfl⟩ := exists_append (a := 16) (b := 8) m
  obtain ⟨b0, b1, rfl⟩ := exists_append (a := 8) (b := 8) m
  simp only [bitsMsb_append (a := 40) (b := 8), bitsMsb_append (a := 32) (b := 8), bitsMsb_append (a := 24) (b := 8),
    bitsMsb_append (a := 16) (b := 8), bitsMsb_append (a := 8) (b := 8), List.append_assoc] at h
  obtain ⟨r1, r2, h1, h2, h⟩ := readTwoBytes_value h
  obtain ⟨r3, r4, h3, h4, h⟩ := readTwoBytes_value h
  obtain ⟨r5, r6, h5, h6, h⟩ := readTwoBytes_value h
  exact ⟨r6, by simp only [readMagic, h1, h2, h3, h4, h5, h6, Rd.andThen_got], h⟩

/-! ### Reading bit by bit (42_tables.md R250, R251) -/

theorem bitsMsb_succ (k v : Nat) : bitsMsb (k + 1) v = v.testBit k :: bitsMsb k v := by
  rw [Nat.add_comm, bitsMsb_add]
  simp [bitsMsb]

/-- `k` one-bit reads shift the bits in below what was there. -/
theorem readOneByOne_spec {w : Nat} (k : Nat) (acc : BitVec w) {v : Nat} (h : r.bits = bitsMsb k v ++ rest) :
    ∃ x r', readOneByOne k acc r = .got x r' ∧ r'.bits = rest ∧
      ∀ i < w, x.getLsbD i = if i < k then v.testBit i else acc.getLsbD (i - k) := by
  induction k generalizing acc r with
  | zero => exact ⟨acc, r, rfl, h, fun i _ => rfl⟩
  | succ k ih =>
    rw [bitsMsb_succ, List.cons_append] at h
    obtain ⟨r1, h1, hb1⟩ := readBits_one h
    obtain ⟨x, r', hr, hb, hx⟩ := ih ((acc <<< 1) ||| (BitVec.ofBool (v.testBit k)).setWidth w) hb1
    refine ⟨x, r', by rw [readOneByOne, h1, Rd.andThen_got, hr], hb, fun i hi => ?_⟩
    rw [hx i hi]
    rcases Nat.lt_trichotomy i k with hlt | rfl | hgt
    · rw [if_pos hlt, if_pos (by omega)]
    · have h0 : 0 < w := by omega
      simp [h0]
    · have hpos : i - k ≠ 0 := by omega
      have hnext : i - k - 1 = i - (k + 1) := by omega
      have hw : i - k < w := by omega
      rw [if_neg (by omega), if_neg (by omega)]
      simp only [BitVec.getLsbD_or, BitVec.getLsbD_shiftLeft, BitVec.getLsbD_setWidth, BitVec.getLsbD_ofBool, hpos, hw, hnext,
        decide_true, decide_false, Bool.true_and, Bool.false_and, Bool.or_false, Nat.lt_one_iff, Bool.not_false]

theorem readOneByOne_value {w : Nat} {u : BitVec w} (h : r.bits = bitsMsb w u.toNat ++ rest) :
    ∃ r', readOneByOne w (0 : BitVec w) r = .got u r' ∧ r'.bits = rest := by
  obtain ⟨x, r', hr, hb, hx⟩ := readOneByOne_spec w 0 h
  have hxu : x = u := BitVec.eq_of_getLsbD_eq fun i hi => by rw [hx i hi, if_pos hi, BitVec.testBit_toNat]
  exact ⟨r', hxu ▸ hr, hb⟩

/-! ### Selector ranks (42_tables.md R256) -/

/-- A 0 bit ends a rank that is still below the group count. -/
theorem readRank_of_zero {n fuel : Nat} (j0 j : Nat) (hj : j0 + j < n) (hf : j < fuel)
    (h : r.bits = List.replicate j true ++ false :: rest) :
    ∃ r', readRank n fuel j0 r = .got (j0 + j) r' ∧ r'.bits = rest := by
  induction j generalizing fuel j0 r with
  | zero =>
    obtain ⟨fuel, rfl⟩ : ∃ k, fuel = k + 1 := ⟨fuel - 1, by omega⟩
    obtain ⟨r', hr, hb⟩ := readBits_one (b := false) (rest := rest) h
    exact ⟨r', by rw [readRank, hr]; rfl, hb⟩
  | succ j ih =>
    obtain ⟨fuel, rfl⟩ : ∃ k, fuel = k + 1 := ⟨fuel - 1, by omega⟩
    obtain ⟨r1, h1, hb1⟩ := readBits_one (b := true) h
    obtain ⟨r', hr, hb⟩ := ih (fuel := fuel) (j0 + 1) (by omega) (by omega) hb1
    have hn : ¬ n ≤ j0 + 1 := by omega
    refine ⟨r', ?_, hb⟩
    rw [readRank, h1, Rd.andThen_got, if_neg (by decide), if_neg hn, hr, Nat.add_right_comm, Nat.add_assoc]

/-- A rank that reaches the group count ends there, without a 0 bit (decision D13). -/
theorem readRank_of_full {n fuel : Nat} (j0 j : Nat) (hj : j0 + (j + 1) = n) (hf : j < fuel)
    (h : r.bits = List.replicate (j + 1) true ++ rest) :
    ∃ r', readRank n fuel j0 r = .got n r' ∧ r'.bits = rest := by
  induction j generalizing fuel j0 r with
  | zero =>
    obtain ⟨fuel, rfl⟩ : ∃ k, fuel = k + 1 := ⟨fuel - 1, by omega⟩
    obtain ⟨r', hr, hb⟩ := readBits_one (b := true) (rest := rest) h
    have hn : j0 + 1 = n := hj
    exact ⟨r', by rw [readRank, hr, Rd.andThen_got, if_neg (by decide), if_pos hn.ge, hn], hb⟩
  | succ j ih =>
    obtain ⟨fuel, rfl⟩ : ∃ k, fuel = k + 1 := ⟨fuel - 1, by omega⟩
    obtain ⟨r1, h1, hb1⟩ := readBits_one (b := true) h
    obtain ⟨r', hr, hb⟩ := ih (fuel := fuel) (j0 + 1) (by omega) (by omega) hb1
    have hn : ¬ n ≤ j0 + 1 := by omega
    exact ⟨r', by rw [readRank, h1, Rd.andThen_got, if_neg (by decide), if_neg hn, hr], hb⟩

/-! ### Decoding undoes encoding, place by place -/

/-- What it means at one place of the grammar. -/
def Ctx.RoundTrips (c : Ctx) : Prop :=
  ∀ (i : Instr) (r : BitReader) (rest : List Bool), c.admits i = true → i.wf = true → r.bits = encode c i ++ rest →
    ∃ r', decode c r = .instr i r' ∧ r'.bits = rest

/-- A place whose element is one read of a value. -/
theorem decoded_of_value {α : Type} {x : Rd α} {a : α} {k : α → BitReader → Decoded} {i : Instr}
    (h : ∃ r', x = .got a r' ∧ r'.bits = rest) (hk : ∀ r', k a r' = .instr i r') :
    ∃ r', x.decoded k = .instr i r' ∧ r'.bits = rest := by
  obtain ⟨r', rfl, hb⟩ := h
  exact ⟨r', hk r', hb⟩

theorem decodeTrailer_of_wf {h d : Byte} (hw : (Instr.otherTrailer h d).wf = true) :
    decodeTrailer h d = .otherTrailer h d := by
  rw [Instr.wf, Bool.not_eq_true'] at hw
  rw [decodeTrailer, hw]
  rfl

/-- The signature's two bytes pass the test under both settings (41_stream_block_header.md R220). -/
theorem signature_roundTrips (legacyAnd : Bool) : (Ctx.signature legacyAnd).RoundTrips := by
  intro i r rest ha _ hb
  cases i
  case sig =>
    obtain ⟨r1, r2, h1, h2, hrest⟩ := readTwoBytes_value (a := 0x42#8) (b := 0x5A#8) (rest := rest) hb
    have hgood : badSignature legacyAnd 0x42#8 0x5A#8 = false := by cases legacyAnd <;> rfl
    refine ⟨r2, ?_, hrest⟩
    simp only [decode, h1, h2, Rd.decoded, hgood, Bool.false_eq_true, if_false]
  all_goals cases ha

theorem trailer_roundTrips : Ctx.trailer.RoundTrips := by
  intro i r rest ha hw hb
  cases i
  case hdr d =>
    obtain ⟨r1, r2, h1, h2, hrest⟩ := readTwoBytes_value (a := 0x68) (b := d) ((List.append_assoc ..) ▸ hb)
    have hd : decodeTrailer 0x68 d = .hdr d := if_pos (by simpa [Instr.wf] using hw)
    exact ⟨r2, by simp only [decode, h1, h2, Rd.decoded, hd], hrest⟩
  case otherTrailer h d =>
    obtain ⟨r1, r2, h1, h2, hrest⟩ := readTwoBytes_value (a := h) (b := d) ((List.append_assoc ..) ▸ hb)
    exact ⟨r2, by simp only [decode, h1, h2, Rd.decoded, decodeTrailer_of_wf hw], hrest⟩
  all_goals cases ha

theorem blockStart_roundTrips : Ctx.blockStart.RoundTrips := by
  intro i r rest ha _ hb
  cases i
  case blockMagic => exact decoded_of_value (readMagic_value (m := blockMagicWord) hb) fun _ => rfl
  case eosMagic => exact decoded_of_value (readMagic_value (m := eosMagicWord) hb) fun _ => rfl
  all_goals cases ha

/-- The command words (30_encoding.md R130): a byte and the command it decodes to. -/
theorem decodeCommand_openCmd (nc : BitVec 1) : decodeCommand ((nc ++ 1#2).setWidth 8) = .openCmd nc := by
  revert nc; decide

theorem decodeCommand_cmdReserved {o : BitVec 2} {n : BitVec 1} {q : BitVec 5}
    (h : isReservedCommand o n q = true) : decodeCommand (q ++ n ++ o) = .cmdReserved o n q := by
  have ho : (q ++ n ++ o).extractLsb' 0 2 = o := BitVec.extractLsb'_append_eq_right
  have hn : (q ++ n ++ o).extractLsb' 2 1 = n :=
    (BitVec.extractLsb'_append_eq_of_le (by decide)).trans BitVec.extractLsb'_append_eq_right
  have hq : (q ++ n ++ o).extractLsb' 3 5 = q :=
    (BitVec.extractLsb'_append_eq_of_le (by decide)).trans BitVec.extractLsb'_append_eq_left
  rw [decodeCommand_of_reserved (by rw [ho, hn, hq]; exact h), ho, hn, hq]

theorem command_roundTrips : Ctx.command.RoundTrips := by
  intro i r rest ha hw hb
  have value {b : Byte} (h : r.bits = bitsMsb 8 b.toNat ++ rest) (hi : decodeCommand b = i) :
      ∃ r', decode .command r = .instr i r' ∧ r'.bits = rest :=
    decoded_of_value (readByte_value h) fun r' => hi ▸ rfl
  cases i
  case openCmd nc =>
    refine value ?_ (decodeCommand_openCmd nc)
    rw [BitVec.toNat_setWidth_of_le (by decide)]
    exact hb
  case nextCmd => exact value (b := 2) hb rfl
  case closeCmd => exact value (b := 3) hb rfl
  case cmdReserved o n q => exact value hb (decodeCommand_cmdReserved hw)
  all_goals cases ha

theorem selector_roundTrips (n : Nat) : (Ctx.selector n).RoundTrips := by
  rintro i r rest ha - hb
  cases i
  case selectorMtf j =>
    have hj : 0 + j.toNat < n := by simpa [Ctx.admits] using ha
    have hb : r.bits = List.replicate j.toNat true ++ false :: rest := by simpa [encode] using hb
    refine decoded_of_value (readRank_of_zero 0 j.toNat hj (by omega) hb) fun r' => ?_
    rw [Nat.zero_add, BitVec.ofNat_toNat, BitVec.setWidth_eq]
  all_goals cases ha

theorem lenDelta_roundTrips : Ctx.lenDelta.RoundTrips := by
  intro i r rest ha _ hb
  have flagged {dir : Bool} (h : r.bits = true :: dir :: rest) :
      ∃ r', decode .lenDelta r = .instr (if BitVec.ofBool dir = 0 then .lenInc else .lenDec) r' ∧ r'.bits = rest := by
    obtain ⟨r1, h1, hb1⟩ := readBits_one h
    obtain ⟨r2, h2, hb2⟩ := readBits_one hb1
    refine ⟨r2, ?_, hb2⟩
    simp only [decode, decodeDelta, h1, Rd.decoded]
    rw [if_neg (by decide)]
    simp only [h2]
  cases i
  case lenInc => exact flagged (dir := false) hb
  case lenDec => exact flagged (dir := true) hb
  case lenEnd =>
    obtain ⟨r1, h1, hb1⟩ := readBits_one (b := false) hb
    exact ⟨r1, by simp only [decode, decodeDelta, h1, Rd.decoded]; rfl, hb1⟩
  all_goals cases ha

theorem plain_roundTrips {c : Ctx} (h : c.plain = true) : c.RoundTrips := by
  cases c with
  | command => exact command_roundTrips
  | signature legacyAnd => exact signature_roundTrips legacyAnd
  | trailer => exact trailer_roundTrips
  | blockStart => exact blockStart_roundTrips
  | selector n => exact selector_roundTrips n
  | lenDelta => exact lenDelta_roundTrips
  | symbol _ _ => cases h
  | streamCrc | blockCrc =>
    intro i r rest ha _ hb
    cases i <;> cases ha
    exact decoded_of_value (readInt32_value hb) fun _ => rfl
  | inuse16 | inuseInner =>
    intro i r rest ha _ hb
    cases i <;> cases ha
    exact decoded_of_value (readOneByOne_value hb) fun _ => rfl
  | randBit | origPtr | nGroups | nSelectors | lenStart | chainLiteral | chainCount =>
    intro i r rest ha _ hb
    cases i <;> cases ha
    exact decoded_of_value (readBits_value (by decide) hb) fun _ => rfl

end

/-! ### The obligations -/

/-- Settles O15: every place but a symbol's gives back its instructions. -/
theorem decodeEncodeAgree : Obligations.DecodeEncodeAgree := fun _ i r rest hc => plain_roundTrips hc i r rest

/-- Settles O3: each word is decoded at its place. -/
theorem tableWordsDecode : Obligations.TableWordsDecode := by
  unfold Obligations.TableWordsDecode
  decide +kernel

end Sys2Proof
end

section
/-! SUPPORT. Lemmas and proofs about decoding with a built table (43_huffman.md R295 to R298). The first code of a length is
the sum of what the shorter codes take of it; so a longer code's beginning lies above every code of the shorter length, and
the walk of R297 stops exactly at a canonical code. -/

namespace Sys2Proof.Machine

/-! ### The first code of a length -/

section
variable (s : State) (t : Nat)

/-- The first canonical code of length `l`: every shorter code of length `u` takes `2 ^ (l - u)` numbers (R295). -/
def State.codeStart (l : Nat) : Nat := (((s.lengthsOf t).filter (· < l)).map fun u => 2 ^ (l - u)).sum

/-- The place of symbol `v` among the symbols of its length. -/
def State.rankOf (v : Nat) : Nat := ((List.range v).filter fun j => s.lenAt t j = s.lenAt t v).length

theorem State.codeStart_succ (l : Nat) : s.codeStart t (l + 1) = 2 * (s.codeStart t l + s.codesOf t l) := by
  unfold State.codeStart State.codesOf
  induction s.lengthsOf t with
  | nil => rfl
  | cons u us ih =>
    rw [List.count_cons]
    rcases Nat.lt_trichotomy u l with hu | rfl | hu
    · have hpow : 2 ^ (l + 1 - u) = 2 * 2 ^ (l - u) := by rw [Nat.succ_sub hu.le, pow_succ']
      have hne : u ≠ l := hu.ne
      simp only [List.filter_cons, hu, Nat.lt_succ_of_lt hu, hpow, decide_true, if_true, List.map_cons, List.sum_cons, ih,
        beq_iff_eq, hne, if_false]
      omega
    · have hone : 2 ^ (u + 1 - u) = 2 := by rw [Nat.add_sub_cancel_left, pow_one]
      simp only [List.filter_cons, Nat.lt_irrefl, Nat.lt_succ_self, hone, decide_true, decide_false, if_true,
        Bool.false_eq_true, if_false, List.map_cons, List.sum_cons, ih, beq_self_eq_true]
      omega
    · have h1 : ¬ u < l := by omega
      have h2 : ¬ u < l + 1 := by omega
      have hne : u ≠ l := hu.ne'
      simp only [List.filter_cons, h1, h2, decide_false, Bool.false_eq_true, if_false, ih, beq_iff_eq, hne, Nat.add_zero]

/-- The codes of a length double with every bit that follows (R293). -/
theorem State.codeStart_add (l d : Nat) :
    2 ^ (d + 1) * (s.codeStart t l + s.codesOf t l) ≤ s.codeStart t (l + (d + 1)) := by
  induction d with
  | zero => rw [State.codeStart_succ]; simp
  | succ d ih =>
    rw [← Nat.add_assoc l, State.codeStart_succ, pow_succ', Nat.mul_assoc]
    exact Nat.mul_le_mul_left 2 (ih.trans (Nat.le_add_right _ _))

/-- The codes up to length `l` take their share of the code space. -/
theorem State.codeStart_share {l : Nat} (hl : l ≤ 20) :
    (s.codeStart t l + s.codesOf t l) * 2 ^ (20 - l) ≤ ((s.lengthsOf t).map fun u => 2 ^ (20 - u)).sum := by
  unfold State.codeStart State.codesOf
  induction s.lengthsOf t with
  | nil => simp
  | cons u us ih =>
    rw [List.count_cons, List.map_cons, List.sum_cons]
    rcases Nat.lt_trichotomy u l with hu | rfl | hu
    · have hpow : 2 ^ (20 - u) = 2 ^ (l - u) * 2 ^ (20 - l) := by rw [← pow_add]; congr 1; omega
      have hne : u ≠ l := hu.ne
      simp only [List.filter_cons, hu, decide_true, if_true, List.map_cons, List.sum_cons, beq_iff_eq, hne, if_false,
        Nat.add_zero]
      rw [Nat.add_assoc, Nat.add_mul, hpow]
      exact Nat.add_le_add_left ih _
    · simp only [List.filter_cons, Nat.lt_irrefl, decide_false, Bool.false_eq_true, if_false, beq_self_eq_true, if_true]
      rw [← Nat.add_assoc, Nat.add_mul, Nat.one_mul, Nat.add_comm]
      exact Nat.add_le_add_left ih _
    · have h1 : ¬ u < l := by omega
      have hne : u ≠ l := hu.ne'
      simp only [List.filter_cons, h1, decide_false, Bool.false_eq_true, if_false, beq_iff_eq, hne, Nat.add_zero]
      exact ih.trans (Nat.le_add_left _ _)

/-- Where the lengths do not overfill the code space, the codes of length `l` fit `l` bits. -/
theorem State.codeStart_fits {l : Nat} (hl : l ≤ 20)
    (hsum : ((s.lengthsOf t).map fun u => 2 ^ (20 - u)).sum ≤ 2 ^ 20) : s.codeStart t l + s.codesOf t l ≤ 2 ^ l := by
  have hshare := (s.codeStart_share t hl).trans hsum
  have hpow : 2 ^ 20 = 2 ^ l * 2 ^ (20 - l) := by rw [← pow_add, Nat.add_sub_cancel' hl]
  rw [hpow] at hshare
  exact Nat.le_of_mul_le_mul_right hshare (Nat.two_pow_pos _)

variable {s t}

theorem State.RowSpan.codeStart_lo {lo hi : Nat} (h : s.RowSpan t lo hi) : s.codeStart t lo = 0 := by
  have hnone : (s.lengthsOf t).filter (· < lo) = [] :=
    List.filter_eq_nil_iff.2 fun u hu => by simpa using (h.bounds u hu).1
  rw [State.codeStart, hnone]
  rfl

theorem State.RowSpan.firstCode_eq_codeStart {lo hi : Nat} (h : s.RowSpan t lo hi) (k : Nat) :
    firstCode (s.codesOf t) lo k = s.codeStart t (lo + k) := by
  induction k with
  | zero => exact h.codeStart_lo.symm
  | succ k ih => rw [firstCode, ih, ← Nat.add_assoc, State.codeStart_succ]

/-! ### The symbols of a length, in order -/

/-- A number below `n` that is kept stands after as many as are kept below it. -/
theorem filter_range_split (p : Nat → Bool) {v n : Nat} (hv : v < n) (hp : p v = true) :
    ∃ rest, (List.range n).filter p = (List.range v).filter p ++ v :: rest := by
  obtain ⟨m, rfl⟩ : ∃ m, n = v + (1 + m) := ⟨n - v - 1, by omega⟩
  refine ⟨(((List.range m).map (1 + ·)).map (v + ·)).filter p, ?_⟩
  rw [List.range_add, List.filter_append, List.range_add, List.map_append, List.filter_append]
  simp [hp]

theorem filter_range_rank (p : Nat → Bool) {n i : Nat} (hi : i < ((List.range n).filter p).length) :
    ((List.range ((List.range n).filter p)[i]).filter p).length = i := by
  obtain ⟨hv, hp⟩ := List.mem_filter.1 (List.getElem_mem hi)
  obtain ⟨rest, hsplit⟩ := filter_range_split p (List.mem_range.1 hv) hp
  have hlt : ((List.range ((List.range n).filter p)[i]).filter p).length < ((List.range n).filter p).length := by
    have := congrArg List.length hsplit
    rw [List.length_append, List.length_cons] at this
    omega
  refine (List.nodup_range.filter p).getElem_inj_iff (hi := hlt) (hj := hi) |>.1 ?_
  rw [List.getElem_of_eq hsplit]
  simp

theorem State.lengthsOf_getD {v : Nat} (hv : v < s.alphaSize) : (s.lengthsOf t).getD v 0 = s.lenAt t v := by
  rw [List.getD_eq_getElem _ _ (by rwa [State.lengthsOf_length])]
  simp [State.lengthsOf]

theorem State.mem_lengthsOf {v : Nat} (hv : v < s.alphaSize) : s.lenAt t v ∈ s.lengthsOf t :=
  List.mem_map_of_mem (List.mem_range.2 hv)

theorem State.canonicalNumber_eq {v : Nat} (hv : v < s.alphaSize) :
    canonicalNumber (s.lengthsOf t) v = s.codeStart t (s.lenAt t v) + s.rankOf t v := by
  have htake : (s.lengthsOf t).take v = (List.range v).map (s.lenAt t) := by
    rw [State.lengthsOf, ← List.map_take, List.take_range, Nat.min_eq_left hv.le]
  rw [canonicalNumber, State.lengthsOf_getD hv, htake, List.filter_map, List.length_map]
  rfl

theorem State.canonicalCode_eq {v : Nat} (hv : v < s.alphaSize) :
    canonicalCode (s.lengthsOf t) v = bitsMsb (s.lenAt t v) (s.codeStart t (s.lenAt t v) + s.rankOf t v) := by
  rw [canonicalCode, State.canonicalNumber_eq hv, State.lengthsOf_getD hv]

theorem State.symbolsOf_split {v : Nat} (hv : v < s.alphaSize) :
    ∃ before after, s.symbolsOf t (s.lenAt t v) = before ++ v :: after ∧ before.length = s.rankOf t v := by
  obtain ⟨rest, h⟩ := filter_range_split (fun j => s.lenAt t j = s.lenAt t v) hv (by simp)
  exact ⟨_, rest, h, rfl⟩

theorem State.rankOf_lt {v : Nat} (hv : v < s.alphaSize) : s.rankOf t v < s.codesOf t (s.lenAt t v) := by
  obtain ⟨before, after, h, hrank⟩ := State.symbolsOf_split (t := t) hv
  rw [← State.symbolsOf_length, h, List.length_append, List.length_cons]
  omega

/-- Every number of a length's codes is the canonical code of a symbol. -/
theorem State.exists_symbol {l i : Nat} (hi : i < s.codesOf t l) :
    ∃ v, v < s.alphaSize ∧ s.lenAt t v = l ∧ s.rankOf t v = i := by
  rw [← State.symbolsOf_length] at hi
  obtain ⟨hv, hl⟩ := List.mem_filter.1 (List.getElem_mem hi)
  have hl : s.lenAt t (s.symbolsOf t l)[i] = l := by simpa using hl
  refine ⟨_, List.mem_range.1 hv, hl, ?_⟩
  rw [State.rankOf, hl]
  exact filter_range_rank _ hi

/-- In code order a symbol stands after all shorter ones and those of its length before it (R290). -/
theorem State.RowSpan.codeOrder_getElem? {lo hi v : Nat} (h : s.RowSpan t lo hi) (hv : v < s.alphaSize) :
    (s.codeOrder t lo hi)[s.codesBelow t (s.lenAt t v) + s.rankOf t v]? = some v := by
  obtain ⟨hlo, hhi⟩ := h.bounds _ (State.mem_lengthsOf (t := t) hv)
  have hone := h.one_le
  obtain ⟨l, hl⟩ : ∃ l, s.lenAt t v = l + 1 := ⟨s.lenAt t v - 1, by omega⟩
  have hbelow := s.flatMap_symbolsOf_length t lo (l + 1 - lo)
  rw [h.codesBelow_lo, Nat.add_sub_cancel' (hl ▸ hlo), ← hl, Nat.add_zero] at hbelow
  obtain ⟨before, after, hsplit, hrank⟩ := State.symbolsOf_split (t := t) hv
  have hupTo : upTo lo hi = upTo lo l ++ s.lenAt t v :: upTo (s.lenAt t v + 1) hi := by
    have hsucc : hi + 1 - s.lenAt t v = hi + 1 - (s.lenAt t v + 1) + 1 := by omega
    rw [← upTo_append (a := lo) (b := l) (by omega) (by omega), ← hl, upTo, upTo, upTo, hsucc, List.range'_succ]
  rw [State.codeOrder, hupTo, List.flatMap_append, List.flatMap_cons, hsplit, ← hrank]
  have hlen : ((upTo lo l).flatMap (s.symbolsOf t)).length = s.codesBelow t (s.lenAt t v) := by
    rw [← hbelow, hl]; rfl
  rw [List.getElem?_append_right (by omega), hlen, Nat.add_sub_cancel_left]
  simp

end

/-! ### The built table -/

/-- `T` is the decode table of a row of lengths `lo` to `hi`: LIMIT holds the last code of each length, BASE its first code
less the number of shorter symbols, PERM the symbols in code order (R290, R293, R294). -/
structure State.TableOf (s : State) (t lo hi : Nat) (T : CodeTable) : Prop where
  inRange : T.inRange = true
  minLen : T.minLen = lo
  maxLen : T.maxLen = hi
  alpha : T.alpha = s.alphaSize
  limit : ∀ l, lo ≤ l → l ≤ hi → T.limitAt l + 1 = s.codeStart t l + s.codesOf t l
  base : ∀ l, lo ≤ l → l ≤ hi → T.baseAt l + s.codesBelow t l = s.codeStart t l
  perm : (List.range s.alphaSize).map T.permAt = s.codeOrder t lo hi

theorem State.tableOf_buildTable {s : State} {t : Nat} (hwf : Memory.wf s = true) (ht : t < s.sel.nGroups.toNat)
    (hg : s.sel.nGroups.toNat ≤ Config.maxGroups) (ha3 : 3 ≤ s.alphaSize) (ha : s.alphaSize ≤ Config.maxAlpha)
    (hrow : s.rowOk t) :
    s.TableOf t (minOf (s.lengthsOf t)) (maxOf (s.lengthsOf t)) ((s.buildTable t).codeTable t) := by
  have ht6 : t < Config.maxGroups := ht.trans_le hg
  have hspan := State.rowSpan hrow ha3
  obtain ⟨hperm, -, tab, htab, -, hmin, hmax, -⟩ := permutationOrder s t hwf ht6 ha3 ha hrow
  obtain ⟨hused, -, -⟩ := limitsAndBases s t hwf ht6 ha3 ha hrow
  have hminLen : ((s.buildTable t).codeTable t).minLen = minOf (s.lengthsOf t) := by rw [htab]; exact hmin
  have hmaxLen : ((s.buildTable t).codeTable t).maxLen = maxOf (s.lengthsOf t) := by rw [htab]; exact hmax
  have halpha : ((s.buildTable t).codeTable t).alpha = s.alphaSize := s.buildTable_alphaSize t
  have hgroups : ((s.buildTable t).codeTable t).groups = s.sel.nGroups.toNat := by
    rw [State.codeTable, State.buildTable_sel]
  have hat : ∀ l, minOf (s.lengthsOf t) ≤ l → l ≤ maxOf (s.lengthsOf t) →
      ((s.buildTable t).codeTable t).limitAt l + 1 = s.codeStart t l + s.codesOf t l ∧
        ((s.buildTable t).codeTable t).baseAt l + s.codesBelow t l = s.codeStart t l := fun l h1 h2 => by
    have h := hused (l - minOf (s.lengthsOf t)) (by omega)
    simpa only [Nat.add_sub_cancel' h1, hspan.firstCode_eq_codeStart] using h
  refine ⟨?_, hminLen, hmaxLen, halpha, fun l h1 h2 => (hat l h1 h2).1, fun l h1 h2 => (hat l h1 h2).2,
    hperm.trans hspan.codeOrder_all⟩
  rw [CodeTable.inRange, hminLen, hmaxLen, halpha, hgroups]
  simp only [Bool.and_eq_true, decide_eq_true_eq]
  exact ⟨⟨⟨⟨lt_min ht ht6, ha⟩, hspan.one_le⟩, hspan.le⟩, hspan.le_20⟩

section
variable {s : State} {t lo hi : Nat} {T : CodeTable}

theorem State.TableOf.permAt_rank (h : s.TableOf t lo hi T) (hspan : s.RowSpan t lo hi) {v : Nat} (hv : v < s.alphaSize) :
    s.codesBelow t (s.lenAt t v) + s.rankOf t v < T.alpha ∧
      T.permAt (s.codesBelow t (s.lenAt t v) + s.rankOf t v) = v := by
  have hget := hspan.codeOrder_getElem? hv
  rw [← h.perm, List.getElem?_map] at hget
  obtain ⟨k, hk, hperm⟩ := Option.map_eq_some_iff.1 hget
  obtain ⟨hlt, hk⟩ := List.getElem?_eq_some_iff.1 hk
  rw [List.getElem_range] at hk
  rw [List.length_range, ← h.alpha] at hlt
  exact ⟨hlt, hk ▸ hperm⟩

/-- The walk of R297 stays in range with a built table (R295, "Index range"). -/
theorem State.TableOf.codeTableOk (h : s.TableOf t lo hi T) (hspan : s.RowSpan t lo hi) : CodeTableOk T where
  range := h.inRange
  first := by
    have hbase := h.base lo (le_refl _) hspan.le
    rw [hspan.codesBelow_lo, hspan.codeStart_lo] at hbase
    rw [h.minLen]
    exact hbase
  lower n h1 h2 := by
    rw [h.minLen] at h1
    rw [h.maxLen] at h2
    obtain ⟨n, rfl⟩ : ∃ k, n = k + 1 := ⟨n - 1, by omega⟩
    have hlimit := h.limit n (by omega) (by omega)
    have hbase := h.base (n + 1) (by omega) h2
    rw [State.codeStart_succ] at hbase
    rw [Nat.add_sub_cancel]
    omega
  upper n h1 h2 := by
    rw [h.minLen] at h1
    rw [h.maxLen] at h2
    have hlimit := h.limit n h1 h2
    have hbase := h.base n h1 h2
    have hbelow := s.codesBelow_le t (n + 1)
    rw [State.codesBelow_succ] at hbelow
    rw [h.alpha]
    omega
  symbols k hk := by
    rw [h.alpha] at hk ⊢
    have hmem : T.permAt k ∈ (List.range s.alphaSize).map T.permAt := List.mem_map_of_mem (List.mem_range.2 hk)
    rw [h.perm] at hmem
    exact State.codeOrder_lt hmem

/-! ### The walk along a canonical code -/

theorem shiftRight_testBit (c d : Nat) : 2 * (c >>> (d + 1)) + (BitVec.ofBool (c.testBit d)).toNat = c >>> d := by
  have hbit : (BitVec.ofBool (c.testBit d)).toNat = (c >>> d) % 2 := by
    rw [BitVec.toNat_ofBool, Nat.testBit_eq_decide_div_mod_eq, Nat.shiftRight_eq_div_pow]
    rcases Nat.mod_two_eq_zero_or_one (c / 2 ^ d) with h | h <;> simp [h]
  rw [hbit, Nat.shiftRight_succ]
  omega

/-- Past the first bits of a canonical code the walk goes on to its symbol. -/
theorem State.TableOf.decodeSymbolFrom_code (h : s.TableOf t lo hi T) (hspan : s.RowSpan t lo hi) {v : Nat}
    (hv : v < s.alphaSize) (eob : Nat) {n d : Nat} (hn : lo ≤ n) (hnd : n + d = s.lenAt t v) {r : BitReader}
    {rest : List Bool} (hb : r.bits = bitsMsb d (s.codeStart t (s.lenAt t v) + s.rankOf t v) ++ rest) :
    ∃ r', decodeSymbolFrom T eob (hi - n) n ((s.codeStart t (s.lenAt t v) + s.rankOf t v) >>> d) r
      = .instr (classifySymbol eob v) r' ∧ r'.bits = rest := by
  have hrank := State.rankOf_lt (t := t) hv
  obtain ⟨-, hhi⟩ := hspan.bounds _ (State.mem_lengthsOf (t := t) hv)
  induction d generalizing n r with
  | zero =>
    rw [Nat.add_zero] at hnd
    subst hnd
    obtain ⟨hlt, hperm⟩ := h.permAt_rank hspan hv
    have hlimit := h.limit _ hn hhi
    have hbase := h.base _ hn hhi
    refine ⟨r, ?_, hb⟩
    rw [Nat.shiftRight_zero]
    have hidx : s.codeStart t (s.lenAt t v) + s.rankOf t v - T.baseAt (s.lenAt t v)
        = s.codesBelow t (s.lenAt t v) + s.rankOf t v := by omega
    have hstop : ¬ T.limitAt (s.lenAt t v) < s.codeStart t (s.lenAt t v) + s.rankOf t v := by omega
    have hfin : finishSymbol T eob (s.lenAt t v) (s.codeStart t (s.lenAt t v) + s.rankOf t v) r
        = .instr (classifySymbol eob v) r := by
      rw [finishSymbol, hidx, if_pos ⟨by omega, hlt⟩, hperm]
    cases hi - s.lenAt t v <;> rw [decodeSymbolFrom, if_neg hstop, hfin]
  | succ d ih =>
    have hlimit := h.limit n hn (by omega)
    have hgo : T.limitAt n < (s.codeStart t (s.lenAt t v) + s.rankOf t v) >>> (d + 1) := by
      rw [Nat.shiftRight_eq_div_pow, ← Nat.succ_le_iff, Nat.le_div_iff_mul_le (Nat.two_pow_pos _), Nat.succ_eq_add_one,
        hlimit, Nat.mul_comm, ← hnd]
      exact (s.codeStart_add t n d).trans (Nat.le_add_right _ _)
    have hfuel : hi - n = (hi - (n + 1)) + 1 := by omega
    rw [bitsMsb_succ, List.cons_append] at hb
    obtain ⟨r1, h1, hb1⟩ := readBits_one hb
    obtain ⟨r', hr, hb'⟩ := ih (n := n + 1) (by omega) (by omega) hb1
    refine ⟨r', ?_, hb'⟩
    rw [hfuel, decodeSymbolFrom, if_pos hgo, h1]
    simp only [Rd.decoded, shiftRight_testBit]
    exact hr

theorem State.TableOf.decode_code (h : s.TableOf t lo hi T) (hspan : s.RowSpan t lo hi) {v : Nat}
    (hv : v < s.alphaSize) (eob : Nat)
    (hsum : ((s.lengthsOf t).map fun u => 2 ^ (20 - u)).sum ≤ 2 ^ 20) {r : BitReader} {rest : List Bool}
    (hb : r.bits = canonicalCode (s.lengthsOf t) v ++ rest) :
    ∃ r', decode (.symbol T eob) r = .instr (classifySymbol eob v) r' ∧ r'.bits = rest := by
  obtain ⟨hlo, hhi⟩ := hspan.bounds _ (State.mem_lengthsOf (t := t) hv)
  have h20 := hspan.le_20
  have hrank := State.rankOf_lt (t := t) hv
  have hfits := s.codeStart_fits t (l := s.lenAt t v) (by omega) hsum
  have hlen : lo + (s.lenAt t v - lo) = s.lenAt t v := Nat.add_sub_cancel' hlo
  rw [State.canonicalCode_eq hv, ← hlen, bitsMsb_add, hlen, List.append_assoc] at hb
  have hlt : (s.codeStart t (s.lenAt t v) + s.rankOf t v) >>> (s.lenAt t v - lo) < 2 ^ lo := by
    rw [Nat.shiftRight_eq_div_pow, Nat.div_lt_iff_lt_mul (Nat.two_pow_pos _), ← pow_add, hlen]
    omega
  obtain ⟨u, r1, h1, hu, hb1⟩ := readBits_spec (by omega) hb (bitsMsb_length _ _)
  obtain ⟨r', hr, hb'⟩ := h.decodeSymbolFrom_code hspan hv eob (le_refl lo) hlen hb1
  refine ⟨r', ?_, hb'⟩
  rw [decode, decodeSymbol, if_pos h.inRange, h.maxLen]
  cases h.minLen
  rw [h1]
  simp only [Rd.decoded, bitsMsb_inj u.isLt hlt hu]
  exact hr

/-! ### The walk along bits that begin with no canonical code -/

/-- `w` is what the first `n` bits spell. Where none of the codes of length `n` or less begins the bits, `w` lies above the
codes of length `n`. -/
theorem State.TableOf.limitAt_lt (h : s.TableOf t lo hi T) {n w : Nat} (hlo : lo ≤ n) (hhi : n ≤ hi)
    (hw : s.codeStart t n ≤ w) {bits : List Bool} (hpre : bitsMsb n w <+: bits)
    (hno : ∀ v, v < s.alphaSize → ¬ canonicalCode (s.lengthsOf t) v <+: bits) : T.limitAt n < w := by
  by_contra hle
  have hlimit := h.limit n hlo hhi
  obtain ⟨v, hv, hl, hrank⟩ := State.exists_symbol (s := s) (t := t) (l := n) (i := w - s.codeStart t n) (by omega)
  refine hno v hv ?_
  rwa [State.canonicalCode_eq hv, hl, hrank, Nat.add_sub_cancel' hw]

theorem State.TableOf.decodeSymbolFrom_unmatched (h : s.TableOf t lo hi T) (eob : Nat) {bits : List Bool}
    (hno : ∀ v, v < s.alphaSize → ¬ canonicalCode (s.lengthsOf t) v <+: bits) {n d w : Nat} {r : BitReader} (hlo : lo ≤ n)
    (hnd : n + d = hi) (hw : s.codeStart t n ≤ w) (hpre : bits = bitsMsb n w ++ r.bits) (hlen : d ≤ r.bits.length) :
    ∃ r', decodeSymbolFrom T eob d n w r = .reject .noCode r' ∧ r'.bits = r.bits.drop d := by
  induction d generalizing n w r with
  | zero =>
    have hgo := h.limitAt_lt hlo (by omega) hw ⟨_, hpre.symm⟩ hno
    exact ⟨r, by rw [decodeSymbolFrom, if_pos hgo], rfl⟩
  | succ d ih =>
    have hgo := h.limitAt_lt hlo (by omega) hw ⟨_, hpre.symm⟩ hno
    have hlimit := h.limit n hlo (by omega)
    obtain ⟨b, rest, hbits⟩ := List.exists_cons_of_ne_nil (List.ne_nil_of_length_pos (by omega : 0 < r.bits.length))
    obtain ⟨r1, h1, hb1⟩ := readBits_one hbits
    have hnext : bits = bitsMsb (n + 1) (2 * w + (BitVec.ofBool b).toNat) ++ r1.bits := by
      have hhead : (2 * w + (BitVec.ofBool b).toNat) >>> 1 = w := by
        have hbit : (BitVec.ofBool b).toNat < 2 := (BitVec.ofBool b).isLt
        rw [Nat.shiftRight_one]; omega
      have hlast : bitsMsb 1 (2 * w + (BitVec.ofBool b).toNat) = [b] := by
        cases b <;> simp [bitsMsb, Nat.testBit_zero]
      rw [bitsMsb_add, hhead, hlast, hpre, hbits, hb1]
      simp
    have hstart : s.codeStart t (n + 1) ≤ 2 * w + (BitVec.ofBool b).toNat := by
      rw [State.codeStart_succ]; omega
    have hleft : d ≤ r1.bits.length := by
      rw [hbits, List.length_cons] at hlen
      rw [hb1]; omega
    obtain ⟨r', hr, hb'⟩ := ih (by omega) (by omega) hstart hnext hleft
    refine ⟨r', ?_, by rw [hb', hbits, hb1, List.drop_succ_cons]⟩
    rw [decodeSymbolFrom, if_pos hgo, h1]
    simp only [Rd.decoded]
    exact hr

theorem State.TableOf.decode_unmatched (h : s.TableOf t lo hi T) (hspan : s.RowSpan t lo hi) (eob : Nat) {r : BitReader}
    (hlen : hi ≤ r.bits.length) (hno : ∀ v, v < s.alphaSize → ¬ canonicalCode (s.lengthsOf t) v <+: r.bits) :
    ∃ r', decode (.symbol T eob) r = .reject .noCode r' ∧ r'.bits = r.bits.drop hi := by
  have hle := hspan.le
  have h20 := hspan.le_20
  obtain ⟨u, r1, h1, hu, hb1⟩ := readBits_got (n := lo) (by omega) (by omega : lo ≤ r.bits.length)
  have hpre : r.bits = bitsMsb lo u.toNat ++ r1.bits := by rw [hu, hb1, List.take_append_drop]
  have hleft : hi - lo ≤ r1.bits.length := by rw [hb1, List.length_drop]; omega
  obtain ⟨r', hr, hb'⟩ := h.decodeSymbolFrom_unmatched eob hno (le_refl lo) (Nat.add_sub_cancel' hle)
    (by rw [hspan.codeStart_lo]; exact Nat.zero_le _) hpre hleft
  refine ⟨r', ?_, by rw [hb', hb1, List.drop_drop, Nat.add_sub_cancel' hle]⟩
  rw [decode, decodeSymbol, if_pos h.inRange, h.maxLen]
  cases h.minLen
  rw [h1]
  exact hr

end

/-! ### The obligations -/

/-- Settles O16: the beginning of a code lies above the codes of every shorter length. -/
theorem canonicalCodesDecode : Obligations.CanonicalCodesDecode := by
  intro s t v eob r rest hwf ht hg ha3 ha hrow hsum hv hb
  exact (State.tableOf_buildTable hwf ht hg ha3 ha hrow).decode_code (State.rowSpan hrow ha3) hv eob hsum hb

/-- Settles O17: bits that no code begins lie above the codes of every length. -/
theorem unmatchedBitsReject : Obligations.UnmatchedBitsReject := by
  intro s t eob r hwf ht hg ha3 ha hrow hlen hno
  exact (State.tableOf_buildTable hwf ht hg ha3 ha hrow).decode_unmatched (State.rowSpan hrow ha3) eob hlen hno

end Sys2Proof.Machine
end

section
/-! SUPPORT. Lemmas and proofs about the table elements (42_tables.md): the map words and the loop over the ranges, the two
counts, the selector ranks, and the end of a code length. -/

namespace Sys2Proof.Machine

/-! ### The map words (R250, R251) -/

/-- The sixteen bits of a range. -/
theorem look_setRange {s : State} (h : s.map.inUse.wf = true) (i : Nat) (b : BitVec 16) (v : Nat) :
    (s.setRange i b).map.inUse.look v
      = if v / 16 = i then BitVec.ofBool (b.getLsbD (15 - v % 16)) else s.map.inUse.look v := by
  rw [State.setRange_map, Store.look_putAll_range h (16 * i) 16 (mapBit b) v]
  by_cases hv : v / 16 = i
  · have hoff : v - 16 * i = v % 16 := by omega
    rw [if_pos (by omega), if_pos hv, hoff, mapBit]
  · rw [if_neg (by omega), if_neg hv]

/-- A present range is read next. -/
theorem seekRange_present {s : State} {i : Nat} (l : List Nat) (h : s.map.inUse16.look i = 1) :
    State.seekRange (i :: l) s =
      { s with work := { s.work with rangeIdx := BitVec.ofNat 4 i, phase := .inuseInner } } := by
  rw [State.seekRange, if_pos h]
  rfl

/-- An absent range is cleared, and the loop goes on. -/
theorem seekRange_absent {s : State} {i : Nat} (l : List Nat) (h : s.map.inUse16.look i ≠ 1) :
    State.seekRange (i :: l) s = State.seekRange l (s.setRange i 0) := by
  rw [State.seekRange, if_neg h]

/-- R251's loop: the absent ranges before the first present one are cleared. -/
theorem seekRange_spec (l : List Nat) (s : State) (hwf : Memory.wf s = true) :
    ∃ m : Store 1,
      (∀ v, m.look v = if v / 16 ∈ l.takeWhile (fun i => s.map.inUse16.look i ≠ 1) then 0 else s.map.inUse.look v) ∧
      (∀ i rest, l.dropWhile (fun i => s.map.inUse16.look i ≠ 1) = i :: rest →
        State.seekRange l s = { s with
          map := { s.map with inUse := m }
          work := { s.work with rangeIdx := BitVec.ofNat 4 i, phase := .inuseInner } }) ∧
      (l.dropWhile (fun i => s.map.inUse16.look i ≠ 1) = [] →
        State.seekRange l s = { s with map := { s.map with inUse := m } }.finishMap) := by
  induction l generalizing s with
  | nil => exact ⟨s.map.inUse, fun _ => rfl, nofun, fun _ => rfl⟩
  | cons i l ih =>
    by_cases hi : s.map.inUse16.look i = 1
    · have hstop : decide (s.map.inUse16.look i ≠ 1) = false := by simpa using hi
      refine ⟨s.map.inUse, fun v => ?_, fun j rest hj => ?_, fun hnil => ?_⟩
      · rw [List.takeWhile_cons, hstop]; rfl
      · rw [List.dropWhile_cons, hstop] at hj
        injection hj with hj _
        subst hj
        exact seekRange_present l hi
      · rw [List.dropWhile_cons, hstop] at hnil
        cases hnil
    · have hgo : decide (s.map.inUse16.look i ≠ 1) = true := by simpa using hi
      obtain ⟨-, huse, -⟩ := (Memory.wf_iff s).1 hwf
      obtain ⟨m, hlook, hfound, hnone⟩ := ih (s.setRange i 0) (Memory.wf_setRange hwf i 0)
      have hsame : (s.setRange i 0).map.inUse16 = s.map.inUse16 := by rw [State.setRange_map]
      rw [hsame] at hlook hfound hnone
      refine ⟨m, fun v => ?_, fun j rest hj => ?_, fun hnil => ?_⟩
      · rw [hlook v, look_setRange huse, List.takeWhile_cons, hgo, if_pos rfl]
        by_cases hv : v / 16 = i
        · simp [hv]
        · simp [hv]
      · rw [List.dropWhile_cons, hgo, if_pos rfl] at hj
        rw [seekRange_absent l hi, hfound j rest hj]
        simp only [State.setRange]
      · rw [List.dropWhile_cons, hgo, if_pos rfl] at hnil
        rw [seekRange_absent l hi, hnone hnil]
        simp only [State.setRange]

theorem exec_inuse16_eq (s : State) (u : BitVec 16) :
    exec (.inuse16 u) s = .next (State.seekRange (List.range 16) { s with map := { s.map with
      inUse16 := s.map.inUse16.putAll ((List.range 16).map fun i => (i, mapBit u i)) } }) := by
  simp only [exec, execInuse16]

theorem exec_inuseInner_eq (s : State) (b : BitVec 16) :
    exec (.inuseInner b) s = .next (State.seekRange (upTo (s.work.rangeIdx.toNat + 1) 15)
      { s with map := { s.map with inUse := (s.setRange s.work.rangeIdx.toNat b).map.inUse } }) := by
  simp only [exec, execInuseInner, State.setRange]

/-! ### The counts (R254, R255) -/

theorem badGroupCount_iff (n : BitVec 3) : badGroupCount n = true ↔ n = 0 ∨ n = 7 := by revert n; decide

section
variable {s : State}

theorem exec_nSelectors_of_ne {n : BitVec 15} (hn : n ≠ 0) (hg : s.sel.nGroups.toNat ≤ Config.maxGroups) :
    exec (.nSelectors n) s = .next { s with
      sel := { s.sel with
        nSelectors := n
        selPos := s.sel.selPos.putAll ((List.range s.sel.nGroups.toNat).map fun k => (k, BitVec.ofNat 3 k)) }
      work := { s.work with selIdx := 0, phase := .selector } } := by
  simp only [exec, execNSelectors, hn, hg, if_true, if_false]
  rfl

/-! ### Selector ranks (R256, R257) -/

theorem exec_selectorMtf_of_full {j : BitVec 3} (hj : s.sel.nGroups.toNat ≤ j.toNat) :
    exec (.selectorMtf j) s = .next (s.raise .selectorRank) := if_pos hj

theorem exec_selectorMtf_of_lt {j : BitVec 3} (hj : j.toNat < s.sel.nGroups.toNat)
    (hg : s.sel.nGroups.toNat ≤ Config.maxGroups) (hi : s.work.selIdx.toNat < s.sel.nSelectors.toNat) :
    exec (.selectorMtf j) s = .next { s with
      sel := { s.sel with
        selPos := moveToFront s.sel.selPos j.toNat
        selector := s.sel.selector.put s.work.selIdx.toNat (s.sel.selPos.look j.toNat) }
      work := if s.work.selIdx.toNat + 1 < s.sel.nSelectors.toNat
        then { s.work with selIdx := s.work.selIdx + 1, phase := .selector }
        else { s.work with lenGroup := 0, phase := .lenStart } } := by
  have hnext : BitVec.ofNat 15 (s.work.selIdx.toNat + 1) = s.work.selIdx + 1 := by bv_omega
  simp only [exec, execSelectorMtf, Nat.not_le.2 hj, if_false, inRange_of_lt (hj.trans_le hg), inRange_of_lt hi, bind,
    Except.bind, pure, Except.pure, hnext]
  split <;> rfl

/-! ### The end of a code length (R259, R261) -/

/-- The current length stored for its symbol. -/
def State.lengthStored (s : State) : State :=
  { s with tab := { s.tab with
      len := s.tab.len.put (symbolKey s.work.lenGroup.toNat s.work.lenSym.toNat) s.work.curr } }

/-- LEN_END within its ranges: the next symbol, the next group, or the table build. -/
theorem exec_lenEnd_eq (ht : s.work.lenGroup.toNat < s.sel.nGroups.toNat) (hg : s.sel.nGroups.toNat ≤ Config.maxGroups)
    (hv : s.work.lenSym.toNat < s.alphaSize) (ha : s.alphaSize ≤ Config.maxAlpha) :
    exec .lenEnd s =
      if s.work.lenSym.toNat + 1 < s.alphaSize then
        .next { s.lengthStored with work := { s.work with lenSym := s.work.lenSym + 1, phase := .lenDelta } }
      else if s.work.lenGroup.toNat + 1 < s.sel.nGroups.toNat then
        .next { s.lengthStored with work := { s.work with lenGroup := s.work.lenGroup + 1, phase := .lenStart } }
      else Result.ofExcept (s.lengthStored.buildTables.map State.initSymbols) := by
  have hgroup : s.work.lenGroup.toNat < min s.sel.nGroups.toNat Config.maxGroups := lt_min ht (ht.trans_le hg)
  have hsym : s.work.lenSym.toNat < min s.alphaSize Config.maxAlpha := lt_min hv (hv.trans_le ha)
  have hnextSym : BitVec.ofNat 9 (s.work.lenSym.toNat + 1) = s.work.lenSym + 1 := by bv_omega
  have hnextGroup : BitVec.ofNat 3 (s.work.lenGroup.toNat + 1) = s.work.lenGroup + 1 := by bv_omega
  simp only [exec, execLenEnd, inRange_of_lt hgroup, inRange_of_lt hsym, bind, Except.bind, pure, Except.pure, hnextSym,
    hnextGroup]
  split_ifs
  · rfl
  · rfl
  · unfold State.lengthStored
    cases State.buildTables _ <;> rfl

theorem State.look_lengthStored (h : s.tab.len.wf = true) (k : Nat) :
    s.lengthStored.tab.len.look k = if k = symbolKey s.work.lenGroup.toNat s.work.lenSym.toNat then s.work.curr
      else s.tab.len.look k := Store.look_put h _ _ _

/-- Rows within the legal lengths pass the builder's check (20_memory.md R85). -/
theorem State.buildTables_of_rowOk (hg : s.sel.nGroups.toNat ≤ Config.maxGroups) (ha : s.alphaSize ≤ Config.maxAlpha)
    (hrows : ∀ t, t < s.sel.nGroups.toNat → s.rowOk t) :
    s.buildTables = .ok ((List.range s.sel.nGroups.toNat).foldl State.buildTable s) := by
  have hrange : s.lengthsInRange = true := by
    simp only [State.lengthsInRange, Bool.and_eq_true, decide_eq_true_eq, List.all_eq_true, List.mem_range]
    exact ⟨⟨hg, ha⟩, fun t ht l hl => (hrows t ht l hl).2⟩
  rw [State.buildTables, if_pos hrange]

theorem exec_lenEnd_last (ht : s.work.lenGroup.toNat + 1 = s.sel.nGroups.toNat)
    (hg : s.sel.nGroups.toNat ≤ Config.maxGroups) (hv : s.work.lenSym.toNat + 1 = s.alphaSize)
    (ha : s.alphaSize ≤ Config.maxAlpha) (hrows : ∀ t, t < s.sel.nGroups.toNat → s.lengthStored.rowOk t) :
    exec .lenEnd s =
      .next ((List.range s.sel.nGroups.toNat).foldl State.buildTable s.lengthStored).initSymbols := by
  rw [exec_lenEnd_eq (by omega) hg (by omega) ha, if_neg (by omega), if_neg (by omega),
    State.buildTables_of_rowOk (s := s.lengthStored) hg ha hrows]
  rfl

end

/-! ### The obligations -/

/-- Settles O24: the words are sixteen writes each, and the loop is followed range by range. -/
theorem mappingWords : Obligations.MappingWords := by
  refine ⟨fun s u hwf => ?_, fun s b hwf => ?_, fun s l hwf => seekRange_spec l s hwf⟩
  · obtain ⟨hpresent, -⟩ := (Memory.wf_iff s).1 hwf
    exact ⟨_, Store.look_putAll_first hpresent 16 (mapBit u), exec_inuse16_eq s u⟩
  · obtain ⟨-, huse, -⟩ := (Memory.wf_iff s).1 hwf
    exact ⟨_, look_setRange huse s.work.rangeIdx.toNat b, exec_inuseInner_eq s b⟩

/-- Settles O26: the two checks by their failing values, then the identity list. -/
theorem groupAndSelectorCounts : Obligations.GroupAndSelectorCounts := by
  refine ⟨fun s n => ?_, fun s => rfl, fun s n hwf hn hg => ?_⟩
  · simp only [← badGroupCount_iff]
    rfl
  · obtain ⟨-, -, -, -, -, hpos, -⟩ := (Memory.wf_iff s).1 hwf
    exact ⟨_, Store.look_putAll_first hpos _ _, exec_nSelectors_of_ne hn hg⟩

/-- Settles O27: the rank that is full ends without a 0 bit; one below is a move to front. -/
theorem selectorRanks : Obligations.SelectorRanks := by
  refine ⟨fun s j => exec_selectorMtf_of_full, fun n r rest h1 _ hb => ?_, fun s j hwf hj hg hi => ?_⟩
  · obtain ⟨k, rfl⟩ : ∃ k, n = k + 1 := ⟨n - 1, by omega⟩
    exact decoded_of_value (readRank_of_full 0 k (Nat.zero_add _) (by omega) hb) fun _ => rfl
  · obtain ⟨-, -, -, -, hsel, hpos, -⟩ := (Memory.wf_iff s).1 hwf
    exact ⟨_, _, moveToFront_look hpos j.toNat, fun k => Store.look_put hsel _ k _, exec_selectorMtf_of_lt hj hg hi⟩

/-- Settles O29: one write, then the three continuations. -/
theorem lengthEnd : Obligations.LengthEnd := by
  intro s hwf ht hg hv ha
  obtain ⟨-, -, -, -, -, -, hlen, -⟩ := (Memory.wf_iff s).1 hwf
  refine ⟨_, State.look_lengthStored hlen, fun hmore => ?_, fun hlast hmore => ?_, fun hlast hdone hrows => ?_⟩
  · rw [exec_lenEnd_eq ht hg hv ha, if_pos hmore]; rfl
  · rw [exec_lenEnd_eq ht hg hv ha, if_neg (by omega), if_pos hmore]; rfl
  · exact exec_lenEnd_last hdone hg hlast ha hrows

end Sys2Proof.Machine
end

section
/-! SUPPORT. Lemmas and proofs for the safety invariant (20_memory.md R85, R86). An outcome is safe if it is no model fault and
its next state keeps the ranges; every instruction is safe on a safe state at its own place of the grammar, and what the
fetch finds in a safe state is such a state. -/

namespace Sys2Proof.Machine

section
variable {s t u : State}

/-! ### What the ranges say, by the place in the grammar -/

/-- The decoded block: its length, its successor chain and the place in it lie in range. -/
def State.BlockOk (s : State) : Prop :=
  1 ≤ s.sym.nblock.toNat ∧ s.sym.nblock.toNat ≤ Config.bufCapacity
    ∧ (∀ i, i < s.sym.nblock.toNat → (s.bwt.tt.look i).toNat < s.sym.nblock.toNat)
    ∧ s.cur.tPos.toNat < s.sym.nblock.toNat

/-- Between commands, in the driver and in the headers only a block that is being emitted matters. -/
theorem dataOk_of_block (hp : t.work.phase.afterMap = false) (hb : t.ctl.st.inPart = true → t.BlockOk) : t.DataOk := by
  have hplace : t.work.phase.afterGroups = false ∧ t.work.phase.afterSelectors = false ∧
      t.work.phase.inLengths = false ∧ t.work.phase ≠ .selector ∧ t.work.phase ≠ .lenDelta ∧
      t.work.phase ≠ .symbols := by
    revert hp
    cases t.work.phase <;> decide
  obtain ⟨hgroups, hselectors, hlengths, hsel, hdelta, hsym⟩ := hplace
  constructor
  case block => exact hb
  all_goals simp only [hp, hgroups, hselectors, hlengths, hsel, hdelta, hsym, false_implies, Bool.false_eq_true]

theorem dataOk_of_no_block (hp : t.work.phase.afterMap = false) (hst : t.ctl.st.inPart = false) : t.DataOk :=
  dataOk_of_block hp (by simp [hst])

theorem dataOk_raise (f : CoreFault) : (s.raise f).DataOk := dataOk_of_no_block rfl rfl

/-- The number of bytes in use, once the map is complete. -/
def State.MapOk (s : State) : Prop := 1 ≤ s.map.nInUse.toNat ∧ s.map.nInUse.toNat ≤ 256

/-- The number of groups, once it is known. -/
def State.GroupsOk (s : State) : Prop := 1 ≤ s.sel.nGroups.toNat ∧ s.sel.nGroups.toNat ≤ Config.maxGroups

/-- Every selector names a group. -/
def State.SelectorsOk (s : State) : Prop :=
  ∀ i, i < s.sel.nSelectors.toNat → (s.sel.selector.look i).toNat < s.sel.nGroups.toNat

theorem State.MapOk.alphaSize (h : s.MapOk) : 3 ≤ s.alphaSize ∧ s.alphaSize ≤ Config.maxAlpha :=
  ⟨Nat.add_le_add_right h.1 2, Nat.add_le_add_right h.2 2⟩

theorem dataOk_of_nGroups (hp : t.work.phase = .nGroups) (hst : t.ctl.st.inPart = false) (hm : t.MapOk) : t.DataOk := by
  constructor <;> simp only [hp, hst, Phase.afterMap, Phase.afterGroups, Phase.afterSelectors, Phase.inLengths, reduceCtorEq,
    false_implies, Bool.false_eq_true]
  exact fun _ => hm

theorem dataOk_of_nSelectors (hp : t.work.phase = .nSelectors) (hst : t.ctl.st.inPart = false) (hm : t.MapOk)
    (hg : t.GroupsOk) : t.DataOk := by
  constructor <;> simp only [hp, hst, Phase.afterMap, Phase.afterGroups, Phase.afterSelectors, Phase.inLengths, reduceCtorEq,
    false_implies, Bool.false_eq_true]
  · exact fun _ => hm
  · exact fun _ => hg

theorem dataOk_of_selector (hp : t.work.phase = .selector) (hst : t.ctl.st.inPart = false) (hm : t.MapOk)
    (hg : t.GroupsOk) (hidx : t.work.selIdx.toNat < t.sel.nSelectors.toNat)
    (hpos : ∀ k, k < t.sel.nGroups.toNat → (t.sel.selPos.look k).toNat < t.sel.nGroups.toNat)
    (hsel : ∀ i, i < t.work.selIdx.toNat → (t.sel.selector.look i).toNat < t.sel.nGroups.toNat) : t.DataOk := by
  constructor <;> simp only [hp, hst, Phase.afterMap, Phase.afterGroups, Phase.afterSelectors, Phase.inLengths, reduceCtorEq,
    false_implies, Bool.false_eq_true]
  · exact fun _ => hm
  · exact fun _ => hg
  · exact fun _ => ⟨hidx, hpos, hsel⟩

/-- The groups whose code lengths are complete. -/
def State.RowsOk (s : State) : Prop :=
  s.work.lenGroup.toNat < s.sel.nGroups.toNat
    ∧ ∀ t, t < s.work.lenGroup.toNat → ∀ v, v < s.alphaSize → 1 ≤ s.lenAt t v ∧ s.lenAt t v ≤ Config.maxCodeLenAccepted

/-- The code lengths of the current group that are known, and the current length. -/
def State.RowSoFar (s : State) : Prop :=
  s.work.lenSym.toNat < s.alphaSize
    ∧ 1 ≤ s.work.curr.toNat ∧ s.work.curr.toNat ≤ Config.maxCodeLenAccepted
    ∧ ∀ v, v < s.work.lenSym.toNat →
        1 ≤ s.lenAt s.work.lenGroup.toNat v ∧ s.lenAt s.work.lenGroup.toNat v ≤ Config.maxCodeLenAccepted

theorem dataOk_of_lenStart (hp : t.work.phase = .lenStart) (hst : t.ctl.st.inPart = false) (hm : t.MapOk)
    (hg : t.GroupsOk) (hs : t.SelectorsOk) (hr : t.RowsOk) : t.DataOk := by
  constructor <;> simp only [hp, hst, Phase.afterMap, Phase.afterGroups, Phase.afterSelectors, Phase.inLengths, reduceCtorEq,
    false_implies, Bool.false_eq_true]
  · exact fun _ => hm
  · exact fun _ => hg
  · exact fun _ => hs
  · exact fun _ => hr

theorem dataOk_of_lenDelta (hp : t.work.phase = .lenDelta) (hst : t.ctl.st.inPart = false) (hm : t.MapOk)
    (hg : t.GroupsOk) (hs : t.SelectorsOk) (hr : t.RowsOk) (hrow : t.RowSoFar) : t.DataOk := by
  constructor <;> simp only [hp, hst, Phase.afterMap, Phase.afterGroups, Phase.afterSelectors, Phase.inLengths, reduceCtorEq,
    false_implies, Bool.false_eq_true]
  · exact fun _ => hm
  · exact fun _ => hg
  · exact fun _ => hs
  · exact fun _ => hr
  · exact fun _ => hrow

/-- The decode tables and the group in use. -/
structure State.CodesOk (s : State) : Prop where
  map : s.MapOk
  groups : s.GroupsOk
  selectors : s.SelectorsOk
  tables : ∀ t, t < s.sel.nGroups.toNat → CodeTableOk (s.codeTable t)
  group : (s.sym.groupNo = -1 ∧ s.sym.groupPos = 0) ∨ s.sym.groupNo.toNat < s.sel.nSelectors.toNat

theorem dataOk_of_symbols (hp : t.work.phase = .symbols) (hst : t.ctl.st.inPart = false) (hc : t.CodesOk)
    (hn : t.sym.nblock.toNat ≤ t.capacity) (hf : t.FreqOk) (hr : t.work.inRun = true → t.RunOk) : t.DataOk := by
  constructor <;> simp only [hp, hst, Phase.afterMap, Phase.afterGroups, Phase.afterSelectors, Phase.inLengths, reduceCtorEq,
    false_implies, Bool.false_eq_true]
  · exact fun _ => hc.map
  · exact fun _ => hc.groups
  · exact fun _ => hc.selectors
  · exact fun _ => hc.tables
  · exact fun _ => hc.group
  · exact fun _ => hn
  · exact fun _ => hf
  · exact fun _ => hr

theorem State.DataOk.codesOk (h : s.DataOk) (hp : s.work.phase = .symbols) : s.CodesOk :=
  ⟨h.map (by rw [hp]; rfl), h.groups (by rw [hp]; rfl), h.selectors (by rw [hp]; rfl), h.tables hp, h.group hp⟩

theorem State.CodesOk.congr (h : s.CodesOk) (hm : t.map = s.map) (hs : t.sel = s.sel) (ht : t.tab = s.tab)
    (hg : (t.sym.groupNo = -1 ∧ t.sym.groupPos = 0) ∨ t.sym.groupNo.toNat < t.sel.nSelectors.toNat) : t.CodesOk := by
  obtain ⟨hmap, hgroups, hsel, htab, -⟩ := h
  refine ⟨?_, ?_, ?_, ?_, hg⟩
  · rwa [State.MapOk, hm]
  · rwa [State.GroupsOk, hs]
  · rwa [State.SelectorsOk, hs]
  · have hcode : t.codeTable = s.codeTable := by
      funext g
      simp only [State.codeTable, State.alphaSize, hm, hs, ht]
    rwa [hcode, hs]

/-- The ranges depend on the control registers, the stores, the place and the chain position only. -/
theorem State.DataOk.congr (h : s.DataOk) (hc : t.ctl = s.ctl) (hs : SameStores s t) (hpos : t.cur.tPos = s.cur.tPos)
    (hw : t.work = s.work) : t.DataOk := by
  obtain ⟨hm, hl, ht, hy, hb⟩ := hs
  cases s
  cases t
  dsimp only at hc hm hl ht hy hb hpos hw
  subst hc hm hl ht hy hb hw
  obtain ⟨map, groups, ranks, selectors, rows, row, tables, group, length, counts, run, block⟩ := h
  exact ⟨map, groups, ranks, selectors, rows, row, tables, group, length, counts, run, by rw [hpos]; exact block⟩

theorem State.CtlOk.not_inPart (h : s.CtlOk) (hp : s.work.phase.inBlock = true) : s.ctl.st.inPart = false := by
  rw [h.inBlock hp]; rfl

/-- The multiplier is at most 9, so that a block fits the buffer (10_state.md R25). -/
theorem State.CtlOk.capacity_le (h : s.CtlOk) (hp : s.work.phase.inBlock = true) : s.capacity ≤ Config.bufCapacity := by
  have hst := h.inBlock hp
  obtain ⟨-, h9⟩ := h.multiplier (by rw [hst]; rfl)
  exact Nat.mul_le_mul_right 100000 h9

/-! ### Safe outcomes -/

/-- An instruction or a step is safe: no model fault, and a next state keeps the ranges. -/
def Result.Safe (r : Result) : Prop :=
  match r with
  | .next t => t.DataOk
  | .fault _ => False
  | .refused _ => True

@[simp] theorem Result.safe_next : Result.Safe (.next t) ↔ t.DataOk := Iff.rfl

theorem safe_of_eq {r : Result} (hr : r = .next t) (h : t.DataOk) : r.Safe := by rw [hr]; exact h

theorem safe_ifReady {r : Result} (h : s.work.phase = .ready → r.Safe) : (ifReady s r).Safe := by
  unfold ifReady
  split
  · exact h ‹_›
  · trivial

/-! ### Commands and the header's elements -/

/-- A command ends between commands or starts what reads on; a block that is being emitted stays. -/
theorem exec_command_safe {i : Instr} (h : s.DataOk) (hi : i.place = .ready) : Result.Safe (exec i s) := by
  have respond (status : BitVec 3) (d : Byte) : (s.respond status d).DataOk := dataOk_of_block rfl h.block
  cases i
  case openCmd nc =>
    refine safe_ifReady fun _ => ?_
    split
    · exact respond _ _
    · rename_i hst
      have hidle : s.ctl.st.inPart = false := by rw [not_not.1 hst]; rfl
      exact dataOk_of_no_block rfl hidle
  case nextCmd =>
    refine safe_ifReady fun _ => ?_
    have driver : (s.goto .output).DataOk := dataOk_of_block rfl h.block
    cases s.ctl.st with
    | idle | finished | fault => exact respond _ _
    | _ => exact driver
  case closeCmd => exact safe_ifReady fun _ => dataOk_of_no_block rfl rfl
  case cmdReserved => exact safe_ifReady fun _ => respond _ _
  all_goals cases hi

theorem execStreamCrc_safe (c : Word) (s : State) : Result.Safe (execStreamCrc c s) := by
  unfold execStreamCrc
  dsimp only
  split
  · exact dataOk_raise _
  · exact dataOk_of_no_block rfl rfl

/-! ### The map (42_tables.md R251 to R253) -/

theorem finishMap_dataOk (hst : s.ctl.st.inPart = false) : s.finishMap.DataOk := by
  unfold State.finishMap
  dsimp only
  split
  · exact dataOk_raise _
  · rename_i hne
    have hpos : s.usedBytes.length ≠ 0 := fun h0 =>
      hne (s.buildMap_nInUse_eq_zero_iff.2 (List.length_eq_zero_iff.1 h0))
    have hle := s.usedBytes_length_le
    have hn : s.buildMap.map.nInUse.toNat = s.usedBytes.length := by
      rw [State.buildMap_eq]
      exact Nat.mod_eq_of_lt (by omega)
    exact dataOk_of_nGroups rfl hst ⟨by rw [State.goto_map, hn]; omega, by rw [State.goto_map, hn]; exact hle⟩

theorem seekRange_dataOk (l : List Nat) (hst : s.ctl.st.inPart = false) : (State.seekRange l s).DataOk := by
  induction l generalizing s with
  | nil => exact finishMap_dataOk hst
  | cons i l ih =>
    by_cases hi : s.map.inUse16.look i = 1
    · rw [seekRange_present l hi]
      exact dataOk_of_no_block rfl hst
    · rw [seekRange_absent l hi]
      exact ih (by rw [State.setRange_ctl]; exact hst)

/-! ### Counts and selectors (R254 to R257) -/

theorem execNGroups_safe (h : s.Inv) (hp : s.work.phase = .nGroups) (n : BitVec 3) : Result.Safe (exec (.nGroups n) s) := by
  have hst := h.ctl.not_inPart (by rw [hp]; rfl)
  have hm : s.MapOk := h.data.map (by rw [hp]; rfl)
  rw [groupAndSelectorCounts.1 s n, Result.safe_next]
  split
  · exact dataOk_raise _
  · refine dataOk_of_nSelectors rfl hst hm ?_
    have hn : 1 ≤ n.toNat ∧ n.toNat ≤ 6 := by
      rename_i hne
      revert hne; revert n; decide
    exact hn

theorem execNSelectors_safe (h : s.Inv) (hp : s.work.phase = .nSelectors) (n : BitVec 15) :
    Result.Safe (exec (.nSelectors n) s) := by
  have hst := h.ctl.not_inPart (by rw [hp]; rfl)
  have hm : s.MapOk := h.data.map (by rw [hp]; rfl)
  have hg : s.GroupsOk := h.data.groups (by rw [hp]; rfl)
  by_cases hn : n = 0
  · subst hn
    exact safe_of_eq (groupAndSelectorCounts.2.1 s) (dataOk_raise _)
  · obtain ⟨m, hlook, hexec⟩ := groupAndSelectorCounts.2.2 s n h.stores hn hg.2
    refine safe_of_eq hexec (dataOk_of_selector rfl hst hm hg ?_ (fun k hk => ?_) nofun)
    · exact Nat.pos_of_ne_zero fun h0 => hn (BitVec.eq_of_toNat_eq h0)
    · have hg6 : s.sel.nGroups.toNat ≤ 6 := hg.2
      change k < s.sel.nGroups.toNat at hk
      change (m.look k).toNat < s.sel.nGroups.toNat
      rw [hlook k, if_pos hk, BitVec.toNat_ofNat]
      omega

/-- Rotating the front of a list whose first `n` entries lie below `n` keeps them below `n`. -/
theorem rotated_lt {w n j : Nat} {m p : Store w} (hm : ∀ k, k < n → (m.look k).toNat < n) (hj : j < n)
    (hp : ∀ k, p.look k = if k = 0 then m.look j else if k ≤ j then m.look (k - 1) else m.look k) :
    ∀ k, k < n → (p.look k).toNat < n := by
  intro k hk
  rw [hp k]
  split_ifs
  · exact hm j hj
  · exact hm (k - 1) (by omega)
  · exact hm k hk

theorem execSelectorMtf_safe (h : s.Inv) (hp : s.work.phase = .selector) (j : BitVec 3) :
    Result.Safe (exec (.selectorMtf j) s) := by
  have hst := h.ctl.not_inPart (by rw [hp]; rfl)
  have hm : s.MapOk := h.data.map (by rw [hp]; rfl)
  have hg : s.GroupsOk := h.data.groups (by rw [hp]; rfl)
  obtain ⟨hidx, hpos, hsel⟩ := h.data.ranks hp
  by_cases hj : s.sel.nGroups.toNat ≤ j.toNat
  · exact safe_of_eq (selectorRanks.1 s j hj) (dataOk_raise _)
  · have hj : j.toNat < s.sel.nGroups.toNat := Nat.lt_of_not_le hj
    obtain ⟨p, q, hplook, hqlook, hexec⟩ := selectorRanks.2.2 s j h.stores hj hg.2 hidx
    have hq : ∀ i, i ≤ s.work.selIdx.toNat → (q.look i).toNat < s.sel.nGroups.toNat := fun i hi => by
      rw [hqlook i]
      split
      · exact hpos _ hj
      · exact hsel i (by omega)
    refine safe_of_eq hexec ?_
    by_cases hmore : s.work.selIdx.toNat + 1 < s.sel.nSelectors.toNat
    · have hnext : (s.work.selIdx + 1).toNat = s.work.selIdx.toNat + 1 := by bv_omega
      rw [if_pos hmore]
      refine dataOk_of_selector rfl hst hm hg (hnext ▸ hmore) (rotated_lt hpos hj hplook) fun i hi => hq i ?_
      change i < (s.work.selIdx + 1).toNat at hi
      omega
    · rw [if_neg hmore]
      refine dataOk_of_lenStart rfl hst hm hg (fun i hi => hq i ?_) ⟨hg.1, nofun⟩
      change i < s.sel.nSelectors.toNat at hi
      omega

/-! ### Code lengths (R258 to R260) -/

/-- A current length that passes the check goes on to the next flag bit. -/
theorem setCurr_dataOk (hst : s.ctl.st.inPart = false) (hm : s.MapOk) (hg : s.GroupsOk) (hs : s.SelectorsOk)
    (hr : s.RowsOk) (hsym : s.work.lenSym.toNat < s.alphaSize)
    (hrow : ∀ v, v < s.work.lenSym.toNat →
      1 ≤ s.lenAt s.work.lenGroup.toNat v ∧ s.lenAt s.work.lenGroup.toNat v ≤ Config.maxCodeLenAccepted) (c : BitVec 5) :
    (s.setCurr c).DataOk := by
  rw [State.setCurr_eq]
  split
  · exact dataOk_raise _
  · have hc : 1 ≤ c.toNat ∧ c.toNat ≤ 20 := by omega
    exact dataOk_of_lenDelta rfl hst hm hg hs hr ⟨hsym, hc.1, hc.2, hrow⟩

theorem execLenStart_safe (h : s.Inv) (hp : s.work.phase = .lenStart) (c : BitVec 5) : Result.Safe (exec (.lenStart c) s) := by
  have hst := h.ctl.not_inPart (by rw [hp]; rfl)
  have hsym : 0 < s.alphaSize := by unfold State.alphaSize; omega
  exact setCurr_dataOk (s := { s with work := { s.work with lenSym := 0 } }) hst (h.data.map (by rw [hp]; rfl))
    (h.data.groups (by rw [hp]; rfl)) (h.data.selectors (by rw [hp]; rfl)) (h.data.rows (by rw [hp]; rfl)) hsym nofun c

theorem setCurr_safe (h : s.Inv) (hp : s.work.phase = .lenDelta) (c : BitVec 5) : (s.setCurr c).DataOk := by
  obtain ⟨hsym, -, -, hrow⟩ := h.data.row hp
  exact setCurr_dataOk (h.ctl.not_inPart (by rw [hp]; rfl)) (h.data.map (by rw [hp]; rfl))
    (h.data.groups (by rw [hp]; rfl)) (h.data.selectors (by rw [hp]; rfl)) (h.data.rows (by rw [hp]; rfl)) hsym hrow c

/-! ### The built tables (43_huffman.md) -/

/-- A table is told by its bounds and its row. -/
theorem CodeTableOk.congr {T U : CodeTable} (h : CodeTableOk T) (ht : U.t = T.t) (hg : U.groups = T.groups)
    (hmin : U.minLen = T.minLen) (hmax : U.maxLen = T.maxLen) (ha : U.alpha = T.alpha)
    (hlimit : ∀ l, l ≤ 22 → U.limitAt l = T.limitAt l) (hbase : ∀ l, l ≤ 22 → U.baseAt l = T.baseAt l)
    (hperm : ∀ k, k < T.alpha → U.permAt k = T.permAt k) : CodeTableOk U := by
  have hrange := h.range
  simp only [CodeTable.inRange, Bool.and_eq_true, decide_eq_true_eq] at hrange
  obtain ⟨⟨-, hle⟩, h20⟩ := hrange
  have h20 : T.maxLen ≤ 20 := h20
  refine ⟨?_, ?_, fun n h1 h2 => ?_, fun n h1 h2 => ?_, fun k hk => ?_⟩
  · have hsame : U.inRange = T.inRange := by simp only [CodeTable.inRange, ht, hg, hmin, hmax, ha]
    rw [hsame, h.range]
  · rw [hmin, hbase _ (by omega), h.first]
  · rw [hmin] at h1
    rw [hmax] at h2
    rw [hbase n (by omega), hlimit (n - 1) (by omega)]
    exact h.lower n h1 h2
  · rw [hmin] at h1
    rw [hmax] at h2
    rw [hlimit n (by omega), hbase n (by omega), ha]
    exact h.upper n h1 h2
  · rw [ha] at hk ⊢
    rw [hperm k hk]
    exact h.symbols k hk

theorem lengthKey_ne {a b l l' : Nat} (hab : a ≠ b) (hl : l ≤ 22) (hl' : l' ≤ 22) : lengthKey a l ≠ lengthKey b l' := by
  simp only [lengthKey, Config.maxCodeLen]; omega

theorem symbolKey_ne {a b k k' : Nat} (hab : a ≠ b) (hk : k < 258) (hk' : k' < 258) : symbolKey a k ≠ symbolKey b k' := by
  simp only [symbolKey, Config.maxAlpha]; omega

/-- Building one table leaves the others. -/
theorem codeTableOk_buildTable_other {a b : Nat} (hwf : Memory.wf s = true) (hb : b < Config.maxGroups)
    (ha3 : 3 ≤ s.alphaSize) (ha : s.alphaSize ≤ Config.maxAlpha) (hrow : s.rowOk b) (hab : a ≠ b)
    (h : CodeTableOk (s.codeTable a)) : CodeTableOk ((s.buildTable b).codeTable a) := by
  obtain ⟨-, hperm, tab, htab, -, -, -, hother⟩ := permutationOrder s b hwf hb ha3 ha hrow
  obtain ⟨-, -, hrows⟩ := limitsAndBases s b hwf hb ha3 ha hrow
  obtain ⟨hmin, hmax⟩ := hother a hab
  have hkey : ∀ l, l ≤ 22 → ∀ l', l' ≤ 22 → lengthKey a l ≠ lengthKey b l' := fun l hl l' hl' => lengthKey_ne hab hl hl'
  refine h.congr rfl ?_ ?_ ?_ (s.buildTable_alphaSize b) (fun l hl => ?_) (fun l hl => ?_) (fun k hk => ?_)
  · rw [State.codeTable, State.buildTable_sel]; rfl
  · rw [htab]; exact congrArg BitVec.toNat hmin
  · rw [htab]; exact congrArg BitVec.toNat hmax
  · exact congrArg BitVec.toNat (hrows _ (hkey l hl)).1
  · exact congrArg BitVec.toNat (hrows _ (hkey l hl)).2
  · have hk : k < s.alphaSize := hk
    have ha : s.alphaSize ≤ 258 := ha
    exact congrArg BitVec.toNat (hperm _ fun j hj => symbolKey_ne hab (by omega) (by omega))

/-- The first `n` tables built: they are in order, and what they are built from stays. -/
structure TablesBuilt (s : State) (n : Nat) (t : State) : Prop where
  wf : Memory.wf t = true
  map : t.map = s.map
  sel : t.sel = s.sel
  len : t.tab.len = s.tab.len
  ok : ∀ g, g < n → CodeTableOk (t.codeTable g)

theorem foldl_buildTable_built (hwf : Memory.wf s = true) (hg : s.sel.nGroups.toNat ≤ Config.maxGroups)
    (ha3 : 3 ≤ s.alphaSize) (ha : s.alphaSize ≤ Config.maxAlpha) (hrows : ∀ g, g < s.sel.nGroups.toNat → s.rowOk g)
    {n : Nat} (hn : n ≤ s.sel.nGroups.toNat) : TablesBuilt s n ((List.range n).foldl State.buildTable s) := by
  induction n with
  | zero => exact ⟨hwf, rfl, rfl, rfl, nofun⟩
  | succ n ih =>
    obtain ⟨hwf', hm, hs, hl, hok⟩ := ih (by omega)
    rw [List.range_succ, List.foldl_append, List.foldl_cons, List.foldl_nil]
    generalize (List.range n).foldl State.buildTable s = u at hwf' hm hs hl hok
    have halpha : u.alphaSize = s.alphaSize := by rw [State.alphaSize, hm]; rfl
    have hrow : u.rowOk n := by
      have hlen : u.lenAt n = s.lenAt n := by
        funext v
        rw [State.lenAt, State.lenAt, hl]
      rw [State.rowOk, State.lengthsOf, halpha, hlen]
      exact hrows n (by omega)
    refine ⟨Memory.wf_buildTable hwf' n, (u.buildTable_map n).trans hm, (u.buildTable_sel n).trans hs,
      (u.buildTable_len n).trans hl, fun g hgn => ?_⟩
    by_cases hgeq : g = n
    · subst hgeq
      have htable := State.tableOf_buildTable hwf' (by rw [hs]; omega) (by rw [hs]; exact hg) (by omega) (by omega) hrow
      exact htable.codeTableOk (State.rowSpan hrow (by omega))
    · exact codeTableOk_buildTable_other hwf' (by omega) (by omega) (by omega) hrow hgeq (hok g (by omega))

/-! ### The start of the symbol part (44_symbol_decoder.md R320) -/

theorem initSymbols_dataOk (hwf : Memory.wf s = true) (hst : s.ctl.st.inPart = false) (hm : s.MapOk) (hg : s.GroupsOk)
    (hs : s.SelectorsOk) (ht : ∀ g, g < s.sel.nGroups.toNat → CodeTableOk (s.codeTable g)) : s.initSymbols.DataOk := by
  obtain ⟨f, m, hf, -, heq⟩ := symbolPartStart s hwf
  rw [heq]
  refine dataOk_of_symbols rfl hst ⟨hm, hg, hs, ht, .inl ⟨rfl, rfl⟩⟩ (Nat.zero_le _) (fun c => ?_) nofun
  change (f.look c.toNat).toNat = _
  rw [hf, if_pos c.isLt]
  rfl

/-! ### The end of a code length (42_tables.md R259, R261) -/

section
variable (h : s.Inv) (hp : s.work.phase = .lenDelta)
include h hp

theorem State.Inv.lenAt_lengthStored {g v : Nat} (hv : v < s.alphaSize)
    (hknown : g < s.work.lenGroup.toNat ∨ (g = s.work.lenGroup.toNat ∧ v ≤ s.work.lenSym.toNat)) :
    1 ≤ s.lengthStored.lenAt g v ∧ s.lengthStored.lenAt g v ≤ Config.maxCodeLenAccepted := by
  obtain ⟨-, -, -, -, -, -, hlen, -⟩ := (Memory.wf_iff s).1 h.stores
  obtain ⟨hsym, hlow, hhigh, hrow⟩ := h.data.row hp
  obtain ⟨-, hrows⟩ := h.data.rows (by rw [hp]; rfl)
  have ha := (State.MapOk.alphaSize (s := s) (h.data.map (by rw [hp]; rfl))).2
  have ha : s.alphaSize ≤ 258 := ha
  rw [State.lenAt, State.look_lengthStored hlen]
  split
  · exact ⟨hlow, hhigh⟩
  · rename_i hne
    rcases hknown with hg | ⟨rfl, hle⟩
    · exact hrows g hg v hv
    · have hv : v ≠ s.work.lenSym.toNat := fun heq => hne (heq ▸ rfl)
      exact hrow v (by omega)

theorem execLenEnd_safe : Result.Safe (exec .lenEnd s) := by
  have hst := h.ctl.not_inPart (by rw [hp]; rfl)
  have hm : s.MapOk := h.data.map (by rw [hp]; rfl)
  have hg : s.GroupsOk := h.data.groups (by rw [hp]; rfl)
  have hs : s.SelectorsOk := h.data.selectors (by rw [hp]; rfl)
  obtain ⟨hgroup, -⟩ := h.data.rows (by rw [hp]; rfl)
  obtain ⟨hsym, hlow, hhigh, -⟩ := h.data.row hp
  obtain ⟨ha3, ha⟩ := hm.alphaSize
  have hknown {g v : Nat} := h.lenAt_lengthStored hp (g := g) (v := v)
  by_cases hmore : s.work.lenSym.toNat + 1 < s.alphaSize
  · have hnext : (s.work.lenSym + 1).toNat = s.work.lenSym.toNat + 1 := by
      have ha : s.alphaSize ≤ 258 := ha
      bv_omega
    rw [exec_lenEnd_eq hgroup hg.2 hsym ha, if_pos hmore]
    refine dataOk_of_lenDelta rfl hst hm hg hs ⟨hgroup, fun g hgl v hv => hknown hv (.inl hgl)⟩
      ⟨hnext ▸ hmore, hlow, hhigh, fun v hv => ?_⟩
    change v < (s.work.lenSym + 1).toNat at hv
    exact hknown (by omega) (.inr ⟨rfl, by omega⟩)
  · by_cases hgmore : s.work.lenGroup.toNat + 1 < s.sel.nGroups.toNat
    · have hnext : (s.work.lenGroup + 1).toNat = s.work.lenGroup.toNat + 1 := by bv_omega
      rw [exec_lenEnd_eq hgroup hg.2 hsym ha, if_neg hmore, if_pos hgmore]
      refine dataOk_of_lenStart rfl hst hm hg hs ⟨hnext ▸ hgmore, fun g hgl v hv => ?_⟩
      change g < (s.work.lenGroup + 1).toNat at hgl
      change v < s.alphaSize at hv
      exact hknown hv (by omega)
    · have hrows : ∀ g, g < s.sel.nGroups.toNat → s.lengthStored.rowOk g := fun g hgl l hl => by
        obtain ⟨v, hv, rfl⟩ := List.mem_map.1 hl
        have hv : v < s.alphaSize := List.mem_range.1 hv
        exact hknown hv (by omega)
      have hbuilt := foldl_buildTable_built (s := s.lengthStored) (wf_storeLength h.stores _) hg.2 ha3 ha hrows
        (n := s.sel.nGroups.toNat) (le_refl _)
      rw [exec_lenEnd_last (by omega) hg.2 (by omega) ha hrows]
      refine initSymbols_dataOk hbuilt.wf ?_ ?_ ?_ ?_ ?_
      · rw [foldl_buildTable_ctl]; exact hst
      · rw [State.MapOk, hbuilt.map]; exact hm
      · rw [State.GroupsOk, hbuilt.sel]; exact hg
      · rw [State.SelectorsOk, hbuilt.sel]; exact hs
      · rw [hbuilt.sel]; exact hbuilt.ok

end

/-! ### Symbols (44_symbol_decoder.md) -/

/-- A byte written `n` times at the end of the block and counted `n` times (R324, R326). -/
theorem freqOk_append {n : Nat} {ch : Byte} (h : s.FreqOk) (hfit : s.sym.nblock.toNat + n < 2 ^ 20)
    (hn : t.sym.nblock.toNat = s.sym.nblock.toNat + n)
    (hll8 : ∀ i, t.bwt.ll8.look i
      = if s.sym.nblock.toNat ≤ i ∧ i < s.sym.nblock.toNat + n then ch else s.bwt.ll8.look i)
    (hfreq : ∀ c, t.sym.freq.look c
      = if c = ch.toNat then s.sym.freq.look c + BitVec.ofNat 20 n else s.sym.freq.look c) : t.FreqOk := by
  have hbytes : t.blockBytes = s.blockBytes ++ List.replicate n ch := by
    rw [State.blockBytes, hn, List.range_add, List.map_append, List.map_map]
    congr 1
    · refine List.map_congr_left fun i hi => ?_
      have hi := List.mem_range.1 hi
      rw [hll8, if_neg (by omega)]
    · refine (List.map_congr_left fun i hi => ?_).trans (List.map_const' ..) |>.trans (by rw [List.length_range])
      have hi := List.mem_range.1 hi
      rw [Function.comp, hll8, if_pos (by omega)]
  intro c
  rw [hfreq, hbytes, List.count_append, List.count_replicate]
  have hold := h c
  have hle : s.blockBytes.count c ≤ s.sym.nblock.toNat := List.count_le_length.trans (by simp [State.blockBytes])
  by_cases hc : c.toNat = ch.toNat
  · have heq : ch = c := (BitVec.eq_of_toNat_eq hc).symm
    rw [if_pos hc, if_pos (by simpa using heq), BitVec.toNat_add, BitVec.toNat_ofNat, hold]
    omega
  · have hne : ¬ ch = c := fun heq => hc (heq ▸ rfl)
    rw [if_neg hc, if_neg (by simpa using hne), hold, Nat.add_zero]

section
variable (h : s.Inv) (hp : s.work.phase = .symbols)
include h hp

/-- A run digit that fits keeps the weight of the next one within the run (R325). -/
theorem runDigit_dataOk {d : Nat} (hd : d ≤ 1) : (s.runDigit d).DataOk := by
  have hst := h.ctl.not_inPart (by rw [hp]; rfl)
  have hcap := h.ctl.capacity_le (by rw [hp]; rfl)
  obtain ⟨hlen, hweight⟩ := State.runSoFar_bounds (h.data.length hp) hcap (h.data.run hp)
  have hmul : s.digitWeight * (d + 1) ≤ 2 ^ 19 * 2 := Nat.mul_le_mul hweight (by omega)
  have hfits : s.runSoFar + s.digitWeight * (d + 1) < 2 ^ 21 := by omega
  have hpow : ∃ k, s.digitWeight = 2 ^ k ∧ 2 ^ k ≤ s.runSoFar + 1 := by
    unfold State.digitWeight State.runSoFar
    split
    · exact (h.data.run hp ‹_›).2
    · exact ⟨0, rfl, le_refl _⟩
  rw [State.runDigit_eq hfits]
  dsimp only
  split
  · exact dataOk_raise _
  · rename_i hfit
    refine dataOk_of_symbols rfl hst ((h.data.codesOk hp).congr rfl rfl rfl (h.data.group hp)) (h.data.length hp)
      (h.data.counts hp) fun _ => ?_
    obtain ⟨k, hk, hle⟩ := hpow
    have hrunLen : (BitVec.ofNat 21 (s.runSoFar + s.digitWeight * (d + 1))).toNat
        = s.runSoFar + s.digitWeight * (d + 1) := Nat.mod_eq_of_lt hfits
    have hrunWeight : (BitVec.ofNat 21 (2 * s.digitWeight)).toNat = 2 ^ (k + 1) := by
      rw [BitVec.toNat_ofNat, Nat.mod_eq_of_lt (by omega), hk, pow_succ']
    have hone : s.digitWeight ≤ s.digitWeight * (d + 1) := Nat.le_mul_of_pos_right _ (Nat.succ_pos d)
    refine ⟨?_, k + 1, hrunWeight, ?_⟩
    · change s.sym.nblock.toNat + (BitVec.ofNat 21 (s.runSoFar + s.digitWeight * (d + 1))).toNat ≤ s.capacity
      rw [hrunLen]
      exact Nat.le_of_not_lt hfit
    · change 2 ^ (k + 1) ≤ (BitVec.ofNat 21 (s.runSoFar + s.digitWeight * (d + 1))).toNat + 1
      rw [hrunLen, pow_succ']
      omega

/-- A run that fits the block ends within its capacity (R324). -/
theorem endRun_safe : ∃ u, s.endRun = .ok u ∧ u.Inv ∧ u.work.inRun = false ∧ u.work.phase = .symbols ∧ u.map = s.map := by
  cases hin : s.work.inRun with
  | false => exact ⟨s, State.endRun_of_not_inRun hin, h, hin, hp, rfl⟩
  | true =>
    obtain ⟨hfit, -⟩ := h.data.run hp hin
    have hcap := h.ctl.capacity_le (by rw [hp]; rfl)
    have hbuf : s.sym.nblock.toNat + s.sym.runLen.toNat ≤ 900000 := hfit.trans hcap
    have hend := (State.endRun_ok_iff hin).2 ⟨hbuf, rfl⟩
    obtain ⟨-, -, -, -, -, -, -, -, -, -, -, -, -, hfreq, -, hll8, -⟩ := (Memory.wf_iff s).1 h.stores
    have hn : s.runEnded.sym.nblock.toNat = s.sym.nblock.toNat + s.sym.runLen.toNat := Nat.mod_eq_of_lt (by omega)
    have hcounts : s.runEnded.FreqOk := freqOk_append (h.data.counts hp) (by omega) hn
      (fun i => Store.look_putAll_range hll8 _ _ (fun _ => s.runByte) i)
      (fun c => Store.look_put_own hfreq _ c (· + BitVec.ofNat 20 s.sym.runLen.toNat))
    have hdata : s.runEnded.DataOk := dataOk_of_symbols hp (h.ctl.not_inPart (by rw [hp]; rfl))
      ((h.data.codesOk hp).congr rfl rfl rfl (h.data.group hp)) (hn ▸ hfit) hcounts nofun
    have hctl : s.runEnded.CtlOk := by
      obtain ⟨h1, h2, h3, h4, h5, h6, h7, h8, h9, h10⟩ := h.ctl
      exact ⟨h1, h2, h3, h4, h5, h6, h7, h8, h9, h10⟩
    exact ⟨s.runEnded, hend, ⟨hctl, hdata, Memory.wf_endRun h.stores hend⟩, rfl, hp, rfl⟩

theorem execSymMtfv_safe {v : BitVec 9} (hv : 1 ≤ v.toNat ∧ v.toNat ≤ s.map.nInUse.toNat) :
    Result.Safe (exec (.symMtfv v) s) := by
  obtain ⟨u, hend, hu, hin, hpu, hmap⟩ := endRun_safe h hp
  rw [(exec_congr_endRun (hend.trans (State.endRun_of_not_inRun hin).symm)).1 v]
  by_cases hroom : u.sym.nblock.toNat < u.capacity
  · have hcap : u.capacity ≤ 900000 := hu.ctl.capacity_le (by rw [hpu]; rfl)
    have h256 : u.MapOk := hu.data.map (by rw [hpu]; rfl)
    have hlit := State.literal_ok_iff.2 ⟨⟨hv.1, (hmap ▸ hv.2).trans h256.2⟩, hroom.trans_le hcap, rfl⟩
    obtain ⟨-, -, -, -, -, -, -, -, -, -, -, -, -, hfreq, -, hll8, -⟩ := (Memory.wf_iff u).1 hu.stores
    have hn : (u.literalDone v.toNat).sym.nblock.toNat = u.sym.nblock.toNat + 1 := by
      change (u.sym.nblock + 1).toNat = _
      bv_omega
    have hcounts : (u.literalDone v.toNat).FreqOk := freqOk_append (n := 1) (hu.data.counts hpu) (by omega) hn
      (fun i => (Store.look_put hll8 _ i _).trans (by simp only [show i = u.sym.nblock.toNat ↔
        u.sym.nblock.toNat ≤ i ∧ i < u.sym.nblock.toNat + 1 by omega]))
      (fun c => Store.look_put_own hfreq _ c (· + 1))
    refine safe_of_eq (exec_symMtfv_of_room hin hroom hlit) ?_
    refine dataOk_of_symbols rfl (hu.ctl.not_inPart (by rw [hpu]; rfl))
      ((hu.data.codesOk hpu).congr rfl rfl rfl (hu.data.group hpu)) ?_ hcounts ?_
    · change (u.literalDone v.toNat).sym.nblock.toNat ≤ u.capacity
      omega
    · intro hrun
      exact absurd (hin.symm.trans hrun) nofun
  · exact safe_of_eq (exec_symMtfv_of_full hin (Nat.le_of_not_lt hroom)) (dataOk_raise _)

/-- A sorted position is a position of the block. -/
theorem execSymEob_safe : Result.Safe (exec .symEob s) := by
  obtain ⟨u, hend, hu, hin, hpu, -⟩ := endRun_safe h hp
  rw [(exec_congr_endRun (hend.trans (State.endRun_of_not_inRun hin).symm)).2]
  by_cases hgood : u.blk.origPtr.toNat < u.sym.nblock.toNat
  · have hcap := (hu.data.length hpu).trans (hu.ctl.capacity_le (by rw [hpu]; rfl))
    obtain ⟨tt, cf, hsorted, -, -, -, hexec⟩ := endOfBlock.2 u hu.stores hin hgood hcap (hu.data.counts hpu)
    have hlt : ∀ i, i < u.sym.nblock.toNat → (tt.look i).toNat < u.sym.nblock.toNat := fun i hi => by
      have hmem : (tt.look i).toNat ∈ sortedPositions u.sym.nblock.toNat u.bwt.ll8.look :=
        hsorted ▸ List.mem_map_of_mem (List.mem_range.2 hi)
      obtain ⟨c, -, hpos⟩ := List.mem_flatMap.1 hmem
      exact List.mem_range.1 (List.mem_of_mem_filter hpos)
    refine safe_of_eq hexec (dataOk_of_block rfl fun _ => ⟨Nat.one_le_of_lt hgood, hcap, hlt, hlt _ hgood⟩)
  · exact safe_of_eq (endOfBlock.1 u hin (Nat.le_of_not_lt hgood)) (dataOk_raise _)

end

/-! ### Every instruction is safe where the fetch runs it -/

/-- What the fetch knows of an instruction beyond its place: a literal read from the stream is a symbol below EOB, and an
element of the decoded block comes from a block that is in order. -/
def RangeDue (s : State) : Instr → Prop
  | .symMtfv v => 1 ≤ v.toNat ∧ v.toNat ≤ s.map.nInUse.toNat
  | .rle2Literal _ | .rle2Count _ => s.BlockOk
  | _ => True

theorem exec_safe {i : Instr} (h : s.Inv) (hp : i.place = s.work.phase ∨ i.place = .ready) (hd : RangeDue s i) :
    Result.Safe (exec i s) := by
  have hplace {p : Phase} (hi : i.place = p) (hr : p ≠ .ready) : s.work.phase = p :=
    hp.elim (fun hp => hp.symm.trans hi) fun hready => absurd (hi.symm.trans hready) hr
  cases i with
  | openCmd _ | nextCmd | closeCmd | cmdReserved _ _ _ => exact exec_command_safe h.data (by rfl)
  | sig | blockMagic | eosMagic | blockCrc _ | randBit _ | origPtr _ => exact dataOk_of_block rfl h.data.block
  | hdr _ | otherTrailer _ _ => exact dataOk_of_no_block rfl rfl
  | rle2Literal _ | rle2Count _ => exact dataOk_of_block rfl fun _ => hd
  | streamCrc c => exact execStreamCrc_safe c s
  | inuse16 u =>
    have hst := h.ctl.not_inPart (by rw [hplace rfl nofun]; rfl)
    rw [exec_inuse16_eq, Result.safe_next]
    exact seekRange_dataOk _ hst
  | inuseInner b =>
    have hst := h.ctl.not_inPart (by rw [hplace rfl nofun]; rfl)
    rw [exec_inuseInner_eq, Result.safe_next]
    exact seekRange_dataOk _ hst
  | nGroups n => exact execNGroups_safe h (hplace rfl nofun) n
  | nSelectors n => exact execNSelectors_safe h (hplace rfl nofun) n
  | selectorMtf j => exact execSelectorMtf_safe h (hplace rfl nofun) j
  | lenStart c => exact execLenStart_safe h (hplace rfl nofun) c
  | lenInc | lenDec => exact setCurr_safe h (hplace rfl nofun) _
  | lenEnd => exact execLenEnd_safe h (hplace rfl nofun)
  | symRuna => exact runDigit_dataOk h (hplace rfl nofun) (Nat.zero_le 1)
  | symRunb => exact runDigit_dataOk h (hplace rfl nofun) (le_refl 1)
  | symMtfv v => exact execSymMtfv_safe h (hplace rfl nofun) hd
  | symEob => exact execSymEob_safe h (hplace rfl nofun)

end

end Sys2Proof.Machine
end

section
/-! SUPPORT. Lemmas and proofs for the safety invariant, continued: what the fetch finds in a safe state (60_exceptions.md
R525). A table of the block never sends the decoder out of range, the group in use is one of the selectors, and the block
that is being emitted keeps its chain within its length. -/

namespace Sys2Proof

/-! ### The decoder stays in range (43_huffman.md R295) -/

/-- The decoding does not ask for an index outside a table. -/
def Decoded.KeepsRange : Decoded → Prop
  | .reject why _ => why ≠ .tableIndex
  | .instr _ _ | .truncated _ | .wait => True

theorem Rd.decoded_keepsRange {α : Type} (x : Rd α) {k : α → BitReader → Decoded} (h : ∀ a r, (k a r).KeepsRange) :
    (x.decoded k).KeepsRange := by
  cases x with
  | got a r => exact h a r
  | eof _ | wait => trivial

theorem decodeMagic_keepsRange (m : BitVec 48) (r : BitReader) : (decodeMagic m r).KeepsRange := by
  unfold decodeMagic
  split_ifs
  · trivial
  · trivial
  · exact nofun

/-- Only a symbol is read with a table. -/
theorem decode_keepsRange_of_plain {c : Ctx} (hc : c.plain = true) (r : BitReader) : (decode c r).KeepsRange := by
  cases c with
  | symbol => cases hc
  | signature legacyAnd =>
    refine Rd.decoded_keepsRange _ fun b0 r => Rd.decoded_keepsRange _ fun b1 r => ?_
    split
    · exact nofun
    · trivial
  | trailer => exact Rd.decoded_keepsRange _ fun _ _ => Rd.decoded_keepsRange _ fun _ _ => trivial
  | blockStart => exact Rd.decoded_keepsRange _ decodeMagic_keepsRange
  | lenDelta =>
    refine Rd.decoded_keepsRange _ fun flag r => ?_
    split
    · trivial
    · exact Rd.decoded_keepsRange _ fun _ _ => trivial
  | command | streamCrc | blockCrc | randBit | origPtr | inuse16 | inuseInner | nGroups | nSelectors | selector _
  | lenStart | chainLiteral | chainCount => exact Rd.decoded_keepsRange _ fun _ _ => trivial

section
variable {T : CodeTable}

theorem CodeTableOk.finishSymbol_keepsRange (h : Machine.CodeTableOk T) (eob : Nat) {n v : Nat} (hmin : T.minLen ≤ n)
    (hmax : n ≤ T.maxLen) (hbase : T.baseAt n ≤ v) (hlimit : v ≤ T.limitAt n) (r : BitReader) :
    (finishSymbol T eob n v r).KeepsRange := by
  have hlt := h.upper n hmin hmax
  rw [finishSymbol, if_pos ⟨hbase, by omega⟩]
  trivial

/-- The walk of R297 never passes below BASE: a number above LIMIT doubles to one that reaches the next length's BASE. -/
theorem CodeTableOk.decodeSymbolFrom_keepsRange (h : Machine.CodeTableOk T) (eob : Nat) {fuel n v : Nat}
    (hmin : T.minLen ≤ n) (hfuel : n + fuel = T.maxLen) (hbase : T.baseAt n ≤ v) (r : BitReader) :
    (decodeSymbolFrom T eob fuel n v r).KeepsRange := by
  induction fuel generalizing n v r with
  | zero =>
    unfold decodeSymbolFrom
    split
    · exact nofun
    · exact finishSymbol_keepsRange h eob hmin (by omega) hbase (by omega) r
  | succ fuel ih =>
    unfold decodeSymbolFrom
    split
    · refine Rd.decoded_keepsRange _ fun b r => ih (by omega) (by omega) ?_ r
      have hlower : T.baseAt (n + 1) ≤ 2 * (T.limitAt n + 1) := h.lower (n + 1) (by omega) (by omega)
      omega
    · exact finishSymbol_keepsRange h eob hmin (by omega) hbase (by omega) r

theorem CodeTableOk.decodeSymbol_keepsRange (h : Machine.CodeTableOk T) (eob : Nat) (r : BitReader) :
    (decodeSymbol T eob r).KeepsRange := by
  have hrange := h.range
  simp only [CodeTable.inRange, Bool.and_eq_true, decide_eq_true_eq] at hrange
  obtain ⟨⟨-, hle⟩, -⟩ := hrange
  rw [decodeSymbol, if_pos h.range]
  refine Rd.decoded_keepsRange _ fun v r => decodeSymbolFrom_keepsRange h eob (le_refl _) (by omega) ?_ r
  rw [h.first]
  exact Nat.zero_le _

end

end Sys2Proof

namespace Sys2Proof.Machine

section
variable {s t u : State}

/-! ### What the decoder finds meets what the instruction needs -/

theorem rangeDue_of_place_ne {i : Instr} (ho : i.place ≠ .output) (hs : i.place ≠ .symbols) : RangeDue s i := by
  cases i with
  | symMtfv _ => exact absurd rfl hs
  | rle2Literal _ | rle2Count _ => exact absurd rfl ho
  | _ => trivial

theorem decode_gives_rangeDue {c : Ctx} (ho : phaseOf c ≠ .output) (hs : phaseOf c ≠ .symbols) (r : BitReader) :
    (decode c r).Gives (RangeDue s) := by
  cases hd : decode c r with
  | instr i r' =>
    have hplace := (decode_gives_place c r).of_instr hd
    exact rangeDue_of_place_ne (hplace ▸ ho) (hplace ▸ hs)
  | reject _ _ | truncated _ | wait => trivial

theorem decode_blockStart_gives_rangeDue (r : BitReader) : (decode .blockStart r).Gives (RangeDue s) := by
  refine Rd.decoded_gives _ fun m r => ?_
  unfold decodeMagic
  split_ifs <;> trivial

/-- A literal is a symbol from 2 to N_IN_USE (30_encoding.md R125). -/
theorem decode_symbol_gives_rangeDue {T : CodeTable} (hT : CodeTableOk T) (ha : T.alpha = s.alphaSize)
    (hn : s.map.nInUse.toNat ≤ 256) (r : BitReader) : (decode (.symbol T s.eob) r).Gives (RangeDue s) := by
  refine decodeSymbol_gives (fun k hk => ?_) r
  have hsym := hT.symbols k hk
  rw [ha, State.alphaSize] at hsym
  cases hi : classifySymbol s.eob (T.permAt k)
  case symMtfv v =>
    obtain ⟨hv, heob⟩ := classifySymbol_eq_symMtfv (by omega) hi
    have hzero : T.permAt k ≠ 0 := fun h0 => by
      rw [h0, classifySymbol, if_neg (by unfold State.eob; omega), if_pos rfl] at hi
      cases hi
    rw [State.eob] at heob
    exact ⟨by omega, by omega⟩
  case rle2Literal | rle2Count =>
    have hplace := classifySymbol_place s.eob (T.permAt k)
    rw [hi] at hplace
    cases hplace
  all_goals trivial

/-! ### The fetch -/

/-- The fetch found no model fault, and a state within the ranges; an instruction it found stands at its own place. -/
def Fetched.Safe : Fetched → Prop
  | .run i u => u.DataOk ∧ (i.place = u.work.phase ∨ i.place = .ready) ∧ RangeDue u i
  | .goes t => t.DataOk
  | .broken _ => False
  | .refuses _ => True

theorem rejected_safe {why : Reject} (h : why ≠ .tableIndex) : (rejected why s).Safe := by
  cases why with
  | badSignature | badMagic | noCode => exact dataOk_raise _
  | tableIndex => exact absurd rfl h

theorem fetchElement_safe {waiting : State} {c : Ctx} (h : s.DataOk) (hw : waiting.DataOk) (hc : phaseOf c = s.work.phase)
    (hk : (decode c s.rd).KeepsRange) (hd : (decode c s.rd).Gives (RangeDue s)) : (fetchElement c waiting s).Safe := by
  rcases fetchElement_cases c waiting s with ⟨i, r, hi, hf⟩ | ⟨why, r, hi, hf⟩ | ⟨r, -, hf⟩ | ⟨-, hf⟩ <;> rw [hf]
  · have hdue : RangeDue s i := hd.of_instr hi
    have hplace := (decode_gives_place c s.rd).of_instr hi
    refine ⟨h.congr rfl ⟨rfl, rfl, rfl, rfl, rfl⟩ rfl rfl, .inl (hplace.trans hc), ?_⟩
    cases i <;> exact hdue
  · rw [hi] at hk
    exact rejected_safe hk
  · exact dataOk_raise _
  · exact hw

theorem fetchElement_safe_of_plain {c : Ctx} (h : s.DataOk) (hc : phaseOf c = s.work.phase) (hplain : c.plain = true)
    (ho : s.work.phase ≠ .output) (hs : s.work.phase ≠ .symbols) : (fetchElement c s s).Safe :=
  fetchElement_safe h h hc (decode_keepsRange_of_plain hplain _) (decode_gives_rangeDue (hc ▸ ho) (hc ▸ hs) _)

/-- Where a selector is left, the group selection of 43_huffman.md R296 arrives at one. -/
theorem State.DataOk.groupNo_lt (h : s.DataOk) (hp : s.work.phase = .symbols) (hleft : s.selectorsExhausted = false) :
    s.takeFromGroup.sym.groupNo.toNat < s.sel.nSelectors.toNat := by
  have hn := s.sel.nSelectors.isLt
  unfold State.takeFromGroup
  split
  · rename_i hpos
    change (s.sym.groupNo + 1).toNat < s.sel.nSelectors.toNat
    have hint : (s.sym.groupNo + 1).toInt < (s.sel.nSelectors.toNat : Int) := by
      simpa [State.selectorsExhausted, hpos] using hleft
    have hle : (s.sym.groupNo + 1).toNat < 2 ^ 15 := by
      rcases h.group hp with ⟨hfirst, -⟩ | hlt
      · rw [hfirst]; decide
      · bv_omega
    rw [BitVec.toInt_eq_toNat_of_lt (by omega)] at hint
    exact_mod_cast hint
  · rename_i hpos
    rcases h.group hp with ⟨-, h0⟩ | hlt
    · exact absurd h0 hpos
    · exact hlt

theorem takeFromGroup_dataOk (h : s.Inv) (hp : s.work.phase = .symbols)
    (hno : s.takeFromGroup.sym.groupNo.toNat < s.sel.nSelectors.toNat) : s.takeFromGroup.DataOk := by
  have hcodes : s.takeFromGroup.CodesOk :=
    (h.data.codesOk hp).congr (by simp) (by simp) (by simp) (.inr (by rw [State.takeFromGroup_sel]; exact hno))
  refine dataOk_of_symbols (by simpa using hp) (by simpa using h.ctl.not_inPart (by rw [hp]; rfl)) hcodes
    (by simpa using h.data.length hp) (fun c => ?_) fun hrun => ?_
  · simpa [State.blockBytes] using h.data.counts hp c
  · have hrunOk := h.data.run hp (by simpa using hrun)
    simpa [State.RunOk] using hrunOk

theorem fetchSymbol_safe (h : s.Inv) (hp : s.work.phase = .symbols) : (fetchSymbol s).Safe := by
  have hafter : s.work.phase.afterSelectors = true ∧ s.work.phase.afterMap = true := by rw [hp]; exact ⟨rfl, rfl⟩
  unfold fetchSymbol
  split
  · exact dataOk_raise _
  · rename_i hleft
    have hno := h.data.groupNo_lt hp (by simpa using hleft)
    have hload := loadAt_ok_iff (n := .selector) (m := s.takeFromGroup.sel.selector).2
      ⟨(State.takeFromGroup_sel s).symm ▸ hno, rfl⟩
    dsimp only
    rw [hload]
    have hT := h.data.tables hp _ (h.data.selectors hafter.1 _ hno)
    rw [← State.takeFromGroup_codeTable] at hT
    rw [State.takeFromGroup_sel]
    exact fetchElement_safe (takeFromGroup_dataOk h hp hno) h.data (by simpa [phaseOf] using hp.symm)
      (CodeTableOk.decodeSymbol_keepsRange hT _ _)
      (decode_symbol_gives_rangeDue hT rfl (by simpa using (h.data.map hafter.2).2) _)

/-- The successor chain never leaves the block (45_inverse_bwt.md R362). -/
theorem State.BlockOk.fetchByte (h : s.BlockOk) : ∃ b t, s.fetchByte = .ok (b, t) ∧ t.BlockOk := by
  obtain ⟨hpos, hcap, hnext, hcur⟩ := h
  have hbound : s.cur.tPos.toNat < s.blockBound := lt_min hcur (hcur.trans_le hcap)
  rw [State.fetchByte_ok hbound]
  dsimp only
  split
  · exact ⟨_, _, rfl, hpos, hcap, hnext, hnext _ hcur⟩
  · exact ⟨_, _, rfl, hpos, hcap, hnext, hnext _ hcur⟩

theorem fetchChain_safe {mk : Byte → Instr} (h : s.BlockOk) (hp : s.work.phase = .output)
    (hm : ∀ b u, (mk b).place = .output ∧ (u.BlockOk → RangeDue u (mk b))) : (fetchChain mk s).Safe := by
  obtain ⟨b, t, hfetch, ht⟩ := h.fetchByte
  obtain ⟨-, -, hw⟩ := fetchByte_control hfetch
  have hpt : t.work.phase = .output := by rw [hw, hp]
  rw [fetchChain, hfetch]
  exact ⟨dataOk_of_block (by rw [hpt]; rfl) fun _ => ht, .inl ((hm b t).1.trans hpt.symm), (hm b t).2 ht⟩

/-- An iteration of the driver without an element leaves the block. -/
theorem compareBytes_dataOk (h : s.BlockOk) (hp : s.work.phase = .output) : s.compareBytes.DataOk := by
  unfold State.compareBytes
  split <;> exact dataOk_of_block (by change s.work.phase.afterMap = false; rw [hp]; rfl) fun _ => h

theorem emitCopy_dataOk (h : s.BlockOk) (hp : s.work.phase = .output) : s.emitCopy.DataOk := by
  unfold State.emitCopy
  split
  · exact dataOk_of_block rfl fun _ => h
  · exact dataOk_of_block (by change s.work.phase.afterMap = false; rw [hp]; rfl) fun _ => h

theorem blockEnd_dataOk (hp : s.work.phase = .output) : s.blockEnd.DataOk := by
  unfold State.blockEnd
  dsimp only
  split
  · exact dataOk_raise _
  · exact dataOk_of_no_block (by change s.work.phase.afterMap = false; rw [hp]; rfl) rfl

theorem fetchOutput_safe (h : s.Inv) (hp : s.work.phase = .output) : (fetchOutput s).Safe := by
  have hrunning := h.ctl.driver hp
  unfold fetchOutput
  cases hst : s.ctl.st with
  | startBlock =>
    exact fetchElement_safe h.data h.data hp.symm (decode_keepsRange_of_plain rfl _) (decode_blockStart_gives_rangeDue _)
  | randPartA | noRandPartA =>
    have hblock : s.BlockOk := h.data.block (by rw [hst]; rfl)
    dsimp only
    split
    · exact fetchChain_safe hblock hp fun b u => ⟨rfl, id⟩
    · exact blockEnd_dataOk hp
  | randPartB | noRandPartB =>
    have hblock : s.BlockOk := h.data.block (by rw [hst]; rfl)
    dsimp only
    split_ifs
    · exact fetchChain_safe hblock hp fun b u => ⟨rfl, id⟩
    · exact dataOk_raise _
    · exact compareBytes_dataOk hblock hp
  | randPartC | noRandPartC => exact emitCopy_dataOk (h.data.block (by rw [hst]; rfl)) hp
  | idle | finished | fault => rw [hst] at hrunning; cases hrunning

theorem fetchCore_safe (h : s.Inv) : (fetchCore s).Safe := by
  unfold fetchCore
  cases hp : s.work.phase with
  | ready => exact h.data
  | output => exact fetchOutput_safe h hp
  | symbols => exact fetchSymbol_safe h hp
  | signature | trailer | streamCrc | blockCrc | randBit | origPtr | inuse16 | inuseInner | nGroups | nSelectors | selector
  | lenStart | lenDelta => exact fetchElement_safe_of_plain h.data hp.symm rfl (by simp [hp]) (by simp [hp])

theorem fetchHost_safe (h : s.DataOk) (a : HostAction) : (fetchHost a s).Safe := by
  cases a with
  | command w =>
    have hplace := decodeCommand_place w
    exact ⟨h, .inr hplace, rangeDue_of_place_ne (by simp [hplace]) (by simp [hplace])⟩
  | statusRead n =>
    unfold fetchHost
    dsimp only
    split
    · exact h.congr rfl ⟨rfl, rfl, rfl, rfl, rfl⟩ rfl rfl
    · trivial
  | attach answers =>
    unfold fetchHost
    dsimp only
    split
    · exact h.congr rfl ⟨rfl, rfl, rfl, rfl, rfl⟩ rfl rfl
    · trivial
  | reset => exact dataOk_of_no_block rfl rfl

theorem fetch_safe (h : s.Inv) : (fetch s).Safe := by
  obtain ⟨a, rest, ha⟩ | hf := hostActs_or_fetchCore s
  · rw [fetch_of_hostActs ha]
    exact fetchHost_safe (s := { s with host := rest }) (h.data.congr rfl ⟨rfl, rfl, rfl, rfl, rfl⟩ rfl rfl) a
  · rw [hf]
    exact fetchCore_safe h

theorem step_safe (h : s.Inv) : Result.Safe (step s) := by
  have hsafe := fetch_safe h
  have hctl := fetch_coherent h.ctl
  have hstores := fetch_storesOk h.stores
  unfold step
  cases hf : fetch s <;> rw [hf] at hsafe hctl hstores
  case run i u =>
    obtain ⟨hdata, hplace, hdue⟩ := hsafe
    exact exec_safe ⟨hctl.1, hdata, hstores⟩ hplace hdue
  case goes t => exact hsafe
  case broken f => exact hsafe
  case refuses r => trivial

end

/-! ### The obligations -/

/-- Settles O2: reset leaves no command outstanding, no stream open and every store empty. -/
theorem resetIsSafe : Obligations.ResetIsSafe :=
  ⟨ctlOk_idle rfl rfl ⟨rfl, rfl⟩ rfl rfl, dataOk_of_no_block rfl rfl, Memory.wf_reset⟩

/-- Settles O59: a step of a safe state is safe, so the state it leads to keeps the ranges. -/
theorem rangesAreKept : Obligations.RangesAreKept := fun s t h hs => by
  have hsafe := step_safe h
  rwa [hs] at hsafe

/-- Settles O60: a safe step is no model fault. -/
theorem noModelFault : Obligations.NoModelFault := fun s f h hs => by
  have hsafe := step_safe h
  rwa [hs] at hsafe

end Sys2Proof.Machine
end

section
/-! SUPPORT. Lemmas and proofs about one step: what the fetch finds at each place of the grammar (30_encoding.md R120), what
the header's elements do with it (41_stream_block_header.md), and what each command answers (48_host_interface.md). -/

namespace Sys2Proof.Machine

section
variable {s t : State}

/-! ### What the core's step is, by the place of the grammar -/

theorem step_of_fetchCore_run {i : Instr} {u : State} (ha : s.coreActs) (h : fetchCore s = .run i u) :
    step s = exec i u := by
  simp only [step, fetch_of_coreActs ha, h]

theorem step_of_fetchCore_goes (ha : s.coreActs) (h : fetchCore s = .goes t) : step s = .next t := by
  simp only [step, fetch_of_coreActs ha, h]

theorem fetchCore_of_ctxAt {c : Ctx} (hc : s.ctxAt s.work.phase = some c)
    (ho : s.work.phase = .output → s.ctl.st = .startBlock) : fetchCore s = fetchElement c s s := by
  unfold fetchCore
  cases hp : s.work.phase with
  | ready | symbols =>
    rw [hp] at hc
    cases hc
  | output =>
    rw [hp] at hc
    obtain rfl : Ctx.blockStart = c := Option.some.inj hc
    simp only [fetchOutput, ho hp]
  | signature | trailer | streamCrc | blockCrc | randBit | origPtr | inuse16 | inuseInner | nGroups | nSelectors | selector
  | lenStart | lenDelta =>
    rw [hp] at hc
    simp only [hc]

theorem fetchCore_of_symbols (hp : s.work.phase = .symbols) (hleft : s.selectorsExhausted = false)
    (hno : s.takeFromGroup.sym.groupNo.toNat < s.sel.nSelectors.toNat) :
    fetchCore s =
      fetchElement (.symbol (s.codeTable (s.sel.selector.look s.takeFromGroup.sym.groupNo.toNat).toNat) s.eob) s
        s.takeFromGroup := by
  have hload := loadAt_ok_iff (n := .selector) (m := s.sel.selector).2 ⟨hno, rfl⟩
  have hcore : fetchCore s = fetchSymbol s := by simp only [fetchCore, hp]
  rw [hcore, fetchSymbol, if_neg (by simp [hleft])]
  simp only [State.takeFromGroup_sel, hload, State.takeFromGroup_codeTable, State.takeFromGroup_eob]

theorem fetchCore_of_output (hp : s.work.phase = .output) : fetchCore s = fetchOutput s := by
  simp only [fetchCore, hp]

theorem fetchChain_of_ok {mk : Byte → Instr} {b : Byte} (h : s.fetchByte = .ok (b, t)) :
    fetchChain mk s = .run (mk b) t := by
  simp only [fetchChain, h]

/-- PART_A with a position left runs RLE2_LITERAL of the byte fetched (46_output_fsm.md R384). -/
theorem step_of_literal {b : Byte} (ha : s.coreActs) (hp : s.work.phase = .output) (hst : s.ctl.st.isPartA = true)
    (hpos : s.positionLeft = true) (hb : s.fetchByte = .ok (b, t)) : step s = exec (.rle2Literal b) t := by
  refine step_of_fetchCore_run ha ?_
  rw [fetchCore_of_output hp, fetchOutput_of_partA hst, if_pos hpos, fetchChain_of_ok hb]

/-- PART_B at a fourth equal byte with a position left runs RLE2_COUNT of the byte fetched (R385). -/
theorem step_of_count {b : Byte} (ha : s.coreActs) (hp : s.work.phase = .output) (hst : s.ctl.st.isPartB = true)
    (hdue : s.fourthEqual = true) (hpos : s.positionLeft = true) (hb : s.fetchByte = .ok (b, t)) :
    step s = exec (.rle2Count b) t := by
  refine step_of_fetchCore_run ha ?_
  rw [fetchCore_of_output hp, fetchOutput_of_partB hst, if_pos hdue, if_pos hpos, fetchChain_of_ok hb]

section
variable {c : Ctx} {waiting : State} {r : BitReader}

theorem fetchElement_of_instr {i : Instr} (h : decode c s.rd = .instr i r) :
    fetchElement c waiting s = .run i (s.withReader r) := by
  simp only [fetchElement, h]

theorem fetchElement_of_reject {why : Reject} (h : decode c s.rd = .reject why r) :
    fetchElement c waiting s = rejected why (s.withReader r) := by
  simp only [fetchElement, h]

theorem fetchElement_of_truncated (h : decode c s.rd = .truncated r) :
    fetchElement c waiting s = .goes (((s.keepPartial c).withReader r).raise .truncatedStream) := by
  simp only [fetchElement, h]

theorem fetchElement_of_wait (h : decode c s.rd = .wait) : fetchElement c waiting s = .goes waiting := by
  simp only [fetchElement, h]

end

/-! ### Bits of a map word that EOF cuts short (42_tables.md R250, R251) -/

/-- A word of sixteen single bits is complete as soon as sixteen bits are at hand. -/
theorem bits_length_lt_of_truncated {r r' : BitReader} {mk : BitVec 16 → Instr}
    (h : (readOneByOne 16 (0 : BitVec 16) r).decoded (fun u r => .instr (mk u) r) = .truncated r') :
    r.bits.length < 16 := by
  by_contra hlen
  obtain ⟨v, r1, hgot, hv, -⟩ := readBits_spec (n := 16) (r := r) (by decide) (List.take_append_drop 16 r.bits).symm
    (by simp; omega)
  obtain ⟨r2, hword, -⟩ := readOneByOne_value (u := v) (r := r) (rest := r.bits.drop 16)
    (by rw [hv, List.take_append_drop])
  rw [hword] at h
  cases h

/-- The bits read before EOF are written from `base` on, in stream order. -/
theorem readMapBits_eq {r : BitReader} (h : r.bits.length < 16) (base : Nat) :
    readMapBits base r
      = (List.range r.bits.length).map fun k => (base + k, BitVec.ofBool (r.bits.getD k false)) := by
  rw [readMapBits, readableBits_eq, List.take_of_length_le (by omega)]
  refine List.ext_getElem (by simp) fun k h1 h2 => ?_
  simp at h1 h2
  simp [h1]

/-! ### The header's two bytes and the magic -/

theorem badSignature_iff (legacyAnd : Bool) (b0 b1 : Byte) :
    badSignature legacyAnd b0 b1 = true ↔
      (legacyAnd = true ∧ b0 ≠ 0x42 ∧ b1 ≠ 0x5A) ∨ (legacyAnd = false ∧ (b0 ≠ 0x42 ∨ b1 ≠ 0x5A)) := by
  cases legacyAnd <;> simp [badSignature]

theorem isMultiplierDigit_iff (d : Byte) : isMultiplierDigit d = true ↔ 0x31 ≤ d.toNat ∧ d.toNat ≤ 0x39 := by
  revert d; decide

theorem multiplierOf_eq {d : Byte} (h : 0x31 ≤ d.toNat ∧ d.toNat ≤ 0x39) :
    multiplierOf d = BitVec.ofNat 4 (d.toNat - 0x30) := by
  revert d; decide

theorem decodeTrailer_hdr {d : Byte} (h : 0x31 ≤ d.toNat ∧ d.toNat ≤ 0x39) : decodeTrailer 0x68 d = .hdr d :=
  if_pos (by rw [(isMultiplierDigit_iff d).2 h]; rfl)

theorem decodeTrailer_other {h d : Byte} (hne : ¬ (h = 0x68 ∧ 0x31 ≤ d.toNat ∧ d.toNat ≤ 0x39)) :
    decodeTrailer h d = .otherTrailer h d := by
  refine if_neg fun heq => hne ?_
  rw [Bool.and_eq_true, isMultiplierDigit_iff] at heq
  exact ⟨by simpa using heq.1, heq.2⟩

theorem exec_hdr_eq (s : State) {d : Byte} (h : 0x31 ≤ d.toNat ∧ d.toNat ≤ 0x39) :
    exec (.hdr d) s = .next { s with
      ctl := { s.ctl with blockSize100k := BitVec.ofNat 4 (d.toNat - 0x30), st := .startBlock }
      work := { s.work with phase := .ready }
      out := .response 0x0300 :: s.out } := by
  rw [← multiplierOf_eq h]
  rfl

theorem step_of_trailer {h d : Byte} {r : BitReader} (ha : s.coreActs) (hp : s.work.phase = .trailer)
    (hd : decode .trailer s.rd = .instr (decodeTrailer h d) r) :
    step s = exec (decodeTrailer h d) (s.withReader r) :=
  step_of_fetchCore_run ha
    ((fetchCore_of_ctxAt (by rw [hp]; rfl) (by simp [hp])).trans (fetchElement_of_instr hd))

end

/-! ### The obligations -/

/-- Settles O18: the place of the grammar fixes what the fetch decodes, and the step runs it. -/
theorem stepRunsDecoded : Obligations.StepRunsDecoded := by
  refine ⟨fun s c i r ha hc ho hd => ?_, fun s i r ha hp hleft hno hd => ?_, fun s t b => step_of_literal,
    fun s t b => step_of_count, fun s w rest => step_command⟩
  · exact step_of_fetchCore_run ha ((fetchCore_of_ctxAt hc ho).trans (fetchElement_of_instr hd))
  · have hd' : decode _ s.takeFromGroup.rd = .instr i r := s.takeFromGroup_rd.symm ▸ hd
    exact step_of_fetchCore_run ha ((fetchCore_of_symbols hp hleft hno).trans (fetchElement_of_instr hd'))

/-- Settles O19: each way of giving no instruction has its own fetch; a map word cut short has fewer than sixteen bits. -/
theorem stepWithoutElement : Obligations.StepWithoutElement := by
  refine ⟨fun s c ha hc ho => ?_, fun s r hwf ha hp hd => ?_, fun s r hwf ha hp hd => ?_,
    fun s ha hp hleft hno => ?_⟩
  · have hstep {t : State} (h : fetchElement c s s = .goes t) : step s = .next t :=
      step_of_fetchCore_goes ha ((fetchCore_of_ctxAt hc ho).trans h)
    refine ⟨fun r hd hne hne' => hstep ?_, fun r hd => hstep (fetchElement_of_reject hd),
      fun r hd => hstep (fetchElement_of_reject hd), fun hd => hstep (fetchElement_of_wait hd)⟩
    rw [fetchElement_of_truncated hd, State.keepPartial_of_ne s hne hne']
  · have hlen := bits_length_lt_of_truncated hd
    obtain ⟨huse, -⟩ := (Memory.wf_iff s).1 hwf
    refine ⟨s.map.inUse16.putAll (readMapBits 0 s.rd), fun i => ?_,
      step_of_fetchCore_goes ha ((fetchCore_of_ctxAt (by rw [hp]; rfl) (by simp [hp])).trans (fetchElement_of_truncated hd))⟩
    rw [readMapBits_eq hlen, Store.look_putAll_range huse]
    simp
  · have hlen := bits_length_lt_of_truncated hd
    obtain ⟨-, huse, -⟩ := (Memory.wf_iff s).1 hwf
    refine ⟨s.map.inUse.putAll (readMapBits (16 * s.work.rangeIdx.toNat) s.rd), fun i => ?_,
      step_of_fetchCore_goes ha ((fetchCore_of_ctxAt (by rw [hp]; rfl) (by simp [hp])).trans (fetchElement_of_truncated hd))⟩
    rw [readMapBits_eq hlen, Store.look_putAll_range huse]
  · have hstep {t : State} (h : fetchElement _ s s.takeFromGroup = .goes t) : step s = .next t :=
      step_of_fetchCore_goes ha ((fetchCore_of_symbols hp hleft hno).trans h)
    rw [← State.takeFromGroup_rd s]
    exact ⟨fun r hd => hstep (fetchElement_of_truncated hd), fun r hd => hstep (fetchElement_of_reject hd),
      fun hd => hstep (fetchElement_of_wait hd)⟩

/-- Settles O20: the two bytes are read and tested; the test decides between the fault and SIG. -/
theorem signatureTest : Obligations.SignatureTest := by
  intro s b0 b1 rest ha hp hb
  obtain ⟨r1, r2, h1, h2, hrest⟩ := readTwoBytes_value hb
  have hdecode : decode (.signature s.legacyAnd) s.rd
      = if badSignature s.legacyAnd b0 b1 then .reject .badSignature r2 else .instr .sig r2 := by
    simp only [decode, h1, h2, Rd.decoded]
  have hcore : fetchCore s = _ := fetchCore_of_ctxAt (c := .signature s.legacyAnd) (by rw [hp]; rfl) (by simp [hp])
  refine ⟨r2, hrest, ?_⟩
  by_cases hbad : badSignature s.legacyAnd b0 b1 = true
  · rw [if_pos ((badSignature_iff _ _ _).1 hbad)]
    rw [if_pos hbad] at hdecode
    exact step_of_fetchCore_goes ha (hcore.trans (fetchElement_of_reject hdecode))
  · rw [if_neg fun h => hbad ((badSignature_iff _ _ _).2 h)]
    rw [if_neg hbad] at hdecode
    exact step_of_fetchCore_run ha (hcore.trans (fetchElement_of_instr hdecode))

/-- Settles O21: the two bytes are read and make HDR or OTHER_TRAILER, whose effect is read off. -/
theorem headerTrailer : Obligations.HeaderTrailer := by
  refine ⟨fun s h d rest ha hp hb => ?_, fun s d hlow hhigh => exec_hdr_eq s ⟨hlow, hhigh⟩, fun s h d => rfl⟩
  obtain ⟨r1, r2, h1, h2, hrest⟩ := readTwoBytes_value hb
  have hstep := step_of_trailer (h := h) (d := d) (r := r2) ha hp (by simp only [decode, h1, h2, Rd.decoded])
  refine ⟨r2, hrest, ?_, fun hne => ?_⟩
  · rintro ⟨rfl, hdigit⟩
    rw [hstep, decodeTrailer_hdr hdigit, exec_hdr_eq _ hdigit]
    rfl
  · rw [hstep, decodeTrailer_other hne]
    rfl

/-- Settles O22: all 48 bits are read, and the comparison follows. -/
theorem blockStart : Obligations.BlockStart := by
  intro s m rest ha hp hst hb
  obtain ⟨r, hr, hrest⟩ := readMagic_value hb
  have hdecode : decode .blockStart s.rd = decodeMagic m r := by simp only [decode, hr, Rd.decoded]
  have hcore : fetchCore s = _ := fetchCore_of_ctxAt (c := .blockStart) (by rw [hp]; rfl) fun _ => hst
  refine ⟨r, hrest, ?_⟩
  by_cases heos : m = 0x177245385090
  · rw [if_pos heos]
    exact step_of_fetchCore_run ha (hcore.trans (fetchElement_of_instr (hdecode.trans (if_pos heos))))
  · have hnot : decodeMagic m r = if m = blockMagicWord then .instr .blockMagic r else .reject .badMagic r := if_neg heos
    rw [if_neg heos]
    by_cases hmagic : m = 0x314159265359
    · rw [if_pos hmagic]
      exact step_of_fetchCore_run ha
        (hcore.trans (fetchElement_of_instr ((hdecode.trans hnot).trans (if_pos hmagic))))
    · rw [if_neg hmagic]
      exact step_of_fetchCore_goes ha
        (hcore.trans (fetchElement_of_reject ((hdecode.trans hnot).trans (if_neg hmagic))))

/-- Settles O23: each element is one record update; STREAM_CRC's check compares with the computed value. -/
theorem headerElements : Obligations.HeaderElements := by
  refine ⟨fun s => ⟨rfl, rfl, rfl, fun _ => rfl, fun _ => rfl, fun _ => rfl⟩, fun s c hne => ?_, fun s => ?_⟩
  · exact if_pos (by simpa using hne)
  · exact if_neg (by simp)

/-- Settles O34: the selection is a case split on GROUP_POS, and the test for a selector left stops the fetch. -/
theorem groupSelection : Obligations.GroupSelection := by
  refine ⟨fun s h0 => if_pos h0, fun s hne => if_neg hne, fun s => ?_, fun s ha hp hnone => ?_⟩
  · simp [State.selectorsExhausted]
  · refine step_of_fetchCore_goes ha ?_
    have hcore : fetchCore s = fetchSymbol s := by simp only [fetchCore, hp]
    rw [hcore, fetchSymbol, if_pos hnone]

/-- Settles O44: the two elements of the decoded block are one record update each. -/
theorem decodedBlockElements : Obligations.DecodedBlockElements := fun _ _ => ⟨rfl, rfl⟩

end Sys2Proof.Machine
end

section
/-! SUPPORT. Lemmas and proofs about the commands and the ports (48_host_interface.md): which runs are refused, what each
command does, and what an instruction puts out. An instruction reads on and puts out nothing, or ends the command with one
response; the strobe is pulsed where the source is released. -/

namespace Sys2Proof.Machine

section
variable {s t u : State}

/-! ### Refused runs (48_host_interface.md R458, 70_reset_and_hazards.md R560) -/

theorem ifReady_refused {r : Result} {why : Refusal} (h : ifReady s r = .refused why) :
    (s.work.phase = .ready ∧ r = .refused why) ∨ (s.work.phase ≠ .ready ∧ why = .commandOutstanding) := by
  unfold ifReady at h
  split at h
  · exact .inl ⟨‹_›, h⟩
  · injection h with h
    exact .inr ⟨‹_›, h.symm⟩

/-- Only a command refuses a run, and only because another one is outstanding. -/
theorem exec_refused {i : Instr} {why : Refusal} (h : exec i s = .refused why) :
    i.place = .ready ∧ s.work.phase ≠ .ready ∧ why = .commandOutstanding := by
  cases i with
  | openCmd nc =>
    obtain ⟨-, h⟩ | h := ifReady_refused h
    · split at h <;> cases h
    · exact ⟨rfl, h⟩
  | nextCmd =>
    obtain ⟨-, h⟩ | h := ifReady_refused h
    · split at h <;> cases h
    · exact ⟨rfl, h⟩
  | closeCmd =>
    obtain ⟨-, h⟩ | h := ifReady_refused h
    · cases h
    · exact ⟨rfl, h⟩
  | cmdReserved o n r =>
    obtain ⟨-, h⟩ | h := ifReady_refused h
    · cases h
    · exact ⟨rfl, h⟩
  | streamCrc c =>
    simp only [exec, execStreamCrc] at h
    split at h <;> cases h
  | nSelectors n =>
    simp only [exec, execNSelectors] at h
    split_ifs at h
  | selectorMtf j =>
    simp only [exec, execSelectorMtf] at h
    split at h
    · cases h
    · exact absurd h ofExcept_not_refused
  | lenEnd | symMtfv _ | symEob => exact absurd h ofExcept_not_refused
  | _ => cases h

theorem exec_command_of_busy {i : Instr} (hi : i.place = .ready) (hp : s.work.phase ≠ .ready) :
    exec i s = .refused .commandOutstanding := by
  cases i
  case openCmd | nextCmd | closeCmd | cmdReserved => exact ifReady_of_busy hp _
  all_goals cases hi

/-- The core's own acts: an element, or a step without one, but no command and no refusal. -/
def Fetched.ByCore : Fetched → Prop
  | .run i _ => i.place ≠ .ready
  | .goes _ | .broken _ => True
  | .refuses _ => False

theorem rejected_byCore (why : Reject) (s : State) : (rejected why s).ByCore := by cases why <;> trivial

theorem fetchElement_byCore {c : Ctx} {waiting : State} (hc : phaseOf c ≠ .ready) : (fetchElement c waiting s).ByCore := by
  rcases fetchElement_cases c waiting s with ⟨i, r, hi, hf⟩ | ⟨why, r, -, hf⟩ | ⟨r, -, hf⟩ | ⟨-, hf⟩ <;> rw [hf]
  · exact fun hplace => hc (((decode_gives_place c s.rd).of_instr hi).symm.trans hplace)
  · exact rejected_byCore why _
  · trivial
  · trivial

theorem fetchChain_byCore {mk : Byte → Instr} (hm : ∀ b, (mk b).place ≠ .ready) : (fetchChain mk s).ByCore := by
  unfold fetchChain
  split
  · exact hm _
  · trivial

theorem fetchSymbol_byCore (s : State) : (fetchSymbol s).ByCore := by
  unfold fetchSymbol
  split
  · trivial
  · dsimp only
    split
    · trivial
    · exact fetchElement_byCore nofun

theorem fetchOutput_byCore (s : State) : (fetchOutput s).ByCore := by
  unfold fetchOutput
  split
  · exact fetchElement_byCore nofun
  · split
    · exact fetchChain_byCore fun _ => nofun
    · trivial
  · split
    · exact fetchChain_byCore fun _ => nofun
    · trivial
  · split_ifs
    · exact fetchChain_byCore fun _ => nofun
    · trivial
    · trivial
  · split_ifs
    · exact fetchChain_byCore fun _ => nofun
    · trivial
    · trivial
  all_goals trivial

theorem fetchCore_byCore (s : State) : (fetchCore s).ByCore := by
  unfold fetchCore
  cases s.work.phase with
  | ready => trivial
  | output => exact fetchOutput_byCore s
  | symbols => exact fetchSymbol_byCore s
  | signature | trailer | streamCrc | blockCrc | randBit | origPtr | inuse16 | inuseInner | nGroups | nSelectors | selector
  | lenStart | lenDelta => exact fetchElement_byCore nofun

theorem step_core_not_refused {why : Refusal} (hf : fetch s = fetchCore s) : step s ≠ .refused why := by
  intro h
  have hcore := fetchCore_byCore s
  unfold step at h
  rw [hf] at h
  cases hfetch : fetchCore s <;> rw [hfetch] at h hcore
  case run i u => exact hcore (exec_refused h).1
  case goes | broken => cases h
  case refuses => exact hcore

theorem step_attach {answers : List SrcAnswer} {rest : List HostEvent} (ha : s.hostActs (.attach answers) rest) :
    step s = if s.ctl.srcClosed then .next { s with host := rest, rd := { s.rd with src := answers } }
      else .refused .sourceReplaced := by
  rw [step, fetch_of_hostActs ha, fetchHost]
  cases s.ctl.srcClosed <;> rfl

theorem step_reset {rest : List HostEvent} (ha : s.hostActs .reset rest) :
    step s = .next ({ s with host := rest } : State).afterReset := by
  rw [step, fetch_of_hostActs ha]
  rfl

/-! ### Commands (48_host_interface.md R453 to R455) -/

/-- The state OPEN leaves in IDLE, before the signature is read (R453). -/
def State.opened (nc : BitVec 1) (s : State) : State := { s with
  ctl := { st := .idle, faultCode := 0, faultDetail := 0, noClose := nc == 1, srcClosed := false, blockSize100k := 0 }
  rd := { buff := 0, live := 0, bytesIn := 0, src := s.rd.src }
  cnt := { bytesOut := 0, blockIndex := 0 }
  blk := { s.blk with storedCombinedCrc := 0 }
  crc := { s.crc with combinedCrc := 0 }
  work := { s.work with phase := .signature } }

theorem exec_openCmd_of_idle (hp : s.work.phase = .ready) (hst : s.ctl.st = .idle) (nc : BitVec 1) :
    exec (.openCmd nc) s = .next (s.opened nc) := by
  have hexec : exec (.openCmd nc) s = _ := ifReady_of_ready hp _
  rw [hexec, if_neg (not_not.2 hst), State.opened, ← hst]
  rfl

theorem exec_nextCmd_of_idle (hp : s.work.phase = .ready) (hst : s.ctl.st = .idle) :
    exec .nextCmd s = .next (s.emit (.response 0x0501)) := by
  have hexec : exec .nextCmd s = _ := ifReady_of_ready hp _
  rw [hexec, hst]
  exact congrArg _ (respond_of_ready hp _ _)

theorem exec_nextCmd_of_finished (hp : s.work.phase = .ready) (hst : s.ctl.st = .finished) :
    exec .nextCmd s = .next (s.emit (.response 0x0100)) := by
  have hexec : exec .nextCmd s = _ := ifReady_of_ready hp _
  rw [hexec, hst]
  exact congrArg _ (respond_of_ready hp _ _)

theorem exec_nextCmd_of_running (hp : s.work.phase = .ready) (hst : s.ctl.st.running = true) :
    exec .nextCmd s = .next (s.goto .output) := by
  have hexec : exec .nextCmd s = _ := ifReady_of_ready hp _
  rw [hexec]
  cases h : s.ctl.st with
  | idle | finished | fault =>
    rw [h] at hst
    cases hst
  | _ => rfl

theorem srcClose_of_strobe (ho : s.ctl.srcClosed = false) (hn : s.ctl.noClose = false) :
    s.srcClose = { s with
      ctl := { s.ctl with srcClosed := true }, rd := { s.rd with src := [] }, out := .closeStrobe :: s.out } := by
  rw [State.srcClose, if_neg (by simp [ho])]
  dsimp only
  rw [if_neg (by simp [hn])]
  rfl

theorem srcClose_of_standardInput (ho : s.ctl.srcClosed = false) (hn : s.ctl.noClose = true) :
    s.srcClose = { s with ctl := { s.ctl with srcClosed := true }, rd := { s.rd with src := [] } } := by
  rw [State.srcClose, if_neg (by simp [ho])]
  dsimp only
  rw [if_pos hn]

theorem exec_closeCmd_eq (hp : s.work.phase = .ready) :
    exec .closeCmd s = .next { s with
      ctl := { s.ctl with st := .idle, noClose := false, faultCode := 0, faultDetail := 0, srcClosed := true }
      rd := { s.rd with src := if s.ctl.srcClosed then s.rd.src else [] }
      out := .response 0x0400 ::
        ((if s.ctl.srcClosed = false ∧ s.ctl.noClose = false then [.closeStrobe] else []) ++ s.out) } := by
  have hexec : exec .closeCmd s = _ := ifReady_of_ready hp _
  rw [hexec]
  cases ho : s.ctl.srcClosed with
  | true =>
    rw [srcClose_of_closed ho]
    dsimp only
    rw [respond_of_ready (by exact hp)]
    simp [State.emit, State.setSt, State.clearFault, ho, responseWord]
  | false =>
    cases hn : s.ctl.noClose with
    | true =>
      rw [srcClose_of_standardInput ho hn]
      dsimp only
      rw [respond_of_ready (by exact hp)]
      simp [State.emit, State.setSt, State.clearFault, responseWord]
    | false =>
      rw [srcClose_of_strobe ho hn]
      dsimp only
      rw [respond_of_ready (by exact hp)]
      simp [State.emit, State.setSt, State.clearFault, responseWord]

/-! ### What an instruction does at the ports -/

/-- From `s` to `t` nothing is put out, the source is owned as before and the reader stays. -/
structure SamePorts (s t : State) : Prop where
  out : t.out = s.out
  srcClosed : t.ctl.srcClosed = s.ctl.srcClosed
  rd : t.rd = s.rd

theorem SamePorts.trans (h : SamePorts s u) (h' : SamePorts u t) : SamePorts s t :=
  ⟨h'.out.trans h.out, h'.srcClosed.trans h.srcClosed, h'.rd.trans h.rd⟩

/-- The command goes on: nothing is put out. -/
structure GoesOn (s t : State) : Prop where
  ports : SamePorts s t
  busy : t.work.phase ≠ .ready

/-- The command ends with one response and the source is kept. -/
structure Responds (s t : State) : Prop where
  ready : t.work.phase = .ready
  out : ∃ w, t.out = .response w :: s.out
  srcClosed : t.ctl.srcClosed = s.ctl.srcClosed

/-- The source is released and the command ends with one response. -/
structure Releases (s t : State) : Prop where
  ready : t.work.phase = .ready
  out : ∃ w, t.out = .response w :: s.srcClose.out
  srcClosed : t.ctl.srcClosed = true

/-- The command goes on or ends, and the source is kept. -/
def Advances (s t : State) : Prop := GoesOn s t ∨ Responds s t

theorem Advances.of_samePorts (h : Advances u t) (hu : SamePorts s u) : Advances s t := by
  obtain ⟨hports, hbusy⟩ | ⟨hready, ⟨w, hout⟩, hc⟩ := h
  · exact .inl ⟨hu.trans hports, hbusy⟩
  · exact .inr ⟨hready, ⟨w, hout.trans (congrArg _ hu.out)⟩, hc.trans hu.srcClosed⟩

theorem advances_goto {p : Phase} (h : SamePorts s u) (hp : p ≠ .ready) : Advances s (u.goto p) :=
  .inl ⟨⟨h.out, h.srcClosed, h.rd⟩, hp⟩

theorem responds_raise {f : CoreFault} (hout : u.out = s.out) (hc : u.ctl.srcClosed = s.ctl.srcClosed) :
    Responds s (u.raise f) := ⟨rfl, ⟨_, congrArg _ hout⟩, hc⟩

theorem advances_raise {f : CoreFault} (h : SamePorts s u) : Advances s (u.raise f) :=
  .inr (responds_raise h.out h.srcClosed)

theorem advances_check {c : Prop} [Decidable c] {f : CoreFault} {p : Phase} (h : SamePorts s u) (hp : p ≠ .ready) :
    Advances s (if c then u.raise f else u.goto p) := by
  split
  · exact advances_raise h
  · exact advances_goto h hp

/-! Table elements -/

theorem seekRange_advances (l : List Nat) (s : State) : Advances s (State.seekRange l s) := by
  induction l generalizing s with
  | nil => exact advances_check ⟨s.buildMap_out, congrArg _ s.buildMap_ctl, s.buildMap_rd⟩ nofun
  | cons i l ih =>
    unfold State.seekRange
    split
    · exact advances_goto ⟨rfl, rfl, rfl⟩ nofun
    · exact (ih _).of_samePorts ⟨s.setRange_out i 0, congrArg _ (s.setRange_ctl i 0), s.setRange_rd i 0⟩

theorem execNSelectors_advances {n : BitVec 15} (he : execNSelectors n s = .next t) : Advances s t := by
  unfold execNSelectors at he
  dsimp only at he
  split_ifs at he <;> injection he with he <;> subst he
  · exact advances_raise ⟨rfl, rfl, rfl⟩
  · exact advances_goto ⟨rfl, rfl, rfl⟩ nofun

theorem execSelectorMtf_advances {j : BitVec 3} (he : execSelectorMtf j s = .next t) : Advances s t := by
  unfold execSelectorMtf at he
  dsimp only at he
  split at he
  · injection he with he
    exact he ▸ advances_raise ⟨rfl, rfl, rfl⟩
  · obtain ⟨_, -, he⟩ := bind_eq_ok (ofExcept_next_iff.1 he)
    obtain ⟨_, -, he⟩ := bind_eq_ok he
    split at he <;> injection he with he <;> exact he ▸ advances_goto ⟨rfl, rfl, rfl⟩ nofun

theorem foldl_buildTable_samePorts (l : List Nat) (s : State) : SamePorts s (l.foldl State.buildTable s) := by
  induction l generalizing s with
  | nil => exact ⟨rfl, rfl, rfl⟩
  | cons i l ih =>
    exact SamePorts.trans ⟨s.buildTable_out i, congrArg _ (s.buildTable_ctl i), s.buildTable_rd i⟩ (ih _)

theorem buildTables_samePorts (h : s.buildTables = .ok t) : SamePorts s t := by
  unfold State.buildTables at h
  split at h
  · injection h with h
    exact h ▸ foldl_buildTable_samePorts _ s
  · cases h

theorem execLenEnd_advances (he : execLenEnd s = .next t) : Advances s t := by
  obtain ⟨_, -, he⟩ := bind_eq_ok (ofExcept_next_iff.1 he)
  obtain ⟨_, -, he⟩ := bind_eq_ok he
  split_ifs at he
  · injection he with he
    exact he ▸ advances_goto ⟨rfl, rfl, rfl⟩ nofun
  · injection he with he
    exact he ▸ advances_goto ⟨rfl, rfl, rfl⟩ nofun
  · obtain ⟨b, hb, he⟩ := bind_eq_ok he
    obtain ⟨hout, hc, hrd⟩ := buildTables_samePorts hb
    injection he with he
    subst he
    exact .inl ⟨⟨b.initSymbols_out.trans hout, (congrArg _ b.initSymbols_ctl).trans hc, b.initSymbols_rd.trans hrd⟩,
      by rw [State.initSymbols_work]; exact nofun⟩

/-! Symbols -/

theorem endRun_samePorts (h : s.endRun = .ok t) : SamePorts s t := by
  cases hin : s.work.inRun with
  | false =>
    rw [State.endRun_of_not_inRun hin] at h
    injection h with h
    exact h ▸ ⟨rfl, rfl, rfl⟩
  | true =>
    obtain ⟨-, h⟩ := (State.endRun_ok_iff hin).1 h
    exact h ▸ ⟨rfl, rfl, rfl⟩

theorem execSymMtfv_advances {v : BitVec 9} (he : execSymMtfv v s = .next t) : Advances s t := by
  obtain ⟨u, hu, he⟩ := bind_eq_ok (ofExcept_next_iff.1 he)
  have hrun := endRun_samePorts hu
  split at he
  · injection he with he
    exact he ▸ advances_raise hrun
  · obtain ⟨w, hw, he⟩ := bind_eq_ok he
    obtain ⟨-, -, rfl⟩ := State.literal_ok_iff.1 hw
    injection he with he
    exact he ▸ advances_goto ⟨hrun.out, hrun.srcClosed, hrun.rd⟩ nofun

theorem execSymEob_advances (he : execSymEob s = .next t) : Advances s t := by
  obtain ⟨u, hu, he⟩ := bind_eq_ok (ofExcept_next_iff.1 he)
  have hrun := endRun_samePorts hu
  split at he
  · injection he with he
    exact he ▸ advances_raise hrun
  · obtain ⟨w, hw, he⟩ := bind_eq_ok he
    obtain ⟨r, -, hw⟩ := bind_eq_ok hw
    injection hw with hw
    subst hw
    obtain ⟨first, -, he⟩ := bind_eq_ok he
    injection he with he
    exact he ▸ advances_goto ⟨hrun.out, hrun.srcClosed, hrun.rd⟩ nofun

theorem execStreamCrc_advances {c : Word} (he : execStreamCrc c s = .next t) : Advances s t ∨ Releases s t := by
  unfold execStreamCrc at he
  dsimp only at he
  split at he <;> injection he with he <;> subst he
  · exact .inl (advances_raise ⟨rfl, rfl, rfl⟩)
  · refine .inr ⟨rfl, ⟨responseWord statusEos 0, ?_⟩, srcClose_srcClosed _⟩
    rw [State.respond_out, State.setSt_out, srcClose_out, srcClose_out]

/-! Every instruction -/

/-- An element of the stream or of the decoded block goes on or ends the command; two of them release the source. -/
theorem exec_element_advances {i : Instr} (hi : i.place ≠ .ready) (he : exec i s = .next t) :
    Advances s t ∨ Releases s t := by
  cases i with
  | openCmd _ | nextCmd | closeCmd | cmdReserved _ _ _ => exact absurd rfl hi
  | sig | blockMagic | eosMagic | blockCrc _ | randBit _ | origPtr _ | rle2Count _ =>
    injection he with he
    exact he ▸ .inl (.inl ⟨⟨rfl, rfl, rfl⟩, nofun⟩)
  | hdr _ | rle2Literal _ =>
    injection he with he
    exact he ▸ .inl (.inr ⟨rfl, ⟨_, rfl⟩, rfl⟩)
  | otherTrailer _ _ =>
    injection he with he
    exact he ▸ .inr ⟨rfl, ⟨_, rfl⟩, srcClose_srcClosed s⟩
  | streamCrc c => exact execStreamCrc_advances he
  | inuse16 u =>
    rw [exec_inuse16_eq] at he
    rw [← Host.Outcome.next.inj he]
    refine .inl (Advances.of_samePorts (seekRange_advances _ _) ?_)
    exact ⟨rfl, rfl, rfl⟩
  | inuseInner b =>
    rw [exec_inuseInner_eq] at he
    rw [← Host.Outcome.next.inj he]
    refine .inl (Advances.of_samePorts (seekRange_advances _ _) ?_)
    exact ⟨rfl, rfl, rfl⟩
  | nGroups n =>
    injection he with he
    exact he ▸ .inl (advances_check ⟨rfl, rfl, rfl⟩ nofun)
  | nSelectors n => exact .inl (execNSelectors_advances he)
  | selectorMtf j => exact .inl (execSelectorMtf_advances he)
  | lenStart _ | lenInc | lenDec =>
    injection he with he
    exact he ▸ .inl (advances_check ⟨rfl, rfl, rfl⟩ nofun)
  | lenEnd => exact .inl (execLenEnd_advances he)
  | symRuna | symRunb =>
    injection he with he
    exact he ▸ .inl (advances_check ⟨rfl, rfl, rfl⟩ nofun)
  | symMtfv v => exact .inl (execSymMtfv_advances he)
  | symEob => exact .inl (execSymEob_advances he)

/-- A command answers, hands over to the driver, releases the source, or, OPEN in IDLE, takes it. -/
theorem exec_command_advances {i : Instr} (hi : i.place = .ready) (he : exec i s = .next t) :
    s.work.phase = .ready ∧ (Advances s t ∨ Releases s t ∨
      (s.ctl.st = .idle ∧ (∃ nc, i = .openCmd nc) ∧ t.out = s.out ∧ t.work.phase ≠ .ready)) := by
  have respond (status : BitVec 3) (d : Byte) : Advances s (s.respond status d) := .inr ⟨rfl, ⟨_, rfl⟩, rfl⟩
  cases i
  case openCmd nc =>
    obtain ⟨hp, he⟩ := ifReady_next he
    refine ⟨hp, ?_⟩
    split at he <;> injection he with he <;> subst he
    · exact .inl (respond _ _)
    · exact .inr (.inr ⟨not_not.1 ‹_›, ⟨nc, rfl⟩, rfl, nofun⟩)
  case nextCmd =>
    obtain ⟨hp, he⟩ := ifReady_next he
    refine ⟨hp, .inl ?_⟩
    split at he <;> injection he with he <;> subst he
    case h_1 | h_2 | h_3 => exact respond _ _
    all_goals exact advances_goto ⟨rfl, rfl, rfl⟩ nofun
  case closeCmd =>
    obtain ⟨hp, he⟩ := ifReady_next he
    injection he with he
    exact ⟨hp, he ▸ .inr (.inl ⟨rfl, ⟨_, rfl⟩, srcClose_srcClosed s⟩)⟩
  case cmdReserved =>
    obtain ⟨hp, he⟩ := ifReady_next he
    injection he with he
    exact ⟨hp, he ▸ .inl (respond _ _)⟩
  all_goals cases hi

/-! ### What a step does at the ports -/

theorem Releases.congr (h : Releases u t) (hout : u.out = s.out) (hctl : u.ctl = s.ctl) : Releases s t := by
  obtain ⟨hready, ⟨w, hw⟩, hc⟩ := h
  refine ⟨hready, ⟨w, ?_⟩, hc⟩
  rw [hw, srcClose_out, srcClose_out, hout, hctl]

/-- What the core's fetch finds while a command is outstanding: an element on a state that differs at the reader only, or a
step that waits or advances. -/
def Fetched.Advancing (s : State) : Fetched → Prop
  | .run i u => i.place ≠ .ready ∧ u.out = s.out ∧ u.ctl = s.ctl
  | .goes t => t = s ∨ Advances s t
  | .broken _ | .refuses _ => True

theorem rejected_advancing (hout : u.out = s.out) (hctl : u.ctl = s.ctl) (why : Reject) :
    (rejected why u).Advancing s := by
  cases why with
  | badSignature | badMagic | noCode => exact .inr (.inr (responds_raise hout (congrArg _ hctl)))
  | tableIndex => trivial

theorem fetchElement_advancing {c : Ctx} (hc : phaseOf c ≠ .ready) (hout : u.out = s.out) (hctl : u.ctl = s.ctl) :
    (fetchElement c s u).Advancing s := by
  rcases fetchElement_cases c s u with ⟨i, r, hi, hf⟩ | ⟨why, r, -, hf⟩ | ⟨r, -, hf⟩ | ⟨-, hf⟩ <;> rw [hf]
  · exact ⟨fun hplace => hc (((decode_gives_place c u.rd).of_instr hi).symm.trans hplace), hout, hctl⟩
  · exact rejected_advancing (u := u.withReader r) hout hctl why
  · exact .inr (.inr (responds_raise ((u.keepPartial_out c).trans hout) (congrArg _ ((u.keepPartial_ctl c).trans hctl))))
  · exact .inl rfl

theorem fetchSymbol_advancing (s : State) : (fetchSymbol s).Advancing s := by
  unfold fetchSymbol
  split
  · exact .inr (.inr ⟨rfl, ⟨_, rfl⟩, rfl⟩)
  · dsimp only
    split
    · trivial
    · exact fetchElement_advancing nofun s.takeFromGroup_out s.takeFromGroup_ctl

theorem fetchChain_advancing {mk : Byte → Instr} (hm : ∀ b, (mk b).place ≠ .ready) : (fetchChain mk s).Advancing s := by
  unfold fetchChain
  split
  · rename_i b u hb
    exact ⟨hm b, (fetchByte_out_crc hb).1, (fetchByte_control hb).1⟩
  · trivial

theorem compareBytes_advances (hp : s.work.phase ≠ .ready) : Advances s s.compareBytes := by
  unfold State.compareBytes
  split <;> exact .inl ⟨⟨rfl, rfl, rfl⟩, hp⟩

theorem emitCopy_advances (hp : s.work.phase ≠ .ready) : Advances s s.emitCopy := by
  unfold State.emitCopy
  split
  · exact .inr ⟨rfl, ⟨_, rfl⟩, rfl⟩
  · exact .inl ⟨⟨rfl, rfl, rfl⟩, hp⟩

theorem blockEnd_advances (hp : s.work.phase ≠ .ready) : Advances s s.blockEnd := by
  unfold State.blockEnd
  dsimp only
  split
  · exact .inr ⟨rfl, ⟨_, rfl⟩, rfl⟩
  · exact .inl ⟨⟨rfl, rfl, rfl⟩, hp⟩

theorem fetchOutput_advancing (hp : s.work.phase ≠ .ready) : (fetchOutput s).Advancing s := by
  unfold fetchOutput
  cases s.ctl.st with
  | startBlock => exact fetchElement_advancing nofun rfl rfl
  | randPartA | noRandPartA =>
    dsimp only
    split
    · exact fetchChain_advancing fun _ => nofun
    · exact .inr (blockEnd_advances hp)
  | randPartB | noRandPartB =>
    dsimp only
    split_ifs
    · exact fetchChain_advancing fun _ => nofun
    · exact .inr (.inr ⟨rfl, ⟨_, rfl⟩, rfl⟩)
    · exact .inr (compareBytes_advances hp)
  | randPartC | noRandPartC => exact .inr (emitCopy_advances hp)
  | idle | finished | fault => trivial

theorem fetchCore_advancing (hp : s.work.phase ≠ .ready) : (fetchCore s).Advancing s := by
  unfold fetchCore
  cases h : s.work.phase with
  | ready => exact absurd h hp
  | output => exact fetchOutput_advancing hp
  | symbols => exact fetchSymbol_advancing s
  | signature | trailer | streamCrc | blockCrc | randBit | origPtr | inuse16 | inuseInner | nGroups | nSelectors | selector
  | lenStart | lenDelta => exact fetchElement_advancing nofun rfl rfl

/-- A step of the core waits, or a command is outstanding and the step advances it, past the bits of an element if any. -/
theorem step_core_advances (hf : fetch s = fetchCore s) (hs : step s = .next t) :
    t = s ∨ (s.work.phase ≠ .ready ∧ ∃ r, Advances (s.withReader r) t ∨ Releases (s.withReader r) t) := by
  by_cases hp : s.work.phase = .ready
  · have hcore : fetchCore s = .goes s := by simp only [fetchCore, hp]
    rw [step, hf, hcore] at hs
    injection hs with hs
    exact .inl hs.symm
  · have hadv := fetchCore_advancing hp
    rw [← hf] at hadv
    rcases step_next_cases hs with ⟨i, u, hrun, he⟩ | hgo
    · rw [hrun] at hadv
      obtain ⟨hplace, hout, hctl⟩ := hadv
      refine .inr ⟨hp, u.rd, (exec_element_advances hplace he).imp (fun h => ?_) fun h => h.congr hout hctl⟩
      exact h.of_samePorts ⟨hout, congrArg _ hctl, rfl⟩
    · rw [hgo] at hadv
      exact hadv.imp id fun h => ⟨hp, s.rd, .inl h⟩

/-! ### Responses and strobes among the events -/

theorem responsesOf_srcClose (s : State) : responsesOf s.srcClose.out = responsesOf s.out := by
  rw [srcClose_out]
  split <;> rfl

theorem responses_of_advances (h : Advances s t ∨ Releases s t) :
    (responsesOf t.out = responsesOf s.out ∧ t.work.phase ≠ .ready) ∨
      ∃ w, responsesOf t.out = w :: responsesOf s.out ∧ t.work.phase = .ready := by
  obtain (⟨⟨hout, -, -⟩, hbusy⟩ | ⟨hready, ⟨w, hout⟩, -⟩) | ⟨hready, ⟨w, hout⟩, -⟩ := h
  · exact .inl ⟨by rw [hout], hbusy⟩
  · exact .inr ⟨w, by rw [hout]; rfl, hready⟩
  · exact .inr ⟨w, by rw [hout, responsesOf, responsesOf_srcClose], hready⟩

/-- The strobe is pulsed exactly where an owned source, not the standard input, is released. -/
theorem strobes_of_advances (h : Advances s t ∨ Releases s t) :
    (strobesOf t.out = strobesOf s.out ∨
      (strobesOf t.out = strobesOf s.out + 1 ∧ s.ctl.srcClosed = false ∧ t.ctl.srcClosed = true ∧ s.ctl.noClose = false)) ∧
    (s.ctl.srcClosed = true → t.ctl.srcClosed = true) := by
  obtain (⟨⟨hout, hc, -⟩, -⟩ | ⟨-, ⟨w, hout⟩, hc⟩) | ⟨-, ⟨w, hout⟩, hc⟩ := h
  · exact ⟨.inl (by rw [hout]), fun h => hc.trans h⟩
  · exact ⟨.inl (by rw [hout]; rfl), fun h => hc.trans h⟩
  · refine ⟨?_, fun _ => hc⟩
    rw [hout, strobesOf, srcClose_out]
    split
    · rename_i howned
      exact .inr ⟨rfl, howned.1, hc, howned.2⟩
    · exact .inl rfl

/-- One host event lands in a step, if any. -/
theorem hostActs_inj {a b : HostAction} {rest rest' : List HostEvent} (ha : s.hostActs a rest) (hb : s.hostActs b rest') :
    a = b := by
  rcases ha with ha | ⟨ha, -⟩ <;> rcases hb with hb | ⟨hb, -⟩ <;> rw [ha] at hb <;> cases hb <;> rfl

theorem not_takesCommand {a : HostAction} {rest : List HostEvent} (ha : s.hostActs a rest) (hne : ∀ w, a ≠ .command w) :
    ¬ s.takesCommand := by
  rintro ⟨w, rest', hw⟩
  exact hne w (hostActs_inj ha hw)

end

/-! ### The obligations -/

/-- Settles O7: OPEN and NEXT by the value of ST. -/
theorem openAndNext : Obligations.OpenAndNext :=
  ⟨fun _ nc hp hst => exec_openCmd_of_idle hp hst nc, fun _ nc hp hst => exec_openCmd_of_ne_idle hp hst nc,
    fun _ => exec_nextCmd_of_idle, fun _ => exec_nextCmd_of_finished, fun _ => exec_nextCmd_of_fault,
    fun _ => exec_nextCmd_of_running⟩

/-- Settles O8: CLOSE releases the source, and the three cases of the release. -/
theorem closeAndStrobe : Obligations.CloseAndStrobe :=
  ⟨fun _ => exec_closeCmd_eq, fun _ => srcClose_of_closed, fun _ => srcClose_of_strobe,
    fun _ => srcClose_of_standardInput⟩

/-- Settles O10: only commands refuse, and the host's two other acts by their own tests; the core's acts never do. -/
theorem refusedRuns : Obligations.RefusedRuns := by
  intro s why
  refine ⟨fun h => ?_, ?_⟩
  · obtain ⟨a, rest, ha⟩ | hf := hostActs_or_fetchCore s
    · cases a with
      | command w =>
        rw [step_command ha] at h
        obtain ⟨-, hp, hwhy⟩ := exec_refused h
        exact .inl ⟨hwhy, hp, w, rest, ha⟩
      | statusRead n =>
        by_cases hp : s.work.phase = .ready
        · rw [step_statusRead_of_ready ha hp] at h
          cases h
        · rw [step_statusRead_of_busy ha hp] at h
          injection h with h
          exact .inr (.inl ⟨h.symm, hp, n, rest, ha⟩)
      | attach answers =>
        rw [step_attach ha] at h
        cases hc : s.ctl.srcClosed <;> rw [hc] at h
        · injection h with h
          exact .inr (.inr ⟨h.symm, rfl, answers, rest, ha⟩)
        · cases h
      | reset =>
        rw [step_reset ha] at h
        cases h
    · exact absurd h (step_core_not_refused hf)
  · rintro (⟨rfl, hp, w, rest, ha⟩ | ⟨rfl, hp, n, rest, ha⟩ | ⟨rfl, hc, answers, rest, ha⟩)
    · rw [step_command ha]
      exact exec_command_of_busy (decodeCommand_place w) hp
    · exact step_statusRead_of_busy ha hp
    · rw [step_attach ha, hc]
      rfl

/-- Settles O48: by who acts; a command outstanding or taken is what advances. -/
theorem oneResponsePerCommand : Obligations.OneResponsePerCommand := by
  intro s t hs hreset
  by_cases hhost : ∃ a rest, s.hostActs a rest
  · obtain ⟨a, rest, ha⟩ := hhost
    obtain ⟨w, rfl, he⟩ | ⟨n, rfl, hp, rfl⟩ | ⟨answers, rfl, hc, rfl⟩ | ⟨rfl, -⟩ := step_hostActs_cases ha hs
    · have htakes : s.takesCommand := ⟨w, rest, ha⟩
      have hgoes (h : responsesOf t.out = responsesOf s.out ∧ t.work.phase ≠ .ready) :
          responsesOf t.out = responsesOf s.out ∧ (t.work.phase = .ready ↔ s.work.phase = .ready ∧ ¬ s.takesCommand) :=
        ⟨h.1, ⟨fun hready => absurd hready h.2, fun hnot => absurd htakes hnot.2⟩⟩
      obtain ⟨-, hadv | hadv | ⟨-, -, hout, hbusy⟩⟩ := exec_command_advances (decodeCommand_place w) he
      · obtain h | ⟨v, hv, hready⟩ := responses_of_advances (.inl hadv)
        · exact .inl (hgoes h)
        · exact .inr ⟨v, hv, hready, .inr htakes⟩
      · obtain h | ⟨v, hv, hready⟩ := responses_of_advances (.inr hadv)
        · exact .inl (hgoes h)
        · exact .inr ⟨v, hv, hready, .inr htakes⟩
      · exact .inl (hgoes ⟨by rw [hout], hbusy⟩)
    · have hnot := not_takesCommand ha nofun
      exact .inl ⟨rfl, ⟨fun hready => ⟨hready, hnot⟩, fun h => h.1⟩⟩
    · have hnot := not_takesCommand ha nofun
      exact .inl ⟨rfl, ⟨fun hready => ⟨hready, hnot⟩, fun h => h.1⟩⟩
    · exact absurd ⟨rest, ha⟩ hreset
  · have hnot : ¬ s.takesCommand := fun ⟨w, rest, ha⟩ => hhost ⟨_, rest, ha⟩
    obtain rfl | ⟨hp, r, hadv⟩ := step_core_advances ((hostActs_or_fetchCore s).resolve_left hhost) hs
    · exact .inl ⟨rfl, ⟨fun hready => ⟨hready, hnot⟩, fun h => h.1⟩⟩
    · obtain ⟨hout, hbusy⟩ | ⟨v, hv, hready⟩ := responses_of_advances hadv
      · exact .inl ⟨hout, ⟨fun hready => absurd hready hbusy, fun h => absurd h.1 hp⟩⟩
      · exact .inr ⟨v, hv, hready, .inl hp⟩

/-- Settles O49: only a release pulses the strobe, and only OPEN in IDLE takes a source. -/
theorem strobeOncePerOpen : Obligations.StrobeOncePerOpen := by
  intro s t hs
  have kept {P : Prop} (hc : s.ctl.srcClosed = true → t.ctl.srcClosed = true) :
      s.ctl.srcClosed = true → t.ctl.srcClosed = false → P := fun h hopen => absurd ((hc h).symm.trans hopen) nofun
  obtain ⟨a, rest, ha⟩ | hf := hostActs_or_fetchCore s
  · obtain ⟨w, rfl, he⟩ | ⟨n, rfl, hp, rfl⟩ | ⟨answers, rfl, hc, rfl⟩ | ⟨rfl, rfl⟩ := step_hostActs_cases ha hs
    · obtain ⟨-, hadv | hadv | ⟨hst, ⟨nc, hopen⟩, hout, -⟩⟩ := exec_command_advances (decodeCommand_place w) he
      · obtain ⟨hstrobe, hc⟩ := strobes_of_advances (.inl hadv)
        exact ⟨hstrobe, kept hc⟩
      · obtain ⟨hstrobe, hc⟩ := strobes_of_advances (.inr hadv)
        exact ⟨hstrobe, kept hc⟩
      · exact ⟨.inl (by rw [hout]), fun _ _ => ⟨hst, w, rest, nc, ha, hopen⟩⟩
    · exact ⟨.inl rfl, kept id⟩
    · exact ⟨.inl rfl, kept id⟩
    · exact ⟨.inl rfl, kept fun _ => rfl⟩
  · obtain rfl | ⟨-, r, hadv⟩ := step_core_advances hf hs
    · exact ⟨.inl rfl, kept id⟩
    · obtain ⟨hstrobe, hc⟩ := strobes_of_advances hadv
      exact ⟨hstrobe, kept hc⟩

end Sys2Proof.Machine

namespace Sys2Proof

open Machine in
/-- Settles O5: the fields stand side by side in the word, and `respond` is one record update. -/
theorem responseWord : Obligations.ResponseWord := by
  refine ⟨fun status data => ⟨responseWord_data status data, ?_, ?_⟩, fun _ _ _ => rfl, rfl, rfl, rfl, rfl, rfl, rfl⟩
  · exact (BitVec.extractLsb'_append_eq_of_le (by decide)).trans BitVec.extractLsb'_append_eq_right
  · exact (BitVec.extractLsb'_append_eq_of_le (by decide)).trans BitVec.extractLsb'_append_eq_left

end Sys2Proof
end

section
/-! SUPPORT. Lemmas and proofs about runs of the machine: the three steps of an OPEN (70_reset_and_hazards.md R553), the bits
every element takes (10_state.md R27), and what the emission of a block leaves alone (20_memory.md R97). -/

namespace Sys2Proof

section
variable {α β : Type} {k : Nat}

/-! ### Every element takes at least one bit -/

/-- A read that gives a value leaves fewer than `k` bits. -/
def Rd.LeavesBelow (k : Nat) : Rd α → Prop
  | .got _ r => r.bits.length < k
  | .eof _ | .wait => True

/-- A decoding that gives an instruction leaves fewer than `k` bits. -/
def Decoded.LeavesBelow (k : Nat) : Decoded → Prop
  | .instr _ r => r.bits.length < k
  | .reject _ _ | .truncated _ | .wait => True

theorem Rd.LeavesBelow.andThen {x : Rd α} {f : α → BitReader → Rd β} (h : x.LeavesBelow k)
    (hf : ∀ a r, r.bits.length < k → (f a r).LeavesBelow k) : (x.andThen f).LeavesBelow k := by
  cases x with
  | got a r => exact hf a r h
  | eof _ | wait => trivial

theorem Rd.LeavesBelow.decoded {x : Rd α} {f : α → BitReader → Decoded} (h : x.LeavesBelow k)
    (hf : ∀ a r, r.bits.length < k → (f a r).LeavesBelow k) : (x.decoded f).LeavesBelow k := by
  cases x with
  | got a r => exact hf a r h
  | eof _ | wait => trivial

section
variable {r : BitReader} (h : r.bits.length ≤ k)
include h

theorem readBits_leavesBelow {n : Nat} (h1 : 1 ≤ n) (h24 : n ≤ 24) : (readBits n r).LeavesBelow k := by
  cases hr : readBits n r with
  | got v r' =>
    have hle := readBits_got_le h24 hr
    obtain ⟨u, r1, hgot, -, hrest⟩ := readBits_got h24 hle
    rw [hr] at hgot
    obtain ⟨-, rfl⟩ := Rd.got.inj hgot
    rw [Rd.LeavesBelow, hrest, List.length_drop]
    omega
  | eof _ | wait => trivial

theorem readByte_leavesBelow : (readByte r).LeavesBelow k := readBits_leavesBelow h (by decide) (by decide)

theorem readInt32_leavesBelow : (readInt32 r).LeavesBelow k :=
  (readBits_leavesBelow h (by decide) (by decide)).andThen fun _ _ h =>
    (readBits_leavesBelow h.le (by decide) (by decide)).andThen fun _ _ h => h

theorem readMagic_leavesBelow : (readMagic r).LeavesBelow k :=
  (readByte_leavesBelow h).andThen fun _ _ h => (readByte_leavesBelow h.le).andThen fun _ _ h =>
  (readByte_leavesBelow h.le).andThen fun _ _ h => (readByte_leavesBelow h.le).andThen fun _ _ h =>
  (readByte_leavesBelow h.le).andThen fun _ _ h => (readByte_leavesBelow h.le).andThen fun _ _ h => h

theorem readOneByOne_leavesBelow {w : Nat} (n : Nat) (acc : BitVec w) : (readOneByOne (n + 1) acc r).LeavesBelow k := by
  induction n generalizing r acc with
  | zero => exact (readBits_leavesBelow h (by decide) (by decide)).andThen fun _ _ h => h
  | succ n ih => exact (readBits_leavesBelow h (by decide) (by decide)).andThen fun b r h => ih h.le _

theorem readRank_leavesBelow (nGroups fuel j : Nat) : (readRank nGroups (fuel + 1) j r).LeavesBelow k := by
  induction fuel generalizing r j with
  | zero =>
    refine (readBits_leavesBelow h (by decide) (by decide)).andThen fun b r h => ?_
    split_ifs <;> exact h
  | succ fuel ih =>
    refine (readBits_leavesBelow h (by decide) (by decide)).andThen fun b r h => ?_
    split_ifs
    · exact h
    · exact h
    · exact ih h.le _

end

theorem finishSymbol_leavesBelow (T : CodeTable) (eob n v : Nat) {r : BitReader} (h : r.bits.length < k) :
    (finishSymbol T eob n v r).LeavesBelow k := by
  unfold finishSymbol
  split
  · exact h
  · trivial

theorem decodeSymbolFrom_leavesBelow (T : CodeTable) (eob fuel n v : Nat) {r : BitReader} (h : r.bits.length < k) :
    (decodeSymbolFrom T eob fuel n v r).LeavesBelow k := by
  induction fuel generalizing n v r with
  | zero =>
    unfold decodeSymbolFrom
    split
    · trivial
    · exact finishSymbol_leavesBelow T eob n v h
  | succ fuel ih =>
    unfold decodeSymbolFrom
    split
    · exact (readBits_leavesBelow h.le (by decide) (by decide)).decoded fun b r h => ih _ _ h
    · exact finishSymbol_leavesBelow T eob n v h

theorem decodeSymbol_leavesBelow (T : CodeTable) (eob : Nat) (r : BitReader) :
    (decodeSymbol T eob r).LeavesBelow r.bits.length := by
  unfold decodeSymbol
  split
  · rename_i hrange
    simp only [CodeTable.inRange, Bool.and_eq_true, decide_eq_true_eq] at hrange
    obtain ⟨⟨⟨-, hmin⟩, hle⟩, hmax⟩ := hrange
    have hmax : T.maxLen ≤ 20 := hmax
    exact (readBits_leavesBelow le_rfl hmin (by omega)).decoded fun v r h => decodeSymbolFrom_leavesBelow T eob _ _ _ h
  · trivial

theorem decode_leavesBelow (c : Ctx) (r : BitReader) : (decode c r).LeavesBelow r.bits.length := by
  have read {n : Nat} {mk : BitVec n → Instr} (h1 : 1 ≤ n) (h24 : n ≤ 24) :
      ((readBits n r).decoded fun v r => .instr (mk v) r).LeavesBelow r.bits.length :=
    (readBits_leavesBelow le_rfl h1 h24).decoded fun _ _ h => h
  cases c with
  | symbol T eob => exact decodeSymbol_leavesBelow T eob r
  | command | chainLiteral | chainCount | randBit | origPtr | nGroups | nSelectors | lenStart =>
    exact read (by decide) (by decide)
  | signature legacyAnd =>
    refine (readByte_leavesBelow le_rfl).decoded fun b0 r h => (readByte_leavesBelow h.le).decoded fun b1 r h => ?_
    split
    · trivial
    · exact h
  | trailer =>
    exact (readByte_leavesBelow le_rfl).decoded fun _ _ h => (readByte_leavesBelow h.le).decoded fun _ _ h => h
  | blockStart =>
    refine (readMagic_leavesBelow le_rfl).decoded fun m r h => ?_
    unfold decodeMagic
    split_ifs
    · exact h
    · exact h
    · trivial
  | streamCrc | blockCrc => exact (readInt32_leavesBelow le_rfl).decoded fun _ _ h => h
  | inuse16 | inuseInner => exact (readOneByOne_leavesBelow le_rfl 15 _).decoded fun _ _ h => h
  | selector n => exact (readRank_leavesBelow le_rfl n n 0).decoded fun _ _ h => h
  | lenDelta =>
    refine (readBits_leavesBelow le_rfl (by decide) (by decide)).decoded fun flag r h => ?_
    split
    · exact h
    · exact (readBits_leavesBelow h.le (by decide) (by decide)).decoded fun _ _ h => h

end

/-! ### A byte read with an empty accumulator -/

theorem readByte_aligned {r : BitReader} {b : Byte} {src : List SrcAnswer} (hl : r.live = 0)
    (hs : r.src = .byte b :: src) :
    ∃ r', readByte r = .got b r' ∧ r'.live = 0 ∧ r'.bytesIn = r.bytesIn + 1 ∧ r'.src = src := by
  have hbits : r.bits = bitsMsb 8 b.toNat ++ (srcBytes src).flatMap fun b => bitsMsb 8 b.toNat := by
    rw [BitReader.bits, hl, hs]
    rfl
  obtain ⟨r', hr, -⟩ := readByte_value hbits
  obtain ⟨hlive, hcount, hsrc⟩ := readBits_got_account (by decide) hr
  rw [hl] at hlive hcount hsrc
  refine ⟨r', hr, ?_, hcount, by rw [hsrc, hs]; rfl⟩
  change r'.live.toNat + 8 = 8 at hlive
  exact BitVec.eq_of_toNat_eq (by change r'.live.toNat = 0; omega)

theorem readTwoBytes_aligned {r : BitReader} {a b : Byte} {src : List SrcAnswer} (hl : r.live = 0)
    (hs : r.src = .byte a :: .byte b :: src) :
    ∃ r1 r2, readByte r = .got a r1 ∧ readByte r1 = .got b r2 ∧ r2.live = 0 ∧ r2.bytesIn = r.bytesIn + 1 + 1 ∧
      r2.src = src := by
  obtain ⟨r1, h1, hl1, hc1, hs1⟩ := readByte_aligned hl hs
  obtain ⟨r2, h2, hl2, hc2, hs2⟩ := readByte_aligned hl1 hs1
  exact ⟨r1, r2, h1, h2, hl2, by rw [hc2, hc1], hs2⟩

end Sys2Proof

namespace Sys2Proof.Machine

section
variable {s t u : State}

/-! ### Runs -/

theorem run_succ {k : Nat} (hs : step s = .next t) : Host.Core.run core (k + 1) s = Host.Core.run core k t := by
  have hcore : core.step s = .next t := hs
  simp only [Host.Core.run, hcore]

theorem run_one (hs : step s = .next t) : Host.Core.run core 1 s = .next t := run_succ hs

theorem decodeCommand_open (nc : BitVec 1) : decodeCommand (BitVec.ofNat 8 (4 * nc.toNat + 1)) = .openCmd nc := by
  revert nc; decide

/-! ### Emission keeps the block -/

theorem State.CtlOk.phase_of_inPart (h : s.CtlOk) (hst : s.ctl.st.inPart = true) :
    s.work.phase = .ready ∨ s.work.phase = .output := by
  have hne : s.ctl.st ≠ .idle ∧ s.ctl.st ≠ .startBlock := by
    constructor <;> intro h0 <;> rw [h0] at hst <;> cases hst
  cases hp : s.work.phase with
  | ready => exact .inl rfl
  | output => exact .inr rfl
  | signature | trailer => exact absurd (h.opening (by rw [hp]; rfl)) hne.1
  | streamCrc | blockCrc | randBit | origPtr | inuse16 | inuseInner | nGroups | nSelectors | selector | lenStart | lenDelta
  | symbols => exact absurd (h.inBlock (by rw [hp]; rfl)) hne.2

theorem fetchByte_sameStores {b : Byte} (h : s.fetchByte = .ok (b, t)) : SameStores s t := by
  obtain ⟨v, -, h⟩ := bind_eq_ok h
  obtain ⟨next, -, h⟩ := bind_eq_ok h
  injection h with h
  split at h
  · have ht : _ = t := congrArg Prod.snd h
    exact ht ▸ ⟨rfl, rfl, rfl, rfl, rfl⟩
  · have ht : _ = t := congrArg Prod.snd h
    exact ht ▸ ⟨rfl, rfl, rfl, rfl, rfl⟩

theorem compareBytes_sameStores (s : State) : SameStores s s.compareBytes := by
  unfold State.compareBytes
  split <;> exact ⟨rfl, rfl, rfl, rfl, rfl⟩

theorem emitCopy_sameStores (s : State) : SameStores s s.emitCopy := by
  unfold State.emitCopy
  split <;> exact ⟨rfl, rfl, rfl, rfl, rfl⟩

theorem blockEnd_sameStores (s : State) : SameStores s s.blockEnd := by
  unfold State.blockEnd
  dsimp only
  split <;> exact ⟨rfl, rfl, rfl, rfl, rfl⟩

/-- What the driver's fetch finds in a PART state touches no store. -/
def Fetched.KeepsStores (s : State) : Fetched → Prop
  | .run i u => i.place = .output ∧ SameStores s u
  | .goes t => SameStores s t
  | .broken _ | .refuses _ => True

theorem fetchChain_keepsStores {mk : Byte → Instr} (hm : ∀ b, (mk b).place = .output) :
    (fetchChain mk s).KeepsStores s := by
  unfold fetchChain
  split
  · exact ⟨hm _, fetchByte_sameStores ‹_›⟩
  · trivial

theorem fetchOutput_keepsStores (hst : s.ctl.st.inPart = true) : (fetchOutput s).KeepsStores s := by
  unfold fetchOutput
  cases h : s.ctl.st with
  | randPartA | noRandPartA =>
    dsimp only
    split
    · exact fetchChain_keepsStores fun _ => rfl
    · exact blockEnd_sameStores s
  | randPartB | noRandPartB =>
    dsimp only
    split_ifs
    · exact fetchChain_keepsStores fun _ => rfl
    · exact ⟨rfl, rfl, rfl, rfl, rfl⟩
    · exact compareBytes_sameStores s
  | randPartC | noRandPartC => exact emitCopy_sameStores s
  | idle | startBlock | finished | fault =>
    rw [h] at hst
    cases hst

theorem step_output_sameStores (hf : fetch s = fetchCore s) (hp : s.work.phase = .output)
    (hst : s.ctl.st.inPart = true) (hs : step s = .next t) : SameStores s t := by
  have hkeep := fetchOutput_keepsStores hst
  rw [← fetchCore_of_output hp, ← hf] at hkeep
  rcases step_next_cases hs with ⟨i, u, hrun, he⟩ | hgo
  · rw [hrun] at hkeep
    exact hkeep.2.trans (exec_sameStores (.inr (.inl hkeep.1)) he)
  · rw [hgo] at hkeep
    exact hkeep

/-! ### Where the core reads the stream -/

/-- What the fetch finds where an element is read: an element past at least one bit, an answer, or nothing yet. -/
def Fetched.Reading (s : State) : Fetched → Prop
  | .run i u => i.place ≠ .ready ∧ u.rd.bits.length < s.rd.bits.length
  | .goes t => t = s ∨ t.work.phase = .ready
  | .broken _ | .refuses _ => True

theorem fetchElement_reading {c : Ctx} (hc : phaseOf c ≠ .ready) (hrd : u.rd = s.rd) :
    (fetchElement c s u).Reading s := by
  rcases fetchElement_cases c s u with ⟨i, r, hi, hf⟩ | ⟨why, r, -, hf⟩ | ⟨r, -, hf⟩ | ⟨-, hf⟩ <;> rw [hf]
  · have hbits := decode_leavesBelow c u.rd
    rw [hi, hrd] at hbits
    exact ⟨fun hplace => hc (((decode_gives_place c u.rd).of_instr hi).symm.trans hplace), hbits⟩
  · cases why with
    | badSignature | badMagic | noCode => exact .inr rfl
    | tableIndex => trivial
  · exact .inr rfl
  · exact .inl rfl

theorem fetchSymbol_reading (s : State) : (fetchSymbol s).Reading s := by
  unfold fetchSymbol
  split
  · exact .inr rfl
  · dsimp only
    split
    · trivial
    · exact fetchElement_reading nofun s.takeFromGroup_rd

theorem fetchCore_reading (hp : s.work.phase ≠ .ready) (ho : s.work.phase = .output → s.ctl.st = .startBlock) :
    (fetchCore s).Reading s := by
  unfold fetchCore
  cases h : s.work.phase with
  | ready => exact absurd h hp
  | output =>
    unfold fetchOutput
    rw [ho h]
    exact fetchElement_reading nofun rfl
  | symbols => exact fetchSymbol_reading s
  | signature | trailer | streamCrc | blockCrc | randBit | origPtr | inuse16 | inuseInner | nGroups | nSelectors | selector
  | lenStart | lenDelta => exact fetchElement_reading nofun rfl

end

/-! ### The obligations -/

/-- Settles O11: OPEN, SIG and HDR, each step read off, two bytes taken at a time. -/
theorem launchState : Obligations.LaunchState := by
  intro s nc d src hp hst hlow hhigh hhost hsrc
  have hacts : s.hostActs (.command (BitVec.ofNat 8 (4 * nc.toNat + 1))) [] := .inr ⟨hhost, hp⟩
  have h1 := step_command hacts
  rw [decodeCommand_open, exec_openCmd_of_idle (s := { s with host := [] }) hp hst] at h1
  obtain ⟨r1, r2, hr1, hr2, hl2, hc2, hs2⟩ := readTwoBytes_aligned (r := ⟨0, 0, 0, s.rd.src⟩) rfl hsrc
  obtain ⟨r3, r4, hr3, hr4, hl4, hc4, hs4⟩ := readTwoBytes_aligned hl2 hs2
  have hsig (legacyAnd : Bool) : decode (.signature legacyAnd) ⟨0, 0, 0, s.rd.src⟩ = .instr .sig r2 := by
    have hgood : badSignature legacyAnd 0x42 0x5A = false := by cases legacyAnd <;> rfl
    simp only [decode, hr1, hr2, Rd.decoded, hgood, Bool.false_eq_true, if_false]
  have htrailer : decode .trailer r2 = .instr (decodeTrailer 0x68 d) r4 := by
    simp only [decode, hr3, hr4, Rd.decoded]
  have h2 : step (State.opened nc { s with host := [] }) = exec .sig _ :=
    step_of_fetchCore_run ⟨nofun, rfl⟩
      ((fetchCore_of_ctxAt rfl fun hout : Phase.signature = .output => nomatch hout).trans
        (fetchElement_of_instr (hsig s.legacyAnd)))
  have h3 : step (((State.opened nc { s with host := [] }).withReader r2).goto .trailer) = exec (decodeTrailer 0x68 d) _ :=
    step_of_trailer ⟨nofun, rfl⟩ rfl htrailer
  rw [decodeTrailer_hdr ⟨hlow, hhigh⟩, exec_hdr_eq _ ⟨hlow, hhigh⟩] at h3
  have hrun := (run_succ h1).trans ((run_succ h2).trans (run_one h3))
  have hcount : r4.bytesIn = 4 := by rw [hc4, hc2]; rfl
  refine ⟨_, hrun, rfl, rfl, rfl, hl4, hcount, ?_, hs4, rfl, rfl, rfl, rfl, rfl, rfl, ?_, ?_⟩
  · change 8 * r4.bytesIn.toNat - r4.live.toNat = 32
    rw [hcount, hl4]
    rfl
  · exact beq_iff_eq
  · change (BitVec.ofNat 4 (d.toNat - 0x30)).toNat = d.toNat - 0x30
    exact Nat.mod_eq_of_lt (by omega)

/-- Settles O52: between commands only the host acts, and its acts touch no store; in the driver each iteration keeps them. -/
theorem emissionKeepsBlock : Obligations.EmissionKeepsBlock := by
  intro s t hctl hst hs hreset
  have hsame : SameStores s t := by
    obtain ⟨a, rest, ha⟩ | hf := hostActs_or_fetchCore s
    · obtain ⟨w, rfl, he⟩ | ⟨n, rfl, hp, rfl⟩ | ⟨answers, rfl, hc, rfl⟩ | ⟨rfl, -⟩ := step_hostActs_cases ha hs
      · obtain ⟨hm, hl, ht, hy, hb⟩ := exec_command_sameStores (decodeCommand_place w) he
        exact ⟨hm, hl, ht, hy, hb⟩
      · exact ⟨rfl, rfl, rfl, rfl, rfl⟩
      · exact ⟨rfl, rfl, rfl, rfl, rfl⟩
      · exact absurd ⟨rest, ha⟩ hreset
    · obtain hp | hp := hctl.phase_of_inPart hst
      · have hcore : fetchCore s = .goes s := by simp only [fetchCore, hp]
        rw [step, hf, hcore] at hs
        injection hs with hs
        exact hs ▸ SameStores.refl s
      · exact step_output_sameStores hf hp hst hs
  exact ⟨hsame.bwt, hsame.sym, hsame.tab, hsame.sel, hsame.map⟩

/-- Settles O55: an element takes at least one bit, and the instruction reads nothing further. -/
theorem readingAdvances : Obligations.ReadingAdvances := by
  intro s t ha ho hs
  have hread := fetchCore_reading ha.1 ho
  rw [← fetch_of_coreActs ha] at hread
  rcases step_next_cases hs with ⟨i, u, hrun, he⟩ | hgo
  · rw [hrun] at hread
    obtain ⟨hplace, hbits⟩ := hread
    obtain (⟨hports, -⟩ | h) | h := exec_element_advances hplace he
    · exact .inr (.inr (hports.rd ▸ hbits))
    · exact .inr (.inl h.ready)
    · exact .inr (.inl h.ready)
  · rw [hgo] at hread
    exact hread.imp id .inl

end Sys2Proof.Machine
end

section
/-! SUPPORT. Lemmas and proofs about sequences: run digits one after the other (44_symbol_decoder.md R323), the cumulative
table (45_inverse_bwt.md R360), the CRC bit by bit (47_crc.md R430) and the positions the derandomizer flips
(46_output_fsm.md R383). -/

namespace Sys2Proof.Machine

/-! ### Run digits (R323) -/

section
variable {s : State}

theorem State.goto_self {p : Phase} (h : s.work.phase = p) : s.goto p = s := by rw [State.goto, ← h]

/-- A run digit that fits the block writes the run's two registers only. -/
theorem State.runDigit_of_fits {d : Nat} (hp : s.work.phase = .symbols) (hcap : s.capacity ≤ Config.bufCapacity)
    (hfit : s.sym.nblock.toNat + (s.runSoFar + s.digitWeight * (d + 1)) ≤ s.capacity) :
    s.runDigit d = s.withRun (s.runSoFar + s.digitWeight * (d + 1)) (2 * s.digitWeight) := by
  have hcap : s.capacity ≤ 900000 := hcap
  rw [State.runDigit_eq (by omega)]
  dsimp only
  rw [if_neg (Nat.not_lt.2 hfit), State.goto_self (by exact hp)]

theorem one_le_runValue (d : Nat) (ds : List Nat) : 1 ≤ runValue (d :: ds) := by
  rw [runValue]
  omega

/-- Digits from any point of a run on: their value counts in the weight of the next digit. -/
theorem State.foldl_runDigit (d : Nat) (ds : List Nat) (hp : s.work.phase = .symbols)
    (hcap : s.capacity ≤ Config.bufCapacity)
    (hfit : s.sym.nblock.toNat + (s.runSoFar + s.digitWeight * runValue (d :: ds)) ≤ s.capacity) :
    (d :: ds).foldl (fun u x => u.runDigit x) s
      = s.withRun (s.runSoFar + s.digitWeight * runValue (d :: ds)) (2 ^ (ds.length + 1) * s.digitWeight) := by
  induction ds generalizing d s with
  | nil => exact State.runDigit_of_fits hp hcap hfit
  | cons e es ih =>
    have hcap' : s.capacity ≤ 900000 := hcap
    have hsplit : s.digitWeight * runValue (d :: e :: es)
        = s.digitWeight * (d + 1) + 2 * s.digitWeight * runValue (e :: es) := by rw [runValue]; ring
    have hnext : 2 * s.digitWeight ≤ 2 * s.digitWeight * runValue (e :: es) :=
      Nat.le_mul_of_pos_right _ (one_le_runValue e es)
    rw [hsplit] at hfit ⊢
    rw [List.foldl_cons, State.runDigit_of_fits hp hcap (by omega)]
    have hlen : (s.withRun (s.runSoFar + s.digitWeight * (d + 1)) (2 * s.digitWeight)).runSoFar
        = s.runSoFar + s.digitWeight * (d + 1) := Nat.mod_eq_of_lt (by omega)
    have hweight : (s.withRun (s.runSoFar + s.digitWeight * (d + 1)) (2 * s.digitWeight)).digitWeight
        = 2 * s.digitWeight := Nat.mod_eq_of_lt (by omega)
    have hrest := ih (s := s.withRun (s.runSoFar + s.digitWeight * (d + 1)) (2 * s.digitWeight)) e hp hcap (by
      rw [hlen, hweight, Nat.add_assoc]
      exact hfit)
    rw [hrest, hlen, hweight, List.length_cons, pow_succ _ (es.length + 1), Nat.add_assoc, Nat.mul_assoc _ 2]
    rfl

end

/-! ### The CRC (R430) -/

theorem xor_shiftLeft (x y : Word) (k : Nat) : (x ^^^ y) <<< k = x <<< k ^^^ y <<< k := BitVec.shiftLeft_xor_distrib ..

/-- What the bit shifted out feeds back (R430). -/
def crcFeedback (b : Bool) : Word := if b then Config.crcPoly else 0

theorem crcFeedback_xor (a b : Bool) : crcFeedback (a ^^ b) = crcFeedback a ^^^ crcFeedback b := by
  revert a b; decide

theorem crcShift_eq (c : Word) : crcShift c = c <<< 1 ^^^ crcFeedback (c.getLsbD 31) := by
  unfold crcShift crcFeedback
  split
  · rfl
  · exact BitVec.xor_zero.symm

theorem crcBit_eq (c : Word) (b : Bool) : crcBit c b = c <<< 1 ^^^ crcFeedback (c.getLsbD 31 ^^ b) := by
  unfold crcBit crcFeedback
  rw [Bool.bne_eq_xor]
  split
  · rfl
  · exact BitVec.xor_zero.symm

theorem crcShift_xor (x y : Word) : crcShift (x ^^^ y) = crcShift x ^^^ crcShift y := by
  rw [crcShift_eq, crcShift_eq, crcShift_eq, xor_shiftLeft, BitVec.getLsbD_xor, crcFeedback_xor]
  ac_rfl

theorem crcShifts_xor (k : Nat) (x y : Word) : crcShifts k (x ^^^ y) = crcShifts k x ^^^ crcShifts k y := by
  induction k generalizing x y with
  | zero => rfl
  | succ k ih => rw [crcShifts, crcShift_xor, ih, crcShifts, crcShifts]

/-- While the top bits are 0 the register only shifts. -/
theorem crcShifts_of_low (k : Nat) {x : Word} (h : ∀ i, 32 - k ≤ i → x.getLsbD i = false) : crcShifts k x = x <<< k := by
  induction k generalizing x with
  | zero => simp [crcShifts]
  | succ k ih =>
    have htop : crcShift x = x <<< 1 := by rw [crcShift, h 31 (by omega), if_neg (by decide)]
    rw [crcShifts, htop, ih, ← BitVec.shiftLeft_add, Nat.add_comm]
    intro i hi
    rw [BitVec.getLsbD_shiftLeft]
    by_cases h0 : i = 0
    · simp [h0]
    · rw [h (i - 1) (by omega), Bool.and_false]

/-- Feeding one bit is a shift of the register with that bit added at the top. -/
theorem crcBit_xor {k v : Nat} (hk : k < 32) (c : Word) :
    crcBit c (v.testBit k) ^^^ BitVec.ofNat 32 v <<< (32 - k) = crcShift (c ^^^ BitVec.ofNat 32 v <<< (31 - k)) := by
  have htop : (BitVec.ofNat 32 v <<< (31 - k)).getLsbD 31 = v.testBit k := by
    rw [BitVec.getLsbD_shiftLeft, BitVec.getLsbD_ofNat, show 31 - (31 - k) = k by omega]
    simp [hk]
  have hshift : (BitVec.ofNat 32 v <<< (31 - k)) <<< 1 = BitVec.ofNat 32 v <<< (32 - k) := by
    rw [← BitVec.shiftLeft_add, show 31 - k + 1 = 32 - k by omega]
  rw [crcBit_eq, crcShift_eq, BitVec.getLsbD_xor, htop, xor_shiftLeft, hshift]
  ac_rfl

/-- Feeding `k` bits, first bit first, is `k` shifts of the register with those bits added at the top. -/
theorem foldl_crcBit {k : Nat} (hk : k ≤ 32) (v : Nat) (c : Word) :
    (bitsMsb k v).foldl crcBit c = crcShifts k (c ^^^ BitVec.ofNat 32 v <<< (32 - k)) := by
  induction k generalizing c with
  | zero => simp [bitsMsb, crcShifts]
  | succ k ih =>
    rw [bitsMsb_succ, List.foldl_cons, ih (by omega), crcBit_xor (by omega), crcShifts,
      show 32 - (k + 1) = 31 - k by omega]

/-- A register is its top byte and its low 24 bits. -/
theorem word_split (c : Word) : c = (c <<< 8) >>> 8 ^^^ ((c >>> 24).setWidth 8).setWidth 32 <<< 24 := by
  ext i hi
  rw [BitVec.getElem_xor, BitVec.getElem_ushiftRight, BitVec.getLsbD_shiftLeft, BitVec.getElem_shiftLeft]
  by_cases h : i < 24
  · simp [h, show 8 + i < 32 by omega, BitVec.getLsbD_eq_getElem hi]
  · simp [h, show ¬ 8 + i < 32 by omega, show i - 24 < 8 by omega, show i - 24 < 32 by omega,
      show 24 + (i - 24) = i by omega, BitVec.getLsbD_eq_getElem hi]

/-- The low 24 bits leave the register in eight shifts without feedback. -/
theorem crcShifts_low (c : Word) : crcShifts 8 ((c <<< 8) >>> 8) = c <<< 8 := by
  rw [crcShifts_of_low]
  · ext i hi
    rw [BitVec.getElem_shiftLeft, BitVec.getElem_shiftLeft]
    by_cases h : i < 8
    · simp [h]
    · simp [h, show 8 + (i - 8) = i by omega, hi]
  · intro i hi
    simp [show ¬ 8 + i < 32 by omega]

theorem setWidth_xor_shiftLeft (a b : Byte) :
    (a ^^^ b).setWidth 32 <<< 24 = a.setWidth 32 <<< 24 ^^^ b.setWidth 32 <<< 24 := by
  rw [BitVec.setWidth_xor, xor_shiftLeft]

/-! ### The derandomizer (R383) -/

/-- The sum of the first `m` entries of RNUMS, taken cyclically. -/
def rnumSum (m : Nat) : Nat := ((List.range m).map rnum).sum

theorem rnumSum_succ (m : Nat) : rnumSum (m + 1) = rnumSum m + rnum m := by
  simp [rnumSum, List.range_succ]

theorem rnumSum_lt {i m : Nat} (h : i < m) : rnumSum i + 50 ≤ rnumSum m := by
  induction m with
  | zero => omega
  | succ m ih =>
    obtain ⟨hlow, -⟩ := rnum_range m
    rw [rnumSum_succ]
    by_cases hi : i = m
    · subst hi; omega
    · have := ih (by omega)
      omega

theorem flipPosition_add_two (m : Nat) : flipPosition m + 2 = rnumSum (m + 1) := by
  have h : rnumSum 0 + 50 ≤ rnumSum (m + 1) := rnumSum_lt (Nat.succ_pos m)
  have hflip : flipPosition m = rnumSum (m + 1) - 2 := rfl
  omega

/-- After `k` bytes: `m` entries of RNUMS have been taken, the last one not yet used up or just so. -/
structure Counting (m k : Nat) (s : State) : Prop where
  entry : s.cur.rTpos.toNat = m % 512
  left : s.cur.rNtogo.toNat + k = rnumSum m
  past : ∀ i < m, rnumSum i ≤ k

section
variable {s : State} {m k : Nat}

theorem Counting.not_flip (h : Counting m k s) (hne : s.cur.rNtogo.toNat ≠ 2) (j : Nat) : k ≠ flipPosition j := by
  intro hk
  have hj := flipPosition_add_two j
  have hleft := h.left
  rcases Nat.lt_trichotomy (j + 1) m with hlt | heq | hgt
  · have := h.past _ hlt
    omega
  · rw [heq] at hj
    omega
  · have := rnumSum_lt hgt
    omega

/-- Where two are left to go, the entry just taken ends two bytes further on. -/
theorem Counting.flip (h : Counting m k s) (htwo : s.cur.rNtogo.toNat = 2) : ∃ j, k = flipPosition j := by
  have hleft := h.left
  cases m with
  | zero =>
    have hzero : rnumSum 0 = 0 := rfl
    omega
  | succ m =>
    have := flipPosition_add_two m
    exact ⟨m, by omega⟩

/-- One byte: it is flipped exactly at a flip position, and the count goes on. -/
theorem Counting.derandomise (h : Counting m k s) (b : Byte) :
    ((∃ j, k = flipPosition j) → (s.derandomise b).1 = b ^^^ 1) ∧
      ((∀ j, k ≠ flipPosition j) → (s.derandomise b).1 = b) ∧ ∃ m', Counting m' (k + 1) (s.derandomise b).2 := by
  have ⟨hentry, hleft, hpast⟩ := h
  by_cases h0 : s.cur.rNtogo = 0
  · have hzero : s.cur.rNtogo.toNat = 0 := by rw [h0]; rfl
    rw [State.derandomise_of_expired b h0]
    refine ⟨fun ⟨j, hj⟩ => absurd hj (h.not_flip (by omega) j), fun _ => rfl, m + 1, ?_, ?_, fun i hi => ?_⟩
    · change (BitVec.ofNat 9 ((s.cur.rTpos.toNat + 1) % 512)).toNat = (m + 1) % 512
      rw [BitVec.toNat_ofNat, hentry]
      omega
    · obtain ⟨hlow, hhigh⟩ := rnum_range m
      have hcyclic : rnum s.cur.rTpos.toNat = rnum m := by rw [rnum, rnum, hentry, Nat.mod_mod]
      change (BitVec.ofNat 10 (rnum s.cur.rTpos.toNat - 1)).toNat + (k + 1) = rnumSum (m + 1)
      rw [hcyclic, BitVec.toNat_ofNat, Nat.mod_eq_of_lt (by omega), rnumSum_succ]
      omega
    · rcases Nat.lt_succ_iff_lt_or_eq.1 hi with hlt | rfl
      · have := hpast i hlt
        omega
      · omega
  · have hpos : s.cur.rNtogo.toNat ≠ 0 := fun hz => h0 (BitVec.eq_of_toNat_eq hz)
    have hiff : s.cur.rNtogo = 2 ↔ s.cur.rNtogo.toNat = 2 :=
      ⟨fun h2 => by rw [h2]; rfl, fun h2 => BitVec.eq_of_toNat_eq h2⟩
    rw [State.derandomise_of_counting b h0]
    refine ⟨fun ⟨j, hj⟩ => if_pos ?_, fun hnone => if_neg fun h2 => ?_, m, hentry, ?_, fun i hi => ?_⟩
    · by_contra hne
      exact h.not_flip (fun h2 => hne (hiff.2 h2)) j hj
    · obtain ⟨j, hj⟩ := h.flip (hiff.1 h2)
      exact hnone j hj
    · change (s.cur.rNtogo - 1).toNat + (k + 1) = rnumSum m
      bv_omega
    · have := hpast i hi
      omega

theorem derandomiseAll_length (bs : List Byte) (s : State) : (derandomiseAll bs s).length = bs.length := by
  induction bs generalizing s with
  | nil => rfl
  | cons b bs ih => simp [derandomiseAll, ih]

theorem Counting.derandomiseAll (h : Counting m k s) (bs : List Byte) {i : Nat} {b : Byte} (hb : bs[i]? = some b) :
    ((∃ j, k + i = flipPosition j) → (derandomiseAll bs s)[i]? = some (b ^^^ 1)) ∧
      ((∀ j, k + i ≠ flipPosition j) → (derandomiseAll bs s)[i]? = some b) := by
  induction bs generalizing s m k i with
  | nil => cases hb
  | cons c bs ih =>
    obtain ⟨hflip, hkeep, m', hnext⟩ := h.derandomise c
    cases i with
    | zero =>
      obtain rfl : c = b := Option.some.inj hb
      exact ⟨fun hj => congrArg some (hflip hj), fun hj => congrArg some (hkeep hj)⟩
    | succ i =>
      have hrest := ih hnext (i := i) hb
      rwa [Nat.add_assoc, Nat.add_comm 1 i] at hrest

end

/-! ### The obligations -/

/-- Settles O36: from outside a run the value counts in weight 1. -/
theorem runLength : Obligations.RunLength := by
  intro s d ds hin hp _ hcap hfit
  have hsofar : s.runSoFar = 0 := if_neg (by simp [hin])
  have hweight : s.digitWeight = 1 := if_neg (by simp [hin])
  rw [State.foldl_runDigit d ds hp hcap (by rw [hsofar, hweight]; omega), hsofar, hweight, Nat.zero_add, Nat.one_mul,
    Nat.mul_one]
  rfl

/-- Settles O39: the move rotates the prefix up to the entry. -/
theorem moveToFrontPermutes : Obligations.MoveToFrontPermutes := fun w m j n hm hj =>
  ⟨moveToFront_perm hm hj, fun k hk => by rw [moveToFront_look hm, if_neg (by omega), if_neg (by omega)]⟩

/-- Settles O40: below 2^20 no sum wraps. -/
theorem cumulativeTable : Obligations.CumulativeTable := by
  intro freq cftab hwf hsum
  refine ⟨fun c hc => ?_, fun c hc => by rw [look_cumulate freq hwf, if_neg (by omega)]⟩
  have hle : bytesBelow freq c ≤ bytesBelow freq 256 := bytesBelow_mono freq hc
  rw [look_cumulate freq hwf, if_pos hc, BitVec.toNat_ofNat]
  exact Nat.mod_eq_of_lt (hle.trans_lt hsum)

/-- Settles O43: the countdown reaches 2 exactly two bytes before an entry is used up. -/
theorem flippedPositions : Obligations.FlippedPositions := by
  intro s bs hgo hpos
  have hstart : Counting 0 0 s := ⟨by rw [hpos]; rfl, by rw [hgo]; rfl, nofun⟩
  refine ⟨derandomiseAll_length bs s, fun k b hb => ?_⟩
  have hall := hstart.derandomiseAll bs hb
  rwa [Nat.zero_add] at hall

/-- Settles O46: the register is linear, its top byte meets the byte fed, and the rest only shifts. -/
theorem crcBitByBit : Obligations.CrcBitByBit := by
  intro c b
  have hbyte : BitVec.ofNat 32 b.toNat = b.setWidth 32 := BitVec.ofNat_toNat ..
  symm
  calc (bitsMsb 8 b.toNat).foldl crcBit c
      = crcShifts 8 (c ^^^ b.setWidth 32 <<< 24) := by rw [foldl_crcBit (by decide), hbyte]
    _ = crcShifts 8 ((c <<< 8) >>> 8 ^^^ ((c >>> 24).setWidth 8 ^^^ b).setWidth 32 <<< 24) := by
      rw [setWidth_xor_shiftLeft, ← BitVec.xor_assoc, ← word_split]
    _ = crcStep c b := by rw [crcShifts_xor, crcShifts_low]; rfl

end Sys2Proof.Machine
end

section
/-! SUPPORT. Lemmas and proofs about the emission of a block (46_output_fsm.md): the driver answers within three iterations,
and from the block setup on it answers exactly the bytes the chain stands for, read as literals and count bytes
(30_encoding.md R126). -/

namespace Sys2Proof.Machine

section
variable {s t u : State}

/-! ### The byte fetched, and what it depends on (R382, R383) -/

/-- The place in the chain and in RNUMS moves to these values. -/
def State.chainAt (pos : BitVec 20) (togo : BitVec 10) (entry : BitVec 9) (s : State) : State :=
  { s with cur := { s.cur with tPos := pos, rNtogo := togo, rTpos := entry } }

/-- `t` reads the same chain from the same place as `s`. -/
structure SameChain (s t : State) : Prop where
  sym : t.sym = s.sym
  bwt : t.bwt = s.bwt
  randomised : t.blk.randomised = s.blk.randomised
  tPos : t.cur.tPos = s.cur.tPos
  rNtogo : t.cur.rNtogo = s.cur.rNtogo
  rTpos : t.cur.rTpos = s.cur.rTpos

theorem SameChain.refl (s : State) : SameChain s s := ⟨rfl, rfl, rfl, rfl, rfl, rfl⟩

theorem SameChain.trans (h : SameChain s u) (h' : SameChain u t) : SameChain s t :=
  ⟨h'.sym.trans h.sym, h'.bwt.trans h.bwt, h'.randomised.trans h.randomised, h'.tPos.trans h.tPos,
    h'.rNtogo.trans h.rNtogo, h'.rTpos.trans h.rTpos⟩

theorem SameChain.blockOk (h : SameChain s t) (hb : s.BlockOk) : t.BlockOk := by
  rwa [State.BlockOk, h.sym, h.bwt, h.tPos]

/-- The byte the next fetch returns and where it leaves the chain and RNUMS. -/
def State.fetched (s : State) : Byte × BitVec 20 × BitVec 10 × BitVec 9 :=
  let b := s.bwt.ll8.look s.cur.tPos.toNat
  let pos := s.bwt.tt.look s.cur.tPos.toNat
  if s.blk.randomised then
    ((s.derandomise b).1, pos, (s.derandomise b).2.cur.rNtogo, (s.derandomise b).2.cur.rTpos)
  else (b, pos, s.cur.rNtogo, s.cur.rTpos)

theorem SameChain.fetched (h : SameChain s t) : t.fetched = s.fetched := by
  simp only [State.fetched, State.derandomise, h.randomised, h.bwt, h.tPos, h.rNtogo, h.rTpos]

theorem State.BlockOk.fetchByte_fetched (h : s.BlockOk) :
    s.fetchByte = .ok (s.fetched.1, s.chainAt s.fetched.2.1 s.fetched.2.2.1 s.fetched.2.2.2) := by
  obtain ⟨-, hcap, -, hcur⟩ := h
  rw [State.fetchByte_ok (lt_min hcur (hcur.trans_le hcap)), State.fetched]
  cases s.blk.randomised <;> rfl

theorem State.BlockOk.chainAt_fetched (h : s.BlockOk) (togo : BitVec 10) (entry : BitVec 9) :
    (s.chainAt s.fetched.2.1 togo entry).BlockOk := by
  obtain ⟨hpos, hcap, hnext, hcur⟩ := h
  have hplace : s.fetched.2.1 = s.bwt.tt.look s.cur.tPos.toNat := by
    unfold State.fetched
    cases s.blk.randomised <;> rfl
  exact ⟨hpos, hcap, hnext, hplace ▸ hnext _ hcur⟩

/-- In a block that is in order the fetch gives a byte and moves the place; both are the chain's. -/
theorem SameChain.fetchByte (h : SameChain s t) (hb : s.BlockOk) :
    ∃ b pos togo entry, s.fetchByte = .ok (b, s.chainAt pos togo entry) ∧
      t.fetchByte = .ok (b, t.chainAt pos togo entry) ∧ (s.chainAt pos togo entry).BlockOk :=
  ⟨_, _, _, _, hb.fetchByte_fetched, h.fetched ▸ (h.blockOk hb).fetchByte_fetched, hb.chainAt_fetched _ _⟩

theorem State.BlockOk.fetchByte_eq (h : s.BlockOk) :
    ∃ b pos togo entry, s.fetchByte = .ok (b, s.chainAt pos togo entry) ∧ (s.chainAt pos togo entry).BlockOk := by
  obtain ⟨b, pos, togo, entry, hs, -, hok⟩ := (SameChain.refl s).fetchByte h
  exact ⟨b, pos, togo, entry, hs, hok⟩

theorem chainBytes_succ {b : Byte} (h : s.fetchByte = .ok (b, u)) (n : Nat) :
    State.chainBytes (n + 1) s = b :: State.chainBytes n u := by
  rw [State.chainBytes, h]

/-- The bytes of the chain are fixed by where it is read from. -/
theorem SameChain.chainBytes (h : SameChain s t) (hb : s.BlockOk) (n : Nat) :
    State.chainBytes n t = State.chainBytes n s := by
  induction n generalizing s t with
  | zero => rfl
  | succ n ih =>
    obtain ⟨b, pos, togo, entry, hs, ht, hok⟩ := h.fetchByte hb
    have hnext : SameChain (s.chainAt pos togo entry) (t.chainAt pos togo entry) :=
      ⟨h.sym, h.bwt, h.randomised, rfl, rfl, rfl⟩
    rw [chainBytes_succ hs, chainBytes_succ ht, ih hnext hok]

/-! ### One iteration of the driver, by the PART of ST -/

@[simp] theorem State.partA_isPartA (s : State) : s.partA.isPartA = true := by unfold State.partA; split <;> rfl
@[simp] theorem State.partB_isPartB (s : State) : s.partB.isPartB = true := by unfold State.partB; split <;> rfl
@[simp] theorem State.partC_isPartC (s : State) : s.partC.isPartC = true := by unfold State.partC; split <;> rfl

theorem State.positionLeft_iff : s.positionLeft = true ↔ s.cur.consumed.toNat < s.sym.nblock.toNat := decide_eq_true_iff

/-- A block is being emitted, and the next step is the driver's. -/
structure Emitting (s : State) : Prop where
  block : s.BlockOk
  waits : s.hostWaits = true
  phase : s.work.phase = .output

theorem Emitting.coreActs (h : Emitting s) : s.coreActs := ⟨by rw [h.phase]; decide, h.waits⟩

/-- Where the driver comes to rest: the command is answered, or the next block start is due. -/
def Settled (s : State) : Prop := s.work.phase = .ready ∨ (s.ctl.st = .startBlock ∧ s.work.phase = .output)

/-- PART_A answers a literal or ends the block. -/
theorem Emitting.partA (h : Emitting s) (hst : s.ctl.st.isPartA = true) : ∃ t, step s = .next t ∧ Settled t := by
  by_cases hleft : s.positionLeft = true
  · obtain ⟨b, t, hb, -⟩ := h.block.fetchByte
    exact ⟨_, step_of_literal h.coreActs h.phase hst hleft hb, .inl rfl⟩
  · have hdone : s.sym.nblock.toNat ≤ s.cur.consumed.toNat := Nat.le_of_not_lt fun hlt => hleft (State.positionLeft_iff.2 hlt)
    refine ⟨_, step_of_blockDone h.coreActs h.phase hst hdone, ?_⟩
    by_cases hcrc : ~~~ s.crc.blockCrc = s.blk.storedBlockCrc
    · rw [State.blockEnd_of_match hcrc]
      exact .inr ⟨rfl, h.phase⟩
    · rw [State.blockEnd_of_mismatch hcrc]
      exact .inl rfl

/-- PART_C answers a copy or goes to PART_A. -/
theorem Emitting.partC (h : Emitting s) (hst : s.ctl.st.isPartC = true) :
    ∃ t, step s = .next t ∧ (Settled t ∨ (Emitting t ∧ t.ctl.st.isPartA = true)) := by
  refine ⟨_, step_of_partC h.coreActs h.phase hst, ?_⟩
  rcases Nat.lt_or_ge s.cur.repDone.toNat s.cur.repCount.toNat with hleft | hdone
  · rw [State.emitCopy_of_copyLeft hleft]
    exact .inl (.inl rfl)
  · rw [State.emitCopy_of_done hdone]
    exact .inr ⟨⟨h.block, h.waits, h.phase⟩, s.partA_isPartA⟩

/-- PART_B goes to PART_A, or at a fourth equal byte to PART_C, or the count byte is missing. -/
theorem Emitting.partB (h : Emitting s) (hst : s.ctl.st.isPartB = true) :
    ∃ t, step s = .next t ∧ (Settled t ∨ (Emitting t ∧ (t.ctl.st.isPartA = true ∨ t.ctl.st.isPartC = true))) := by
  by_cases hdue : s.cur.chCur = s.cur.chPrev ∧ 3 ≤ s.cur.runCount.toNat
  · by_cases hleft : s.positionLeft = true
    · obtain ⟨b, pos, togo, entry, hb, hok⟩ := h.block.fetchByte_eq
      exact ⟨_, step_of_count h.coreActs h.phase hst (State.fourthEqual_iff.2 hdue) hleft hb,
        .inr ⟨⟨hok, h.waits, rfl⟩, .inr (State.partC_isPartC _)⟩⟩
    · have hdone : s.sym.nblock.toNat ≤ s.cur.consumed.toNat := Nat.le_of_not_lt fun hlt => hleft (State.positionLeft_iff.2 hlt)
      exact ⟨_, step_of_countMissing h.coreActs h.phase hst hdue hdone, .inl (.inl rfl)⟩
  · refine ⟨_, step_of_noCountDue h.coreActs h.phase hst hdue, .inr ?_⟩
    by_cases heq : s.cur.chCur = s.cur.chPrev
    · rw [State.compareBytes_of_eq heq]
      exact ⟨⟨h.block, h.waits, h.phase⟩, .inl s.partA_isPartA⟩
    · rw [State.compareBytes_of_ne heq]
      exact ⟨⟨h.block, h.waits, h.phase⟩, .inl s.partA_isPartA⟩

theorem St.part_of_inPart {st : St} (h : st.inPart = true) :
    st.isPartA = true ∨ st.isPartB = true ∨ st.isPartC = true := by
  cases st <;> revert h <;> decide

/-! ### Runs that emit bytes -/

/-- `m` further NEXT commands, each presented once the one before is answered. -/
def nexts (m : Nat) : List HostEvent := List.replicate m (.whenReady (.command 2))

theorem hostWaits_of_nexts {m : Nat} (h : s.host = nexts m) : s.hostWaits = true := by
  unfold State.hostWaits
  rw [h]
  cases m <;> rfl

theorem run_trans {k l : Nat} (h : Host.Core.run core k s = .next u) (h' : Host.Core.run core l u = .next t) :
    Host.Core.run core (k + l) s = .next t := by
  induction k generalizing s with
  | zero =>
    obtain rfl : s = u := Host.Outcome.next.inj h
    rwa [Nat.zero_add]
  | succ k ih =>
    cases hs : step s with
    | next v =>
      rw [run_succ hs] at h
      rw [Nat.add_right_comm, run_succ hs]
      exact ih h
    | fault f =>
      have hcore : core.step s = .fault f := hs
      simp only [Host.Core.run, hcore] at h
      cases h
    | refused why =>
      have hcore : core.step s = .refused why := hs
      simp only [Host.Core.run, hcore] at h
      cases h

/-- A run from `s` to `t` answers exactly these bytes, in order; it reads nothing and keeps the block. -/
structure Emits (bytes : List Byte) (s t : State) : Prop where
  steps : ∃ k, Host.Core.run core k s = .next t
  out : responsesOf t.out = (bytes.map fun b => (0#8 ++ b : BitVec 16)).reverse ++ responsesOf s.out
  crc : t.crc.blockCrc = bytes.foldl crcStep s.crc.blockCrc
  rd : t.rd = s.rd
  sym : t.sym = s.sym

theorem Emits.refl (s : State) : Emits [] s s := ⟨⟨0, rfl⟩, rfl, rfl, rfl, rfl⟩

theorem Emits.trans {a b : List Byte} (h : Emits a s u) (h' : Emits b u t) : Emits (a ++ b) s t := by
  obtain ⟨⟨k, hk⟩, hout, hcrc, hrd, hsym⟩ := h
  obtain ⟨⟨l, hl⟩, hout', hcrc', hrd', hsym'⟩ := h'
  refine ⟨⟨k + l, run_trans hk hl⟩, ?_, ?_, hrd'.trans hrd, hsym'.trans hsym⟩
  · rw [hout', hout, List.map_append, List.reverse_append, List.append_assoc]
  · rw [hcrc', hcrc, List.foldl_append]

/-- The next NEXT is taken, and the driver goes on. -/
theorem step_next_taken {m : Nat} (hp : s.work.phase = .ready) (hst : s.ctl.st.running = true)
    (hh : s.host = nexts (m + 1)) : step s = .next (({ s with host := nexts m } : State).goto .output) := by
  have ha : s.hostActs (.command 2) (nexts m) := .inr ⟨hh, hp⟩
  rw [step_command ha, show decodeCommand 2 = .nextCmd from rfl]
  exact exec_nextCmd_of_running (s := { s with host := nexts m }) hp hst

/-- A byte is answered, and the next NEXT goes on. -/
theorem emits_answer {m : Nat} {b : Byte} (hs : step s = .next u) (hp : u.work.phase = .ready)
    (hst : u.ctl.st.inPart = true) (hh : u.host = nexts (m + 1)) (hout : u.out = .response (0#8 ++ b) :: s.out)
    (hcrc : u.crc.blockCrc = crcStep s.crc.blockCrc b) (hrd : u.rd = s.rd) (hsym : u.sym = s.sym) :
    Emits [b] s (({ u with host := nexts m } : State).goto .output) :=
  ⟨⟨2, (run_succ hs).trans (run_one (step_next_taken hp (St.running_of_inPart hst) hh))⟩, congrArg responsesOf hout, hcrc,
    hrd, hsym⟩

/-- The literal register's value: no byte yet (R381), or a byte. -/
def literalOf : Option Byte → BitVec 9
  | none => 256
  | some b => b.setWidth 9

theorem literalOf_eq_iff (b : Byte) (prev : Option Byte) : literalOf (some b) = literalOf prev ↔ prev = some b := by
  cases prev with
  | none => simp [literalOf]; bv_omega
  | some c =>
    refine ⟨fun h => ?_, fun h => h ▸ rfl⟩
    have heq : b = c := by simpa [literalOf] using congrArg (BitVec.setWidth 8) h
    rw [heq]

theorem setWidth_literalOf (b : Byte) : (literalOf (some b)).setWidth 8 = b :=
  BitVec.setWidth_setWidth_of_le b (by decide)

/-- In the driver, with `n` positions of the block left, `m` further NEXTs to come, and a run of `run` equal literals. -/
structure AtPart (run n m : Nat) (s : State) : Prop where
  block : s.BlockOk
  phase : s.work.phase = .output
  host : s.host = nexts m
  run : s.cur.runCount.toNat = run
  left : s.cur.consumed.toNat + n = s.sym.nblock.toNat

theorem AtPart.coreActs {run n m : Nat} (h : AtPart run n m s) : s.coreActs :=
  ⟨by rw [h.phase]; decide, hostWaits_of_nexts h.host⟩

/-- PART_A, with the literal before. -/
structure AtLiteral (run : Nat) (prev : Option Byte) (n m : Nat) (s : State) : Prop where
  place : AtPart run n m s
  part : s.ctl.st.isPartA = true
  cur : s.cur.chCur = literalOf prev

/-- PART_B, with the literal just answered and the one before. -/
structure AtCompare (run : Nat) (prev : Option Byte) (b : Byte) (n m : Nat) (s : State) : Prop where
  place : AtPart run n m s
  part : s.ctl.st.isPartB = true
  cur : s.cur.chCur = literalOf (some b)
  prev : s.cur.chPrev = literalOf prev

/-- PART_C, with `d` copies to go; the count byte's position is still to be consumed. -/
structure AtCopies (b : Byte) (d n m : Nat) (s : State) : Prop where
  block : s.BlockOk
  phase : s.work.phase = .output
  host : s.host = nexts m
  left : s.cur.consumed.toNat + (n + 1) = s.sym.nblock.toNat
  part : s.ctl.st.isPartC = true
  cur : s.cur.chCur = literalOf (some b)
  copies : s.cur.repDone.toNat + d = s.cur.repCount.toNat

/-! ### The stages of the emission -/

/-- A literal is answered, and the next NEXT goes on to the comparison. -/
theorem AtLiteral.emits {run n m : Nat} {prev : Option Byte} {b : Byte} {pos : BitVec 20} {togo : BitVec 10}
    {entry : BitVec 9} (h : AtLiteral run prev (n + 1) (m + 1) s) (hb : s.fetchByte = .ok (b, s.chainAt pos togo entry))
    (hok : (s.chainAt pos togo entry).BlockOk) :
    ∃ t, Emits [b] s t ∧ SameChain (s.chainAt pos togo entry) t ∧ AtCompare run prev b n m t := by
  obtain ⟨hat, hpart, hcur⟩ := h
  have hleft := hat.left
  have hlt := s.sym.nblock.isLt
  have h1 := (step_of_literal hat.coreActs hat.phase hpart (State.positionLeft_iff.2 (by omega)) hb).trans
    (decodedBlockElements _ b).1
  refine ⟨_, emits_answer h1 rfl s.partB_inPart hat.host rfl rfl rfl rfl, ⟨rfl, rfl, rfl, rfl, rfl, rfl⟩,
    ⟨hok, rfl, rfl, hat.run, ?_⟩, s.partB_isPartB, rfl, hcur⟩
  change (s.cur.consumed + 1).toNat + n = s.sym.nblock.toNat
  bv_omega

/-- No count byte is due: the run of equal literals goes on, or a new one begins. -/
theorem AtCompare.literal {run n m : Nat} {prev : Option Byte} {b : Byte} (h : AtCompare run prev b n m s)
    (hrun : run ≤ 3) (hnone : ¬ (prev = some b ∧ 3 ≤ run)) :
    ∃ t, Emits [] s t ∧ SameChain s t ∧ AtLiteral (if prev = some b then run + 1 else 1) (some b) n m t := by
  obtain ⟨hat, hpart, hcur, hprev⟩ := h
  have heq : s.cur.chCur = s.cur.chPrev ↔ prev = some b := by rw [hcur, hprev, literalOf_eq_iff]
  have hstep := step_of_noCountDue hat.coreActs hat.phase hpart (by rwa [heq, hat.run])
  have hcount := hat.run
  by_cases hsame : prev = some b
  · rw [State.compareBytes_of_eq (heq.2 hsame)] at hstep
    rw [if_pos hsame]
    refine ⟨_, ⟨⟨1, run_one hstep⟩, rfl, rfl, rfl, rfl⟩, ⟨rfl, rfl, rfl, rfl, rfl, rfl⟩,
      ⟨hat.block, hat.phase, hat.host, ?_, hat.left⟩, s.partA_isPartA, hcur⟩
    change (s.cur.runCount + 1).toNat = run + 1
    bv_omega
  · rw [State.compareBytes_of_ne fun hc => hsame (heq.1 hc)] at hstep
    rw [if_neg hsame]
    exact ⟨_, ⟨⟨1, run_one hstep⟩, rfl, rfl, rfl, rfl⟩, ⟨rfl, rfl, rfl, rfl, rfl, rfl⟩,
      ⟨hat.block, hat.phase, hat.host, rfl, hat.left⟩, s.partA_isPartA, hcur⟩

/-- After a fourth equal literal the next position is the number of further copies. -/
theorem AtCompare.count {n m : Nat} {b c : Byte} {pos : BitVec 20} {togo : BitVec 10} {entry : BitVec 9}
    (h : AtCompare 3 (some b) b (n + 1) m s) (hc : s.fetchByte = .ok (c, s.chainAt pos togo entry))
    (hok : (s.chainAt pos togo entry).BlockOk) :
    ∃ t, Emits [] s t ∧ SameChain (s.chainAt pos togo entry) t ∧ AtCopies b c.toNat n m t := by
  obtain ⟨hat, hpart, hcur, hprev⟩ := h
  have hleft := hat.left
  have hdue : s.fourthEqual = true := State.fourthEqual_iff.2 ⟨hcur.trans hprev.symm, hat.run.ge⟩
  have hstep := (step_of_count hat.coreActs hat.phase hpart hdue (State.positionLeft_iff.2 (by omega)) hc).trans
    (decodedBlockElements _ c).2
  exact ⟨_, ⟨⟨1, run_one hstep⟩, rfl, rfl, rfl, rfl⟩, ⟨rfl, rfl, rfl, rfl, rfl, rfl⟩,
    hok, rfl, hat.host, hat.left, s.partC_isPartC, hcur, Nat.zero_add _⟩

/-- One copy is answered. -/
theorem AtCopies.emits_one {n m d : Nat} {b : Byte} (h : AtCopies b (d + 1) n (m + 1) s) :
    ∃ t, Emits [b] s t ∧ SameChain s t ∧ AtCopies b d n m t := by
  obtain ⟨hblock, hphase, hhost, hleft, hpart, hcur, hcopies⟩ := h
  have hbyte : s.cur.chCur.setWidth 8 = b := by rw [hcur, setWidth_literalOf]
  have hinPart : s.ctl.st.inPart = true := by
    rcases St.isPartC_iff.1 hpart with hst | hst <;> rw [hst] <;> rfl
  have hstep := step_of_partC ⟨by rw [hphase]; decide, hostWaits_of_nexts hhost⟩ hphase hpart
  rw [State.emitCopy_of_copyLeft (by omega), hbyte] at hstep
  refine ⟨_, emits_answer hstep rfl hinPart hhost rfl rfl rfl rfl, ⟨rfl, rfl, rfl, rfl, rfl, rfl⟩,
    hblock, rfl, rfl, hleft, hpart, hcur, ?_⟩
  have hlt := s.cur.repCount.isLt
  change (s.cur.repDone + 1).toNat + d = s.cur.repCount.toNat
  bv_omega

/-- The last copy answered, the count's position is consumed. -/
theorem AtCopies.done {n m : Nat} {b : Byte} (h : AtCopies b 0 n m s) :
    ∃ t, Emits [] s t ∧ SameChain s t ∧ AtLiteral 0 (some b) n m t := by
  obtain ⟨hblock, hphase, hhost, hleft, hpart, hcur, hcopies⟩ := h
  have hstep := step_of_partC ⟨by rw [hphase]; decide, hostWaits_of_nexts hhost⟩ hphase hpart
  rw [State.emitCopy_of_done (by omega)] at hstep
  refine ⟨_, ⟨⟨1, run_one hstep⟩, rfl, rfl, rfl, rfl⟩, ⟨rfl, rfl, rfl, rfl, rfl, rfl⟩,
    ⟨hblock, hphase, hhost, rfl, ?_⟩, s.partA_isPartA, hcur⟩
  have hlt := s.sym.nblock.isLt
  change (s.cur.consumed + 1).toNat + n = s.sym.nblock.toNat
  bv_omega

theorem AtCopies.emits {n m d : Nat} {b : Byte} (h : AtCopies b d n (d + m) s) :
    ∃ t, Emits (List.replicate d b) s t ∧ SameChain s t ∧ AtLiteral 0 (some b) n m t := by
  induction d generalizing s with
  | zero => exact AtCopies.done ((Nat.zero_add m) ▸ h)
  | succ d ih =>
    obtain ⟨u, hone, hchain, hcopies⟩ := AtCopies.emits_one (m := d + m) ((Nat.add_right_comm d 1 m) ▸ h)
    obtain ⟨t, hrest, hchain', hlit⟩ := ih hcopies
    exact ⟨t, hone.trans hrest, hchain.trans hchain', hlit⟩

/-! ### The whole block -/

theorem expandRuns_nil {run : Nat} {prev : Option Byte} {bytes : List Byte} (h : expandRuns run prev [] = some bytes) :
    ¬ 4 ≤ run ∧ bytes = [] := by
  rw [expandRuns] at h
  split at h
  · cases h
  · exact ⟨‹_›, (Option.some.inj h).symm⟩

theorem expandRuns_literal {run : Nat} {prev : Option Byte} {b : Byte} {bs bytes : List Byte} (hrun : run ≤ 3)
    (h : expandRuns run prev (b :: bs) = some bytes) :
    ∃ rest, expandRuns (if prev = some b then run + 1 else 1) (some b) bs = some rest ∧ bytes = b :: rest := by
  rw [expandRuns, if_neg (by omega)] at h
  obtain ⟨rest, hrest, heq⟩ := Option.map_eq_some_iff.1 h
  exact ⟨rest, hrest, heq.symm⟩

theorem expandRuns_count {prev : Byte} {c : Byte} {bs bytes : List Byte}
    (h : expandRuns 4 (some prev) (c :: bs) = some bytes) :
    ∃ rest, expandRuns 0 (some prev) bs = some rest ∧ bytes = List.replicate c.toNat prev ++ rest := by
  rw [expandRuns, if_pos (le_refl 4)] at h
  obtain ⟨rest, hrest, heq⟩ := Option.map_eq_some_iff.1 h
  exact ⟨rest, hrest, heq.symm⟩

/-- From PART_A on the chain's bytes are answered as the format reads them (R391). -/
theorem emits_expandRuns (n : Nat) {run : Nat} {prev : Option Byte} {bytes : List Byte} (hrun : run ≤ 3)
    (h : AtLiteral run prev n bytes.length s)
    (hexp : expandRuns run prev (State.chainBytes n s) = some bytes) :
    ∃ t run' prev', Emits bytes s t ∧ AtLiteral run' prev' 0 0 t := by
  induction n using Nat.strong_induction_on generalizing s run prev bytes with
  | _ n ih =>
  cases n with
  | zero =>
    obtain ⟨-, rfl⟩ := expandRuns_nil hexp
    exact ⟨s, run, prev, Emits.refl s, h⟩
  | succ n =>
    obtain ⟨b, pos, togo, entry, hb, hok⟩ := h.place.block.fetchByte_eq
    rw [chainBytes_succ hb] at hexp
    obtain ⟨rest, hrest, rfl⟩ := expandRuns_literal hrun hexp
    obtain ⟨u, hemit, hchain, hcompare⟩ := h.emits hb hok
    rw [← hchain.chainBytes hok] at hrest
    by_cases hdue : prev = some b ∧ 3 ≤ run
    · obtain ⟨rfl, h3⟩ := hdue
      obtain rfl : run = 3 := le_antisymm hrun h3
      rw [if_pos rfl] at hrest
      cases n with
      | zero => exact absurd (le_refl 4) (expandRuns_nil hrest).1
      | succ n =>
        obtain ⟨c, pos', togo', entry', hc, hok'⟩ := hcompare.place.block.fetchByte_eq
        rw [chainBytes_succ hc] at hrest
        obtain ⟨tail, htail, rfl⟩ := expandRuns_count hrest
        rw [List.length_append, List.length_replicate] at hcompare
        obtain ⟨v, hcount, hchainv, hcopies⟩ := hcompare.count hc hok'
        obtain ⟨w, hcopied, hchainw, hlit⟩ := hcopies.emits
        rw [← (hchainv.trans hchainw).chainBytes hok'] at htail
        obtain ⟨t, run', prev', hlast, hend⟩ := ih n (by omega) (by omega) hlit htail
        exact ⟨t, run', prev', hemit.trans (hcount.trans (hcopied.trans hlast)), hend⟩
    · obtain ⟨v, hlook, hchainv, hlit⟩ := hcompare.literal hrun hdue
      rw [← hchainv.chainBytes hcompare.place.block] at hrest
      have hrun' : (if prev = some b then run + 1 else 1) ≤ 3 := by
        split
        · rename_i hsame
          have hlt : ¬ 3 ≤ run := fun h3 => hdue ⟨hsame, h3⟩
          omega
        · omega
      obtain ⟨t, run', prev', hlast, hend⟩ := ih n (by omega) hrun' hlit hrest
      exact ⟨t, run', prev', hemit.trans (hlook.trans hlast), hend⟩

end

/-! ### The obligations -/

/-- Settles O47: the block setup stands before the first literal, with the whole chain left. -/
theorem blockOutput : Obligations.BlockOutput := by
  intro s bytes hinv hphase hpart hconsumed hcur _ hrun hexp hhost
  have hinPart : s.ctl.st.inPart = true := by
    rcases St.isPartA_iff.1 hpart with hst | hst <;> rw [hst] <;> rfl
  have hstart : AtLiteral 0 none s.sym.nblock.toNat bytes.length s :=
    ⟨⟨hinv.data.block hinPart, hphase, hhost, by rw [hrun]; rfl, by rw [hconsumed]; exact Nat.zero_add _⟩, hpart, hcur⟩
  obtain ⟨t, run, prev, ⟨⟨k, hk⟩, hout, hcrc, hrd, hsym⟩, hat, hpart', -⟩ := emits_expandRuns _ (Nat.zero_le 3) hstart hexp
  refine ⟨k, t, hk, hout, hat.phase, hpart', ?_, hat.host, hcrc, hrd⟩
  rw [← hsym]
  exact BitVec.eq_of_toNat_eq hat.left

/-- Settles O56: PART_B takes at most one further step to PART_C, and that one to PART_A, which settles. -/
theorem driverTerminates : Obligations.DriverTerminates := by
  intro s hinv hwaits hphase hinPart
  have h : Emitting s := ⟨hinv.data.block hinPart, hwaits, hphase⟩
  have fromA {u : State} (h : Emitting u) (hst : u.ctl.st.isPartA = true) :
      ∃ t, Host.Core.run core 1 u = .next t ∧ Settled t := by
    obtain ⟨t, hstep, ht⟩ := h.partA hst
    exact ⟨t, run_one hstep, ht⟩
  have fromC {u : State} (h : Emitting u) (hst : u.ctl.st.isPartC = true) :
      ∃ k t, k ≤ 2 ∧ Host.Core.run core k u = .next t ∧ Settled t := by
    obtain ⟨v, hstep, hv | ⟨hv, hpart⟩⟩ := h.partC hst
    · exact ⟨1, v, by decide, run_one hstep, hv⟩
    · obtain ⟨t, hrun, ht⟩ := fromA hv hpart
      exact ⟨2, t, le_refl 2, (run_succ hstep).trans hrun, ht⟩
  obtain hst | hst | hst := St.part_of_inPart hinPart
  · obtain ⟨t, hrun, ht⟩ := fromA h hst
    exact ⟨1, t, by decide, hrun, ht⟩
  · obtain ⟨v, hstep, hv | ⟨hv, hpart | hpart⟩⟩ := h.partB hst
    · exact ⟨1, v, by decide, run_one hstep, hv⟩
    · obtain ⟨t, hrun, ht⟩ := fromA hv hpart
      exact ⟨2, t, by decide, (run_succ hstep).trans hrun, ht⟩
    · obtain ⟨k, t, hk, hrun, ht⟩ := fromC hv hpart
      exact ⟨k + 1, t, by omega, (run_succ hstep).trans hrun, ht⟩
  · obtain ⟨k, t, hk, hrun, ht⟩ := fromC h hst
    exact ⟨k, t, by omega, hrun, ht⟩

end Sys2Proof.Machine
end
